-- ==== Sys2Proof/Word.lean ====
section
/-! DEFINITION. The word types of DCACORE and the fixed names that its instructions and its state share
(spec 00_scope.md R8; 10_state.md R15; 30_encoding.md R65, R82, R85, R86). -/

namespace Sys2Proof

/-- R8: a byte is 8 bits. -/
abbrev Byte := BitVec 8

/-- A 32-bit register (10_state.md R12). -/
abbrev Word32 := BitVec 32

/-- A number of the sample rules (45_reconstruct.md R188): under `P_SAMPLE_KIND = FLOAT` an IEEE 754
binary64 bit pattern, under FIXED a word of the uninterpreted fixed-point structure (R189). -/
abbrev Num := BitVec 64

/-- R15: payload bits per 16-bit stream word. -/
inductive WordMode where
  | w14 | w16
deriving DecidableEq, Repr, Inhabited

/-- R15: byte order inside each 16-bit stream word. -/
inductive Endian where
  | le | be
deriving DecidableEq, Repr, Inhabited

/-- R66: what a matched sync pattern selects. -/
structure Packing where
  wordMode : WordMode
  endian : Endian
deriving DecidableEq, Repr, Inhabited

/-- R85: one entry of a Huffman codebook. -/
structure CodeEntry where
  len : Nat
  code : Nat
  value : Int
deriving DecidableEq, Repr, Inhabited

/-- R85: a codebook is a finite set of entries. -/
abbrev Codebook := List CodeEntry

/-- R86: the arrangement names. -/
inductive Arrangement where
  | mono | channel | stereo | stereoSumdiff | stereoTotal
  | f3 | f2r1 | f3r1 | f2r2 | f3r2 | f4r2 | dolby
deriving DecidableEq, Repr, Inhabited

end Sys2Proof
end

