-- ==== Sys2Proof/Machine/Records.lean ====
section
/-! DEFINITION. The records that the state of one decoder instance is made of (10_state.md), and the
record of its parameters (00_scope.md R7), all plain data. -/

namespace Sys2Proof.Machine

/-- R11. -/
inductive Life where
  | uninit | ready
deriving DecidableEq, Repr, Inhabited

/-- R261: the error classes; `UnsupportedFeature` is never placed in `CODE` (R264) and `InitFailed` is
reserved (R250). -/
inductive Code where
  | ok | syncNotFound | malformedHeader | unsupportedChannelArrangement | unsupportedFeature
  | corruptStream | illegalCommand | notReady | badArgument | initFailed
deriving DecidableEq, Repr, Inhabited

/-- R260: the diagnostic label of a `raise`, visible in no register. -/
inductive Label where
  | sync | nblks | fsize | sfreq | rate | lfe | bhuff | pchs | arrangement
  | vqStart | subframeIndex | bitalloc | huffman | scaleSelector | scaleIndex | jointSource | blockCode
deriving DecidableEq, Repr, Inhabited

/-- R15: the BitCursor. -/
structure BitCursor where
  base : Word32
  len : Word32
  wptr : Word32
  cur : Word32
  left : BitVec 6
  wordMode : WordMode
  endian : Endian
deriving DecidableEq, Repr, Inhabited

/-- R18: StreamHeader. -/
structure StreamHeader where
  frameType : BitVec 1
  samplesDeficit : BitVec 5
  crcPresent : BitVec 1
  sampleBlocks : BitVec 8
  frameSize : BitVec 15
  amode : BitVec 6
  sampleRate : BitVec 4
  bitRate : BitVec 5
  downmix : BitVec 1
  dynrange : BitVec 1
  timestamp : BitVec 1
  auxData : BitVec 1
  hdcd : BitVec 1
  extDescr : BitVec 3
  extCoding : BitVec 1
  aspf : BitVec 1
  lfe : BitVec 2
  predictorHistory : BitVec 1
  headerCrc : BitVec 16
  multirateInter : BitVec 1
  version : BitVec 4
  copyHistory : BitVec 2
  sourcePcmRes : BitVec 3
  frontSum : BitVec 1
  surroundSum : BitVec 1
  dialogNorm : BitVec 4
  subframes : BitVec 5
  totalChannels : BitVec 4
  primChannels : BitVec 4
deriving DecidableEq, Repr, Inhabited

/-- R19: the frame-level derived registers. -/
structure FrameRegs where
  output : Arrangement
  outputLfe : Bool
  bias : Num
  level : Num
  clev : Num
  slev : Num
  blocksTotal : Word32
  blocksDone : Word32
deriving DecidableEq, Repr, Inhabited

/-- R20: the frame-level half of ChannelSideInfo. -/
structure ChannelFrame where
  subbandActivity : BitVec 6
  vqStartSubband : BitVec 6
  jointIntensity : BitVec 3
  transientHuffman : BitVec 2
  scalefactorHuffman : BitVec 3
  bitallocHuffman : BitVec 3
  quantSel : Vector (BitVec 3) 27
  sfAdj : Vector Num 11
deriving DecidableEq, Repr, Inhabited

/-- R21: the subframe-level half of ChannelSideInfo; `scale0`, `scale1` are the two slots of
`scale_factor`, `dmx0`, `dmx1` the pair `downmix_coef`. -/
structure ChannelSub where
  predictionMode : Vector (BitVec 1) 32
  predictionVq : Vector (BitVec 12) 32
  bitalloc : Vector (BitVec 5) 32
  transitionMode : Vector (BitVec 2) 32
  scale0 : Vector Num 32
  scale1 : Vector Num 32
  jointHuff : BitVec 3
  jointScaleFactor : Vector (BitVec 8) 32
  highFreqVq : Vector (BitVec 10) 32
  dmx0 : BitVec 7
  dmx1 : BitVec 7
deriving DecidableEq, Repr, Inhabited

/-- R23: subframe-level registers that are not per channel. -/
structure SubframeRegs where
  subsubframes : BitVec 3
  partialSamples : BitVec 3
  dynrangeCoef : BitVec 8
  lfeScaleFactor : Num
deriving DecidableEq, Repr, Inhabited

/-- R44: `SEQ.frame`. DEDUCED, log entry 23: the three values of R44; 92_eei_decisions.md D40 lists a fourth, DONE, which no rule
enters. -/
inductive SeqFrame where
  | noframe | active | aborted
deriving DecidableEq, Repr, Inhabited

/-- R44: the sequencer position. -/
structure Sequencer where
  frame : SeqFrame
  currentSubframe : BitVec 5
  currentSubsubframe : BitVec 3
deriving DecidableEq, Repr, Inhabited

/-- R12: the argument registers. -/
structure ArgRegs where
  bufAddr : Word32
  bufLen : Word32
  flags : Word32
  level : Word32
  bias : Word32
  hint : Word32
  hook : Word32
  user : Word32
deriving DecidableEq, Repr, Inhabited

/-- R12: the result registers. -/
structure ResRegs where
  flags : Word32
  sampleRate : Word32
  bitRate : Word32
  frameLen : Word32
  blocks : Word32
  outCh : Word32
deriving DecidableEq, Repr, Inhabited

/-- R222: the tables that `INIT` builds. -/
structure SynTables where
  cosA : Vector (Vector Num 16) 16
  cosB : Vector (Vector Num 16) 16
  winF : Vector Num 16
  winA : Vector Num 16
deriving DecidableEq, Repr, Inhabited

/-- A table of 00_scope.md R7 as plain data: the value at each listed key, and one value for every other key.
Every table with finitely many keys is of this form. -/
structure Table (κ α : Type) where
  other : α
  rows : List (κ × α)
deriving DecidableEq, Repr, Inhabited

/-- 00_scope.md R7, `P_SAMPLE_KIND`. -/
inductive SampleKind where
  | float | fixed
deriving DecidableEq, Repr, Inhabited

/-- 00_scope.md R7, `P_OUT_LAYOUT`. -/
inductive OutLayout where
  | interleaved | planar
deriving DecidableEq, Repr, Inhabited

/-- 00_scope.md R7, `P_ADJ_INDEX`. -/
inductive AdjIndex where
  | sel | abits
deriving DecidableEq, Repr, Inhabited

/-- 48_downmix.md R242: the ascending list of primary slots summed into one output slot, kept as its first slot and
the set of the further ones, so that no list is empty or out of order. -/
structure DownSlot where
  first : Nat
  more : BitVec 8
deriving DecidableEq, Repr, Inhabited

/-- 48_downmix.md R242, R245: a mix program; `up` holds `none` for ZERO. -/
structure MixProgram where
  down : Table Nat DownSlot
  up : Table Nat (Option Nat)
deriving DecidableEq, Repr, Inhabited

/-- The key of `F_DMX_ADJUST` and `F_DMX_MIX` (00_scope.md R7): primary, output, clev, slev. -/
structure MixKey where
  primary : Arrangement
  output : Arrangement
  clev : Num
  slev : Num
deriving DecidableEq, Repr, Inhabited

/-- 00_scope.md R7: the parameters of one instance, read-only state (10_state.md R28). `nch` holds one less than
the channel count, so that the count is 1..6. -/
structure Rom where
  /-- `REG_BASE` and `OUT_BASE` (20_memory.md R51, R58): the host addresses of the register block and the OutputBuffer window. -/
  regBase : Nat
  outBase : Nat
  sampleKind : SampleKind
  outLayout : OutLayout
  adjIndex : AdjIndex
  clev : Num
  slev : Num
  lfeGain : Num
  sampleRate : Table Nat Word32
  bitRate : Table Nat Word32
  nch : Table Arrangement (Fin 6)
  huffBitalloc : Table Nat Codebook
  huffTmode : Table Nat Codebook
  huffScale : Table Nat Codebook
  qidxBook : Table (Nat × Nat) (Option Codebook)
  scale6 : Table Nat Num
  scale7 : Table Nat Num
  qstepLossy : Table Nat Num
  qstepLossless : Table Nat Num
  adj : Table Nat Num
  adpcm : Table (Nat × Nat) Num
  hfvq : Table (Nat × Nat) Num
  syn : SynTables
  firPerfect : Table Nat Num
  firNonperfect : Table Nat Num
  lfeFir64 : Table Nat Num
  lfeFir128 : Table Nat Num
  dmxSelect : Table (Nat × Nat) (Option Arrangement)
  dmxAdjust : Table MixKey (Option Num)
  dmxMix : Table MixKey MixProgram
  /-- `F_DRC_HOOK`: `none`, or the level answered for each (level, user_data). No meaning reads it: 42_framedecoder.md R125 has
  the hooked case refused (log entry 19). -/
  drcHook : Option (Table (Num × Word32) Num)
deriving DecidableEq, Repr, Inhabited

/-- The state that `INIT` gives its reset values (10_state.md R49) and that `TEARDOWN` leaves unspecified
(49_host_commands.md R256). -/
structure Decoder where
  bc : BitCursor
  sh : StreamHeader
  fr : FrameRegs
  chF : Vector ChannelFrame 8
  chS : Vector ChannelSub 8
  sf : SubframeRegs
  seq : Sequencer
  subsamp : Vector (Vector (Vector Num 8) 32) 8
  ph : Vector (Vector (Vector Num 4) 32) 8
  hist : Vector (Vector Num 512) 8
  stage : Vector (Vector Num 64) 8
  lfe : Vector Num 32
  out : Vector (Vector Word32 256) 9
  warnJoint : Bool
  warnDsync : Bool
  hook : Word32
  hookUser : Word32
  res : ResRegs
  syn : SynTables
deriving DecidableEq, Repr, Inhabited

end Sys2Proof.Machine
end

