-- ==== Sys2Proof/Config.lean ====
section
/-! DEFINITION. What an implementation fixes and the spec leaves open: the parameters, the free values, and the
fixed-point number structure, all without a body; and the constants the spec fixes. -/

namespace Sys2Proof.Config

open Sys2Proof.Machine

/-- 00_scope.md R7, 92_eei_decisions.md section 5: the open parameters (log entry 12). -/
opaque rom : Rom

/-- FREE VALUE (log entry 8): the `k`-th unspecified content of the decoder's own state (93 U9 to U13, U15). -/
opaque freeDecoder : Nat → Decoder

/-- FREE VALUE (log entry 8): the `k`-th unspecified content of the argument registers (93 U12). -/
opaque freeArgs : Nat → ArgRegs

/-- FREE VALUE (log entry 8): the `k`-th unspecified word a host read returns (93 U14, U15). -/
opaque freeWord : Nat → Word32

/-- FREE VALUE (log entry 1): the `k`-th unspecified error code (93 U9). -/
opaque freeCode : Nat → Code

/-- The operation a NaN came from. -/
inductive NanSource where
  | add | mul | div | widen | narrow
deriving DecidableEq, Repr

/-- FREE VALUE (log entry 10): sign and payload of a binary64 NaN result (45_reconstruct.md R188, 93 U18). -/
opaque nan64 : NanSource → Num → Num → BitVec 52

/-- FREE VALUE (log entry 10): sign and payload of a binary32 NaN result (R188, 93 U18). -/
opaque nan32 : Num → BitVec 23

/-- FREE VALUE (log entry 10): the number of an integer that no binary64 value equals, which 45_reconstruct.md R188 has
"converted exactly". -/
opaque inexactInt : Int → Num

/-- 45_reconstruct.md R189: the complete fixed-point `P_NUM` taken as a parameter (log entry 11). -/
opaque fixAdd : Num → Num → Num
/-- See `fixAdd`. -/
opaque fixSub : Num → Num → Num
/-- See `fixAdd`. -/
opaque fixMul : Num → Num → Num
/-- See `fixAdd`. -/
opaque fixDiv : Num → Num → Num
/-- See `fixAdd`. -/
opaque fixNeg : Num → Num
/-- See `fixAdd`: the number of an integer. -/
opaque fixOfInt : Int → Num
/-- See `fixAdd`: the number a stored 32-bit sample stands for. -/
opaque fixLoad : Word32 → Num
/-- See `fixAdd`: the stored 32-bit sample of a number. -/
opaque fixStore : Num → Word32
/-- See `fixAdd`: `P_LEVEL_3DB`. -/
opaque fixLevel3dB : Num
/-- See `fixAdd`: `P_PCM_SCALE`. -/
opaque fixPcmScale : Num

/-- 41_framesync.md R108: `P_HEADER_MIN_BYTES`. -/
def headerMinBytes : Nat := 14

end Sys2Proof.Config
end

