-- ==== Sys2Proof/Machine/Float.lean ====
section
/-! DEFINITION. The number structure `P_NUM` (45_reconstruct.md R188, R189): IEEE 754 binary64 with one rounding to
nearest even for each operation under FLOAT, computed exactly in integers and narrowed once; the uninterpreted
structure of `Config` under FIXED. -/

namespace Sys2Proof.Machine

open Sys2Proof.Config (NanSource)

/-- What a binary floating-point pattern stands for: `± m * 2^e` when finite. -/
inductive FloatVal where
  | nan
  | inf (neg : Bool)
  | fin (neg : Bool) (m : Nat) (e : Int)
deriving DecidableEq, Repr

/-- Decoding of a pattern with `frac` fraction bits and `expo` exponent bits. -/
def floatDecode (frac expo : Nat) (x : Nat) : FloatVal :=
  let neg := x / 2 ^ (frac + expo) % 2 == 1
  let ef := x / 2 ^ frac % 2 ^ expo
  let f := x % 2 ^ frac
  let bias : Int := 2 ^ (expo - 1) - 1
  if ef = 2 ^ expo - 1 then
    if f = 0 then .inf neg else .nan
  else if ef = 0 then .fin neg f (1 - bias - frac)
  else .fin neg (2 ^ frac + f) (ef - bias - frac)

/-- Magnitude bits of `m * 2^e` rounded to nearest, ties to even (R188). The biased exponent and the significand add up,
so a carry out of the significand moves to the next exponent, and past the largest finite value to infinity. -/
def floatRound (frac expo : Nat) (m : Nat) (e : Int) : Nat :=
  if m = 0 then 0
  else
    let bias : Int := 2 ^ (expo - 1) - 1
    let emin : Int := 1 - bias - frac
    let scale : Int := max (e + (Nat.log2 m : Int) - frac) emin
    let shift : Int := scale - e
    let q : Nat :=
      if shift ≤ 0 then m <<< (-shift).toNat
      else
        let k := shift.toNat
        let q0 := m >>> k
        let r := m % 2 ^ k
        let half := 2 ^ (k - 1)
        if r > half ∨ (r = half ∧ q0 % 2 = 1) then q0 + 1 else q0
    min ((scale - emin).toNat * 2 ^ frac + q) ((2 ^ expo - 1) * 2 ^ frac)

/-- A signed binary64 pattern from its magnitude bits. -/
def f64OfMag (neg : Bool) (mag : Nat) : Num := BitVec.ofNat 64 ((if neg then 2 ^ 63 else 0) + mag)

/-- `± m * 2^e` rounded to binary64. -/
def f64Round (neg : Bool) (m : Nat) (e : Int) : Num := f64OfMag neg (floatRound 52 11 m e)

/-- Infinity. -/
def f64Inf (neg : Bool) : Num := f64OfMag neg (2047 * 2 ^ 52)

/-- A quiet NaN whose sign and payload are free (93 U18, log entry 10). -/
def f64Nan (src : NanSource) (a b : Num) : Num :=
  let p := Config.nan64 src a b
  (p.extractLsb' 51 1) ++ 0xFFF#12 ++ (p.extractLsb' 0 51)

/-- What a binary64 pattern stands for. -/
def f64Val (x : Num) : FloatVal := floatDecode 52 11 x.toNat

/-- The signed integer of a sign and a magnitude. -/
def signedNat (neg : Bool) (m : Nat) : Int := if neg then -(m : Int) else m

/-- IEEE 754 addition, R188. -/
def f64Add (a b : Num) : Num :=
  match f64Val a, f64Val b with
  | .nan, _ => f64Nan .add a b
  | _, .nan => f64Nan .add a b
  | .inf s, .inf t => if s = t then f64Inf s else f64Nan .add a b
  | .inf s, .fin _ _ _ => f64Inf s
  | .fin _ _ _, .inf t => f64Inf t
  | .fin s m e, .fin t n f =>
    let g := min e f
    let z : Int := signedNat s (m <<< (e - g).toNat) + signedNat t (n <<< (f - g).toNat)
    if z = 0 then f64OfMag (s && t) 0 else f64Round (z < 0) z.natAbs g

/-- Sign reversal. -/
def f64Neg (a : Num) : Num := a ^^^ (0x8000000000000000#64)

/-- IEEE 754 subtraction, R188. -/
def f64Sub (a b : Num) : Num := f64Add a (f64Neg b)

/-- IEEE 754 multiplication, R188. -/
def f64Mul (a b : Num) : Num :=
  match f64Val a, f64Val b with
  | .nan, _ => f64Nan .mul a b
  | _, .nan => f64Nan .mul a b
  | .inf s, .inf t => f64Inf (s != t)
  | .inf s, .fin t n _ => if n = 0 then f64Nan .mul a b else f64Inf (s != t)
  | .fin s m _, .inf t => if m = 0 then f64Nan .mul a b else f64Inf (s != t)
  | .fin s m e, .fin t n f => f64Round (s != t) (m * n) (e + f)

/-- IEEE 754 division, R188: 120 quotient bits past the dividend's last, and a sticky bit, decide the rounding. -/
def f64Div (a b : Num) : Num :=
  match f64Val a, f64Val b with
  | .nan, _ => f64Nan .div a b
  | _, .nan => f64Nan .div a b
  | .inf _, .inf _ => f64Nan .div a b
  | .inf s, .fin t _ _ => f64Inf (s != t)
  | .fin s _ _, .inf t => f64OfMag (s != t) 0
  | .fin s m e, .fin t n f =>
    if n = 0 then (if m = 0 then f64Nan .div a b else f64Inf (s != t))
    else
      let d := m <<< 120
      f64Round (s != t) (2 * (d / n) + (if d % n = 0 then 0 else 1)) (e - f - 121)

/-- Whether binary64 holds a magnitude: at most 53 significant bits, below 2^1024. -/
def f64Holds (m : Nat) : Bool := m % 2 ^ (Nat.log2 m - 52) == 0 && Nat.log2 m < 1024

/-- The number of an integer (R188, "converted exactly"). DESIGN CHOICE, log entry 10: where no binary64 value equals it, which
takes a codebook value beyond 2^53, the spec states no result and it is a free value. -/
def f64OfInt (i : Int) : Num := if f64Holds i.natAbs then f64Round (i < 0) i.natAbs 0 else Config.inexactInt i

/-- A stored binary32 value as binary64, exactly (R188). -/
def f64OfF32 (w : Word32) : Num :=
  match floatDecode 23 8 w.toNat with
  | .nan => f64Nan .widen (w.setWidth 64) 0#64
  | .inf s => f64Inf s
  | .fin s m e => f64Round s m e

/-- A binary64 value rounded once to binary32, nearest even (R188). -/
def f32OfF64 (x : Num) : Word32 :=
  match f64Val x with
  | .nan =>
    let p := Config.nan32 x
    (p.extractLsb' 22 1) ++ 0x1FF#9 ++ (p.extractLsb' 0 22)
  | .inf s => BitVec.ofNat 32 ((if s then 2 ^ 31 else 0) + 255 * 2 ^ 23)
  | .fin s m e => BitVec.ofNat 32 ((if s then 2 ^ 31 else 0) + floatRound 23 8 m e)

/-- `+` of `P_NUM`. -/
def numAdd : SampleKind → Num → Num → Num
  | .float => f64Add
  | .fixed => Config.fixAdd

/-- Binary `−` of `P_NUM`. -/
def numSub : SampleKind → Num → Num → Num
  | .float => f64Sub
  | .fixed => Config.fixSub

/-- `×` of `P_NUM`. -/
def numMul : SampleKind → Num → Num → Num
  | .float => f64Mul
  | .fixed => Config.fixMul

/-- `/` of `P_NUM`. -/
def numDiv : SampleKind → Num → Num → Num
  | .float => f64Div
  | .fixed => Config.fixDiv

/-- Unary `−` of `P_NUM`. -/
def numNeg : SampleKind → Num → Num
  | .float => f64Neg
  | .fixed => Config.fixNeg

/-- An integer operand as a number. -/
def numOfInt : SampleKind → Int → Num
  | .float => f64OfInt
  | .fixed => Config.fixOfInt

/-- The number a stored 32-bit sample, `ARG_LEVEL` or `ARG_BIAS` stands for. -/
def numLoad : SampleKind → Word32 → Num
  | .float => f64OfF32
  | .fixed => Config.fixLoad

/-- The stored 32-bit sample of a number. -/
def numStore : SampleKind → Num → Word32
  | .float => f32OfF64
  | .fixed => Config.fixStore

/-- 45_reconstruct.md R181: a table entry that is a finite number. An entry that breaks this law (an infinity or a NaN) is taken
as the finite number of the next lower exponent (log entry 13). -/
def numFinite : SampleKind → Num → Num
  | .float, x => if x.extractLsb' 52 11 = 0x7FF#11 then x &&& 0xFFEFFFFFFFFFFFFF#64 else x
  | .fixed, x => x

/-- `P_LEVEL_3DB` (00_scope.md R7): binary64 0.7071067811865476. -/
def level3dB : SampleKind → Num
  | .float => 0x3FE6A09E667F3BCD#64
  | .fixed => Config.fixLevel3dB

/-- `P_PCM_SCALE` (46_synthesis.md R221): binary64 0.7071067811865476 / 32768. -/
def pcmScale : SampleKind → Num
  | .float => 0x3EF6A09E667F3BCD#64
  | .fixed => Config.fixPcmScale

end Sys2Proof.Machine
end

