-- ==== Sys2Proof/Machine/Arrays.lean ====
section
/-! DEFINITION. Reading, writing and building the fixed-size arrays of the state, by plain index. -/

namespace Sys2Proof.Machine

/-- Element `i` (00_scope.md R9, `x[i]`); an index past the end, which no accepted frame brings about, reads the type's
default (log entry 21). -/
def vget {α : Type} [Inhabited α] {n : Nat} (v : Vector α n) (i : Nat) : α := v[i]?.getD default

/-- `x[i] <- a` (R9); an index past the end, which no accepted frame brings about, changes nothing
(log entry 21). -/
def vput {α : Type} {n : Nat} (v : Vector α n) (i : Nat) (a : α) : Vector α n := v.setIfInBounds i a

/-- The array whose element `i` is `f i`. -/
def vtab {α : Type} (n : Nat) (f : Nat → α) : Vector α n := Vector.ofFn fun i => f i.val

end Sys2Proof.Machine
end

