-- ==== Sys2Proof/Machine/State.lean ====
section
/-! DEFINITION. The state of the machine (10_state.md), what stops a step, and the state after reset. -/

namespace Sys2Proof.Machine

/-- Why a step stops with a fault. -/
inductive Fault where
  /-- A host access at a register offset that 10_state.md R12 does not list. Raised by `step`; safe: it stops (entry 15). -/
  | noSuchRegister
  /-- A host write to a register that R12 gives no host write access. Raised by `step`; safe: it stops (entry 15). -/
  | registerNotWritable
  /-- A host read at an offset that is no sample of the OutputBuffer window (20_memory.md R51, R56). Raised by
  `step`; safe: it stops (entry 15). -/
  | noSuchSample
  /-- A host write into the OutputBuffer window, which is read-only (20_memory.md R51). Raised by `step`; safe: it stops
  (entry 15). -/
  | windowNotWritable
  /-- A host access of the block at an address outside its register block and its window (20_memory.md R58). Raised by `step`;
  safe: it stops (entry 30). -/
  | noSuchAddress
deriving DecidableEq, Repr

/-- Why a step is refused. -/
inductive Refusal where
  /-- An instruction without a meaning; no arm of `exec` uses it. Safe: it stops. -/
  | notModelled (mnemonic : String)
  /-- 93_implementation_defined.md U1: `get(n)` with `n = 0` or `n > 32`. Raised by BR.GET and get_signed; safe:
  the spec has the model refuse it (entry 20). -/
  | getWidth
  /-- 93 U3, 20_memory.md R55: a view whose base is not a multiple of 4 outside W16/BE. Raised by BR.INIT, FS.HEADER, PROBE,
  BEGIN_FRAME and the pseudo-commands; safe: the spec has the model refuse it (entry 18). -/
  | misalignedView
  /-- 93 U6, 42_framedecoder.md R125: a hook is installed and the frame has DYNRANGE = 1. Raised by DRC.HOOK,
  BEGIN_FRAME and DECODE_FRAME; safe: the spec has the model refuse it (entry 19). -/
  | drcHook
deriving DecidableEq, Repr

/-- Host memory (20_memory.md R50): the bytes that differ from what an unlisted address reads as, by strictly rising
address. -/
abbrev Memory := List Host.Cell

/-- What the host does at the interface (10_state.md R12; 20_memory.md R50, R51; log entry 5). -/
inductive HostAccess where
  /-- A 32-bit write to the register at a byte offset from `REG_BASE`; at offset 0 it is a command. -/
  | writeReg (offset : Nat) (value : Word32)
  /-- A 32-bit read of a register. -/
  | readReg (offset : Nat)
  /-- A 32-bit read at a byte offset from `OUT_BASE`. -/
  | readOut (offset : Nat)
  /-- A 32-bit write at an address of the host's map (20_memory.md R58; log entry 30). -/
  | writeAddress (address : Nat) (value : Word32)
  /-- A 32-bit read at an address of the host's map. -/
  | readAddress (address : Nat)
  /-- The host writes a byte of its own memory. -/
  | storeByte (address : Nat) (value : Byte)
  /-- MODEL's own (log entry 7): a candidate window presented to FrameSync. -/
  | syncWindow (window : BitVec 48)
deriving DecidableEq, Repr

/-- 41_framesync.md R102: what FS.HEADER returns. -/
structure ProbeResult where
  flags : Word32
  sampleRate : Word32
  bitRate : Word32
  frameBytes : Nat
deriving DecidableEq, Repr

/-- MODEL's own (log entry 6): the value a value-returning micro-operation hands back when it is run on its own. -/
inductive UnitResult where
  | none
  | sync (m : Option Packing)
  | bits (v : Nat)
  | int (v : Int)
  | header (h : Option ProbeResult)
  | select (output : Arrangement) (level : Num)
  | ints4 (v : Vector Int 4)
  | ints8 (v : Vector Int 8)
  | nums8 (v : Vector Num 8)
  | pair16 (a b : Vector Num 16)
  /-- RESYNC: the offset found. -/
  | offset (o : Option Nat)
  /-- DECODE_FRAME: the blocks handed to the sink, each the list of its valid channel slots. -/
  | pcm (blocks : List (List (Vector Word32 256)))
deriving DecidableEq, Repr

/-- All state of one instance, the host memory it reads, and the host's pending accesses. -/
structure State extends Decoder where
  /-- 10_state.md R11. -/
  life : Life
  /-- R14: `STATUS.CODE`. -/
  code : Code
  /-- R12, R13: the last command word written. -/
  cmd : Word32
  /-- R12. -/
  args : ArgRegs
  /-- 20_memory.md R50. -/
  mem : Memory
  /-- 10_state.md R28. -/
  rom : Rom
  /-- MODEL's own (log entry 5): host accesses not yet performed, oldest first. -/
  host : List HostAccess
  /-- MODEL's own (log entry 3): the word the last host read returned. -/
  bus : Word32
  /-- MODEL's own (log entry 6). -/
  unit : UnitResult
  /-- MODEL's own (log entry 8): the number of free values drawn. -/
  free : Nat
deriving DecidableEq, Repr

/-- A BitCursor of zeros. -/
def zeroCursor : BitCursor :=
  { base := 0#32, len := 0#32, wptr := 0#32, cur := 0#32, left := 0#6, wordMode := .w14, endian := .le }

/-- 10_state.md R49: StreamHeader after `INIT`. -/
def zeroHeader : StreamHeader :=
  { frameType := 0#1, samplesDeficit := 0#5, crcPresent := 0#1, sampleBlocks := 0#8, frameSize := 0#15, amode := 0#6,
    sampleRate := 0#4, bitRate := 0#5, downmix := 0#1, dynrange := 0#1, timestamp := 0#1, auxData := 0#1, hdcd := 0#1,
    extDescr := 0#3, extCoding := 0#1, aspf := 0#1, lfe := 0#2, predictorHistory := 0#1, headerCrc := 0#16,
    multirateInter := 0#1, version := 0#4, copyHistory := 0#2, sourcePcmRes := 0#3, frontSum := 0#1, surroundSum := 0#1,
    dialogNorm := 0#4, subframes := 0#5, totalChannels := 0#4, primChannels := 0#4 }

/-- R49: the frame registers after `INIT`. -/
def zeroFrame : FrameRegs :=
  { output := .mono, outputLfe := false, bias := 0#64, level := 0#64, clev := 0#64, slev := 0#64, blocksTotal := 0#32,
    blocksDone := 0#32 }

/-- R49: the frame half of a ChannelSideInfo after `INIT`. -/
def zeroChannelFrame : ChannelFrame :=
  { subbandActivity := 0#6, vqStartSubband := 0#6, jointIntensity := 0#3, transientHuffman := 0#2,
    scalefactorHuffman := 0#3, bitallocHuffman := 0#3, quantSel := vtab 27 fun _ => 0#3, sfAdj := vtab 11 fun _ => 0#64 }

/-- R49: the subframe half of a ChannelSideInfo after `INIT`. -/
def zeroChannelSub : ChannelSub :=
  { predictionMode := vtab 32 fun _ => 0#1, predictionVq := vtab 32 fun _ => 0#12, bitalloc := vtab 32 fun _ => 0#5,
    transitionMode := vtab 32 fun _ => 0#2, scale0 := vtab 32 fun _ => 0#64, scale1 := vtab 32 fun _ => 0#64,
    jointHuff := 0#3, jointScaleFactor := vtab 32 fun _ => 0#8, highFreqVq := vtab 32 fun _ => 0#10, dmx0 := 0#7,
    dmx1 := 0#7 }

/-- The decoder's own state right after `INIT` (10_state.md R49). What R49 leaves unspecified (`BC`, `SUBSAMP`, `OUT`) is
zero here: DESIGN CHOICE, log entry 2. -/
def Decoder.reset (syn : SynTables) : Decoder :=
  { bc := zeroCursor
    sh := zeroHeader
    fr := zeroFrame
    chF := vtab 8 fun _ => zeroChannelFrame
    chS := vtab 8 fun _ => zeroChannelSub
    sf := { subsubframes := 0#3, partialSamples := 0#3, dynrangeCoef := 0#8, lfeScaleFactor := 0#64 }
    seq := { frame := .noframe, currentSubframe := 0#5, currentSubsubframe := 0#3 }
    subsamp := vtab 8 fun _ => vtab 32 fun _ => vtab 8 fun _ => 0#64
    ph := vtab 8 fun _ => vtab 32 fun _ => vtab 4 fun _ => 0#64
    hist := vtab 8 fun _ => vtab 512 fun _ => 0#64
    stage := vtab 8 fun _ => vtab 64 fun _ => 0#64
    lfe := vtab 32 fun _ => 0#64
    out := vtab 9 fun _ => vtab 256 fun _ => 0#32
    warnJoint := false
    warnDsync := false
    hook := 0#32
    hookUser := 0#32
    res := { flags := 0#32, sampleRate := 0#32, bitRate := 0#32, frameLen := 0#32, blocks := 0#32, outCh := 0#32 }
    syn := syn }

/-- The machine right after its one reset event, `INIT` (70_reset_and_hazards.md R278, log entry 1), with the parameters of
`Config.rom` and no host access pending. -/
def State.reset : State :=
  { toDecoder := Decoder.reset Config.rom.syn
    life := .ready
    code := .ok
    cmd := 0#32
    args := { bufAddr := 0#32, bufLen := 0#32, flags := 0#32, level := 0#32, bias := 0#32, hint := 0#32, hook := 0#32,
              user := 0#32 }
    mem := []
    rom := Config.rom
    host := []
    bus := 0#32
    unit := .none
    free := 0 }

/-- Before the first `INIT` after power-on (10_state.md R49, last line; 93 U9): `LIFE = UNINIT`, and every other element of the
instance a free value, `STATUS.CODE` and `CMD` among them. DESIGN CHOICE, log entry 1: the free `STATUS.CODE` is one of the
codes of 60_exceptions.md R261, host memory lists nothing, and the model's own fields stand as at `State.reset`. -/
def State.powerOn : State :=
  { State.reset with
    toDecoder := Config.freeDecoder 0
    life := .uninit
    code := Config.freeCode 0
    cmd := Config.freeWord 0
    args := Config.freeArgs 0
    free := 1 }

end Sys2Proof.Machine
end

