-- ==== Sys2Proof/Machine/Ops.lean ====
section
/-! DEFINITION. The named operations over memory and registers, the form every operation of a unit has, and taking an
error (60_exceptions.md R260). -/

namespace Sys2Proof.Machine

/-! ### Host memory -/

/-- What an unlisted address reads as: DESIGN CHOICE, log entry 4. -/
def memUnlisted : Byte := 0#8

/-- 00_scope.md R9, `MemRead(addr, 1)`. -/
def memRead : Memory → Nat → Byte
  | [], _ => memUnlisted
  | (k, b) :: m, a => if k = a then b else memRead m a

/-- Memory without an entry at `a`. -/
def memErase : Memory → Nat → Memory
  | [], _ => []
  | (k, b) :: m, a => if k = a then memErase m a else (k, b) :: memErase m a

/-- An entry put before the first one at a higher address. -/
def memInsert : Memory → Nat → Byte → Memory
  | [], a, b => [(a, b)]
  | (k, v) :: m, a, b => if a < k then (a, b) :: (k, v) :: m else (k, v) :: memInsert m a b

/-- 00_scope.md R9, `MemWrite(addr, 1, v)`, keeping the canonical form. -/
def memWrite (m : Memory) (a : Nat) (b : Byte) : Memory :=
  if b = memUnlisted then memErase m a else memInsert (memErase m a) a b

/-- Bytes `bs` written from address `a` on. -/
def memWriteBytes (m : Memory) (a : Nat) : List Byte → Memory
  | [] => m
  | b :: bs => memWriteBytes (memWrite m a b) (a + 1) bs

/-- The canonical form: addresses strictly rising, no entry equal to what an unlisted address reads as. -/
def Memory.wf : Memory → Bool
  | [] => true
  | (a, b) :: m => b != memUnlisted && m.all (fun c => a < c.1) && Memory.wf m

/-! ### Tables -/

/-- The entry of a table at a key. -/
def tget {κ α : Type} [DecidableEq κ] (t : Table κ α) (k : κ) : α :=
  match t.rows.find? (fun r => r.1 == k) with
  | some r => r.2
  | none => t.other

/-! ### Operations of a unit -/

/-- Why an operation ends before its last line: an error (R260), or a case the spec has the model refuse. -/
inductive Stop where
  | raise (c : Code) (l : Label)
  | refuse (r : Refusal)
deriving DecidableEq, Repr

/-- An operation of a unit: it runs from a state, and ends with a result or stops; what it wrote stays written (R260). -/
abbrev Op := EStateM Stop State

/-- What a step answers. -/
abbrev Answer := Host.Outcome State Fault Refusal

/-- 00_scope.md R9, `raise E(info)`. -/
def raiseOp {α : Type} (c : Code) (l : Label) : Op α := throw (.raise c l)

/-- The spec has the model refuse this case. -/
def refuseOp {α : Type} (r : Refusal) : Op α := throw (.refuse r)

/-- `for x in xs: f x` (R9), in order. -/
def forEach {α : Type} : List α → (α → Op Unit) → Op Unit
  | [], _ => pure ()
  | x :: xs, f => do
    f x
    forEach xs f

/-- `n` results of one operation, in order. -/
def collect {α : Type} : Nat → Op α → Op (List α)
  | 0, _ => pure []
  | n + 1, op => do
    let a ← op
    let r ← collect n op
    pure (a :: r)

/-! ### Taking an error -/

/-- 60_exceptions.md R260 (2) and (3): the code is placed in `STATUS` and the frame is aborted. There is no return from it
(R269). -/
def takeError (c : Code) (s : State) : State :=
  { s with code := c, seq := { s.seq with frame := .aborted } }

/-- R260 (1) and (4): an operation run to its end, its result recorded by `done`; an error is taken. -/
def answer {α : Type} (op : Op α) (done : α → State → State) (s : State) : Answer :=
  match op s with
  | .ok a t => .next (done a t)
  | .error (.raise c _) t => .next (takeError c t)
  | .error (.refuse r) _ => .refused r

/-- A micro-operation without a result, run on its own (log entry 21). -/
def answerUnit (op : Op Unit) (s : State) : Answer := answer op (fun _ t => t) s

/-- A micro-operation with a result, run on its own: the result is kept in `unit` (log entry 6). -/
def answerValue {α : Type} (op : Op α) (kind : α → UnitResult) (s : State) : Answer :=
  answer op (fun a t => { t with unit := kind a }) s

/-- A command that answers with a code and nothing else (49_host_commands.md R257; 60_exceptions.md R271). -/
def setCode (c : Code) (s : State) : State := { s with code := c }

/-! ### Registers -/

/-- Writing StreamHeader (10_state.md R18). -/
def setSh (f : StreamHeader → StreamHeader) : Op Unit := modify fun s => { s with sh := f s.sh }

/-- Writing the frame registers (R19). -/
def setFr (f : FrameRegs → FrameRegs) : Op Unit := modify fun s => { s with fr := f s.fr }

/-- Writing the subframe registers (R23). -/
def setSf (f : SubframeRegs → SubframeRegs) : Op Unit := modify fun s => { s with sf := f s.sf }

/-- Writing the sequencer position (R44). -/
def setSeq (f : Sequencer → Sequencer) : Op Unit := modify fun s => { s with seq := f s.seq }

/-- Writing the frame half of `CH[c]` (R20). -/
def setChF (c : Nat) (f : ChannelFrame → ChannelFrame) : Op Unit :=
  modify fun s => { s with chF := vput s.chF c (f (vget s.chF c)) }

/-- Writing the subframe half of `CH[c]` (R21). -/
def setChS (c : Nat) (f : ChannelSub → ChannelSub) : Op Unit :=
  modify fun s => { s with chS := vput s.chS c (f (vget s.chS c)) }

/-- Writing `SUBSAMP[c][s][0..7]` (R24). -/
def setSubsamp (c sb : Nat) (x : Vector Num 8) : Op Unit :=
  modify fun s => { s with subsamp := vput s.subsamp c (vput (vget s.subsamp c) sb x) }

/-- `SUBSAMP[c][s][0..7]`. -/
def subsampAt (s : State) (c sb : Nat) : Vector Num 8 := vget (vget s.subsamp c) sb

/-- `OUT[ch][0..255] <- row` (R41). -/
def setOutRow (ch : Nat) (row : Vector Word32 256) : Op Unit :=
  modify fun s => { s with out := vput s.out ch row }

/-- `C = SH.prim_channels`. -/
def primCount (s : State) : Nat := s.sh.primChannels.toNat

/-- `act[c]`. -/
def actOf (s : State) (c : Nat) : Nat := (vget s.chF c).subbandActivity.toNat

/-- `vq[c]`. -/
def vqOf (s : State) (c : Nat) : Nat := (vget s.chF c).vqStartSubband.toNat

/-- The integers `a .. b − 1`, the range of a `for` loop (R9). -/
def span (a b : Nat) : List Nat := List.range' a (b - a)

/-- `L = 2 × SH.lfe × SF.subsubframes` (10_state.md R27). -/
def lfeSpan (s : State) : Nat := 2 * s.sh.lfe.toNat * s.sf.subsubframes.toNat

end Sys2Proof.Machine
end

