-- ==== Sys2Proof/Machine/Flags.lean ====
section
/-! DEFINITION. The status register: error codes (60_exceptions.md R261), the two sticky warnings (10_state.md R46) and the
`STATUS` word (R14). DCACORE has no arithmetic flags (R46). -/

namespace Sys2Proof.Machine

/-- R261. -/
def codeBits : Code → BitVec 8
  | .ok => 0x00#8
  | .syncNotFound => 0x01#8
  | .malformedHeader => 0x02#8
  | .unsupportedChannelArrangement => 0x03#8
  | .unsupportedFeature => 0x04#8
  | .corruptStream => 0x05#8
  | .illegalCommand => 0x10#8
  | .notReady => 0x11#8
  | .badArgument => 0x12#8
  | .initFailed => 0x13#8

/-- R14: the word the host reads; `BUSY` and the other bits are 0. -/
def statusWord (s : State) : Word32 :=
  0#14 ++ BitVec.ofBool s.warnDsync ++ BitVec.ofBool s.warnJoint ++ 0#8 ++ codeBits s.code

/-- R46: `warn WARN_JOINT`. -/
def warnJointOp : Op Unit := modify fun s => { s with warnJoint := true }

/-- R46: `warn WARN_DSYNC`. -/
def warnDsyncOp : Op Unit := modify fun s => { s with warnDsync := true }

/-- 30_encoding.md R86: the code of an arrangement; DOLBY is reported as 63 (R87). DEDUCED, log entry 35: 10 is 4F2R as in the
table of R86, although 92_eei_decisions.md D48 calls it DOLBY as a request. -/
def arrangementCode : Arrangement → Nat
  | .mono => 0 | .channel => 1 | .stereo => 2 | .stereoSumdiff => 3 | .stereoTotal => 4 | .f3 => 5
  | .f2r1 => 6 | .f3r1 => 7 | .f2r2 => 8 | .f3r2 => 9 | .f4r2 => 10 | .dolby => 63

/-- R86: the arrangement of a code. -/
def arrangementOf : Nat → Option Arrangement
  | 0 => some .mono | 1 => some .channel | 2 => some .stereo | 3 => some .stereoSumdiff | 4 => some .stereoTotal
  | 5 => some .f3 | 6 => some .f2r1 | 7 => some .f3r1 | 8 => some .f2r2 | 9 => some .f3r2 | 10 => some .f4r2
  | 63 => some .dolby | _ => none

/-- R87: `ARR`, bits [5:0] of a flags word. -/
def flagsArr (w : Word32) : Nat := w.toNat % 64

/-- R87: `LFE`, bit 7. -/
def flagsLfe (w : Word32) : Bool := w.getLsbD 7

/-- R87: `ADJUST_LEVEL`, bit 8. -/
def flagsAdjust (w : Word32) : Bool := w.getLsbD 8

/-- R87: a flags word from an arrangement code and an LFE bit. -/
def flagsWord (arr : Nat) (lfe : Bool) : Word32 := BitVec.ofNat 32 (arr % 64 + if lfe then 0x80 else 0)

end Sys2Proof.Machine
end

