-- ==== Sys2Proof/Machine/Formats.lean ====
section
/-! DEFINITION. The encoding constants of 30_encoding.md that decoding, the operand checks and the meanings share. -/

namespace Sys2Proof

/-- 30_encoding.md R66: match and mask of each pattern. -/
def sync14leMatch : BitVec 48 := 0xFF1F00E8F007#48
/-- See `sync14leMatch`. -/
def sync14leMask : BitVec 48 := 0xFFFFFFFFF0FF#48
/-- See `sync14leMatch`. -/
def sync14beMatch : BitVec 48 := 0x1FFFE80007F0#48
/-- See `sync14leMatch`. -/
def sync14beMask : BitVec 48 := 0xFFFFFFFFFFF0#48
/-- See `sync14leMatch`. -/
def sync16leMatch : BitVec 48 := 0xFE7F01800000#48
/-- See `sync14leMatch`. -/
def sync16leMask : BitVec 48 := 0xFFFFFFFF0000#48
/-- See `sync14leMatch`. -/
def sync16beMatch : BitVec 48 := 0x7FFE80010000#48
/-- See `sync14leMatch`. -/
def sync16beMask : BitVec 48 := 0xFFFFFFFF0000#48

/-- 30_encoding.md R66: "A pattern matches when `(B[0..5] AND mask) = match`". -/
def syncMatches (m k w : BitVec 48) : Bool := w &&& k == m

/-- 20_memory.md R55: a view whose base is not a multiple of 4 is admitted only in W16/BE mode. -/
def viewAdmitted (base : Word32) (p : Packing) : Bool :=
  base.toNat % 4 == 0 || (p.wordMode == .w16 && p.endian == .be)

/-- 30_encoding.md R82: `size(a)`, bits of a block codeword; 0 where the table has no column. -/
def blockSize : Nat → Nat
  | 1 => 7 | 2 => 10 | 3 => 12 | 4 => 13 | 5 => 15 | 6 => 17 | 7 => 19 | _ => 0

/-- 30_encoding.md R82: `levels(a)`; 0 where the table has no column. -/
def blockLevels : Nat → Nat
  | 1 => 3 | 2 => 5 | 3 => 7 | 4 => 9 | 5 => 13 | 6 => 17 | 7 => 25 | _ => 0

/-- 40_bitreader.md R93: the widths `get` takes. -/
def widthAllowed (n : Nat) : Bool := 1 ≤ n && n ≤ 32

end Sys2Proof
end

