-- ==== Sys2Proof/Machine/Operands.lean ====
section
/-! DEFINITION. Where operations take their operands from: the frame buffer through a BitCursor (20_memory.md R52 to R55,
40_bitreader.md R92 to R95) and the parameter tables (00_scope.md R7) with the laws the spec states of them. -/

namespace Sys2Proof.Machine

/-! ### The frame buffer -/

/-- 20_memory.md R52, R53: `B[i]`, zero past the view. -/
def viewByte (m : Memory) (base len : Word32) (i : Nat) : Byte :=
  if i < len.toNat then memRead m (base.toNat + i) else 0#8

/-- R54: stream word `k`. -/
def streamWord (m : Memory) (c : BitCursor) (k : Nat) : BitVec 16 :=
  let lo := viewByte m c.base c.len (2 * k)
  let hi := viewByte m c.base c.len (2 * k + 1)
  match c.endian with
  | .be => lo ++ hi
  | .le => hi ++ lo

/-- R54: the payload bits of one fetch. -/
def payloadWidth : WordMode → Nat
  | .w16 => 32
  | .w14 => 28

/-- R54: fetch number `j`. -/
def fetchWord (m : Memory) (c : BitCursor) (j : Nat) : Word32 :=
  let a := streamWord m c (2 * j)
  let b := streamWord m c (2 * j + 1)
  match c.wordMode with
  | .w16 => a ++ b
  | .w14 => 0#4 ++ a.setWidth 14 ++ b.setWidth 14

/-- 40_bitreader.md R93: the refill of an empty lookahead register. -/
def cursorRefill (m : Memory) (c : BitCursor) : BitCursor :=
  { c with cur := fetchWord m c c.wptr.toNat, wptr := c.wptr + 1#32, left := BitVec.ofNat 6 (payloadWidth c.wordMode) }

/-- R93: one turn of the loop of `get`, on a lookahead register that is not empty: `t` bits are taken. -/
def cursorTake (t : Nat) (c : BitCursor) : Nat × BitCursor :=
  (c.cur.toNat >>> (c.left.toNat - t) % 2 ^ t, { c with left := c.left - BitVec.ofNat 6 t })

/-- R93: the loop of `get`; `fuel` bounds the turns, each of which takes at least one bit. -/
def cursorLoop (m : Memory) : Nat → Nat → Nat → BitCursor → Nat × BitCursor
  | 0, _, result, c => (result, c)
  | fuel + 1, need, result, c =>
    if need = 0 then (result, c)
    else
      let c := if c.left = 0#6 then cursorRefill m c else c
      let t := min need c.left.toNat
      let (v, c) := cursorTake t c
      cursorLoop m fuel (need - t) (result * 2 ^ t + v) c

/-- R93: `get(n)` on a cursor. -/
def cursorGet (m : Memory) (n : Nat) (c : BitCursor) : Nat × BitCursor := cursorLoop m n n 0 c

/-- R92: `BR.INIT` on a cursor. -/
def cursorInit (base len : Word32) (p : Packing) : BitCursor :=
  { base := base, len := len, wptr := 0#32, cur := 0#32, left := 0#6, wordMode := p.wordMode, endian := p.endian }

/-- R93: `get(n)` on the architectural BitCursor. -/
def getBits (n : Nat) : Op Nat := do
  if widthAllowed n then
    let s ← get
    let (v, c) := cursorGet s.mem n s.bc
    set { s with bc := c }
    pure v
  else refuseOp .getWidth

/-- `get(n)` whose result is dropped (R96). -/
def skipBits (n : Nat) : Op Unit := do
  let _ ← getBits n
  pure ()

/-- 00_scope.md R9: `sext_n(v)`. -/
def sext (n v : Nat) : Int := if v < 2 ^ (n - 1) then (v : Int) else (v : Int) - 2 ^ n

/-- 40_bitreader.md R95. -/
def getSignedBits (n : Nat) : Op Int := do
  let v ← getBits n
  pure (sext n v)

/-- 92_eei_decisions.md D5: the case in which a view is refused. -/
def requireView (base : Word32) (p : Packing) : Op Unit :=
  if viewAdmitted base p then pure () else refuseOp .misalignedView

/-! ### Parameter tables -/

/-- `T_NCH`: 1 to 6 channels, and at most 5 for the arrangements 0 to 9 (42_framedecoder.md R128); DOLBY is held to 5 as well (log
entry 13). -/
def nchOf (r : Rom) (a : Arrangement) : Nat :=
  let n := (tget r.nch a).val + 1
  if a = .f4r2 then n else min n 5

/-- `T_DMX_SELECT` with the law of an arrangement requesting itself built in (48_downmix.md R237; log entry 13). -/
def dmxSelectOf (r : Rom) (req primary : Nat) : Option Arrangement :=
  if req = primary then arrangementOf primary else tget r.dmxSelect (req, primary)

/-- `F_DMX_ADJUST`: no entry for an arrangement requesting itself (R237), the one entry the source gives (R239),
every other one from the parameter (log entry 13). -/
def dmxAdjustOf (r : Rom) (primary output : Arrangement) (clev slev : Num) : Option Num :=
  if primary = output then none
  else if primary = .f3 ∧ output = .mono then
    some (numDiv r.sampleKind (level3dB r.sampleKind) (numAdd r.sampleKind (numOfInt r.sampleKind 1) clev))
  else tget r.dmxAdjust { primary := primary, output := output, clev := clev, slev := slev }

/-- `F_DMX_MIX`. -/
def dmxMixOf (r : Rom) (primary output : Arrangement) (clev slev : Num) : MixProgram :=
  tget r.dmxMix { primary := primary, output := output, clev := clev, slev := slev }

/-- 48_downmix.md R242: the list `S_o`, ascending, of slots below `C`. -/
def downList (p : MixProgram) (count o : Nat) : List Nat :=
  let d := tget p.down o
  let f := d.first % count
  f :: (List.range count).filter fun c => f < c && d.more.getLsbD c

/-- R245: `src_o`, a slot below `C`, or ZERO. -/
def upSource (p : MixProgram) (count o : Nat) : Option Nat :=
  match tget p.up o with
  | some c => some (c % count)
  | none => none

/-- 45_reconstruct.md R181, with its law that every entry is finite. -/
def qstepOf (s : State) (a : Nat) : Num :=
  numFinite s.rom.sampleKind (if s.sh.bitRate = 31#5 then tget s.rom.qstepLossless a else tget s.rom.qstepLossy a)

/-- 46_synthesis.md R215. -/
def firOf (s : State) : Table Nat Num :=
  if s.sh.multirateInter = 1#1 then s.rom.firPerfect else s.rom.firNonperfect

/-- 47_lfe.md R230. -/
def lfeFirOf (s : State) : Table Nat Num :=
  if s.sh.lfe = 1#2 then s.rom.lfeFir128 else s.rom.lfeFir64

/-- 45_reconstruct.md R183: `ADJ(c, a, sel)`; 1 where `sf_adj` has no entry. -/
def adjOf (s : State) (c a sel : Nat) : Num :=
  let i := match s.rom.adjIndex with
    | .sel => sel
    | .abits => a
  if i ≤ 10 then vget (vget s.chF c).sfAdj i else numOfInt s.rom.sampleKind 1

end Sys2Proof.Machine
end

