-- ==== Sys2Proof/Machine/Downmix.lean ====
section
/-! DEFINITION. The DownmixEngine (48_downmix.md): DMX.SELECT, DMX.APPLY. -/

namespace Sys2Proof.Machine

/-- 48_downmix.md R238: STEREO collapses to DOLBY for a 3F primary with a −3 dB centre level. -/
def collapseDolby (r : Rom) (primary : Nat) (out : Arrangement) (clev : Num) : Arrangement :=
  if out = .stereo ∧ primary = 5 ∧ clev = level3dB r.sampleKind then .dolby else out

/-- R236, R239: the level after the adjustment. -/
def adjustLevel (r : Rom) (primary : Nat) (out : Arrangement) (flags : Word32) (level clev slev : Num) : Num :=
  if flagsAdjust flags then
    match arrangementOf primary with
    | none => level
    | some p =>
      match dmxAdjustOf r p out clev slev with
      | none => level
      | some g => numMul r.sampleKind level g
  else level

/-- R236: the selected arrangement and the adjusted level, `none` where the arrangement is not supported. -/
def dmxSelect (r : Rom) (primary : Nat) (flags : Word32) (level clev slev : Num) : Option (Arrangement × Num) :=
  let req := flagsArr flags
  if req > 10 ∨ primary > 9 then none
  else
    match dmxSelectOf r req primary with
    | none => none
    | some out0 =>
      let out := collapseDolby r primary out0 clev
      some (out, adjustLevel r primary out flags level clev slev)

/-- R236 as an operation. -/
def dmxSelectOp (primary : Nat) (flags : Word32) (level clev slev : Num) : Op (Arrangement × Num) := do
  let s ← get
  match dmxSelect s.rom primary flags level clev slev with
  | some x => pure x
  | none => raiseOp .unsupportedChannelArrangement .arrangement

/-- DMX.SELECT, R236. -/
def execDmxSelect (primary : BitVec 6) (flags : Word32) (level clev slev : Num) (s : State) : Answer :=
  answerValue (dmxSelectOp primary.toNat flags level clev slev) (fun x => .select x.1 x.2) s

/-- A stored sample read back as a number (45_reconstruct.md R188). -/
def outNum (s : State) (ch n : Nat) : Num := numLoad s.rom.sampleKind (vget (vget s.out ch) n)

/-- `OUT[slots]` rewritten at once from the old contents: slots below `count` take `f slot n`, the others stay
(48_downmix.md R243: all reads of sample `n` precede all writes of it). DESIGN CHOICE, log entry 36: R242 says that slots past
the output count hold no meaning after a downmix; DMX.APPLY does not write them, and DECODE_BLOCK then frees them. -/
def outMap (s : State) (count : Nat) (f : Nat → Nat → Word32) : State :=
  { s with out := vtab 9 fun ch => if ch < count then vtab 256 fun n => f ch n else vget s.out ch }

/-- R242: one output sample of a downmix. -/
def downSample (s : State) (slots : List Nat) (n : Nat) : Word32 :=
  let k := s.rom.sampleKind
  match slots with
  | [] => numStore k s.fr.bias
  | c :: cs => numStore k (numAdd k (cs.foldl (fun acc d => numAdd k acc (outNum s d n)) (outNum s c n)) s.fr.bias)

/-- R245: one output sample of an upmix. -/
def upSample (s : State) (src : Option Nat) (n : Nat) : Word32 :=
  match src with
  | none => 0#32
  | some c => numStore s.rom.sampleKind (outNum s c n)

/-- R246: one sample of the equal-count path. -/
def biasSample (s : State) (ch n : Nat) : Word32 :=
  numStore s.rom.sampleKind (numAdd s.rom.sampleKind (outNum s ch n) s.fr.bias)

/-- R240: the mix program of the frame's (primary, output) pair; the parameter's remaining value where `SH.amode` names
no arrangement, which no accepted frame has (R236). -/
def mixProgram (s : State) : MixProgram :=
  match arrangementOf s.sh.amode.toNat with
  | some p => dmxMixOf s.rom p s.fr.output s.fr.clev s.fr.slev
  | none => s.rom.dmxMix.other

/-- R240: DMX.APPLY. -/
def dmxApply (s : State) : State :=
  let count := primCount s
  let slots := nchOf s.rom s.fr.output
  let p := mixProgram s
  if slots < count then outMap s slots fun o n => downSample s (downList p count o) n
  else if count < slots then outMap s slots fun o n => upSample s (upSource p count o) n
  else outMap s count fun ch n => biasSample s ch n

/-- DMX.APPLY, R240. -/
def execDmxApply (s : State) : Answer := .next (dmxApply s)

end Sys2Proof.Machine
end

