-- ==== Sys2Proof/Syntax.lean ====
section
/-! DEFINITION. The instructions of DCACORE: one constructor per row of spec/opcode_table.json, in the table's order.
Commands take their operands from the argument registers (30_encoding.md R65); a micro-operation carries the operands
its rule names. -/

namespace Sys2Proof

/-- One row of the opcode table with its operands. -/
inductive Instr where
  /-- INIT, 49_host_commands.md R250. -/
  | init
  /-- PROBE, 41_framesync.md R100. -/
  | probe
  /-- BEGIN_FRAME, 42_framedecoder.md R113. -/
  | beginFrame
  /-- BLOCKS_REMAINING, 49_host_commands.md R254. -/
  | blocksRemaining
  /-- DECODE_BLOCK, 43_subframe.md R135. -/
  | decodeBlock
  /-- SET_DRC_HOOK, 49_host_commands.md R255. -/
  | setDrcHook
  /-- TEARDOWN, 49_host_commands.md R256. -/
  | teardown
  /-- ILLEGAL, 30_encoding.md R65: a command word that no command has. -/
  | illegal (w : Word32)
  /-- FS.MATCH.14LE, 41_framesync.md R101, on a six-byte window. -/
  | fsMatch14le (window : BitVec 48)
  /-- FS.MATCH.14BE, R101. -/
  | fsMatch14be (window : BitVec 48)
  /-- FS.MATCH.16LE, R101. -/
  | fsMatch16le (window : BitVec 48)
  /-- FS.MATCH.16BE, R101. -/
  | fsMatch16be (window : BitVec 48)
  /-- BR.INIT, 40_bitreader.md R92. -/
  | brInit (base len : Word32) (p : Packing)
  /-- BR.GET, R93. -/
  | brGet (n : Nat)
  /-- get_signed, R95. -/
  | getSigned (n : Nat)
  /-- FS.HEADER, 41_framesync.md R102, on a scratch cursor just initialised on the view. -/
  | fsHeader (base len : Word32) (p : Packing)
  /-- FD.HEADER, 42_framedecoder.md R114. -/
  | fdHeader
  /-- FD.PRIMHDR, R118. -/
  | fdPrimhdr
  /-- DRC.HOOK, R125. -/
  | drcHook
  /-- DMX.SELECT, 48_downmix.md R236. -/
  | dmxSelect (primary : BitVec 6) (flags : Word32) (level clev slev : Num)
  /-- ADVANCE, 43_subframe.md R136. -/
  | advance
  /-- SF.HEADER, R138. -/
  | sfHeader
  /-- READ_BITALLOC, R141. -/
  | readBitalloc (c : Fin 8)
  /-- READ_SCALES, R146. -/
  | readScales (c : Fin 8)
  /-- READ_JOINT, R152. -/
  | readJoint (c : Fin 8)
  /-- READ_LFE, R154. -/
  | readLfe
  /-- SS.BODY, R155. -/
  | ssBody (ssf : Fin 4)
  /-- DSYNC.CHECK, R156. -/
  | dsyncCheck (ssf : Fin 4)
  /-- SF.FOOTER, R157. -/
  | sfFooter
  /-- LFE.ROTATE, R158. -/
  | lfeRotate
  /-- HUFF.DEC, 44_sample_decode.md R160. -/
  | huffDec (book : Codebook)
  /-- QX, R162. -/
  | qx (a : Fin 27) (sel : BitVec 3)
  /-- QX.NONE, R163. -/
  | qxNone
  /-- QX.HUFF, R164. -/
  | qxHuff (book : Codebook)
  /-- QX.RAW, R165. -/
  | qxRaw (a : Fin 27)
  /-- QX.BLOCK, R166. -/
  | qxBlock (a : Fin 27)
  /-- BLK.DECODE, R167. -/
  | blkDecode (code levels : Nat)
  /-- HFVQ.LOOKUP, R170. -/
  | hfvqLookup (c : Fin 8) (s : Fin 32) (ssf : Fin 4)
  /-- RECON.SCALE, 45_reconstruct.md R182. -/
  | reconScale (c : Fin 8) (s : Fin 32) (ssf : Fin 4) (q : Vector Int 8)
  /-- RECON.ADPCM, R184. -/
  | reconAdpcm (c : Fin 8) (s : Fin 32)
  /-- PH.UPDATE, R186. -/
  | phUpdate
  /-- SYN.QMF32, 46_synthesis.md R217. -/
  | synQmf32 (c : Fin 8)
  /-- MODULATE, R218. -/
  | modulate (x : Vector Num 32)
  /-- BUTTERFLY, R219. -/
  | butterfly (a b : Vector Num 16)
  /-- FOLD, R219. -/
  | fold (c : Fin 8) (sum diff : Vector Num 16)
  /-- ACCUMULATE, R220. -/
  | accumulate (c : Fin 8)
  /-- SHIFT, R221. -/
  | shift (c : Fin 8)
  /-- LFE.INTERP, 47_lfe.md R230. -/
  | lfeInterp (ssf : Fin 4)
  /-- DMX.APPLY, 48_downmix.md R240. -/
  | dmxApply
  /-- RESYNC, 30_encoding.md R91. -/
  | resync (buf len : Word32)
  /-- DECODE_FRAME, R91. -/
  | decodeFrame (buf len flags level bias : Word32)
deriving DecidableEq, Repr

end Sys2Proof
end

