-- ==== Sys2Proof/WellFormed.lean ====
section
/-! DEFINITION. Which instructions are well formed: the operand ranges and shapes that the rules state. -/

namespace Sys2Proof

/-- 30_encoding.md R65: the command codes 0x01 to 0x07. -/
def isCommandWord (w : Word32) : Bool := 1 ≤ w.toNat && w.toNat ≤ 7

/-- 30_encoding.md R85: one code is a prefix of another, or the same. -/
def codePrefix (d e : CodeEntry) : Bool := d.len ≤ e.len && e.code / 2 ^ (e.len - d.len) == d.code

/-- 30_encoding.md R85: lengths from 1, codes below `2^length`, no code a prefix of another. -/
def bookWellFormed : Codebook → Bool
  | [] => true
  | e :: es =>
    1 ≤ e.len && e.code < 2 ^ e.len && es.all (fun d => !codePrefix d e && !codePrefix e d) && bookWellFormed es

/-- 44_sample_decode.md R167: the operands of BLK.DECODE: one of the seven `levels`, and a code below `2^size`. -/
def blockOperands (code levels : Nat) : Bool :=
  [1, 2, 3, 4, 5, 6, 7].any fun a => levels == blockLevels a && code < 2 ^ blockSize a

namespace Instr

/-- The operand ranges of every instruction; ranges that a type already gives need no test. -/
def wellFormed : Instr → Bool
  | .illegal w => !isCommandWord w
  | .fsMatch14le w => syncMatches sync14leMatch sync14leMask w
  | .fsMatch14be w => syncMatches sync14beMatch sync14beMask w
  | .fsMatch16le w => syncMatches sync16leMatch sync16leMask w
  | .fsMatch16be w => syncMatches sync16beMatch sync16beMask w
  | .brInit base _ p => viewAdmitted base p
  | .fsHeader base _ p => viewAdmitted base p
  | .brGet n => widthAllowed n
  | .getSigned n => widthAllowed n
  | .huffDec book => !book.isEmpty && bookWellFormed book
  | .qxHuff book => !book.isEmpty && bookWellFormed book
  | .qxRaw a => 8 ≤ a.val
  | .qxBlock a => 1 ≤ a.val && a.val ≤ 7
  | .blkDecode code levels => blockOperands code levels
  | .init | .probe | .beginFrame | .blocksRemaining | .decodeBlock | .setDrcHook | .teardown
  | .fdHeader | .fdPrimhdr | .drcHook | .dmxSelect _ _ _ _ _ | .advance | .sfHeader
  | .readBitalloc _ | .readScales _ | .readJoint _ | .readLfe | .ssBody _ | .dsyncCheck _
  | .sfFooter | .lfeRotate | .qx _ _ | .qxNone | .hfvqLookup _ _ _ | .reconScale _ _ _ _
  | .reconAdpcm _ _ | .phUpdate | .synQmf32 _ | .modulate _ | .butterfly _ _ | .fold _ _ _
  | .accumulate _ | .shift _ | .lfeInterp _ | .dmxApply | .resync _ _ | .decodeFrame _ _ _ _ _ => true

end Instr
end Sys2Proof
end

