-- ==== Sys2Proof/Decode.lean ====
section
/-! DEFINITION. Decoding a command word (30_encoding.md R65) and a sync window (R66), and the encoder beside it.
Micro-operations and pseudo-commands have no encoding (opcode_table.json). -/

namespace Sys2Proof

/-- What can be decoded: a word written to `CMD`, or the window `B[0..5]` with `B[0]` most significant. -/
inductive CodeWord where
  | cmd (w : Word32)
  | window (b : BitVec 48)
deriving DecidableEq, Repr

/-- Why a code word stands for no instruction. -/
inductive DecodeError where
  /-- R66: no pattern matches the window. -/
  | noSyncPattern
  /-- The bytes are not the six of a window. -/
  | notAWindow
deriving DecidableEq, Repr

/-- R65: the command code, every other word being illegal. -/
def decodeCmd (w : Word32) : Instr :=
  match w.toNat with
  | 1 => .init
  | 2 => .probe
  | 3 => .beginFrame
  | 4 => .blocksRemaining
  | 5 => .decodeBlock
  | 6 => .setDrcHook
  | 7 => .teardown
  | _ => .illegal w

/-- R66, R101: the four patterns in the order of trial. -/
def decodeWindow (b : BitVec 48) : Except DecodeError Instr :=
  if syncMatches sync14leMatch sync14leMask b then .ok (.fsMatch14le b)
  else if syncMatches sync14beMatch sync14beMask b then .ok (.fsMatch14be b)
  else if syncMatches sync16leMatch sync16leMask b then .ok (.fsMatch16le b)
  else if syncMatches sync16beMatch sync16beMask b then .ok (.fsMatch16be b)
  else .error .noSyncPattern

/-- Decoding of any code word. -/
def decode : CodeWord → Except DecodeError Instr
  | .cmd w => .ok (decodeCmd w)
  | .window b => decodeWindow b

/-- R66: six bytes as a window, `B[0]` most significant. -/
def windowOfBytes (b0 b1 b2 b3 b4 b5 : Byte) : BitVec 48 := b0 ++ b1 ++ b2 ++ b3 ++ b4 ++ b5

/-- Decoding of the bytes of a candidate window. -/
def decodeBytes : List Byte → Except DecodeError Instr
  | [b0, b1, b2, b3, b4, b5] => decodeWindow (windowOfBytes b0 b1 b2 b3 b4 b5)
  | _ => .error .notAWindow

/-- The code word of an instruction that has one. -/
def encode : Instr → Option CodeWord
  | .init => some (.cmd 0x01#32)
  | .probe => some (.cmd 0x02#32)
  | .beginFrame => some (.cmd 0x03#32)
  | .blocksRemaining => some (.cmd 0x04#32)
  | .decodeBlock => some (.cmd 0x05#32)
  | .setDrcHook => some (.cmd 0x06#32)
  | .teardown => some (.cmd 0x07#32)
  | .illegal w => some (.cmd w)
  | .fsMatch14le b => some (.window b)
  | .fsMatch14be b => some (.window b)
  | .fsMatch16le b => some (.window b)
  | .fsMatch16be b => some (.window b)
  | .brInit _ _ _ | .brGet _ | .getSigned _ | .fsHeader _ _ _ | .fdHeader | .fdPrimhdr | .drcHook
  | .dmxSelect _ _ _ _ _ | .advance | .sfHeader | .readBitalloc _ | .readScales _ | .readJoint _
  | .readLfe | .ssBody _ | .dsyncCheck _ | .sfFooter | .lfeRotate | .huffDec _ | .qx _ _ | .qxNone
  | .qxHuff _ | .qxRaw _ | .qxBlock _ | .blkDecode _ _ | .hfvqLookup _ _ _ | .reconScale _ _ _ _
  | .reconAdpcm _ _ | .phUpdate | .synQmf32 _ | .modulate _ | .butterfly _ _ | .fold _ _ _
  | .accumulate _ | .shift _ | .lfeInterp _ | .dmxApply | .resync _ _ | .decodeFrame _ _ _ _ _ => none

/-- The code word of a table row's bits: up to 32 bits are a command word, 48 a sync window (log entry 32). -/
def tableCodeWord (nbits w : Nat) : Option CodeWord :=
  if nbits = 0 then none
  else if nbits ≤ 32 then some (.cmd (BitVec.ofNat 32 w))
  else if nbits ≤ 48 then some (.window (BitVec.ofNat 48 w))
  else none

/-- The instruction the decoder reads from the bits of an opcode-table row. -/
def decodeTableWord (nbits w : Nat) : Option Instr :=
  match tableCodeWord nbits w with
  | none => none
  | some cw =>
    match decode cw with
    | .ok i => some i
    | .error _ => none

end Sys2Proof
end

