-- ==== Sys2Proof/Machine/BitReader.lean ====
section
/-! DEFINITION. The BitReader (40_bitreader.md): BR.INIT, BR.GET, get_signed. -/

namespace Sys2Proof.Machine

/-- BR.INIT on the architectural BitCursor, R92, with the refusal of 20_memory.md R55. -/
def brInitOp (base len : Word32) (p : Packing) : Op Unit := do
  requireView base p
  modify fun s => { s with bc := cursorInit base len p }

/-- BR.INIT, R92. -/
def execBrInit (base len : Word32) (p : Packing) (s : State) : Answer := answerUnit (brInitOp base len p) s

/-- BR.GET, R93. -/
def execBrGet (n : Nat) (s : State) : Answer := answerValue (getBits n) UnitResult.bits s

/-- get_signed, R95. -/
def execGetSigned (n : Nat) (s : State) : Answer := answerValue (getSignedBits n) UnitResult.int s

end Sys2Proof.Machine
end

