-- ==== Sys2Proof/Machine/FrameSync.lean ====
section
/-! DEFINITION. FrameSync (41_framesync.md): FS.MATCH.*, FS.HEADER, PROBE. -/

namespace Sys2Proof.Machine

/-- R101: one pattern tried on a window. -/
def tryPattern (m k : BitVec 48) (p : Packing) (window : BitVec 48) : Option Packing :=
  if syncMatches m k window then some p else none

/-- R101, row 1. -/
def try14le (w : BitVec 48) : Option Packing := tryPattern sync14leMatch sync14leMask { wordMode := .w14, endian := .le } w
/-- R101, row 2. -/
def try14be (w : BitVec 48) : Option Packing := tryPattern sync14beMatch sync14beMask { wordMode := .w14, endian := .be } w
/-- R101, row 3. -/
def try16le (w : BitVec 48) : Option Packing := tryPattern sync16leMatch sync16leMask { wordMode := .w16, endian := .le } w
/-- R101, row 4. -/
def try16be (w : BitVec 48) : Option Packing := tryPattern sync16beMatch sync16beMask { wordMode := .w16, endian := .be } w

/-- R101: the four patterns in the order of trial. -/
def matchWindow (w : BitVec 48) : Option Packing :=
  (try14le w).orElse fun _ => (try14be w).orElse fun _ => (try16le w).orElse fun _ => try16be w

/-- R101: the window `B[0..5]` of a view. -/
def viewWindow (m : Memory) (base len : Word32) : BitVec 48 :=
  windowOfBytes (viewByte m base len 0) (viewByte m base len 1) (viewByte m base len 2) (viewByte m base len 3)
    (viewByte m base len 4) (viewByte m base len 5)

/-- R101: `FS.MATCH(addr, len)`. -/
def fsMatch (m : Memory) (base len : Word32) : Option Packing := matchWindow (viewWindow m base len)

/-- FS.MATCH.14LE, R101. -/
def execFsMatch14le (w : BitVec 48) (s : State) : Answer := .next { s with unit := .sync (try14le w) }
/-- FS.MATCH.14BE, R101. -/
def execFsMatch14be (w : BitVec 48) (s : State) : Answer := .next { s with unit := .sync (try14be w) }
/-- FS.MATCH.16LE, R101. -/
def execFsMatch16le (w : BitVec 48) (s : State) : Answer := .next { s with unit := .sync (try16le w) }
/-- FS.MATCH.16BE, R101. -/
def execFsMatch16be (w : BitVec 48) (s : State) : Answer := .next { s with unit := .sync (try16be w) }

/-- 30_encoding.md R70: the frame's length in buffer bytes. -/
def frameBytes (mode : WordMode) (fs : Nat) : Nat :=
  match mode with
  | .w14 => fs * 8 / 14 * 2
  | .w16 => fs

/-- R102: the fixed header parsed and validated on a scratch cursor; `none` is REJECT. -/
def fsHeader (m : Memory) (r : Rom) (sc : BitCursor) : Option ProbeResult :=
  let (_, sc) := cursorGet m 32 sc
  let (_, sc) := cursorGet m 1 sc
  let (_, sc) := cursorGet m 5 sc
  let (_, sc) := cursorGet m 1 sc
  let (nblks, sc) := cursorGet m 7 sc
  if (nblks + 1) * 32 < 6 * 32 then none else
  let (fsize, sc) := cursorGet m 14 sc
  let fs := fsize + 1
  if fs < 96 then none else
  let (amode, sc) := cursorGet m 6 sc
  if amode > 63 then none else
  let (i, sc) := cursorGet m 4 sc
  if i ≥ 16 ∨ tget r.sampleRate i = 0#32 then none else
  let (k, sc) := cursorGet m 5 sc
  if k ≥ 32 ∨ tget r.bitRate k = 0#32 then none else
  let (_, sc) := cursorGet m 10 sc
  let (lfe, _) := cursorGet m 2 sc
  some
    { flags := flagsWord amode (lfe != 0)
      sampleRate := tget r.sampleRate i
      bitRate := tget r.bitRate k
      frameBytes := frameBytes sc.wordMode fs }

/-- FS.HEADER, R102, on a scratch cursor just initialised on the view. -/
def execFsHeader (base len : Word32) (p : Packing) (s : State) : Answer :=
  if viewAdmitted base p then
    .next { s with unit := .header (fsHeader s.mem s.rom (cursorInit base len p)) }
  else .refused .misalignedView

/-- R100, `fail`: `RES_FRAME_LEN = 0`, the other results unspecified (free values, log entry 8). -/
def probeFail (s : State) : State :=
  let u := (Config.freeDecoder s.free).res
  { s with
    res := { s.res with flags := u.flags, sampleRate := u.sampleRate, bitRate := u.bitRate, frameLen := 0#32 }
    code := .syncNotFound
    free := s.free + 1 }

/-- R100, the results of a sync point. -/
def probeFound (h : ProbeResult) (s : State) : State :=
  { s with
    res := { s.res with flags := h.flags, sampleRate := h.sampleRate, bitRate := h.bitRate,
                        frameLen := BitVec.ofNat 32 h.frameBytes }
    code := .ok }

/-- 60_exceptions.md R271: the programmer-error precondition of PROBE and BEGIN_FRAME. -/
def badView (s : State) : Bool := s.args.bufAddr == 0#32 || s.args.bufLen == 0#32

/-- R100: PROBE. -/
def probeCmd (s : State) : Answer :=
  if s.life = .uninit then .next (setCode .notReady s)
  else if badView s then .next (setCode .badArgument s)
  else
    match fsMatch s.mem s.args.bufAddr s.args.bufLen with
    | none => .next (probeFail s)
    | some p =>
      if viewAdmitted s.args.bufAddr p then
        match fsHeader s.mem s.rom (cursorInit s.args.bufAddr s.args.bufLen p) with
        | none => .next (probeFail s)
        | some h => .next (probeFound h s)
      else .refused .misalignedView

/-- PROBE, R100. -/
def execProbe (s : State) : Answer := probeCmd s

end Sys2Proof.Machine
end

