-- ==== Sys2Proof/Machine/FrameDecoder.lean ====
section
/-! DEFINITION. The FrameDecoder (42_framedecoder.md): FD.HEADER, FD.PRIMHDR, DRC.HOOK, BEGIN_FRAME. -/

namespace Sys2Proof.Machine

/-- A field of `n` bits loaded into a register of `w` bits. -/
def getField (n w : Nat) : Op (BitVec w) := do
  let v ← getBits n
  pure (BitVec.ofNat w v)

/-- R114, first part: SYNC to RATE, with the range checks of R115. -/
def fdHeaderChecked : Op Unit := do
  skipBits 32
  let v ← getField 1 1
  setSh fun h => { h with frameType := v }
  let v ← getField 5 5
  setSh fun h => { h with samplesDeficit := v }
  let v ← getField 1 1
  setSh fun h => { h with crcPresent := v }
  let v ← getBits 7
  setSh fun h => { h with sampleBlocks := BitVec.ofNat 8 (v + 1) }
  if (v + 1) * 32 < 192 then raiseOp .malformedHeader .nblks
  let v ← getBits 14
  setSh fun h => { h with frameSize := BitVec.ofNat 15 (v + 1) }
  if v + 1 < 96 then raiseOp .malformedHeader .fsize
  let v ← getField 6 6
  setSh fun h => { h with amode := v }
  let v ← getField 4 4
  setSh fun h => { h with sampleRate := v }
  let s ← get
  if tget s.rom.sampleRate v.toNat = 0#32 then raiseOp .malformedHeader .sfreq
  let v ← getField 5 5
  setSh fun h => { h with bitRate := v }
  if tget s.rom.bitRate v.toNat = 0#32 then raiseOp .malformedHeader .rate

/-- R114, second part: the flags to PREDHIST, with the check of R116. -/
def fdHeaderFlags : Op Unit := do
  let v ← getField 1 1
  setSh fun h => { h with downmix := v }
  let v ← getField 1 1
  setSh fun h => { h with dynrange := v }
  let v ← getField 1 1
  setSh fun h => { h with timestamp := v }
  let v ← getField 1 1
  setSh fun h => { h with auxData := v }
  let v ← getField 1 1
  setSh fun h => { h with hdcd := v }
  let v ← getField 3 3
  setSh fun h => { h with extDescr := v }
  let v ← getField 1 1
  setSh fun h => { h with extCoding := v }
  let v ← getField 1 1
  setSh fun h => { h with aspf := v }
  let v ← getField 2 2
  setSh fun h => { h with lfe := v }
  if v = 3#2 then raiseOp .malformedHeader .lfe
  let v ← getField 1 1
  setSh fun h => { h with predictorHistory := v }

/-- R114, third part: HCRC and the tail. -/
def fdHeaderTail : Op Unit := do
  let s ← get
  if s.sh.crcPresent = 1#1 then
    let v ← getField 16 16
    setSh fun h => { h with headerCrc := v }
  let v ← getField 1 1
  setSh fun h => { h with multirateInter := v }
  let v ← getField 4 4
  setSh fun h => { h with version := v }
  let v ← getField 2 2
  setSh fun h => { h with copyHistory := v }
  let v ← getField 3 3
  setSh fun h => { h with sourcePcmRes := v }
  let v ← getField 1 1
  setSh fun h => { h with frontSum := v }
  let v ← getField 1 1
  setSh fun h => { h with surroundSum := v }
  let v ← getField 4 4
  setSh fun h => { h with dialogNorm := v }

/-- R114. -/
def fdHeaderOp : Op Unit := do
  fdHeaderChecked
  fdHeaderFlags
  fdHeaderTail

/-- FD.HEADER, R114. -/
def execFdHeader (s : State) : Answer := answerUnit fdHeaderOp s

/-- R118, R129: the VQ-start field of one channel. -/
def vqStartField (c : Nat) : Op Unit := do
  let v ← getBits 5
  setChF c fun f => { f with vqStartSubband := BitVec.ofNat 6 (min (v + 1) 32) }
  let s ← get
  if vqOf s c > actOf s c then raiseOp .corruptStream .vqStart

/-- R118, R120: the BHUFF field of one channel. -/
def bhuffField (c : Nat) : Op Unit := do
  let v ← getField 3 3
  setChF c fun f => { f with bitallocHuffman := v }
  if v = 7#3 then raiseOp .malformedHeader .bhuff

/-- R118, rows 1 to 8 of `PHDR`. -/
def primhdrCounts : Op Unit := do
  let v ← getBits 4
  setSh fun h => { h with subframes := BitVec.ofNat 5 (v + 1) }
  let v ← getBits 3
  setSh fun h => { h with totalChannels := BitVec.ofNat 4 (v + 1), primChannels := BitVec.ofNat 4 (min (v + 1) 8) }
  let s ← get
  let cs := List.range (primCount s)
  forEach cs fun c => do
    let v ← getBits 5
    setChF c fun f => { f with subbandActivity := BitVec.ofNat 6 (min (v + 2) 32) }
  forEach cs vqStartField
  forEach cs fun c => do
    let v ← getField 3 3
    setChF c fun f => { f with jointIntensity := v }
  forEach cs fun c => do
    let v ← getField 2 2
    setChF c fun f => { f with transientHuffman := v }
  forEach cs fun c => do
    let v ← getField 3 3
    setChF c fun f => { f with scalefactorHuffman := v }
  forEach cs bhuffField

/-- R118, R121: the selector of abits value `a` of one channel, `n` bits wide. -/
def selField (n a c : Nat) : Op Unit := do
  let v ← getField n 3
  setChF c fun f => { f with quantSel := vput f.quantSel a v }

/-- R118: a selector that is not transmitted. -/
def selZero (a c : Nat) : Op Unit := setChF c fun f => { f with quantSel := vput f.quantSel a 0#3 }

/-- R118, R121: the quantization-index codebook selectors. -/
def primhdrSelectors (cs : List Nat) : Op Unit := do
  forEach cs fun c => do
    selZero 0 c
    selField 1 1 c
  forEach (span 2 6) fun a => forEach cs (selField 2 a)
  forEach (span 6 11) fun a => forEach cs (selField 3 a)
  forEach (span 11 27) fun a => forEach cs (selZero a)

/-- R118, R122: the adjustment of abits value `a` of one channel, present when its selector is below `bound`. -/
def adjField (bound a c : Nat) : Op Unit := do
  let s ← get
  if (vget (vget s.chF c).quantSel a).toNat < bound then
    let v ← getBits 2
    setChF c fun f => { f with sfAdj := vput f.sfAdj a (tget s.rom.adj v) }

/-- R118, R122: the scale-factor adjustments. -/
def primhdrAdjust (cs : List Nat) : Op Unit := do
  let s ← get
  forEach (span 0 11) fun a =>
    forEach cs fun c => setChF c fun f => { f with sfAdj := vput f.sfAdj a (numOfInt s.rom.sampleKind 1) }
  forEach cs (adjField 1 1)
  forEach (span 2 6) fun a => forEach cs (adjField 3 a)
  forEach (span 6 11) fun a => forEach cs (adjField 7 a)

/-- R118. -/
def fdPrimhdrOp : Op Unit := do
  primhdrCounts
  let s ← get
  let cs := List.range (primCount s)
  primhdrSelectors cs
  primhdrAdjust cs
  if s.sh.crcPresent = 1#1 then skipBits 16

/-- FD.PRIMHDR, R118. -/
def execFdPrimhdr (s : State) : Answer := answerUnit fdPrimhdrOp s

/-- R125: the hooked case is refused, every other one does nothing. -/
def drcHookOp : Op Unit := do
  let s ← get
  if s.hook ≠ 0#32 ∧ s.sh.dynrange = 1#1 then refuseOp .drcHook

/-- DRC.HOOK, R125. -/
def execDrcHook (s : State) : Answer := answerUnit drcHookOp s

/-- R113, the lines from `DMX.SELECT` to the write-back: the output arrangement of the frame (R117). -/
def selectOutput : Op Unit := do
  let s ← get
  let k := s.rom.sampleKind
  let (out, lvl) ←
    dmxSelectOp s.sh.amode.toNat s.args.flags (numLoad k s.args.level) s.rom.clev s.rom.slev
  let lfe := s.sh.lfe != 0#2 && flagsLfe s.args.flags
  setFr fun f =>
    { f with output := out, outputLfe := lfe, level := lvl, bias := numLoad k s.args.bias, clev := s.rom.clev,
             slev := s.rom.slev }
  modify fun s =>
    { s with args := { s.args with flags := flagsWord (arrangementCode out) lfe, level := numStore k lvl } }

/-- R113, the lines after FD.PRIMHDR. -/
def startFrame : Op Unit := do
  let s ← get
  match arrangementOf s.sh.amode.toNat with
  | none => raiseOp .malformedHeader .pchs
  | some a => if primCount s ≠ nchOf s.rom a then raiseOp .malformedHeader .pchs
  setFr fun f =>
    { f with blocksTotal := BitVec.ofNat 32 (s.sh.sampleBlocks.toNat / 8), blocksDone := 0#32 }
  setSeq fun _ => { frame := .active, currentSubframe := 0#5, currentSubsubframe := 0#3 }

/-- R113 after its two `require` lines. -/
def beginFrameOp : Op Unit := do
  setSeq fun q => { q with frame := .aborted }
  let s ← get
  match fsMatch s.mem s.args.bufAddr s.args.bufLen with
  | none => raiseOp .syncNotFound .sync
  | some p => brInitOp s.args.bufAddr s.args.bufLen p
  fdHeaderOp
  selectOutput
  drcHookOp
  fdPrimhdrOp
  startFrame

/-- R113, R281: what a failed BEGIN_FRAME leaves unspecified (free values, log entry 8). -/
def forgetFrame (s : State) : State :=
  let u := Config.freeDecoder s.free
  let a := Config.freeArgs s.free
  { s with
    bc := u.bc
    sh := u.sh
    chF := u.chF
    fr := u.fr
    seq := { u.seq with frame := s.seq.frame }
    args := { s.args with flags := a.flags, level := a.level }
    free := s.free + 1 }

/-- R113: BEGIN_FRAME. -/
def beginFrameCmd (s : State) : Answer :=
  if s.life = .uninit then .next (setCode .notReady s)
  else if badView s then .next (setCode .badArgument s)
  else
    match beginFrameOp s with
    | .ok _ t => .next (setCode .ok t)
    | .error (.raise c _) t => .next (forgetFrame (takeError c t))
    | .error (.refuse r) _ => .refused r

/-- BEGIN_FRAME, R113. -/
def execBeginFrame (s : State) : Answer := beginFrameCmd s

end Sys2Proof.Machine
end

