-- ==== Sys2Proof/Machine/HostCommands.lean ====
section
/-! DEFINITION. The host commands of 49_host_commands.md: INIT, BLOCKS_REMAINING, SET_DRC_HOOK, TEARDOWN, and the ILLEGAL
word (30_encoding.md R65). -/

namespace Sys2Proof.Machine

/-- INIT, R250: the values of 10_state.md R49, the synthesis tables of 46_synthesis.md R222, `BC`, `SUBSAMP` and `OUT`
unspecified (free values, log entry 8). -/
def execInit (s : State) : Answer :=
  let u := Config.freeDecoder s.free
  .next { s with
    toDecoder := { Decoder.reset s.rom.syn with bc := u.bc, subsamp := u.subsamp, out := u.out }
    life := .ready
    code := .ok
    free := s.free + 1 }

/-- R254: the count. -/
def blocksLeft (s : State) : Nat := if s.seq.frame = .active then s.fr.blocksTotal.toNat - s.fr.blocksDone.toNat else 0

/-- R254: BLOCKS_REMAINING. -/
def blocksRemainingCmd (s : State) : State :=
  if s.life = .uninit then setCode .notReady s
  else { s with res := { s.res with blocks := BitVec.ofNat 32 (blocksLeft s) }, code := .ok }

/-- BLOCKS_REMAINING, R254. -/
def execBlocksRemaining (s : State) : Answer := .next (blocksRemainingCmd s)

/-- SET_DRC_HOOK, R255. -/
def execSetDrcHook (s : State) : Answer :=
  if s.life = .uninit then .next (setCode .notReady s)
  else .next { s with hook := s.args.hook, hookUser := s.args.user, code := .ok }

/-- TEARDOWN, R256: everything but `LIFE` and `STATUS.CODE` becomes unspecified (free values, log entry 8); the argument
registers are kept (70_reset_and_hazards.md R281). -/
def execTeardown (s : State) : Answer :=
  if s.life = .uninit then .next (setCode .notReady s)
  else .next { s with toDecoder := Config.freeDecoder s.free, life := .uninit, code := .ok, free := s.free + 1 }

/-- ILLEGAL, 30_encoding.md R65: the code and nothing else, in either `LIFE` state (log entry 14). -/
def execIllegal (_w : Word32) (s : State) : Answer := .next (setCode .illegalCommand s)

end Sys2Proof.Machine
end

