-- ==== Sys2Proof/Machine/Lfe.lean ====
section
/-! DEFINITION. The LFE FIR upsampler (47_lfe.md): LFE.INTERP. -/

namespace Sys2Proof.Machine

/-- R230: `LFEX(base + d − J)`, 0 below index 0 (R231). -/
def lfeTap (s : State) (pos j : Nat) : Num :=
  if j ≤ pos then vget s.lfe (pos - j) else 0#64

/-- R230: the output of decimated position `pos` at phase `ph`. -/
def lfeSample (s : State) (factor taps pos ph : Nat) : Word32 :=
  let k := s.rom.sampleKind
  let acc := (List.range taps).foldl
    (fun acc j => numAdd k acc (numMul k (lfeTap s pos j) (tget (lfeFirOf s) (ph + j * factor)))) (0#64)
  numStore k (numAdd k acc s.fr.bias)

/-- R230: LFE.INTERP. DESIGN CHOICE, log entry 21: run alone with `SH.lfe = 0`, for which the rule divides by `D = 0` and which it
says does not occur, it leaves the slot as it is. -/
def lfeInterp (s : State) (ssf : Nat) : State :=
  let d := 2 * s.sh.lfe.toNat
  let f := 256 / d
  let base := lfeSpan s + d * ssf
  let slot := nchOf s.rom s.fr.output
  { s with
    out := vput s.out slot (vtab 256 fun n =>
      if n < d * f then lfeSample s f (512 / f) (base + n / f) (n % f) else vget (vget s.out slot) n) }

/-- LFE.INTERP, R230. -/
def execLfeInterp (ssf : Fin 4) (s : State) : Answer := .next (lfeInterp s ssf.val)

end Sys2Proof.Machine
end

