-- ==== Sys2Proof/Machine/Reconstruct.lean ====
section
/-! DEFINITION. The quantized-sample reconstructor with ADPCM (45_reconstruct.md): RECON.SCALE, RECON.ADPCM, PH.UPDATE. -/

namespace Sys2Proof.Machine

/-- R182: the scale-factor slot in use. -/
def scaleSlot (t ssf : Nat) : Nat := if t > 0 ∧ ssf ≥ t then 1 else 0

/-- R182: `rscale`. -/
def rscaleOf (s : State) (c sb ssf : Nat) : Num :=
  let k := s.rom.sampleKind
  let h := vget s.chS c
  let a := (vget h.bitalloc sb).toNat
  let sel := (vget (vget s.chF c).quantSel a).toNat
  let f := if scaleSlot (vget h.transitionMode sb).toNat ssf = 1 then vget h.scale1 sb else vget h.scale0 sb
  numMul k (numMul k (qstepOf s a) f) (adjOf s c a sel)

/-- R182: RECON.SCALE; an index 0 gives +0 whatever the scale (R182, R190; log entry 10). -/
def reconScale (s : State) (c sb ssf : Nat) (q : Vector Int 8) : Vector Num 8 :=
  let k := s.rom.sampleKind
  let r := rscaleOf s c sb ssf
  vtab 8 fun m => if vget q m = 0 then 0#64 else numMul k (numOfInt k (vget q m)) r

/-- RECON.SCALE, R182. -/
def execReconScale (c : Fin 8) (sb : Fin 32) (ssf : Fin 4) (q : Vector Int 8) (s : State) : Answer :=
  .next { s with unit := .nums8 (reconScale s c.val sb.val ssf.val q) }

/-- R184: what tap `n` adds to sample `m`: an earlier sample of the sub-block, or of the history where it is enabled. -/
def adpcmTap (k : SampleKind) (useHist : Bool) (coef : Nat → Num) (h : Vector Num 4) (m : Nat) (x : Vector Num 8)
    (n : Nat) (acc : Num) : Num :=
  if n ≤ m then numAdd k acc (numMul k (coef (n - 1)) (vget x (m - n)))
  else if useHist then numAdd k acc (numMul k (coef (n - 1)) (vget h (m + 4 - n)))
  else acc

/-- R184: sample `m`, taps `n = 1, 2, 3, 4` in order. -/
def adpcmSample (k : SampleKind) (useHist : Bool) (coef : Nat → Num) (h : Vector Num 4) (x : Vector Num 8) (m : Nat) :
    Vector Num 8 :=
  vput x m ([1, 2, 3, 4].foldl (fun acc n => adpcmTap k useHist coef h m x n acc) (vget x m))

/-- R184: the eight samples in order, in place. -/
def adpcmRun (k : SampleKind) (useHist : Bool) (coef : Nat → Num) (h : Vector Num 4) (x : Vector Num 8) : Vector Num 8 :=
  (List.range 8).foldl (adpcmSample k useHist coef h) x

/-- R184: RECON.ADPCM. -/
def reconAdpcm (s : State) (c sb : Nat) : State :=
  let i := (vget (vget s.chS c).predictionVq sb).toNat
  let x := adpcmRun s.rom.sampleKind (s.sh.predictorHistory == 1#1) (fun j => tget s.rom.adpcm (i, j))
    (vget (vget s.ph c) sb) (subsampAt s c sb)
  { s with subsamp := vput s.subsamp c (vput (vget s.subsamp c) sb x) }

/-- RECON.ADPCM, R184. -/
def execReconAdpcm (c : Fin 8) (sb : Fin 32) (s : State) : Answer := .next (reconAdpcm s c.val sb.val)

/-- R186: PH.UPDATE. -/
def phUpdate (s : State) : State :=
  { s with
    ph := vtab 8 fun c =>
      if c < primCount s then
        vtab 32 fun sb =>
          if sb < max (actOf s c) (vqOf s c) then vtab 4 fun i => vget (subsampAt s c sb) (4 + i)
          else vget (vget s.ph c) sb
      else vget s.ph c }

/-- PH.UPDATE, R186. -/
def execPhUpdate (s : State) : Answer := .next (phUpdate s)

end Sys2Proof.Machine
end

