-- ==== Sys2Proof/Machine/SampleDecode.lean ====
section
/-! DEFINITION. The Huffman/VQ sample decoder (44_sample_decode.md): HUFF.DEC, QX, QX.NONE, QX.HUFF, QX.RAW, QX.BLOCK,
BLK.DECODE, HFVQ.LOOKUP. -/

namespace Sys2Proof.Machine

/-- R160: the longest code of a codebook. -/
def bookDepth (book : Codebook) : Nat := book.foldl (fun n e => max n e.len) 0

/-- R160: the entry that the `len` bits read so far spell. -/
def bookFind (book : Codebook) (len code : Nat) : Option CodeEntry :=
  book.find? fun e => e.len == len && e.code == code

/-- R160: the loop of `huff`, `left` bits before the longest code is spent. -/
def huffLoop (book : Codebook) : Nat → Nat → Nat → Op Int
  | 0, _, _ => raiseOp .corruptStream .huffman
  | left + 1, len, code => do
    let b ← getBits 1
    match bookFind book (len + 1) (2 * code + b) with
    | some e => pure e.value
    | none => huffLoop book left (len + 1) (2 * code + b)

/-- R160: `huff(book)`; a first bit is read whatever the book (log entry 25). -/
def huffOp (book : Codebook) : Op Int := huffLoop book (max 1 (bookDepth book)) 0 0

/-- HUFF.DEC, R160. -/
def execHuffDec (book : Codebook) (s : State) : Answer := answerValue (huffOp book) UnitResult.int s

/-- Eight integers from a list. -/
def ints8Of (l : List Int) : Vector Int 8 := vtab 8 fun i => l.getD i 0

/-- R163: QX.NONE. -/
def qxNoneVal : Vector Int 8 := vtab 8 fun _ => 0

/-- QX.NONE, R163. -/
def execQxNone (s : State) : Answer := .next { s with unit := .ints8 qxNoneVal }

/-- R164: QX.HUFF. -/
def qxHuffOp (book : Codebook) : Op (Vector Int 8) := do
  let l ← collect 8 (huffOp book)
  pure (ints8Of l)

/-- QX.HUFF, R164. -/
def execQxHuff (book : Codebook) (s : State) : Answer := answerValue (qxHuffOp book) UnitResult.ints8 s

/-- R165: QX.RAW. -/
def qxRawOp (a : Nat) : Op (Vector Int 8) := do
  let l ← collect 8 (getSignedBits (a - 3))
  pure (ints8Of l)

/-- QX.RAW, R165. -/
def execQxRaw (a : Fin 27) (s : State) : Answer := answerValue (qxRawOp a.val) UnitResult.ints8 s

/-- R167: the four base-`levels` digits of a codeword, least significant first, `none` at or above `levels^4`. -/
def blkDecode (code levels : Nat) : Option (Vector Int 4) :=
  if code ≥ levels ^ 4 then none
  else some (vtab 4 fun i => (code / levels ^ i % levels : Nat) - ((levels - 1) / 2 : Nat))

/-- R167 as an operation. -/
def blkDecodeOp (code levels : Nat) : Op (Vector Int 4) :=
  match blkDecode code levels with
  | some v => pure v
  | none => raiseOp .corruptStream .blockCode

/-- BLK.DECODE, R167. -/
def execBlkDecode (code levels : Nat) (s : State) : Answer := answerValue (blkDecodeOp code levels) UnitResult.ints4 s

/-- R166: QX.BLOCK; both codewords are read before either is decoded. -/
def qxBlockOp (a : Nat) : Op (Vector Int 8) := do
  let c1 ← getBits (blockSize a)
  let c2 ← getBits (blockSize a)
  let u ← blkDecodeOp c1 (blockLevels a)
  let v ← blkDecodeOp c2 (blockLevels a)
  pure (vtab 8 fun i => if i < 4 then vget u i else vget v (i - 4))

/-- QX.BLOCK, R166. -/
def execQxBlock (a : Fin 27) (s : State) : Answer := answerValue (qxBlockOp a.val) UnitResult.ints8 s

/-- 44_sample_decode.md R161, R162: the codebook of `(a, sel)`; never one for `a = 0` or `a > 10`. -/
def qidxBookOf (r : Rom) (a sel : Nat) : Option Codebook :=
  if a = 0 ∨ a > 10 then none else tget r.qidxBook (a, sel)

/-- R162: the four families partition all `(a, sel)`. -/
def qxOp (a sel : Nat) : Op (Vector Int 8) := do
  let s ← get
  if a = 0 then pure qxNoneVal
  else
    match qidxBookOf s.rom a sel with
    | some book => qxHuffOp book
    | none => if a ≤ 7 then qxBlockOp a else qxRawOp a

/-- QX, R162. -/
def execQx (a : Fin 27) (sel : BitVec 3) (s : State) : Answer :=
  answerValue (qxOp a.val sel.toNat) UnitResult.ints8 s

/-- R170: HFVQ.LOOKUP. -/
def hfvqLookup (s : State) (c sb ssf : Nat) : Vector Num 8 :=
  let k := s.rom.sampleKind
  let i := (vget (vget s.chS c).highFreqVq sb).toNat
  let f := vget (vget s.chS c).scale0 sb
  vtab 8 fun m => numDiv k (numMul k (tget s.rom.hfvq (i, 8 * ssf + m)) f) (numOfInt k 16)

/-- HFVQ.LOOKUP, R170. -/
def execHfvqLookup (c : Fin 8) (sb : Fin 32) (ssf : Fin 4) (s : State) : Answer :=
  .next { s with unit := .nums8 (hfvqLookup s c.val sb.val ssf.val) }

end Sys2Proof.Machine
end

