-- ==== Sys2Proof/Machine/Synthesis.lean ====
section
/-! DEFINITION. The 32-band synthesis filterbank (46_synthesis.md): SYN.QMF32, MODULATE, BUTTERFLY, FOLD, ACCUMULATE,
SHIFT. -/

namespace Sys2Proof.Machine

/-- R218: one term of `A[k]`. -/
def modulateTermA (k : SampleKind) (t : SynTables) (x : Vector Num 32) (row : Nat) (acc : Num) (i : Nat) : Num :=
  numAdd k acc (numMul k (numAdd k (vget x (2 * i)) (vget x (2 * i + 1))) (vget (vget t.cosA row) i))

/-- R218: one term of `B[k]`. -/
def modulateTermB (k : SampleKind) (t : SynTables) (x : Vector Num 32) (row : Nat) (acc : Num) (i : Nat) : Num :=
  if i > 0 then numAdd k acc (numMul k (numAdd k (vget x (2 * i)) (vget x (2 * i - 1))) (vget (vget t.cosB row) i))
  else numAdd k acc (numMul k (vget x 0) (vget (vget t.cosB row) 0))

/-- R218: MODULATE. -/
def modulateVal (k : SampleKind) (t : SynTables) (x : Vector Num 32) : Vector Num 16 × Vector Num 16 :=
  let zero : Num := 0#64
  (vtab 16 fun row => (List.range 16).foldl (modulateTermA k t x row) zero,
   vtab 16 fun row => (List.range 16).foldl (modulateTermB k t x row) zero)

/-- MODULATE, R218. -/
def execModulate (x : Vector Num 32) (s : State) : Answer :=
  let r := modulateVal s.rom.sampleKind s.syn x
  .next { s with unit := .pair16 r.1 r.2 }

/-- R219: BUTTERFLY. -/
def butterflyVal (k : SampleKind) (a b : Vector Num 16) : Vector Num 16 × Vector Num 16 :=
  (vtab 16 fun i => numAdd k (vget a i) (vget b i), vtab 16 fun i => numSub k (vget a i) (vget b i))

/-- BUTTERFLY, R219. -/
def execButterfly (a b : Vector Num 16) (s : State) : Answer :=
  let r := butterflyVal s.rom.sampleKind a b
  .next { s with unit := .pair16 r.1 r.2 }

/-- R219: FOLD on one channel's history. -/
def foldVal (k : SampleKind) (t : SynTables) (sum diff : Vector Num 16) (h : Vector Num 512) : Vector Num 512 :=
  vtab 512 fun i =>
    if i < 16 then numMul k (vget t.winF i) (vget sum i)
    else if i < 32 then numMul k (vget t.winA (31 - i)) (vget diff (31 - i))
    else vget h i

/-- FOLD, R219. -/
def execFold (c : Fin 8) (sum diff : Vector Num 16) (s : State) : Answer :=
  .next { s with hist := vput s.hist c.val (foldVal s.rom.sampleKind s.syn sum diff (vget s.hist c.val)) }

/-- R220: the offsets `j`. -/
def firOffsets : List Nat := [0, 64, 128, 192, 256, 320, 384, 448]

/-- R220, first line, at offset `j`. -/
def accumulateLow (k : SampleKind) (fir : Table Nat Num) (h : Vector Num 512) (i : Nat) (acc : Num) (j : Nat) : Num :=
  numAdd k acc (numMul k (tget fir (i + j)) (numSub k (vget h (i + j)) (vget h (j + 31 - i))))

/-- R220, second line, at offset `j`. -/
def accumulateHigh (k : SampleKind) (fir : Table Nat Num) (h : Vector Num 512) (i : Nat) (acc : Num) (j : Nat) : Num :=
  numAdd k acc (numMul k (tget fir (32 + i + j)) (numSub k (numNeg k (vget h (i + j))) (vget h (j + 31 - i))))

/-- R220: ACCUMULATE on one channel's staging buffer. -/
def accumulateVal (k : SampleKind) (fir : Table Nat Num) (h : Vector Num 512) (st : Vector Num 64) : Vector Num 64 :=
  vtab 64 fun i =>
    if i < 32 then firOffsets.foldl (accumulateLow k fir h i) (vget st i)
    else firOffsets.foldl (accumulateHigh k fir h (i - 32)) (vget st i)

/-- ACCUMULATE, R220. -/
def execAccumulate (c : Fin 8) (s : State) : Answer :=
  .next { s with
    stage := vput s.stage c.val (accumulateVal s.rom.sampleKind (firOf s) (vget s.hist c.val) (vget s.stage c.val)) }

/-- R221: SHIFT of the history. -/
def shiftHist (h : Vector Num 512) : Vector Num 512 := vtab 512 fun i => if i < 32 then vget h i else vget h (i - 32)

/-- R221: SHIFT of the staging buffer. -/
def shiftStage (st : Vector Num 64) : Vector Num 64 :=
  vtab 64 fun i => if i < 32 then vget st (32 + i) else 0#64

/-- SHIFT, R221. -/
def execShift (c : Fin 8) (s : State) : Answer :=
  .next { s with
    hist := vput s.hist c.val (shiftHist (vget s.hist c.val))
    stage := vput s.stage c.val (shiftStage (vget s.stage c.val)) }

/-- R216: the input vector of position `p`; subbands at or above the activity count enter as 0. -/
def synInput (s : State) (c p : Nat) : Vector Num 32 :=
  vtab 32 fun sb => if sb < actOf s c then vget (subsampAt s c sb) p else 0#64

/-- What the filterbank carries from position to position, and the samples emitted so far. -/
structure SynRun where
  hist : Vector Num 512
  stage : Vector Num 64
  row : Vector Word32 256
deriving DecidableEq, Repr

/-- R217: one position: MODULATE, BUTTERFLY, FOLD, ACCUMULATE, output, SHIFT. -/
def synPosition (k : SampleKind) (t : SynTables) (fir : Table Nat Num) (input : Nat → Vector Num 32) (r : SynRun)
    (p : Nat) : SynRun :=
  let ab := modulateVal k t (input p)
  let sd := butterflyVal k ab.1 ab.2
  let h := foldVal k t sd.1 sd.2 r.hist
  let st := accumulateVal k fir h r.stage
  { hist := shiftHist h
    stage := shiftStage st
    row := vtab 256 fun n =>
      if n / 32 = p then numStore k (numMul k (vget st (n % 32)) (pcmScale k)) else vget r.row n }

/-- R217: the eight positions of a sub-block. -/
def synRun (s : State) (c : Nat) : SynRun :=
  (List.range 8).foldl (synPosition s.rom.sampleKind s.syn (firOf s) (synInput s c))
    { hist := vget s.hist c, stage := vget s.stage c, row := vget s.out c }

/-- R217: SYN.QMF32. -/
def synQmf32 (s : State) (c : Nat) : State :=
  let r := synRun s c
  { s with hist := vput s.hist c r.hist, stage := vput s.stage c r.stage, out := vput s.out c r.row }

/-- SYN.QMF32, R217. -/
def execSynQmf32 (c : Fin 8) (s : State) : Answer := .next (synQmf32 s c.val)

end Sys2Proof.Machine
end

