-- ==== Sys2Proof/Machine/Subframe.lean ====
section
/-! DEFINITION. The SubframeBlockDecoder sequencer (43_subframe.md): SF.HEADER and its readers, SS.BODY, DSYNC.CHECK,
SF.FOOTER, LFE.ROTATE, ADVANCE, DECODE_BLOCK. -/

namespace Sys2Proof.Machine

/-! ### Subframe header -/

/-- R141: the index as it stands in the stream. -/
def bitallocIndex (c : Nat) : Op Int := do
  let s ← get
  let b := (vget s.chF c).bitallocHuffman.toNat
  if b = 6 then
    let v ← getBits 5
    pure (v : Int)
  else if b = 5 then
    let v ← getBits 4
    pure (v : Int)
  else huffOp (tget s.rom.huffBitalloc b)

/-- R141, R142: READ_BITALLOC; an index that is negative is out of range as one above 26 is (log entry 13). -/
def readBitallocOp (c : Nat) : Op Nat := do
  let v ← bitallocIndex c
  if v > 26 ∨ v < 0 then raiseOp .corruptStream .bitalloc
  pure v.toNat

/-- READ_BITALLOC, R141. -/
def execReadBitalloc (c : Fin 8) (s : State) : Answer := answerValue (readBitallocOp c.val) UnitResult.bits s

/-- R146: NEXT_SCALE. -/
def nextScaleOp (h : Nat) (sum : Int) : Op Int := do
  let s ← get
  if h ≤ 4 then
    let d ← huffOp (tget s.rom.huffScale h)
    pure (sum + d)
  else if h = 5 then
    let v ← getBits 6
    pure (v : Int)
  else if h = 6 then
    let v ← getBits 7
    pure (v : Int)
  else raiseOp .corruptStream .scaleSelector

/-- R146, R147: SCALE_LOOKUP. -/
def scaleLookupOp (h : Nat) (i : Int) : Op Num := do
  let s ← get
  if h = 6 then
    if i < 0 ∨ i > 127 then raiseOp .corruptStream .scaleIndex
    pure (tget s.rom.scale7 i.toNat)
  else
    if i < 0 ∨ i > 63 then raiseOp .corruptStream .scaleIndex
    pure (tget s.rom.scale6 i.toNat)

/-- R146: one scale factor: the next running sum, and its table entry. -/
def readScaleOp (h : Nat) (sum : Int) : Op (Int × Num) := do
  let sum ← nextScaleOp h sum
  let f ← scaleLookupOp h sum
  pure (sum, f)

/-- R146: slot 0 of subband `sb`, where it is present. -/
def readSlot0 (c h sb : Nat) (sum : Int) : Op Int := do
  let s ← get
  if sb ≥ vqOf s c ∨ vget (vget s.chS c).bitalloc sb ≠ 0#5 then
    let (sum, f) ← readScaleOp h sum
    setChS c fun r => { r with scale0 := vput r.scale0 sb f }
    pure sum
  else pure sum

/-- R146: slot 1 of subband `sb`, where a transition is flagged. -/
def readSlot1 (c h sb : Nat) (sum : Int) : Op Int := do
  let s ← get
  if sb < vqOf s c ∧ vget (vget s.chS c).transitionMode sb ≠ 0#2 then
    let (sum, f) ← readScaleOp h sum
    setChS c fun r => { r with scale1 := vput r.scale1 sb f }
    pure sum
  else pure sum

/-- R146: the subbands of a channel in order, with the running sum. -/
def readScaleLoop (c h : Nat) : List Nat → Int → Op Unit
  | [], _ => pure ()
  | sb :: rest, sum => do
    let sum ← readSlot0 c h sb sum
    let sum ← readSlot1 c h sb sum
    readScaleLoop c h rest sum

/-- R146: READ_SCALES. -/
def readScalesOp (c : Nat) : Op Unit := do
  let s ← get
  let act := actOf s c
  setChS c fun r =>
    { r with
      scale0 := vtab 32 fun sb => if sb < act then 0#64 else vget r.scale0 sb
      scale1 := vtab 32 fun sb => if sb < act then 0#64 else vget r.scale1 sb }
  readScaleLoop c (vget s.chF c).scalefactorHuffman.toNat (List.range act) 0

/-- READ_SCALES, R146. -/
def execReadScales (c : Fin 8) (s : State) : Answer := answerUnit (readScalesOp c.val) s

/-- R152: one joint scale factor as it stands in the stream. -/
def jointScaleOp (h : Nat) : Op Int := do
  let s ← get
  if h ≤ 4 then huffOp (tget s.rom.huffScale h)
  else if h = 5 then
    let v ← getBits 6
    pure (v : Int)
  else if h = 6 then
    let v ← getBits 7
    pure (v : Int)
  else raiseOp .corruptStream .scaleSelector

/-- R152: READ_JOINT. SF.HEADER runs it only on a channel with `joint_intensity > 0` (R138). DESIGN CHOICE, log entry 21: run
alone with `joint_intensity = 0`, where the rule's `src` is −1 and the spec gives it no meaning, the natural subtraction takes
`src = 0` and the operation goes on. -/
def readJointOp (c : Nat) : Op Unit := do
  let s ← get
  let src := (vget s.chF c).jointIntensity.toNat - 1
  if src ≥ primCount s then raiseOp .corruptStream .jointSource
  forEach (span (actOf s c) (actOf s src)) fun sb => do
    let v ← jointScaleOp (vget s.chS c).jointHuff.toNat
    setChS c fun r => { r with jointScaleFactor := vput r.jointScaleFactor sb (BitVec.ofInt 8 (v + 64)) }
  warnJointOp

/-- READ_JOINT, R152. -/
def execReadJoint (c : Fin 8) (s : State) : Answer := answerUnit (readJointOp c.val) s

/-- R154: the value of one LFE sample. -/
def lfeValue (r : Rom) (scale : Num) (raw : Int) : Num :=
  numMul r.sampleKind (numMul r.sampleKind (numOfInt r.sampleKind raw) scale) r.lfeGain

/-- R154: READ_LFE. -/
def readLfeOp : Op Unit := do
  let s ← get
  let span := lfeSpan s
  let raw ← collect span (getSignedBits 8)
  let i ← getBits 8
  if i > 127 then raiseOp .corruptStream .scaleIndex
  let f := tget s.rom.scale7 i
  setSf fun r => { r with lfeScaleFactor := f }
  modify fun s =>
    { s with
      lfe := vtab 32 fun j =>
        if span ≤ j ∧ j < 2 * span then lfeValue s.rom f (raw.getD (j - span) 0) else vget s.lfe j }

/-- READ_LFE, R154. -/
def execReadLfe (s : State) : Answer := answerUnit readLfeOp s

/-- R138, R144: the transition mode of one subband. -/
def readTransition (c sb : Nat) : Op Unit := do
  setChS c fun r => { r with transitionMode := vput r.transitionMode sb 0#2 }
  let s ← get
  if s.sf.subsubframes.toNat > 1 ∧ sb < vqOf s c ∧ vget (vget s.chS c).bitalloc sb ≠ 0#5 then
    let v ← huffOp (tget s.rom.huffTmode (vget s.chF c).transientHuffman.toNat)
    setChS c fun r => { r with transitionMode := vput r.transitionMode sb (BitVec.ofInt 2 v) }

/-- R138, R140: PMODE of one subband. -/
def readPmode (c sb : Nat) : Op Unit := do
  let v ← getBits 1
  setChS c fun r => { r with predictionMode := vput r.predictionMode sb (BitVec.ofNat 1 v) }

/-- R138, R140: PVQ of one subband. -/
def readPvq (c sb : Nat) : Op Unit := do
  let s ← get
  if vget (vget s.chS c).predictionMode sb = 1#1 then
    let v ← getBits 12
    setChS c fun r => { r with predictionVq := vput r.predictionVq sb (BitVec.ofNat 12 v) }

/-- R138: BITALLOC of one subband. -/
def readAlloc (c sb : Nat) : Op Unit := do
  let v ← readBitallocOp c
  setChS c fun r => { r with bitalloc := vput r.bitalloc sb (BitVec.ofNat 5 v) }

/-- R138: HFVQ of one subband. -/
def readHfvq (c sb : Nat) : Op Unit := do
  let v ← getBits 10
  setChS c fun r => { r with highFreqVq := vput r.highFreqVq sb (BitVec.ofNat 10 v) }

/-- R138: JHUFF of one channel. -/
def readJhuff (c : Nat) : Op Unit := do
  let s ← get
  if (vget s.chF c).jointIntensity ≠ 0#3 then
    let v ← getBits 3
    setChS c fun r => { r with jointHuff := BitVec.ofNat 3 v }

/-- R138: the joint scale factors of one channel. -/
def readJointIf (c : Nat) : Op Unit := do
  let s ← get
  if (vget s.chF c).jointIntensity ≠ 0#3 then readJointOp c

/-- R138, R153: DMXCOEF of one channel. -/
def readDmxCoef (c : Nat) : Op Unit := do
  let v ← getBits 7
  setChS c fun r => { r with dmx0 := BitVec.ofNat 7 v }
  let v ← getBits 7
  setChS c fun r => { r with dmx1 := BitVec.ofNat 7 v }

/-- A pass over the active subbands `s < act[c]` of every channel. -/
def passActive (cs : List Nat) (f : Nat → Nat → Op Unit) : Op Unit :=
  forEach cs fun c => do
    let s ← get
    forEach (List.range (actOf s c)) (f c)

/-- R138, rows 1 to 6 of `SFHDR`: counts, prediction, bit allocation, transition modes. -/
def sfHeaderAlloc (cs : List Nat) : Op Unit := do
  let v ← getBits 2
  setSf fun r => { r with subsubframes := BitVec.ofNat 3 (v + 1) }
  let v ← getBits 3
  setSf fun r => { r with partialSamples := BitVec.ofNat 3 v }
  passActive cs readPmode
  passActive cs readPvq
  forEach cs fun c => do
    let s ← get
    forEach (List.range (vqOf s c)) (readAlloc c)
  passActive cs readTransition

/-- R138, rows 7 to 13 of `SFHDR`: scale factors, joint data, coefficients, CRC, HFVQ. -/
def sfHeaderScales (cs : List Nat) : Op Unit := do
  forEach cs readScalesOp
  forEach cs readJhuff
  forEach cs readJointIf
  let s ← get
  if primCount s > 2 ∧ s.sh.downmix = 1#1 then forEach cs readDmxCoef
  if s.sh.dynrange = 1#1 then
    let v ← getBits 8
    setSf fun r => { r with dynrangeCoef := BitVec.ofNat 8 v }
  if s.sh.crcPresent = 1#1 then skipBits 16
  forEach cs fun c => do
    let s ← get
    forEach (span (vqOf s c) (actOf s c)) (readHfvq c)

/-- R138. -/
def sfHeaderOp : Op Unit := do
  let s ← get
  let cs := List.range (primCount s)
  sfHeaderAlloc cs
  sfHeaderScales cs
  if s.sh.lfe ≠ 0#2 then readLfeOp

/-- SF.HEADER, R138. -/
def execSfHeader (s : State) : Answer := answerUnit sfHeaderOp s

/-! ### Sub-block body -/

/-- R155: one subband below the VQ start. -/
def bodyScalar (c ssf sb : Nat) : Op Unit := do
  let s ← get
  let a := (vget (vget s.chS c).bitalloc sb).toNat
  let sel := (vget (vget s.chF c).quantSel a).toNat
  let q ← qxOp a sel
  let s ← get
  setSubsamp c sb (reconScale s c sb ssf q)
  if vget (vget s.chS c).predictionMode sb = 1#1 then modify fun s => reconAdpcm s c sb

/-- R155: one subband from the VQ start on. -/
def bodyVq (c ssf sb : Nat) : Op Unit := do
  let s ← get
  setSubsamp c sb (hfvqLookup s c sb ssf)

/-- R155: the subbands of one channel. -/
def bodyChannel (ssf c : Nat) : Op Unit := do
  let s ← get
  forEach (List.range (vqOf s c)) (bodyScalar c ssf)
  forEach (span (vqOf s c) (actOf s c)) (bodyVq c ssf)

/-- R155. -/
def ssBodyOp (ssf : Nat) : Op Unit := do
  let s ← get
  forEach (List.range (primCount s)) (bodyChannel ssf)

/-- SS.BODY, R155. -/
def execSsBody (ssf : Fin 4) (s : State) : Answer := answerUnit (ssBodyOp ssf.val) s

/-- R156. -/
def dsyncCheckOp (ssf : Nat) : Op Unit := do
  let s ← get
  if s.sh.aspf = 1#1 ∨ ssf + 1 = s.sf.subsubframes.toNat then
    let v ← getBits 16
    if v ≠ 0xFFFF then warnDsyncOp

/-- DSYNC.CHECK, R156. -/
def execDsyncCheck (ssf : Fin 4) (s : State) : Answer := answerUnit (dsyncCheckOp ssf.val) s

/-! ### Footer and advance -/

/-- R158. -/
def lfeRotate (s : State) : State :=
  { s with lfe := vtab 32 fun i => if i < lfeSpan s then vget s.lfe (i + lfeSpan s) else vget s.lfe i }

/-- LFE.ROTATE, R158. -/
def execLfeRotate (s : State) : Answer := .next (lfeRotate s)

/-- R157. -/
def sfFooterOp : Op Unit := do
  let s ← get
  if s.sh.timestamp = 1#1 then skipBits 32
  if s.sh.auxData = 1#1 then
    let n ← getBits 6
    forEach (List.range n) fun _ => skipBits 8
  if s.sh.crcPresent = 1#1 ∧ (s.sh.downmix = 1#1 ∨ s.sh.dynrange = 1#1) then skipBits 16
  modify lfeRotate

/-- SF.FOOTER, R157. -/
def execSfFooter (s : State) : Answer := answerUnit sfFooterOp s

/-- R136: the position after one sub-block. -/
def nextPosition (subsubframes : Nat) (q : Sequencer) : Sequencer :=
  if q.currentSubsubframe.toNat + 1 ≥ subsubframes then
    { q with currentSubsubframe := 0#3, currentSubframe := q.currentSubframe + 1#5 }
  else { q with currentSubsubframe := q.currentSubsubframe + 1#3 }

/-- R136. DEDUCED, log entry 33: the footer, and LFE.ROTATE in it, runs once per frame (R137, R158, 47_lfe.md R232), although
90_conflicts.md C4 speaks of a rotation at the end of every subframe. -/
def advanceOp : Op Unit := do
  let s ← get
  setSeq (nextPosition s.sf.subsubframes.toNat)
  let s ← get
  if s.seq.currentSubframe.toNat ≥ s.sh.subframes.toNat then sfFooterOp

/-- ADVANCE, R136. -/
def execAdvance (s : State) : Answer := answerUnit advanceOp s

/-! ### DECODE_BLOCK -/

/-- R135, the lines that read the stream up to the samples; every `raise` of DECODE_BLOCK is in them. -/
def decodeSamples (ssf : Nat) : Op Unit := do
  let s ← get
  if s.seq.currentSubframe.toNat ≥ s.sh.subframes.toNat then raiseOp .corruptStream .subframeIndex
  if ssf = 0 then sfHeaderOp
  ssBodyOp ssf

/-- R135: SYN.QMF32 on every primary channel. -/
def synthesizeAll (s : State) : State := (List.range (primCount s)).foldl synQmf32 s

/-- R135, the lines from PH.UPDATE to LFE.INTERP. -/
def renderBlock (ssf : Nat) (s : State) : State :=
  let s := dmxApply (synthesizeAll (phUpdate s))
  if s.fr.outputLfe then lfeInterp s ssf else s

/-- `RES_OUT_CH`, the number of valid slots. DEDUCED, log entry 34: the sum of R135, held to the 6 that 10_state.md R41,
92_eei_decisions.md D36 and 90_conflicts.md C8 allow. The two differ only for an output of six channels (4F2R) with LFE, whose
LFE slot (47_lfe.md R230) is then not a valid one. -/
def outChannels (s : State) : Nat := min 6 (nchOf s.rom s.fr.output + if s.fr.outputLfe then 1 else 0)

/-- 20_memory.md R56, 93 U15: the slots that hold no meaning after a block take free values (log entry 8); so does the
scratch `SUBSAMP`, which holds no value across commands (10_state.md R24, 93 U16; log entry 9). -/
def forgetSlots (s : State) : State :=
  let u := Config.freeDecoder s.free
  { s with
    out := vtab 9 fun ch => if ch < outChannels s then vget s.out ch else vget u.out ch
    subsamp := u.subsamp
    free := s.free + 1 }

/-- R135, the last lines. -/
def finishBlock (s : State) : State :=
  forgetSlots
    { s with
      fr := { s.fr with blocksDone := s.fr.blocksDone + 1#32 }
      res := { s.res with outCh := BitVec.ofNat 32 (outChannels s) } }

/-- R135 after its `require` line and the refusal. -/
def decodeBlockOp : Op Unit := do
  let s ← get
  let ssf := s.seq.currentSubsubframe.toNat
  decodeSamples ssf
  modify (renderBlock ssf)
  dsyncCheckOp ssf
  advanceOp
  modify finishBlock

/-- R135, R281: what a failed DECODE_BLOCK leaves unspecified (free values, log entry 8). Of `LFE_DATA` that is the upper half
`[L .. 2L − 1]` (10_state.md R27); every other entry is kept. -/
def forgetBlock (s : State) : State :=
  let u := Config.freeDecoder s.free
  { s with
    bc := u.bc
    chS := u.chS
    sf := u.sf
    subsamp := u.subsamp
    lfe := vtab 32 fun i => if lfeSpan s ≤ i ∧ i < 2 * lfeSpan s then vget u.lfe i else vget s.lfe i
    seq := { u.seq with frame := s.seq.frame }
    free := s.free + 1 }

/-- R135: DECODE_BLOCK. -/
def decodeBlockCmd (s : State) : Answer :=
  if s.life = .uninit then .next (setCode .notReady s)
  else if s.seq.frame ≠ .active then .next (setCode .corruptStream s)
  else
    match decodeBlockOp s with
    | .ok _ t => .next (setCode .ok t)
    | .error (.raise c _) t => .next (forgetBlock (takeError c t))
    | .error (.refuse r) _ => .refused r

/-- DECODE_BLOCK, R135. -/
def execDecodeBlock (s : State) : Answer := decodeBlockCmd s

end Sys2Proof.Machine
end

