-- ==== Sys2Proof/Machine/Scripts.lean ====
section
/-! DEFINITION. The pseudo-commands RESYNC and DECODE_FRAME (30_encoding.md R91): loops of commands on the host's side. -/

namespace Sys2Proof.Machine

/-- R90: the argument registers of a PROBE line. -/
def probeArgs (buf len : Nat) (s : State) : State :=
  { s with args := { s.args with bufAddr := BitVec.ofNat 32 buf, bufLen := BitVec.ofNat 32 len } }

/-- R91, RESYNC: offsets from `off` on, `left` of them in which the header can lie; it stops at the first sync point. DESIGN
CHOICE, log entry 22: R91 gives no `off` where none is found; the answer is then `none`, and the registers are as the last
PROBE left them. -/
def resyncLoop (buf len : Nat) : Nat → Nat → State → Answer
  | 0, _, s => .next { s with unit := .offset none }
  | left + 1, off, s =>
    match probeCmd (probeArgs (buf + off) (len - off) s) with
    | .next t => if t.res.frameLen ≠ 0#32 then .next { t with unit := .offset (some off) }
                 else resyncLoop buf len left (off + 1) t
    | .fault f => .fault f
    | .refused r => .refused r

/-- RESYNC, R91. -/
def execResync (buf len : Word32) (s : State) : Answer :=
  resyncLoop buf.toNat len.toNat (len.toNat + 1 - Config.headerMinBytes) 0 s

/-- R90: the argument registers of a BEGIN_FRAME line. -/
def frameArgs (buf len flags level bias : Word32) (s : State) : State :=
  { s with args := { s.args with bufAddr := buf, bufLen := len, flags := flags, level := level, bias := bias } }

/-- What the host hands to the sink after a block: the valid slots of `OUT`. -/
def validSlots (s : State) : List (Vector Word32 256) := (List.range s.res.outCh.toNat).map (vget s.out)

/-- R91, DECODE_FRAME: the block loop, with the blocks handed over so far; it ends when BLOCKS_REMAINING answers 0 or the last
command of the frame did not answer OK (log entry 22). -/
def decodeFrameLoop : Nat → List (List (Vector Word32 256)) → State → Answer
  | 0, done, s => .next { blocksRemainingCmd s with unit := .pcm done }
  | left + 1, done, s =>
    let t := blocksRemainingCmd s
    if t.res.blocks ≠ 0#32 ∧ s.code = .ok then
      match decodeBlockCmd t with
      | .next u => decodeFrameLoop left (if u.code = .ok then done ++ [validSlots u] else done) u
      | .fault f => .fault f
      | .refused r => .refused r
    else .next { t with unit := .pcm done }

/-- DECODE_FRAME, R91; no more blocks are asked for than BLOCKS_REMAINING counts. -/
def execDecodeFrame (buf len flags level bias : Word32) (s : State) : Answer :=
  match beginFrameCmd (frameArgs buf len flags level bias s) with
  | .next t => decodeFrameLoop (blocksLeft t) [] t
  | .fault f => .fault f
  | .refused r => .refused r

end Sys2Proof.Machine
end

