-- ==== Sys2Proof/Machine/Dispatch.lean ====
section
/-! DEFINITION. The meaning of each instruction: one arm per constructor of `Instr`. -/

namespace Sys2Proof.Machine

def exec (i : Instr) (s : State) : Host.Outcome State Fault Refusal :=
  match i with
  | .init => Sys2Proof.Machine.execInit s
  | .probe => Sys2Proof.Machine.execProbe s
  | .beginFrame => Sys2Proof.Machine.execBeginFrame s
  | .blocksRemaining => Sys2Proof.Machine.execBlocksRemaining s
  | .decodeBlock => Sys2Proof.Machine.execDecodeBlock s
  | .setDrcHook => Sys2Proof.Machine.execSetDrcHook s
  | .teardown => Sys2Proof.Machine.execTeardown s
  | .illegal w => Sys2Proof.Machine.execIllegal w s
  | .fsMatch14le w => Sys2Proof.Machine.execFsMatch14le w s
  | .fsMatch14be w => Sys2Proof.Machine.execFsMatch14be w s
  | .fsMatch16le w => Sys2Proof.Machine.execFsMatch16le w s
  | .fsMatch16be w => Sys2Proof.Machine.execFsMatch16be w s
  | .brInit base len p => Sys2Proof.Machine.execBrInit base len p s
  | .brGet n => Sys2Proof.Machine.execBrGet n s
  | .getSigned n => Sys2Proof.Machine.execGetSigned n s
  | .fsHeader base len p => Sys2Proof.Machine.execFsHeader base len p s
  | .fdHeader => Sys2Proof.Machine.execFdHeader s
  | .fdPrimhdr => Sys2Proof.Machine.execFdPrimhdr s
  | .drcHook => Sys2Proof.Machine.execDrcHook s
  | .dmxSelect primary flags level clev slev => Sys2Proof.Machine.execDmxSelect primary flags level clev slev s
  | .advance => Sys2Proof.Machine.execAdvance s
  | .sfHeader => Sys2Proof.Machine.execSfHeader s
  | .readBitalloc c => Sys2Proof.Machine.execReadBitalloc c s
  | .readScales c => Sys2Proof.Machine.execReadScales c s
  | .readJoint c => Sys2Proof.Machine.execReadJoint c s
  | .readLfe => Sys2Proof.Machine.execReadLfe s
  | .ssBody ssf => Sys2Proof.Machine.execSsBody ssf s
  | .dsyncCheck ssf => Sys2Proof.Machine.execDsyncCheck ssf s
  | .sfFooter => Sys2Proof.Machine.execSfFooter s
  | .lfeRotate => Sys2Proof.Machine.execLfeRotate s
  | .huffDec book => Sys2Proof.Machine.execHuffDec book s
  | .qx a sel => Sys2Proof.Machine.execQx a sel s
  | .qxNone => Sys2Proof.Machine.execQxNone s
  | .qxHuff book => Sys2Proof.Machine.execQxHuff book s
  | .qxRaw a => Sys2Proof.Machine.execQxRaw a s
  | .qxBlock a => Sys2Proof.Machine.execQxBlock a s
  | .blkDecode code levels => Sys2Proof.Machine.execBlkDecode code levels s
  | .hfvqLookup c sb ssf => Sys2Proof.Machine.execHfvqLookup c sb ssf s
  | .reconScale c sb ssf q => Sys2Proof.Machine.execReconScale c sb ssf q s
  | .reconAdpcm c sb => Sys2Proof.Machine.execReconAdpcm c sb s
  | .phUpdate => Sys2Proof.Machine.execPhUpdate s
  | .synQmf32 c => Sys2Proof.Machine.execSynQmf32 c s
  | .modulate x => Sys2Proof.Machine.execModulate x s
  | .butterfly a b => Sys2Proof.Machine.execButterfly a b s
  | .fold c sum diff => Sys2Proof.Machine.execFold c sum diff s
  | .accumulate c => Sys2Proof.Machine.execAccumulate c s
  | .shift c => Sys2Proof.Machine.execShift c s
  | .lfeInterp ssf => Sys2Proof.Machine.execLfeInterp ssf s
  | .dmxApply => Sys2Proof.Machine.execDmxApply s
  | .resync buf len => Sys2Proof.Machine.execResync buf len s
  | .decodeFrame buf len flags level bias => Sys2Proof.Machine.execDecodeFrame buf len flags level bias s

end Sys2Proof.Machine
end

