-- ==== Sys2Proof/Machine/HostPort.lean ====
section
/-! DEFINITION. The host's side of the interface: the register block (10_state.md R12 to R14), the OutputBuffer window
(20_memory.md R51, R56), their addresses in the host's map (R58) and host memory (R50). A write to `CMD` is not here: `step` runs
it. -/

namespace Sys2Proof.Machine

/-- 10_state.md R12: the offset of `CMD`. -/
def cmdOffset : Nat := 0x00

/-- R12: a host write to an argument register. -/
def writeArg (offset : Nat) (v : Word32) (a : ArgRegs) : Option ArgRegs :=
  match offset with
  | 0x08 => some { a with bufAddr := v }
  | 0x0C => some { a with bufLen := v }
  | 0x10 => some { a with flags := v }
  | 0x14 => some { a with level := v }
  | 0x18 => some { a with bias := v }
  | 0x1C => some { a with hint := v }
  | 0x20 => some { a with hook := v }
  | 0x24 => some { a with user := v }
  | _ => none

/-- R12: the word a host read of a register other than `CMD` returns. -/
def registerWord (s : State) (offset : Nat) : Option Word32 :=
  match offset with
  | 0x04 => some (statusWord s)
  | 0x08 => some s.args.bufAddr
  | 0x0C => some s.args.bufLen
  | 0x10 => some s.args.flags
  | 0x14 => some s.args.level
  | 0x18 => some s.args.bias
  | 0x1C => some s.args.hint
  | 0x20 => some s.args.hook
  | 0x24 => some s.args.user
  | 0x28 => some s.res.flags
  | 0x2C => some s.res.sampleRate
  | 0x30 => some s.res.bitRate
  | 0x34 => some s.res.frameLen
  | 0x38 => some s.res.blocks
  | 0x3C => some s.res.outCh
  | _ => none

/-- A host write to a register other than `CMD` (log entry 15). -/
def hostWrite (offset : Nat) (v : Word32) (s : State) : Answer :=
  match writeArg offset v s.args with
  | some a => .next { s with args := a }
  | none =>
    match registerWord s offset with
    | some _ => .fault .registerNotWritable
    | none => .fault .noSuchRegister

/-- A host read of a register; `CMD` returns an unspecified value (R13; a free value, log entry 8). -/
def hostRead (offset : Nat) (s : State) : Answer :=
  if offset = cmdOffset then .next { s with bus := Config.freeWord s.free, free := s.free + 1 }
  else
    match registerWord s offset with
    | some v => .next { s with bus := v }
    | none => .fault .noSuchRegister

/-- 20_memory.md R51: the bytes of the OutputBuffer window. -/
def windowBytes : Nat := 9 * 256 * 4

/-- R56: the byte offset of `OUT[ch][n]`, with `count` valid slots. -/
def outOffset (layout : OutLayout) (count ch n : Nat) : Nat :=
  match layout with
  | .interleaved => 4 * (n * count + ch)
  | .planar => 4 * (ch * 256 + n)

/-- R56: the slot and sample at word `i` of the window, `none` past the last sample of an interleaved block and at a slot that
`OUT` has not got (an unspecified `RES_OUT_CH` above 9). -/
def outPosition (layout : OutLayout) (count i : Nat) : Option (Nat × Nat) :=
  match layout with
  | .interleaved => if i < 256 * count ∧ i % count < 9 then some (i % count, i / count) else none
  | .planar => some (i / 256, i % 256)

/-- A host read of a stored sample; a word of the window that holds no sample returns a free value (93 U15, log entry 16). -/
def hostReadOut (offset : Nat) (s : State) : Answer :=
  if offset % 4 ≠ 0 ∨ offset ≥ windowBytes then .fault .noSuchSample
  else
    match outPosition s.rom.outLayout s.res.outCh.toNat (offset / 4) with
    | some p => .next { s with bus := vget (vget s.out p.1) p.2 }
    | none => .next { s with bus := Config.freeWord s.free, free := s.free + 1 }

/-- The host writes a byte of its own memory (R63; log entry 17). -/
def hostStore (a : Nat) (b : Byte) (s : State) : Answer := .next { s with mem := memWrite s.mem a b }

/-- 20_memory.md R58: where an address of the host's map lies in the block, as an offset from `REG_BASE` or `OUT_BASE`. -/
inductive BlockPlace where
  | register (offset : Nat)
  | window (offset : Nat)
deriving DecidableEq, Repr

/-- 10_state.md R12: the bytes of the register block. -/
def registerBytes : Nat := 0x40

/-- 10_state.md R12, 20_memory.md R51, R58: the place of an address. DESIGN CHOICE, log entry 30: where a platform lays the two
ranges over one another, the register block is the one addressed. -/
def placeOf (r : Rom) (address : Nat) : Option BlockPlace :=
  if r.regBase ≤ address ∧ address < r.regBase + registerBytes then some (.register (address - r.regBase))
  else if r.outBase ≤ address ∧ address < r.outBase + windowBytes then some (.window (address - r.outBase))
  else none

end Sys2Proof.Machine
end

