-- ==== Sys2Proof/Machine/Step.lean ====
section
/-! DEFINITION. One step: the oldest pending host access is performed; with none pending the block is idle and keeps all
state (60_exceptions.md R275). A write to `CMD` is decoded and run to completion (10_state.md R13). -/

namespace Sys2Proof.Machine

/-- A code word decoded and run; a window that no pattern matches gives NONE (41_framesync.md R101). -/
def runCodeWord (cw : CodeWord) (s : State) : Host.Outcome State Fault Refusal :=
  match decode cw with
  | .ok i => exec i s
  | .error _ => .next { s with unit := .sync none }

/-- 10_state.md R12, R13: a host write to the register at an offset; at `CMD` it is a command. -/
def writeRegister (offset : Nat) (v : Word32) (s : State) : Host.Outcome State Fault Refusal :=
  if offset = cmdOffset then runCodeWord (.cmd v) { s with cmd := v } else hostWrite offset v s

/-- 20_memory.md R51, R58: a host write at an address of its map. -/
def writeAt (address : Nat) (v : Word32) (s : State) : Host.Outcome State Fault Refusal :=
  match placeOf s.rom address with
  | some (.register offset) => writeRegister offset v s
  | some (.window _) => .fault .windowNotWritable
  | none => .fault .noSuchAddress

/-- 20_memory.md R51, R58: a host read at an address of its map. -/
def readAt (address : Nat) (s : State) : Host.Outcome State Fault Refusal :=
  match placeOf s.rom address with
  | some (.register offset) => hostRead offset s
  | some (.window offset) => hostReadOut offset s
  | none => .fault .noSuchAddress

/-- One host access. -/
def access (a : HostAccess) (s : State) : Host.Outcome State Fault Refusal :=
  match a with
  | .writeReg offset v => writeRegister offset v s
  | .readReg offset => hostRead offset s
  | .readOut offset => hostReadOut offset s
  | .writeAddress address v => writeAt address v s
  | .readAddress address => readAt address s
  | .storeByte address v => hostStore address v s
  | .syncWindow b => runCodeWord (.window b) s

/-- One step of the machine. -/
def step (s : State) : Host.Outcome State Fault Refusal :=
  match s.host with
  | [] => .next s
  | a :: rest => access a { s with host := rest }

/-- The host access that presents a code word. -/
def accessOf : CodeWord → HostAccess
  | .cmd w => .writeReg cmdOffset w
  | .window b => .syncWindow b

/-- `s` with the instruction of a table row's bits where the next step takes it from: the oldest pending host access. -/
def State.withFetchWord (s : State) (nbits w : Nat) : State :=
  match tableCodeWord nbits w with
  | some cw => { s with host := accessOf cw :: s.host }
  | none => s

end Sys2Proof.Machine
end

