-- ==== Sys2Proof/Safety.lean ====
section
/-! DEFINITION. What counts as a safe run, and the terms in which statements speak of the machine: the stream as a string of
bits (40_bitreader.md R94), the bitstream formats by bit offset (30_encoding.md R67, R77), the frame that `BEGIN_FRAME` has
accepted, and runs of several instructions. -/

namespace Sys2Proof.Safety

open Sys2Proof.Machine

/-! ### The stream as bits -/

/-- The unsigned integer of the `n` bits from offset `off` on, first bit most significant (R94). -/
def bitsFrom (f : Nat → Bool) (off : Nat) : Nat → Nat
  | 0 => 0
  | n + 1 => 2 ^ n * (f off).toNat + bitsFrom f (off + 1) n

/-- R94: bit `k` of the payload bit string of a view. -/
def payloadBit (m : Memory) (base len : Word32) (p : Packing) (k : Nat) : Bool :=
  let w := payloadWidth p.wordMode
  (fetchWord m (cursorInit base len p) (k / w)).getLsbD (w - 1 - k % w)

/-- 20_memory.md R54: the byte of the view that payload bit `k` comes from, and its bit number in that byte. A stream word is two
bytes, the more significant one first in BE; W14 packing drops its two most significant bits. -/
def packedAt (p : Packing) (k : Nat) : Nat × Nat :=
  match p.wordMode, p.endian with
  | .w16, .be => (k / 8, 7 - k % 8)
  | .w16, .le => (2 * (k / 16) + (1 - k / 8 % 2), 7 - k % 8)
  | .w14, .be => (2 * (k / 14) + (k % 14 + 2) / 8, 7 - (k % 14 + 2) % 8)
  | .w14, .le => (2 * (k / 14) + (1 - (k % 14 + 2) / 8), 7 - (k % 14 + 2) % 8)

/-- Bit `k` of what a cursor has still to return: first the lookahead register, then the words not yet fetched. -/
def restBit (m : Memory) (c : BitCursor) (k : Nat) : Bool :=
  if k < c.left.toNat then c.cur.getLsbD (c.left.toNat - 1 - k)
  else
    let w := payloadWidth c.wordMode
    let j := k - c.left.toNat
    (fetchWord m c (c.wptr + BitVec.ofNat 32 (j / w)).toNat).getLsbD (w - 1 - j % w)

/-- The cursor after `n` more bits, fetching a word only when a bit of it is needed (R93). -/
def advanceCursor (m : Memory) (c : BitCursor) (n : Nat) : BitCursor :=
  if n ≤ c.left.toNat then { c with left := c.left - BitVec.ofNat 6 n }
  else
    let w := payloadWidth c.wordMode
    let j := n - c.left.toNat
    let q := (j + w - 1) / w
    { c with
      cur := fetchWord m c (c.wptr + BitVec.ofNat 32 (q - 1)).toNat
      wptr := c.wptr + BitVec.ofNat 32 q
      left := BitVec.ofNat 6 (q * w - j) }

/-- The field of `n` bits that lies `off` bits ahead of the cursor. -/
def peek (s : State) (off n : Nat) : Nat := bitsFrom (restBit s.mem s.bc) off n

/-- The cursor of `s` after `n` more bits. -/
def after (s : State) (n : Nat) : BitCursor := advanceCursor s.mem s.bc n

/-- 10_state.md R16: the bound on `BC.left`. -/
def CursorBounded (c : BitCursor) : Prop := c.left.toNat ≤ payloadWidth c.wordMode

/-- The consecutive fields of the given widths in a bit string. -/
def fieldsAt (f : Nat → Bool) (off : Nat) : List Nat → List Nat
  | [] => []
  | n :: ns => bitsFrom f off n :: fieldsAt f (off + n) ns

/-- 30_encoding.md R85: the codes of `es`, one after the other from offset `off` on. -/
def CodesAt (f : Nat → Bool) (off : Nat) : List CodeEntry → Prop
  | [] => True
  | e :: es => bitsFrom f off e.len = e.code ∧ CodesAt f (off + e.len) es

/-- The bits that the codes of `es` take. -/
def codesLength (es : List CodeEntry) : Nat := (es.map CodeEntry.len).sum

/-- The values of `es` added up one after the other. -/
def runningSums (sum : Int) : List CodeEntry → List Int
  | [] => []
  | e :: es => (sum + e.value) :: runningSums (sum + e.value) es

/-! ### Running instructions -/

/-- The state after `BR.GET` of each width in turn, and the values it returned; `none` where one does not answer a value. -/
def getRun (s : State) : List Nat → Option (List Nat × State)
  | [] => some ([], s)
  | n :: ns =>
    match exec (.brGet n) s with
    | .next t =>
      match t.unit with
      | .bits v => (getRun t ns).map fun r => (v :: r.1, r.2)
      | _ => none
    | _ => none

/-- The state after the instructions in turn; `none` where one does not answer a next state. -/
def runAll (s : State) : List Instr → Option State
  | [] => some s
  | i :: is =>
    match exec i s with
    | .next t => runAll t is
    | _ => none

/-- 43_subframe.md R135: the micro-operations of one block, in order. -/
def blockScript (s : State) (ssf : Fin 4) : List Instr :=
  (if ssf = 0 then [.sfHeader] else []) ++ [.ssBody ssf, .phUpdate]
    ++ ((List.finRange 8).filter fun c => c.val < primCount s).map .synQmf32
    ++ [.dmxApply] ++ (if s.fr.outputLfe then [.lfeInterp ssf] else []) ++ [.dsyncCheck ssf, .advance]

/-- 46_synthesis.md R217, one position on the input vector `x`: MODULATE, BUTTERFLY, FOLD, ACCUMULATE, the output line, SHIFT. -/
def positionRun (c : Fin 8) (x : Vector Num 32) (s : State) (p : Nat) : Option State :=
  match exec (.modulate x) s with
  | .next t1 =>
    match t1.unit with
    | .pair16 a b =>
      match exec (.butterfly a b) t1 with
      | .next t2 =>
        match t2.unit with
        | .pair16 sum diff =>
          match runAll t2 [.fold c sum diff, .accumulate c] with
          | some t3 =>
            let k := s.rom.sampleKind
            let row := vtab 256 fun n =>
              if n / 32 = p then numStore k (numMul k (vget (vget t3.stage c.val) (n % 32)) (pcmScale k))
              else vget (vget t3.out c.val) n
            runAll { t3 with out := vput t3.out c.val row } [.shift c]
          | none => none
        | _ => none
      | _ => none
    | _ => none
  | _ => none

/-- R217: the positions in order, position `p` on the input vector `x p`. -/
def positionsRun (c : Fin 8) (x : Nat → Vector Num 32) (s : State) : List Nat → Option State
  | [] => some s
  | p :: ps =>
    match positionRun c (x p) s p with
    | some t => positionsRun c x t ps
    | none => none

/-- 60_exceptions.md R260: an error taken in state `s`: the code is placed in `STATUS` and the frame is aborted. -/
def errorTaken (c : Code) (s : State) : State := { s with code := c, seq := { s.seq with frame := .aborted } }

/-- 60_exceptions.md R261: the number of each class. -/
def errorNumber : Code → Nat
  | .ok => 0x00 | .syncNotFound => 0x01 | .malformedHeader => 0x02 | .unsupportedChannelArrangement => 0x03
  | .unsupportedFeature => 0x04 | .corruptStream => 0x05 | .illegalCommand => 0x10 | .notReady => 0x11
  | .badArgument => 0x12 | .initFailed => 0x13

/-! ### The fixed header (30_encoding.md R67) -/

/-- R69, R70, R72, R73: the range checks of the fields that PROBE reads. -/
def HeaderInRange (r : Rom) (b : Nat → Nat → Nat) : Prop :=
  5 ≤ b 39 7 ∧ 95 ≤ b 46 14 ∧ tget r.sampleRate (b 66 4) ≠ 0#32 ∧ tget r.bitRate (b 70 5) ≠ 0#32

/-- R70: the frame's length in buffer bytes. -/
def lengthAt (mode : WordMode) (b : Nat → Nat → Nat) : Nat :=
  match mode with
  | .w16 => b 46 14 + 1
  | .w14 => (b 46 14 + 1) * 8 / 14 * 2

/-- 41_framesync.md R102: what FS.HEADER returns for a header in range. -/
def probeAt (r : Rom) (mode : WordMode) (b : Nat → Nat → Nat) : ProbeResult :=
  { flags := BitVec.ofNat 32 (b 60 6 + if b 85 2 = 0 then 0 else 0x80)
    sampleRate := tget r.sampleRate (b 66 4)
    bitRate := tget r.bitRate (b 70 5)
    frameBytes := lengthAt mode b }

/-- R67: every field at its offset; HCRC is present when CRCF = 1 and moves the tail by 16 bits. -/
def headerAt (b : Nat → Nat → Nat) (old : StreamHeader) : StreamHeader :=
  let x := 88 + 16 * b 38 1
  { old with
    frameType := BitVec.ofNat 1 (b 32 1)
    samplesDeficit := BitVec.ofNat 5 (b 33 5)
    crcPresent := BitVec.ofNat 1 (b 38 1)
    sampleBlocks := BitVec.ofNat 8 (b 39 7 + 1)
    frameSize := BitVec.ofNat 15 (b 46 14 + 1)
    amode := BitVec.ofNat 6 (b 60 6)
    sampleRate := BitVec.ofNat 4 (b 66 4)
    bitRate := BitVec.ofNat 5 (b 70 5)
    downmix := BitVec.ofNat 1 (b 75 1)
    dynrange := BitVec.ofNat 1 (b 76 1)
    timestamp := BitVec.ofNat 1 (b 77 1)
    auxData := BitVec.ofNat 1 (b 78 1)
    hdcd := BitVec.ofNat 1 (b 79 1)
    extDescr := BitVec.ofNat 3 (b 80 3)
    extCoding := BitVec.ofNat 1 (b 83 1)
    aspf := BitVec.ofNat 1 (b 84 1)
    lfe := BitVec.ofNat 2 (b 85 2)
    predictorHistory := BitVec.ofNat 1 (b 87 1)
    headerCrc := if b 38 1 = 1 then BitVec.ofNat 16 (b 88 16) else old.headerCrc
    multirateInter := BitVec.ofNat 1 (b x 1)
    version := BitVec.ofNat 4 (b (x + 1) 4)
    copyHistory := BitVec.ofNat 2 (b (x + 5) 2)
    sourcePcmRes := BitVec.ofNat 3 (b (x + 7) 3)
    frontSum := BitVec.ofNat 1 (b (x + 10) 1)
    surroundSum := BitVec.ofNat 1 (b (x + 11) 1)
    dialogNorm := BitVec.ofNat 4 (b (x + 12) 4) }

/-- R67: where the fixed header ends. -/
def headerLength (b : Nat → Nat → Nat) : Nat := 104 + 16 * b 38 1

/-! ### The primary audio header (30_encoding.md R77 to R80), by offset from its first bit -/

/-- `C = PCHS + 1`. -/
def phCount (b : Nat → Nat → Nat) : Nat := b 4 3 + 1

/-- SUBS, clamped. -/
def phActivity (b : Nat → Nat → Nat) (c : Nat) : Nat := min (b (7 + 5 * c) 5 + 2) 32

/-- VQSUB, clamped. -/
def phVqStart (b : Nat → Nat → Nat) (c : Nat) : Nat := min (b (7 + 5 * phCount b + 5 * c) 5 + 1) 32

/-- BHUFF. -/
def phBhuff (b : Nat → Nat → Nat) (c : Nat) : Nat := b (7 + 18 * phCount b + 3 * c) 3

/-- R78: the selector of abits value `a`. -/
def phSelector (b : Nat → Nat → Nat) (a c : Nat) : Nat :=
  let n := phCount b
  if a = 1 then b (7 + 21 * n + c) 1
  else if 2 ≤ a ∧ a ≤ 5 then b (7 + 22 * n + 2 * n * (a - 2) + 2 * c) 2
  else if 6 ≤ a ∧ a ≤ 10 then b (7 + 30 * n + 3 * n * (a - 6) + 3 * c) 3
  else 0

/-- R79: whether an adjustment is transmitted. -/
def phAdjPresent (b : Nat → Nat → Nat) (a c : Nat) : Bool :=
  if a = 1 then phSelector b a c == 0
  else if 2 ≤ a ∧ a ≤ 5 then phSelector b a c < 3
  else if 6 ≤ a ∧ a ≤ 10 then phSelector b a c < 7
  else false

/-- R79: the order of the adjustments: `a` outer, channel inner. -/
def phAdjOrder (b : Nat → Nat → Nat) : List (Nat × Nat) :=
  (List.range' 1 10).flatMap fun a => (List.range (phCount b)).map fun c => (a, c)

/-- How many adjustments are transmitted before that of `(a, c)`. -/
def phAdjRank (b : Nat → Nat → Nat) (a c : Nat) : Nat :=
  ((phAdjOrder b).takeWhile fun x => x != (a, c)).countP fun x => phAdjPresent b x.1 x.2

/-- R77 row 10, R79: the multiplier of abits value `a`, 1 where none is transmitted. -/
def phAdj (r : Rom) (b : Nat → Nat → Nat) (a c : Nat) : Num :=
  if phAdjPresent b a c then tget r.adj (b (7 + 45 * phCount b + 2 * phAdjRank b a c) 2)
  else numOfInt r.sampleKind 1

/-- R77: the bits of the primary header, `crc` of them the audio-header CRC. -/
def phLength (b : Nat → Nat → Nat) (crc : Nat) : Nat :=
  7 + 45 * phCount b + 2 * (phAdjOrder b).countP (fun x => phAdjPresent b x.1 x.2) + crc

/-- 42_framedecoder.md R129, R120: the primary header raises nothing. -/
def PrimaryAccepted (b : Nat → Nat → Nat) : Prop :=
  ∀ c, c < phCount b → phVqStart b c ≤ phActivity b c ∧ phBhuff b c ≠ 7

/-- R77: what one channel holds after its primary header is read. -/
def ChannelLoaded (r : Rom) (b : Nat → Nat → Nat) (c : Nat) (f : ChannelFrame) : Prop :=
  let n := phCount b
  f.subbandActivity.toNat = phActivity b c ∧ f.vqStartSubband.toNat = phVqStart b c
    ∧ f.jointIntensity.toNat = b (7 + 10 * n + 3 * c) 3 ∧ f.transientHuffman.toNat = b (7 + 13 * n + 2 * c) 2
    ∧ f.scalefactorHuffman.toNat = b (7 + 15 * n + 3 * c) 3 ∧ f.bitallocHuffman.toNat = phBhuff b c
    ∧ (∀ a, a < 27 → (vget f.quantSel a).toNat = phSelector b a c)
    ∧ ∀ a, a < 11 → vget f.sfAdj a = phAdj r b a c

/-- R77: the frame halves of all channels after the primary header is read; a channel from `C` on keeps its registers. -/
def ChannelsLoaded (r : Rom) (b : Nat → Nat → Nat) (old new : Vector ChannelFrame 8) : Prop :=
  ∀ c, c < 8 → if c < phCount b then ChannelLoaded r b c (vget new c) else vget new c = vget old c

/-- 60_exceptions.md R265, 48_downmix.md R236, R237: the arrangement of the table for a request and a primary code. -/
def selectedOf (r : Rom) (req primary : Nat) : Option Arrangement :=
  if 10 < req ∨ 9 < primary then none
  else if req = primary then arrangementOf primary else tget r.dmxSelect (req, primary)

/-- 48_downmix.md R236, R237, R239: the level after the adjustment of primary `p` to output `out`. -/
def adjustedLevel (r : Rom) (p out : Arrangement) (flags : Word32) (level clev slev : Num) : Num :=
  let k := r.sampleKind
  if flags.getLsbD 8 = false ∨ p = out then level
  else if p = .f3 ∧ out = .mono then numMul k level (numDiv k (level3dB k) (numAdd k (numOfInt k 1) clev))
  else
    match tget r.dmxAdjust { primary := p, output := out, clev := clev, slev := slev } with
    | some g => numMul k level g
    | none => level

/-- The bits of the view that the arguments give, in packing `p`: the field of `n` bits at bit `off`. -/
def openBits (s : State) (p : Packing) (off n : Nat) : Nat :=
  bitsFrom (restBit s.mem (cursorInit s.args.bufAddr s.args.bufLen p)) off n

/-- The same bits, by offset from the end of the fixed header. -/
def primaryBits (s : State) (p : Packing) (off n : Nat) : Nat := openBits s p (headerLength (openBits s p) + off) n

/-- 42_framedecoder.md R113 to R116, R120, R125, R128, R129: the view and the flags that the arguments give open a frame of
arrangement `a`, decoded to `out` at `lvl`. -/
def FrameOpens (s : State) (p : Packing) (a out : Arrangement) (lvl : Num) : Prop :=
  let b := openBits s p
  s.args.bufAddr ≠ 0#32 ∧ s.args.bufLen ≠ 0#32
    ∧ fsMatch s.mem s.args.bufAddr s.args.bufLen = some p ∧ viewAdmitted s.args.bufAddr p = true
    ∧ HeaderInRange s.rom b ∧ b 85 2 ≠ 3
    ∧ dmxSelect s.rom (b 60 6) s.args.flags (numLoad s.rom.sampleKind s.args.level) s.rom.clev s.rom.slev = some (out, lvl)
    ∧ (s.hook = 0#32 ∨ b 76 1 = 0)
    ∧ PrimaryAccepted (primaryBits s p) ∧ arrangementOf (b 60 6) = some a ∧ phCount (primaryBits s p) = nchOf s.rom a

/-! ### Side information and sample groups -/

/-- 43_subframe.md R146: the scale factors that a channel's header holds, as (subband, slot), in stream order. -/
def scaleSlots (s : State) (c : Nat) : List (Nat × Nat) :=
  (List.range (actOf s c)).flatMap fun sb =>
    (if vqOf s c ≤ sb ∨ vget (vget s.chS c).bitalloc sb ≠ 0#5 then [(sb, 0)] else [])
      ++ (if sb < vqOf s c ∧ vget (vget s.chS c).transitionMode sb ≠ 0#2 then [(sb, 1)] else [])

/-- 43_subframe.md R146: the next `n` scale indices of selector `h`, and the bits that they take. -/
def ScalesAt (s : State) (h n : Nat) (idx : List Int) (used : Nat) : Prop :=
  (h ≤ 4 ∧ ∃ es, es.length = n ∧ (∀ e, e ∈ es → e ∈ tget s.rom.huffScale h) ∧ CodesAt (restBit s.mem s.bc) 0 es
      ∧ idx = runningSums 0 es ∧ used = codesLength es ∧ ∀ i, i ∈ idx → 0 ≤ i ∧ i ≤ 63)
    ∨ (h = 5 ∧ idx = (List.range n).map (fun k => (peek s (6 * k) 6 : Int)) ∧ used = 6 * n)
    ∨ (h = 6 ∧ idx = (List.range n).map (fun k => (peek s (7 * k) 7 : Int)) ∧ used = 7 * n)

/-- 43_subframe.md R152: the next `n` joint scale factors of selector `h`, and the bits that they take. -/
def JointsAt (s : State) (h n : Nat) (vals : List Int) (used : Nat) : Prop :=
  (h ≤ 4 ∧ ∃ es, es.length = n ∧ (∀ e, e ∈ es → e ∈ tget s.rom.huffScale h) ∧ CodesAt (restBit s.mem s.bc) 0 es
      ∧ vals = es.map CodeEntry.value ∧ used = codesLength es)
    ∨ (h = 5 ∧ vals = (List.range n).map (fun k => (peek s (6 * k) 6 : Int)) ∧ used = 6 * n)
    ∨ (h = 6 ∧ vals = (List.range n).map (fun k => (peek s (7 * k) 7 : Int)) ∧ used = 7 * n)

/-- No entry of the codebook begins `off` bits ahead (44_sample_decode.md R160). -/
def NoCodeAt (s : State) (book : Codebook) (off : Nat) : Prop := ∀ e, e ∈ book → peek s off e.len ≠ e.code

/-- R160: the longest code of a codebook. -/
def longestCode (book : Codebook) : Nat := (book.map CodeEntry.len).foldl max 0

/-- 41_framesync.md R100, R102: no frame starts at a view. -/
def NoFrameAt (s : State) (base len : Word32) : Prop :=
  fsMatch s.mem base len = none
    ∨ ∃ p, fsMatch s.mem base len = some p ∧ viewAdmitted base p = true
      ∧ ¬ HeaderInRange s.rom (bitsFrom (payloadBit s.mem base len p))

/-- 43_subframe.md R157: the bits of the footer. -/
def footerBits (s : State) : Nat :=
  let t := if s.sh.timestamp = 1#1 then 32 else 0
  let a := if s.sh.auxData = 1#1 then 6 + 8 * peek s t 6 else 0
  let f := if s.sh.crcPresent = 1#1 ∧ (s.sh.downmix = 1#1 ∨ s.sh.dynrange = 1#1) then 16 else 0
  t + a + f

/-- 44_sample_decode.md R161, R162: the codebook of `(a, sel)`. -/
def groupBook (r : Rom) (a sel : Nat) : Option Codebook := if a ≤ 10 then tget r.qidxBook (a, sel) else none

/-- The abits value of a subband and the selector that goes with it. -/
def groupOf (s : State) (c sb : Nat) : Nat × Nat :=
  let a := (vget (vget s.chS c).bitalloc sb).toNat
  (a, (vget (vget s.chF c).quantSel a).toNat)

/-- 44_sample_decode.md R162 to R166: the group `(a, sel)` that starts `off` bits ahead is legal, holds the values `q` and takes
`n` bits. -/
def GroupAt (s : State) (g : Nat × Nat) (off : Nat) (q : Vector Int 8) (n : Nat) : Prop :=
  let l := blockLevels g.1
  let b := blockSize g.1
  (g.1 = 0 ∧ q = vtab 8 (fun _ => 0) ∧ n = 0)
    ∨ (1 ≤ g.1 ∧ ∃ book es, groupBook s.rom g.1 g.2 = some book ∧ bookWellFormed book = true ∧ es.length = 8
        ∧ (∀ e, e ∈ es → e ∈ book) ∧ CodesAt (restBit s.mem s.bc) off es
        ∧ q = vtab 8 (fun m => (es.map CodeEntry.value).getD m 0) ∧ n = codesLength es)
    ∨ (8 ≤ g.1 ∧ g.1 ≤ 26 ∧ groupBook s.rom g.1 g.2 = none
        ∧ q = vtab 8 (fun m => (BitVec.ofNat (g.1 - 3) (peek s (off + m * (g.1 - 3)) (g.1 - 3))).toInt)
        ∧ n = 8 * (g.1 - 3))
    ∨ (1 ≤ g.1 ∧ g.1 ≤ 7 ∧ groupBook s.rom g.1 g.2 = none ∧ peek s off b < l ^ 4 ∧ peek s (off + b) b < l ^ 4
        ∧ q = vtab 8 (fun m =>
          ((peek s (if m < 4 then off else off + b) b / l ^ (m % 4) % l : Nat) : Int) - ((l - 1) / 2 : Nat))
        ∧ n = 2 * b)

/-- The sum of `f` over the channels below `c`. -/
def below (c : Nat) (f : Nat → Nat) : Nat := ((List.range c).map f).sum

/-- 43_subframe.md R155: where the group of channel `c`, subband `sb` starts, group `(x, y)` taking `n x y` bits. -/
def groupOffset (s : State) (n : Nat → Nat → Nat) (c sb : Nat) : Nat :=
  below c (fun x => below (vqOf s x) (n x)) + below sb (n c)

/-- R155: the counts of the frame are in their ranges, and every group of the sub-block ahead is legal; group `(c, sb)` holds
`q c sb` and takes `n c sb` bits. -/
def BodyAt (s : State) (q : Nat → Nat → Vector Int 8) (n : Nat → Nat → Nat) : Prop :=
  primCount s ≤ 8 ∧ ∀ c, c < primCount s → vqOf s c ≤ actOf s c ∧ actOf s c ≤ 32
    ∧ ∀ sb, sb < vqOf s c → GroupAt s (groupOf s c sb) (groupOffset s n c sb) (q c sb) (n c sb)

/-! ### The subframe header (30_encoding.md R81) of one sub-block, 4-bit allocation indices, raw scale factors, no joint coding and
no LFE channel, by offset from its first bit -/

/-- The forms of R81 that no stream can make fail. -/
def HeaderPlain (s : State) : Prop :=
  peek s 0 2 = 0 ∧ primCount s ≤ 8 ∧ s.sh.lfe = 0#2 ∧ ∀ c, c < primCount s → vqOf s c ≤ actOf s c ∧ actOf s c ≤ 32
    ∧ (vget s.chF c).bitallocHuffman = 5#3 ∧ (vget s.chF c).jointIntensity = 0#3
    ∧ ((vget s.chF c).scalefactorHuffman = 5#3 ∨ (vget s.chF c).scalefactorHuffman = 6#3)

/-- PMODE. -/
def hdPmode (s : State) (c sb : Nat) : Nat := peek s (5 + below c (actOf s) + sb) 1

/-- The PVQ fields of channel `c` below subband `sb`. -/
def hdPvqBelow (s : State) (c sb : Nat) : Nat := (List.range sb).countP fun x => hdPmode s c x == 1

/-- Where PVQ begins. -/
def hdPvqStart (s : State) : Nat := 5 + below (primCount s) (actOf s)

/-- PVQ. -/
def hdPvq (s : State) (c sb : Nat) : Nat :=
  peek s (hdPvqStart s + 12 * (below c (fun x => hdPvqBelow s x (actOf s x)) + hdPvqBelow s c sb)) 12

/-- Where BITALLOC begins. -/
def hdAllocStart (s : State) : Nat := hdPvqStart s + 12 * below (primCount s) (fun x => hdPvqBelow s x (actOf s x))

/-- BITALLOC. -/
def hdAlloc (s : State) (c sb : Nat) : Nat := peek s (hdAllocStart s + 4 * (below c (vqOf s) + sb)) 4

/-- Whether a scale factor is transmitted. -/
def hdScalePresent (s : State) (c sb : Nat) : Bool := vqOf s c ≤ sb || hdAlloc s c sb != 0

/-- The scale factors of channel `c` below subband `sb`. -/
def hdScalesBelow (s : State) (c sb : Nat) : Nat := (List.range sb).countP (hdScalePresent s c)

/-- The bits of a scale factor: 6 with selector 5, 7 with selector 6. -/
def hdScaleWidth (s : State) (c : Nat) : Nat := if (vget s.chF c).scalefactorHuffman = 6#3 then 7 else 6

/-- The bits of the scale factors of the channels below `c`. -/
def hdScaleBits (s : State) (c : Nat) : Nat := below c fun x => hdScaleWidth s x * hdScalesBelow s x (actOf s x)

/-- Where SCALE begins. -/
def hdScaleStart (s : State) : Nat := hdAllocStart s + 4 * below (primCount s) (vqOf s)

/-- SCALE, as a factor of the table. -/
def hdScale (s : State) (c sb : Nat) : Num :=
  let w := hdScaleWidth s c
  let i := peek s (hdScaleStart s + hdScaleBits s c + w * hdScalesBelow s c sb) w
  if w = 7 then tget s.rom.scale7 i else tget s.rom.scale6 i

/-- Where DMXCOEF begins. -/
def hdDmxStart (s : State) : Nat := hdScaleStart s + hdScaleBits s (primCount s)

/-- Whether DMXCOEF is transmitted. -/
def hdDmxPresent (s : State) : Bool := 2 < primCount s && s.sh.downmix == 1#1

/-- Where DRCCOEF stands. -/
def hdDrcStart (s : State) : Nat := hdDmxStart s + if hdDmxPresent s then 14 * primCount s else 0

/-- Where HFVQ begins, behind DRCCOEF and SICRC. -/
def hdHfvqStart (s : State) : Nat :=
  hdDrcStart s + (if s.sh.dynrange = 1#1 then 8 else 0) + if s.sh.crcPresent = 1#1 then 16 else 0

/-- The subbands of channel `c` from the VQ start on. -/
def hdHfvqCount (s : State) (c : Nat) : Nat := actOf s c - vqOf s c

/-- HFVQ. -/
def hdHfvq (s : State) (c sb : Nat) : Nat :=
  peek s (hdHfvqStart s + 10 * (below c (hdHfvqCount s) + (sb - vqOf s c))) 10

/-- The bits of the header. -/
def hdLength (s : State) : Nat := hdHfvqStart s + 10 * below (primCount s) (hdHfvqCount s)

/-- 43_subframe.md R138: what channel `c` holds after the header: each field that is transmitted, 0 in the transition modes and in
the scale factors that are not, and the old content elsewhere. -/
def hdChannel (s : State) (c : Nat) : ChannelSub :=
  let r := vget s.chS c
  let act := actOf s c
  { r with
    predictionMode := vtab 32 fun sb => if sb < act then BitVec.ofNat 1 (hdPmode s c sb) else vget r.predictionMode sb
    predictionVq := vtab 32 fun sb =>
      if sb < act ∧ hdPmode s c sb = 1 then BitVec.ofNat 12 (hdPvq s c sb) else vget r.predictionVq sb
    bitalloc := vtab 32 fun sb => if sb < vqOf s c then BitVec.ofNat 5 (hdAlloc s c sb) else vget r.bitalloc sb
    transitionMode := vtab 32 fun sb => if sb < act then 0#2 else vget r.transitionMode sb
    scale0 := vtab 32 fun sb =>
      if sb < act then (if hdScalePresent s c sb then hdScale s c sb else 0#64) else vget r.scale0 sb
    scale1 := vtab 32 fun sb => if sb < act then 0#64 else vget r.scale1 sb
    highFreqVq := vtab 32 fun sb =>
      if vqOf s c ≤ sb ∧ sb < act then BitVec.ofNat 10 (hdHfvq s c sb) else vget r.highFreqVq sb
    dmx0 := if hdDmxPresent s then BitVec.ofNat 7 (peek s (hdDmxStart s + 14 * c) 7) else r.dmx0
    dmx1 := if hdDmxPresent s then BitVec.ofNat 7 (peek s (hdDmxStart s + 14 * c + 7) 7) else r.dmx1 }

/-- R138: the state after the header. -/
def plainHeader (s : State) : State :=
  { s with
    bc := after s (hdLength s)
    sf := { s.sf with
      subsubframes := 1#3
      partialSamples := BitVec.ofNat 3 (peek s 2 3)
      dynrangeCoef := if s.sh.dynrange = 1#1 then BitVec.ofNat 8 (peek s (hdDrcStart s) 8) else s.sf.dynrangeCoef }
    chS := vtab 8 fun c => if c < primCount s then hdChannel s c else vget s.chS c }

/-! ### Safe states -/

/-- The frame that `BEGIN_FRAME` accepted (42_framedecoder.md R115, R116, R120, R128, R129; 10_state.md R22, R44): while it is
active its header is in range, its channels agree with its arrangement, and the sequencer stands inside it. At most 6 slots are
ever valid in `OUT` (R41; log entry 34). -/
def FrameAccepted (s : State) : Prop :=
  s.life = .ready → s.res.outCh.toNat ≤ 6 ∧ (s.seq.frame = .active →
    (∃ a, arrangementOf s.sh.amode.toNat = some a ∧ primCount s = nchOf s.rom a) ∧ s.sh.amode.toNat ≤ 9
      ∧ s.sh.lfe ≠ 3#2 ∧ (s.fr.outputLfe = true → s.sh.lfe ≠ 0#2)
      ∧ 6 ≤ s.sh.sampleBlocks.toNat ∧ 96 ≤ s.sh.frameSize.toNat
      ∧ 1 ≤ s.sh.subframes.toNat ∧ s.sh.subframes.toNat ≤ 16 ∧ s.seq.currentSubframe.toNat ≤ s.sh.subframes.toNat
      ∧ (∀ c, c < primCount s → 1 ≤ vqOf s c ∧ vqOf s c ≤ actOf s c ∧ 2 ≤ actOf s c ∧ actOf s c ≤ 32
          ∧ (vget s.chF c).bitallocHuffman ≠ 7#3)
      ∧ (s.seq.currentSubsubframe ≠ 0#3 →
          s.seq.currentSubsubframe.toNat < s.sf.subsubframes.toNat ∧ s.sf.subsubframes.toNat ≤ 4
            ∧ s.seq.currentSubframe.toNat < s.sh.subframes.toNat
            ∧ ∀ c sb, c < primCount s → sb < vqOf s c → (vget (vget s.chS c).bitalloc sb).toNat ≤ 26))

/-- A safe state: host memory in its canonical form, and an active frame that was accepted. -/
def Safe (s : State) : Prop := Memory.wf s.mem = true ∧ FrameAccepted s

/-- A step that does not stop. -/
def Runs (s : State) : Prop := ∃ t, step s = .next t

end Sys2Proof.Safety
end

