-- ==== Sys2Proof/Certificates/Slice0/Obligations.lean ====
section
/-! DEFINITION. The statements for the provers. Each docstring names the rule of spec/ that the statement formalises. -/

open Sys2Proof Sys2Proof.Machine Sys2Proof.Safety

/-! ### Encoding, stepping, invariants -/

/-- 30_encoding.md R65, R66: words written out from the encoding tables decode to their instructions. Own readings of the spec
that it rests on: D1 and D9. -/
def Obligations.WordsDecode : Prop :=
  decode (.cmd 0x00000001#32) = .ok .init ∧ decode (.cmd 0x00000005#32) = .ok .decodeBlock
    ∧ decode (.cmd 0x00000104#32) = .ok (.illegal 0x00000104#32)
    ∧ decode (.window 0xFF1F00E8F707#48) = .ok (.fsMatch14le 0xFF1F00E8F707#48)
    ∧ decode (.window 0x1FFFE80007FF#48) = .ok (.fsMatch14be 0x1FFFE80007FF#48)
    ∧ decode (.window 0xFE7F01803CFC#48) = .ok (.fsMatch16le 0xFE7F01803CFC#48)
    ∧ decode (.window 0x7FFE8001FC3C#48) = .ok (.fsMatch16be 0x7FFE8001FC3C#48)
    ∧ decode (.window 0xFE7F01810000#48) = .error .noSyncPattern

/-- R65, R66: decoding and encoding agree in both directions, for every code word and every instruction. Own readings of the
spec that it rests on: D1 and D9. -/
def Obligations.DecodeEncodeAgree : Prop :=
  ∀ (cw : CodeWord) (i : Instr), decode cw = .ok i ↔ encode i = some cw ∧ i.wellFormed = true

/-- R66: at most one of the four patterns matches a window, so that the order of trial does not change the result. Own readings
of the spec that it rests on: D9. -/
def Obligations.SyncPatternsExclusive : Prop :=
  ∀ w : BitVec 48,
    (try14le w).isSome.toNat + (try14be w).isSome.toNat + (try16le w).isSome.toNat + (try16be w).isSome.toNat ≤ 1
      ∧ ∀ p, matchWindow w = some p ↔ try14le w = some p ∨ try14be w = some p ∨ try16le w = some p ∨ try16be w = some p

/-- 10_state.md R13: a step performs the oldest host access; a code word presented by it is decoded and run. With no access
pending the block is idle and keeps all state (60_exceptions.md R275). A command written at the address `REG_BASE` is run as one
written to `CMD` (20_memory.md R58). The access list is the model's, log entry 5. Own readings of the spec that it rests on: D1
and D2. Model conventions: log entries 5, 7 and 30. -/
def Obligations.StepRunsDecoded : Prop :=
  (∀ (s : State) (w : Word32) (i : Instr) (rest : List HostAccess), s.host = .writeReg 0x00 w :: rest →
      decode (.cmd w) = .ok i → i.wellFormed = true ∧ step s = exec i { s with host := rest, cmd := w })
    ∧ (∀ (s : State) (b : BitVec 48) (i : Instr) (rest : List HostAccess), s.host = .syncWindow b :: rest →
      decode (.window b) = .ok i → i.wellFormed = true ∧ step s = exec i { s with host := rest })
    ∧ (∀ (s : State) (w : Word32) (i : Instr) (rest : List HostAccess), s.host = .writeAddress s.rom.regBase w :: rest →
      decode (.cmd w) = .ok i → step s = exec i { s with host := rest, cmd := w })
    ∧ ∀ s : State, s.host = [] → step s = .next s

/-- 10_state.md R12, R14: a host write to an argument register is read back at the same offset and moves no other register; each
argument and result register reads as its content at its offset; `STATUS` reads as the code's number (60_exceptions.md R261) in
bits [7:0], the warnings in bits 16 and 17, and zeros. 20_memory.md R58: the registers are addressed from `REG_BASE`, a platform
parameter, and an access at such an address is the access at its offset. Own readings of the spec that it rests on: D1, D2 and
D39. Model conventions: log entry 30. -/
def Obligations.HostRegistersReadBack : Prop :=
  (∀ (s : State) (k : Nat) (v : Word32) (rest : List HostAccess), k < 8 →
      s.host = .writeReg (8 + 4 * k) v :: .readReg (8 + 4 * k) :: rest →
      ∃ t, step s = .next t ∧ t.life = s.life ∧ t.code = s.code ∧ t.res = s.res ∧ t.mem = s.mem ∧ t.toDecoder = s.toDecoder
        ∧ step t = .next { t with host := rest, bus := v }
        ∧ ∀ j, j < 8 → j ≠ k → registerWord t (8 + 4 * j) = registerWord s (8 + 4 * j))
    ∧ (∀ (s : State) (k : Nat) (rest : List HostAccess), s.host = .readReg (8 + 4 * k) :: rest → k < 14 →
      step s = .next { s with
        host := rest
        bus := [s.args.bufAddr, s.args.bufLen, s.args.flags, s.args.level, s.args.bias, s.args.hint, s.args.hook, s.args.user,
          s.res.flags, s.res.sampleRate, s.res.bitRate, s.res.frameLen, s.res.blocks, s.res.outCh].getD k 0#32 })
    ∧ (∀ (s : State) (rest : List HostAccess), s.host = .readReg 0x04 :: rest →
      ∃ t, step s = .next t ∧ t = { s with host := rest, bus := t.bus }
        ∧ t.bus.toNat = errorNumber s.code + 2 ^ 16 * s.warnJoint.toNat + 2 ^ 17 * s.warnDsync.toNat)
    ∧ ∀ (s : State) (offset : Nat) (v : Word32) (rest : List HostAccess), offset < 0x40 →
      step { s with host := .writeAddress (s.rom.regBase + offset) v :: rest } = step { s with host := .writeReg offset v :: rest }
        ∧ step { s with host := .readAddress (s.rom.regBase + offset) :: rest } = step { s with host := .readReg offset :: rest }

/-- 20_memory.md R56: the linear position of `OUT[ch][n]` in the window of the OutputBuffer, for either layout. R51, R58: the
window's 9·256·4 bytes are addressed from `OUT_BASE`, a platform parameter, and are read-only; an address outside the window and
the register block is none of the block's. Own readings of the spec that it rests on: D2 and D36. Model conventions: log entries
15 and 30. -/
def Obligations.OutputWindowPosition : Prop :=
  (∀ (s : State) (ch n : Nat) (rest : List HostAccess), n < 256 →
    (s.rom.outLayout = .interleaved → ch < s.res.outCh.toNat → s.res.outCh.toNat ≤ 9 →
      s.host = .readOut (4 * (n * s.res.outCh.toNat + ch)) :: rest →
      step s = .next { s with host := rest, bus := vget (vget s.out ch) n })
    ∧ (s.rom.outLayout = .planar → ch < 9 → s.host = .readOut (4 * (ch * 256 + n)) :: rest →
      step s = .next { s with host := rest, bus := vget (vget s.out ch) n }))
    ∧ ∀ (s : State) (address : Nat) (v : Word32) (rest : List HostAccess),
      let inRegisters := s.rom.regBase ≤ address ∧ address < s.rom.regBase + 0x40
      let inWindow := s.rom.outBase ≤ address ∧ address < s.rom.outBase + 9 * 256 * 4
      (¬ inRegisters → inWindow →
        step { s with host := .readAddress address :: rest } = step { s with host := .readOut (address - s.rom.outBase) :: rest }
          ∧ step { s with host := .writeAddress address v :: rest } = .fault .windowNotWritable)
      ∧ (¬ inRegisters → ¬ inWindow →
        step { s with host := .readAddress address :: rest } = .fault .noSuchAddress
          ∧ step { s with host := .writeAddress address v :: rest } = .fault .noSuchAddress)

/-- Every step keeps host memory in its canonical form, and no step but a host store changes it (20_memory.md R50: the block
reads host memory and never writes it). Model conventions: log entries 4 and 5. -/
def Obligations.StepKeepsMemory : Prop :=
  ∀ s t : State, step s = .next t →
    (Memory.wf s.mem = true → Memory.wf t.mem = true)
      ∧ ∀ x : Nat, memRead t.mem x = memRead s.mem x ∨ ∃ b rest, s.host = .storeByte x b :: rest ∧ memRead t.mem x = b

/-- Every step keeps what an accepted frame guarantees: the header in range, the channel count of the arrangement, the VQ-start
bound, the sequencer inside the frame, allocation indices at most 26 (10_state.md R22, R44; 42_framedecoder.md R128, R129); and
at most 6 slots are valid in `OUT` (10_state.md R41). Own readings of the spec that it rests on: D8, D18, D36 and D37. Model
conventions: log entry 34. -/
def Obligations.StepKeepsFrameAccepted : Prop :=
  ∀ s t : State, FrameAccepted s → step s = .next t → FrameAccepted t

/-- The state after reset is safe, and the machine runs from it. Own readings of the spec that it rests on: D41. Model
conventions: log entries 1 to 4. -/
def Obligations.ResetIsSafe : Prop := Safe State.reset ∧ Runs State.reset

/-- 10_state.md R28, 70_reset_and_hazards.md R295: no step changes a parameter; the synthesis tables change only with `INIT`
(which builds them) and `TEARDOWN` (which leaves them unspecified), written at `CMD`'s offset or at its address `REG_BASE`
(20_memory.md R58; log entry 30). -/
def Obligations.StepKeepsParameters : Prop :=
  ∀ s t : State, step s = .next t →
    t.rom = s.rom ∧ (t.syn = s.syn
      ∨ ((∃ rest, s.host = .writeReg 0x00 0x01#32 :: rest ∨ s.host = .writeAddress s.rom.regBase 0x01#32 :: rest)
        ∧ t.syn = s.rom.syn)
      ∨ (∃ rest, s.host = .writeReg 0x00 0x07#32 :: rest ∨ s.host = .writeAddress s.rom.regBase 0x07#32 :: rest)
        ∧ s.life = .ready)

/-! ### Host commands -/

/-- 49_host_commands.md R250, 10_state.md R49: `INIT`, in either lifecycle state, gives every element its reset value; the
argument registers, host memory and the parameters are kept, and `BC`, `SUBSAMP`, `OUT` are unspecified. Own readings of the
spec that it rests on: D41. -/
def Obligations.InitGivesResetValues : Prop :=
  ∀ s : State, ∃ t, exec .init s = .next t
    ∧ t.life = .ready ∧ statusWord t = 0#32
    ∧ t.res = { flags := 0#32, sampleRate := 0#32, bitRate := 0#32, frameLen := 0#32, blocks := 0#32, outCh := 0#32 }
    ∧ t.seq = { frame := .noframe, currentSubframe := 0#5, currentSubsubframe := 0#3 }
    ∧ t.sh = zeroHeader ∧ t.fr = zeroFrame
    ∧ t.sf = { subsubframes := 0#3, partialSamples := 0#3, dynrangeCoef := 0#8, lfeScaleFactor := 0#64 }
    ∧ (∀ c, c < 8 → vget t.chF c = zeroChannelFrame ∧ vget t.chS c = zeroChannelSub)
    ∧ (∀ c sb i, c < 8 → sb < 32 → i < 4 → vget (vget (vget t.ph c) sb) i = 0#64)
    ∧ (∀ c i, c < 8 → i < 512 → vget (vget t.hist c) i = 0#64)
    ∧ (∀ c i, c < 8 → i < 64 → vget (vget t.stage c) i = 0#64)
    ∧ (∀ i, i < 32 → vget t.lfe i = 0#64)
    ∧ t.hook = 0#32 ∧ t.hookUser = 0#32 ∧ t.syn = s.rom.syn
    ∧ t.args = s.args ∧ t.mem = s.mem ∧ t.rom = s.rom ∧ t.host = s.host ∧ t.cmd = s.cmd ∧ t.bus = s.bus ∧ t.unit = s.unit

/-- R254: the number of blocks remaining; no state but `RES_BLOCKS` and `STATUS.CODE` changes. Own readings of the spec that it
rests on: D22. -/
def Obligations.BlocksRemainingCounts : Prop :=
  ∀ s : State, s.life = .ready →
    exec .blocksRemaining s = .next { s with
      res := { s.res with
        blocks := if s.seq.frame = .active then BitVec.ofNat 32 (s.fr.blocksTotal.toNat - s.fr.blocksDone.toNat) else 0#32 }
      code := .ok }

/-- R255: `SET_DRC_HOOK` installs the handle and its user data and changes nothing else but the code. Own readings of the spec
that it rests on: D38. -/
def Obligations.SetDrcHookInstalls : Prop :=
  ∀ s : State, s.life = .ready →
    exec .setDrcHook s = .next { s with hook := s.args.hook, hookUser := s.args.user, code := .ok }

/-- R256: `TEARDOWN` ends the instance's life; the argument registers, host memory and the parameters are not the instance's to
release, and the rest is unspecified. Own readings of the spec that it rests on: D46. Model conventions: log entries 27. -/
def Obligations.TeardownEndsLife : Prop :=
  ∀ s : State, s.life = .ready → ∃ t, exec .teardown s = .next t ∧ t.life = .uninit ∧ t.code = .ok
    ∧ t = { s with toDecoder := t.toDecoder, life := .uninit, code := .ok, free := t.free }
    ∧ ∀ i, i ∈ [Instr.probe, .beginFrame, .blocksRemaining, .decodeBlock, .setDrcHook, .teardown] →
      exec i t = .next { t with code := .notReady }

/-- 30_encoding.md R65: a word that no command has sets `STATUS.CODE = IllegalCommand` and does nothing else. Own readings of
the spec that it rests on: D1. Model conventions: log entries 14. -/
def Obligations.IllegalWordSetsCodeOnly : Prop :=
  ∀ (s : State) (w : Word32) (rest : List HostAccess), w.toNat = 0 ∨ 7 < w.toNat →
    exec (.illegal w) s = .next { s with code := .illegalCommand }
      ∧ (s.host = .writeReg 0x00 w :: rest →
        step s = .next { s with host := rest, cmd := w, code := .illegalCommand })

/-- 49_host_commands.md R257, 60_exceptions.md R271: a command that its precondition turns away places a code and changes
nothing else: NotReady for every command but `INIT` in `LIFE = UNINIT`, BadArgument for `PROBE` and `BEGIN_FRAME` on a null
buffer or a zero length. Own readings of the spec that it rests on: D39 and D46. -/
def Obligations.PreconditionsSetCodeOnly : Prop :=
  ∀ s : State,
    (s.life = .uninit → ∀ i, i ∈ [Instr.probe, .beginFrame, .blocksRemaining, .decodeBlock, .setDrcHook, .teardown] →
      exec i s = .next { s with code := .notReady })
    ∧ (s.life = .ready → s.args.bufAddr = 0#32 ∨ s.args.bufLen = 0#32 → ∀ i, i ∈ [Instr.probe, .beginFrame] →
      exec i s = .next { s with code := .badArgument })

/-! ### FrameSync -/

/-- 41_framesync.md R101: each of the four patterns tried on a window, with the constants of 30_encoding.md R66; `NONE` is a
value. The result latch is the model's, log entry 6. Own readings of the spec that it rests on: D9. Model conventions: log
entries 6. -/
def Obligations.SyncPatternsTried : Prop :=
  ∀ (s : State) (w : BitVec 48),
    exec (.fsMatch14le w) s = .next { s with
        unit := .sync (if w &&& 0xFFFFFFFFF0FF#48 = 0xFF1F00E8F007#48 then some ⟨.w14, .le⟩ else none) }
      ∧ exec (.fsMatch14be w) s = .next { s with
        unit := .sync (if w &&& 0xFFFFFFFFFFF0#48 = 0x1FFFE80007F0#48 then some ⟨.w14, .be⟩ else none) }
      ∧ exec (.fsMatch16le w) s = .next { s with
        unit := .sync (if w &&& 0xFFFFFFFF0000#48 = 0xFE7F01800000#48 then some ⟨.w16, .le⟩ else none) }
      ∧ exec (.fsMatch16be w) s = .next { s with
        unit := .sync (if w &&& 0xFFFFFFFF0000#48 = 0x7FFE80010000#48 then some ⟨.w16, .be⟩ else none) }

/-- R109: a window that matches a pattern, with one byte changed so that the pattern no longer matches, matches no pattern. Own
readings of the spec that it rests on: the derivation under R109. -/
def Obligations.SyncCorruptionDetected : Prop :=
  ∀ (w v : BitVec 48) (j : Nat) (p : BitVec 48 × BitVec 48),
    p ∈ [(sync14leMatch, sync14leMask), (sync14beMatch, sync14beMask), (sync16leMatch, sync16leMask),
      (sync16beMatch, sync16beMask)] →
    (∀ k, k < 48 → k / 8 ≠ j → v.getLsbD k = w.getLsbD k) → syncMatches p.1 p.2 w = true →
    syncMatches p.1 p.2 v = false → matchWindow v = none

/-- R102: FS.HEADER validates and returns the fields at the offsets of 30_encoding.md R67; a view the packing does not admit is
refused (20_memory.md R55). Own readings of the spec that it rests on: D5. Model conventions: log entries 6 and 18. -/
def Obligations.FsHeaderParses : Prop :=
  ∀ (s : State) (base len : Word32) (p : Packing),
    (viewAdmitted base p = true →
      (HeaderInRange s.rom (bitsFrom (payloadBit s.mem base len p)) →
        exec (.fsHeader base len p) s = .next { s with
          unit := .header (some (probeAt s.rom p.wordMode (bitsFrom (payloadBit s.mem base len p)))) })
      ∧ (¬ HeaderInRange s.rom (bitsFrom (payloadBit s.mem base len p)) →
        exec (.fsHeader base len p) s = .next { s with unit := .header none }))
    ∧ (viewAdmitted base p = false → exec (.fsHeader base len p) s = .refused .misalignedView)

/-- R100: `PROBE` on a view with a sync pattern and a header in range returns the header's results and OK, and changes nothing
but the four result registers and the code. -/
def Obligations.ProbeFindsFrame : Prop :=
  ∀ (s : State) (p : Packing), s.life = .ready → s.args.bufAddr ≠ 0#32 → s.args.bufLen ≠ 0#32 →
    fsMatch s.mem s.args.bufAddr s.args.bufLen = some p → viewAdmitted s.args.bufAddr p = true →
    HeaderInRange s.rom (bitsFrom (payloadBit s.mem s.args.bufAddr s.args.bufLen p)) →
    let h := probeAt s.rom p.wordMode (bitsFrom (payloadBit s.mem s.args.bufAddr s.args.bufLen p))
    exec .probe s = .next { s with
      res := { s.res with flags := h.flags, sampleRate := h.sampleRate, bitRate := h.bitRate,
                          frameLen := BitVec.ofNat 32 h.frameBytes }
      code := .ok }

/-- R100, R262: without a pattern, or with a header out of range, `PROBE` answers SyncNotFound and a frame length of 0. Model
conventions: log entries 8. -/
def Obligations.ProbeFindsNothing : Prop :=
  ∀ s : State, s.life = .ready → s.args.bufAddr ≠ 0#32 → s.args.bufLen ≠ 0#32 →
    (fsMatch s.mem s.args.bufAddr s.args.bufLen = none
      ∨ ∃ p, fsMatch s.mem s.args.bufAddr s.args.bufLen = some p ∧ viewAdmitted s.args.bufAddr p = true
        ∧ ¬ HeaderInRange s.rom (bitsFrom (payloadBit s.mem s.args.bufAddr s.args.bufLen p))) →
    ∃ t, exec .probe s = .next t ∧ t.code = .syncNotFound ∧ t.res.frameLen = 0#32 ∧ t.res.blocks = s.res.blocks
      ∧ t.res.outCh = s.res.outCh ∧ t = { s with res := t.res, code := t.code, free := t.free }

/-- R106: `PROBE` is non-mutating: whatever it answers, it leaves all state but its four result registers and the code (and the
model's count of free values) as it was. -/
def Obligations.ProbeNonMutating : Prop :=
  ∀ s t : State, exec .probe s = .next t →
    t = { s with res := { t.res with blocks := s.res.blocks, outCh := s.res.outCh }, code := t.code, free := t.free }

/-- R105: a successful `PROBE` has a frame length of at least 96, and of at least 108 in 14-bit packing. Own readings of the
spec that it rests on: the derivation under R105. -/
def Obligations.ProbeLengthBound : Prop :=
  ∀ s t : State, exec .probe s = .next t → t.code = .ok →
    96 ≤ t.res.frameLen.toNat
      ∧ ∀ p, fsMatch s.mem s.args.bufAddr s.args.bufLen = some p → p.wordMode = .w14 → 108 ≤ t.res.frameLen.toNat

/-! ### BitReader -/

/-- 40_bitreader.md R92: `BR.INIT` places the cursor at the start of the view with an empty lookahead register; a base that is
no multiple of 4 is admitted only in W16/BE and refused otherwise (20_memory.md R55). Own readings of the spec that it rests on:
D5. Model conventions: log entries 18. -/
def Obligations.BrInitResetsCursor : Prop :=
  ∀ (s : State) (base len : Word32) (p : Packing),
    (base.toNat % 4 = 0 ∨ p = ⟨.w16, .be⟩ →
      exec (.brInit base len p) s = .next { s with
        bc := { base := base, len := len, wptr := 0#32, cur := 0#32, left := 0#6, wordMode := p.wordMode,
                endian := p.endian } })
    ∧ (base.toNat % 4 ≠ 0 → p ≠ ⟨.w16, .be⟩ → exec (.brInit base len p) s = .refused .misalignedView)

/-- R93, R95, 10_state.md R16: `get(n)` returns the next `n` bits, first bit most significant, moves the cursor past them and
keeps its bound; `get_signed` reads them as two's complement. Nothing else changes (the latch is the model's, log entry 6). A
`get` of no bits or of more than 32 is refused (93_implementation_defined.md U1). Own readings of the spec that it rests on: D7
and the derivation under R16. Model conventions: log entries 6 and 20. -/
def Obligations.GetReturnsNextBits : Prop :=
  ∀ (s : State) (n : Nat),
    (1 ≤ n → n ≤ 32 →
      exec (.brGet n) s = .next { s with
          unit := .bits (bitsFrom (restBit s.mem s.bc) 0 n), bc := advanceCursor s.mem s.bc n }
        ∧ exec (.getSigned n) s = .next { s with
          unit := .int ((BitVec.ofNat n (bitsFrom (restBit s.mem s.bc) 0 n)).toInt), bc := advanceCursor s.mem s.bc n }
        ∧ bitsFrom (restBit s.mem s.bc) 0 n < 2 ^ n
        ∧ (CursorBounded s.bc → CursorBounded (advanceCursor s.mem s.bc n)))
    ∧ (n = 0 ∨ 32 < n → exec (.brGet n) s = .refused .getWidth ∧ exec (.getSigned n) s = .refused .getWidth)

/-- R94: the values that successive calls of `get` return after `BR.INIT` are the consecutive fields of the payload bit string,
and `W·BC.wptr − BC.left` counts the bits consumed. (The bound keeps `BC.wptr` inside its 32 bits.) Own readings of the spec
that it rests on: the derivation under R94. -/
def Obligations.GetSequenceIsPayload : Prop :=
  ∀ (s t : State) (base len : Word32) (p : Packing) (widths : List Nat), exec (.brInit base len p) s = .next t →
    (∀ n, n ∈ widths → 1 ≤ n ∧ n ≤ 32) → widths.sum ≤ 2 ^ 36 →
    ∃ u, getRun t widths = some (fieldsAt (payloadBit s.mem base len p) 0 widths, u)
      ∧ payloadWidth p.wordMode * u.bc.wptr.toNat = widths.sum + u.bc.left.toNat
      ∧ u = { t with bc := u.bc, unit := u.unit }

/-- 20_memory.md R52, R53, R54: in each of the four packings every payload bit is a bit of one byte of the view; where that byte
lies at or past the end of the view the bit is zero, and the memory there is not looked at. Own readings of the spec that it
rests on: D6 and the derivation under R54. Model conventions: log entries 4. -/
def Obligations.PayloadIsViewBytes : Prop :=
  ∀ (m : Memory) (base len : Word32) (p : Packing),
    (∀ k, let i := (packedAt p k).1
      (i < len.toNat → payloadBit m base len p k = (memRead m (base.toNat + i)).getLsbD (packedAt p k).2)
        ∧ (len.toNat ≤ i → payloadBit m base len p k = false))
      ∧ ∀ m' : Memory, (∀ x, base.toNat ≤ x → x < base.toNat + len.toNat → memRead m x = memRead m' x) →
        ∀ k, payloadBit m base len p k = payloadBit m' base len p k

/-! ### FrameDecoder -/

/-- 42_framedecoder.md R114, 30_encoding.md R67: on a header in range FD.HEADER stores every field from its offset and leaves
the cursor at bit 104, or 120 with a header CRC. Nothing but `SH` and `BC` changes. Own readings of the spec that it rests on:
D14. -/
def Obligations.FdHeaderStoresFields : Prop :=
  ∀ s : State, HeaderInRange s.rom (peek s) → peek s 85 2 ≠ 3 →
    exec .fdHeader s = .next { s with sh := headerAt (peek s) s.sh, bc := after s (headerLength (peek s)) }

/-- R115, R116, 60_exceptions.md R260: on any other header FD.HEADER raises MalformedHeader: the code is placed, the frame is
aborted, and nothing else but `SH` and `BC` changes. Own readings of the spec that it rests on: D13, D18 and D39. Model
conventions: log entries 21. -/
def Obligations.FdHeaderRejects : Prop :=
  ∀ s : State, ¬ (HeaderInRange s.rom (peek s) ∧ peek s 85 2 ≠ 3) →
    ∃ t, exec .fdHeader s = .next t ∧ t = { s with
      sh := t.sh, bc := t.bc, code := .malformedHeader, seq := { s.seq with frame := .aborted } }

/-- R118, 30_encoding.md R77 to R80: an accepted primary header fills the frame halves of its channels and the three counts,
each field from its offset, and consumes its length; channels past the count keep theirs. R129, R120: a VQ start past the
activity count raises CorruptStream at the first channel that has one, and then a BHUFF of 7 raises MalformedHeader at the first
channel that has one; nothing behind the field is read. Own readings of the spec that it rests on: D8, D15, D16 and D17. Model
conventions: log entries 21. -/
def Obligations.FdPrimhdrParses : Prop :=
  ∀ s : State,
    let b := peek s
    let sh : StreamHeader :=
      { s.sh with subframes := BitVec.ofNat 5 (b 0 4 + 1), totalChannels := BitVec.ofNat 4 (phCount b),
                  primChannels := BitVec.ofNat 4 (phCount b) }
    let fails := fun (code : Code) (used : Nat) => ∃ t, exec .fdPrimhdr s = .next t
      ∧ (∀ c, phCount b ≤ c → c < 8 → vget t.chF c = vget s.chF c)
      ∧ t = { s with bc := after s used, sh := sh, chF := t.chF, code := code, seq := { s.seq with frame := .aborted } }
    (PrimaryAccepted b →
      ∃ t, exec .fdPrimhdr s = .next t ∧ ChannelsLoaded s.rom b s.chF t.chF
        ∧ t = { s with bc := after s (phLength b (if s.sh.crcPresent = 1#1 then 16 else 0)), sh := sh, chF := t.chF })
    ∧ (∀ c, c < phCount b → phActivity b c < phVqStart b c → (∀ d, d < c → phVqStart b d ≤ phActivity b d) →
      fails .corruptStream (7 + 5 * phCount b + 5 * (c + 1)))
    ∧ ∀ c, (∀ d, d < phCount b → phVqStart b d ≤ phActivity b d) → c < phCount b → phBhuff b c = 7 →
      (∀ d, d < c → phBhuff b d ≠ 7) → fails .malformedHeader (7 + 18 * phCount b + 3 * (c + 1))

/-- R125: without a hook, or without DYNRANGE, DRC.HOOK does nothing; the hooked case is refused (93 U6). Own readings of the
spec that it rests on: D38. Model conventions: log entries 19. -/
def Obligations.DrcHookIdle : Prop :=
  ∀ s : State, (s.hook = 0#32 ∨ s.sh.dynrange = 0#1 → exec .drcHook s = .next s)
    ∧ (s.hook ≠ 0#32 → s.sh.dynrange = 1#1 → exec .drcHook s = .refused .drcHook)

/-- 48_downmix.md R236 to R239: DMX.SELECT answers with the arrangement of the table, STEREO collapsed to DOLBY for a 3F primary
at −3 dB, and the level adjusted on request, by −3 dB over 1 plus the centre level for 3F to MONO; an arrangement requesting
itself selects itself with an unchanged level; a pair without an arrangement raises UnsupportedChannelArrangement. Own readings
of the spec that it rests on: D20 and D45. Model conventions: log entries 6, 13 and 21. -/
def Obligations.DmxSelectAnswers : Prop :=
  ∀ (s : State) (primary : BitVec 6) (flags : Word32) (level clev slev : Sys2Proof.Num),
    let chosen := selectedOf s.rom (flagsArr flags) primary.toNat
    (∀ p out0 out, arrangementOf primary.toNat = some p → chosen = some out0 →
      out = (if out0 = .stereo ∧ p = .f3 ∧ clev = level3dB s.rom.sampleKind then .dolby else out0) →
      exec (.dmxSelect primary flags level clev slev) s
        = .next { s with unit := .select out (adjustedLevel s.rom p out flags level clev slev) })
    ∧ (∀ x, primary.toNat ≤ 9 → arrangementOf primary.toNat = some x → flagsArr flags = primary.toNat →
      exec (.dmxSelect primary flags level clev slev) s = .next { s with unit := .select x level })
    ∧ (chosen = none →
      exec (.dmxSelect primary flags level clev slev) s
        = .next { s with code := .unsupportedChannelArrangement, seq := { s.seq with frame := .aborted } })

/-- R113: `BEGIN_FRAME` on an admitted view with a sync pattern, a fixed header in range, a supported arrangement, no hooked
dynamic range, and an accepted primary header of as many channels as the arrangement has, makes the frame active at its first
sub-block, loads `SH`, `CH`, `FR` and writes flags and level back. Own readings of the spec that it rests on: D13 to D17, D19,
D21, D22 and D37. Model conventions: log entries 13. -/
def Obligations.BeginFrameAccepts : Prop :=
  ∀ (s : State) (p : Packing) (a out : Arrangement) (lvl : Sys2Proof.Num), s.life = .ready → FrameOpens s p a out lvl →
    let c0 := cursorInit s.args.bufAddr s.args.bufLen p
    let b := openBits s p
    let pb := primaryBits s p
    let k := s.rom.sampleKind
    let lfe := b 85 2 != 0 && s.args.flags.getLsbD 7
    ∃ t, exec .beginFrame s = .next t ∧ ChannelsLoaded s.rom pb s.chF t.chF
      ∧ t = { s with
        bc := advanceCursor s.mem c0 (headerLength b + phLength pb (16 * b 38 1))
        sh := { headerAt b s.sh with subframes := BitVec.ofNat 5 (pb 0 4 + 1), totalChannels := BitVec.ofNat 4 (phCount pb),
                                     primChannels := BitVec.ofNat 4 (phCount pb) }
        chF := t.chF
        fr := { output := out, outputLfe := lfe, bias := numLoad k s.args.bias, level := lvl, clev := s.rom.clev,
                slev := s.rom.slev, blocksTotal := BitVec.ofNat 32 ((b 39 7 + 1) / 8), blocksDone := 0#32 }
        args := { s.args with flags := flagsWord (arrangementCode out) lfe, level := numStore k lvl }
        seq := { frame := .active, currentSubframe := 0#5, currentSubsubframe := 0#3 }
        code := .ok }

/-- R126: whether `BEGIN_FRAME` succeeds or fails, it does not touch `PH`, `HIST`, `STAGE`, `LFE_DATA`, `OUT`, the warnings, the
hook, `LIFE` and the tables. -/
def Obligations.BeginFrameKeepsHistories : Prop :=
  ∀ s t : State, exec .beginFrame s = .next t →
    t.ph = s.ph ∧ t.hist = s.hist ∧ t.stage = s.stage ∧ t.lfe = s.lfe ∧ t.out = s.out ∧ t.warnJoint = s.warnJoint
      ∧ t.warnDsync = s.warnDsync ∧ t.hook = s.hook ∧ t.hookUser = s.hookUser ∧ t.life = s.life ∧ t.syn = s.syn
      ∧ t.rom = s.rom

/-- R113, 60_exceptions.md R262 to R267: how `BEGIN_FRAME` fails past its argument checks, in the order R266 gives. Each error
leaves the frame aborted and changes nothing but the parse state, `ARG_FLAGS`, `ARG_LEVEL` and the code; a misaligned view and
hooked dynamic range are refused at their place in the order. With any outcome the frame is active exactly when the code is OK.
Own readings of the spec that it rests on: D5, D8, D13, D18, D37 and D38. Model conventions: log entries 8, 18, 19 and 28. -/
def Obligations.BeginFrameFailsInOrder : Prop :=
  ∀ s : State, s.life = .ready → s.args.bufAddr ≠ 0#32 → s.args.bufLen ≠ 0#32 →
    let fails := fun code : Code => ∃ t, exec .beginFrame s = .next t ∧ t.seq.frame = .aborted
      ∧ t = { s with
        bc := t.bc, sh := t.sh, chF := t.chF, fr := t.fr, seq := t.seq
        args := { s.args with flags := t.args.flags, level := t.args.level }, code := code, free := t.free }
    let matched := fsMatch s.mem s.args.bufAddr s.args.bufLen
    (∀ t, exec .beginFrame s = .next t →
      t.res = s.res ∧ t.chS = s.chS ∧ t.sf = s.sf ∧ t.mem = s.mem
        ∧ ((t.code = .ok ∧ t.seq.frame = .active) ∨ (t.code ≠ .ok ∧ t.seq.frame = .aborted)))
    ∧ (matched = none → fails .syncNotFound)
    ∧ ∀ p, matched = some p →
      let b := openBits s p
      let pb := primaryBits s p
      let chosen := selectedOf s.rom (flagsArr s.args.flags) (b 60 6)
      let headerOk := HeaderInRange s.rom b ∧ b 85 2 ≠ 3
      let hooked := s.hook ≠ 0#32 ∧ b 76 1 = 1
      let startsOk := ∀ c, c < phCount pb → phVqStart pb c ≤ phActivity pb c
      (viewAdmitted s.args.bufAddr p = false → exec .beginFrame s = .refused .misalignedView)
      ∧ (viewAdmitted s.args.bufAddr p = true →
        (¬ headerOk → fails .malformedHeader)
        ∧ (headerOk → chosen = none → fails .unsupportedChannelArrangement)
        ∧ (headerOk → chosen ≠ none → hooked → exec .beginFrame s = .refused .drcHook)
        ∧ (headerOk → chosen ≠ none → ¬ hooked → ¬ startsOk → fails .corruptStream)
        ∧ (headerOk → chosen ≠ none → ¬ hooked → startsOk → (∃ c, c < phCount pb ∧ phBhuff pb c = 7) →
          fails .malformedHeader)
        ∧ (headerOk → chosen ≠ none → ¬ hooked → PrimaryAccepted pb →
          (∀ a, arrangementOf (b 60 6) = some a → phCount pb ≠ nchOf s.rom a) → fails .malformedHeader))

/-! ### The subframe sequencer -/

/-- 43_subframe.md R136: ADVANCE moves to the next sub-block, or to the first one of the next subframe; where that leaves the
last subframe the footer is parsed as well, and nothing moves the position further. That the footer runs once per frame, and the
LFE rotation in it, is R137's reading of the source; log entry 33 names the sentence of 90_conflicts.md C4 that says otherwise.
Model conventions: log entries 33. -/
def Obligations.AdvanceMovesPosition : Prop :=
  ∀ s : State,
    let q : Sequencer := if s.seq.currentSubsubframe.toNat + 1 < s.sf.subsubframes.toNat then
        { s.seq with currentSubsubframe := s.seq.currentSubsubframe + 1#3 }
      else { s.seq with currentSubsubframe := 0#3, currentSubframe := s.seq.currentSubframe + 1#5 }
    (q.currentSubframe.toNat < s.sh.subframes.toNat → exec .advance s = .next { s with seq := q })
      ∧ (s.sh.subframes.toNat ≤ q.currentSubframe.toNat →
        ∃ t, exec .sfFooter { s with seq := q } = .next t ∧ exec .advance s = .next t ∧ t.seq = q)

/-- R157, R158: SF.FOOTER drops the fields that the header flags announce and rotates the LFE history; LFE.ROTATE alone moves
the current half of `LFE_DATA` into the history half. Nothing else changes. Own readings of the spec that it rests on: D34 and
D43. -/
def Obligations.FooterSkipsAndRotates : Prop :=
  ∀ s : State, ∃ lfe : Vector Sys2Proof.Num 32,
    (∀ i, i < 32 → (i < lfeSpan s → i + lfeSpan s < 32 → vget lfe i = vget s.lfe (i + lfeSpan s))
      ∧ (lfeSpan s ≤ i → vget lfe i = vget s.lfe i))
    ∧ exec .lfeRotate s = .next { s with lfe := lfe }
    ∧ exec .sfFooter s = .next { s with lfe := lfe, bc := after s (footerBits s) }

/-- R156: with ASPF set, or at the last sub-block of a subframe, 16 bits are read and a value other than 0xFFFF sets WARN_DSYNC;
otherwise nothing is read. Own readings of the spec that it rests on: D44. -/
def Obligations.DsyncCheckWarns : Prop :=
  ∀ (s : State) (ssf : Fin 4),
    (s.sh.aspf = 1#1 ∨ ssf.val + 1 = s.sf.subsubframes.toNat →
      exec (.dsyncCheck ssf) s = .next { s with
        bc := after s 16, warnDsync := s.warnDsync || peek s 0 16 != 0xFFFF })
    ∧ (s.sh.aspf = 0#1 → ssf.val + 1 ≠ s.sf.subsubframes.toNat → exec (.dsyncCheck ssf) s = .next s)

/-- R141, R142: READ_BITALLOC returns a 5-bit or 4-bit index or the value of a code, at most 26; a larger value raises
CorruptStream (a negative value of a codebook is taken as out of range as well, log entry 13), and so do bits that no code
begins (44_sample_decode.md R160). Selector 7, which no accepted frame has (R120), reads the codebook at its index: the model's
choice, log entry 21. Own readings of the spec that it rests on: D23 and D24. Model conventions: log entries 6, 13 and 21. -/
def Obligations.ReadBitallocBounded : Prop :=
  ∀ (s : State) (c : Fin 8),
    let h := (vget s.chF c.val).bitallocHuffman.toNat
    let book := tget s.rom.huffBitalloc h
    let corrupt := fun n => ({ s with
      bc := after s n, code := .corruptStream, seq := { s.seq with frame := .aborted } } : State)
    (h = 5 → exec (.readBitalloc c) s = .next { s with unit := .bits (peek s 0 4), bc := after s 4 })
      ∧ (h = 6 → (peek s 0 5 ≤ 26 →
          exec (.readBitalloc c) s = .next { s with unit := .bits (peek s 0 5), bc := after s 5 })
        ∧ (26 < peek s 0 5 → exec (.readBitalloc c) s = .next (corrupt 5)))
      ∧ (h ≤ 4 ∨ h = 7 → bookWellFormed book = true → book ≠ [] →
        (∀ e, e ∈ book → peek s 0 e.len = e.code →
          (∀ v : Nat, e.value = v → v ≤ 26 →
            exec (.readBitalloc c) s = .next { s with unit := .bits v, bc := after s e.len })
          ∧ (e.value < 0 ∨ 26 < e.value → exec (.readBitalloc c) s = .next (corrupt e.len)))
        ∧ (NoCodeAt s book 0 → exec (.readBitalloc c) s = .next (corrupt (longestCode book))))

/-- R146, R147, R148: READ_SCALES reads one index for each slot present, in stream order, absolute or as a running sum, and
stores the table's entry for it; every other slot below the activity count becomes 0. A running sum outside its table, bits that
no code begins, and selector 7 where a slot is present raise CorruptStream, with nothing but the channel's scale factors and the
cursor changed; selector 7 with no slot present raises nothing. Own readings of the spec that it rests on: D23, D24 and D25.
Model conventions: log entries 21. -/
def Obligations.ReadScalesStoresFactors : Prop :=
  ∀ (s : State) (c : Fin 8),
    let h := (vget s.chF c.val).scalefactorHuffman.toNat
    let book := tget s.rom.huffScale h
    let slots := scaleSlots s c.val
    let corrupt := fun used => ∃ t r, exec (.readScales c) s = .next t
      ∧ r = { vget s.chS c.val with scale0 := r.scale0, scale1 := r.scale1 }
      ∧ t = { s with
        bc := after s used, chS := vput s.chS c.val r, code := .corruptStream, seq := { s.seq with frame := .aborted } }
    actOf s c.val ≤ 32 → (h ≤ 4 → bookWellFormed book = true ∧ book ≠ []) →
    (∀ idx used, ScalesAt s h slots.length idx used ∨ (h = 7 ∧ slots = [] ∧ idx = [] ∧ used = 0) →
      ∃ t r, exec (.readScales c) s = .next t ∧ t = { s with bc := after s used, chS := vput s.chS c.val r }
        ∧ r = { vget s.chS c.val with scale0 := r.scale0, scale1 := r.scale1 }
        ∧ (∀ sb, sb < 32 →
          (actOf s c.val ≤ sb → vget r.scale0 sb = vget (vget s.chS c.val).scale0 sb
              ∧ vget r.scale1 sb = vget (vget s.chS c.val).scale1 sb)
            ∧ (sb < actOf s c.val → (sb, 0) ∉ slots → vget r.scale0 sb = 0#64)
            ∧ (sb < actOf s c.val → (sb, 1) ∉ slots → vget r.scale1 sb = 0#64))
        ∧ ∀ (k sb slot : Nat) (i : Int), slots[k]? = some (sb, slot) → idx[k]? = some i →
          (if slot = 0 then vget r.scale0 sb else vget r.scale1 sb)
            = if h = 6 then tget s.rom.scale7 i.toNat else tget s.rom.scale6 i.toNat)
    ∧ (h ≤ 4 → ∀ es, es.length < slots.length → (∀ e, e ∈ es → e ∈ book) → CodesAt (restBit s.mem s.bc) 0 es →
      (∀ i, i ∈ runningSums 0 es → 0 ≤ i ∧ i ≤ 63) →
      (∀ e, e ∈ book → peek s (codesLength es) e.len = e.code →
        (es.map CodeEntry.value).sum + e.value < 0 ∨ 63 < (es.map CodeEntry.value).sum + e.value →
        corrupt (codesLength es + e.len))
      ∧ (NoCodeAt s book (codesLength es) → corrupt (codesLength es + longestCode book)))
    ∧ (h = 7 → slots ≠ [] → corrupt 0)

/-- R152: READ_JOINT reads one value for each subband between the two activity counts, stores it plus 64, and sets WARN_JOINT;
no sample is touched. A source channel that the frame has not got, bits that no code begins, and selector 7 where a value has to
be read raise CorruptStream; selector 7 with no value to read raises nothing. Own readings of the spec that it rests on: D24,
D25 and D26. Model conventions: log entries 21 and 24. -/
def Obligations.ReadJointStoresAndWarns : Prop :=
  ∀ (s : State) (c : Fin 8),
    let j := (vget s.chF c.val).jointIntensity.toNat
    let h := (vget s.chS c.val).jointHuff.toNat
    let book := tget s.rom.huffScale h
    let n := actOf s (j - 1) - actOf s c.val
    let aborted := { s.seq with frame := .aborted }
    1 ≤ j →
    (j ≤ primCount s → actOf s (j - 1) ≤ 32 → (h ≤ 4 → bookWellFormed book = true ∧ book ≠ []) →
      (∀ vals used, JointsAt s h n vals used →
        ∃ t r, exec (.readJoint c) s = .next t
          ∧ t = { s with bc := after s used, chS := vput s.chS c.val r, warnJoint := true }
          ∧ r = { vget s.chS c.val with jointScaleFactor := r.jointScaleFactor }
          ∧ ∀ sb, sb < 32 → (actOf s c.val ≤ sb → sb < actOf s (j - 1) →
              vget r.jointScaleFactor sb = BitVec.ofInt 8 (vals.getD (sb - actOf s c.val) 0 + 64))
            ∧ (sb < actOf s c.val ∨ actOf s (j - 1) ≤ sb →
              vget r.jointScaleFactor sb = vget (vget s.chS c.val).jointScaleFactor sb))
      ∧ (h ≤ 4 → ∀ es, es.length < n → (∀ e, e ∈ es → e ∈ book) → CodesAt (restBit s.mem s.bc) 0 es →
        NoCodeAt s book (codesLength es) →
        ∃ t r, exec (.readJoint c) s = .next t
          ∧ r = { vget s.chS c.val with jointScaleFactor := r.jointScaleFactor }
          ∧ t = { s with
            bc := after s (codesLength es + longestCode book), chS := vput s.chS c.val r
            code := .corruptStream, seq := aborted })
      ∧ (h = 7 → (0 < n → exec (.readJoint c) s = .next { s with code := .corruptStream, seq := aborted })
        ∧ (n = 0 → exec (.readJoint c) s = .next { s with warnJoint := true })))
    ∧ (primCount s < j → exec (.readJoint c) s = .next { s with code := .corruptStream, seq := aborted })

/-- R154: READ_LFE reads `L` signed bytes and a scale index, and fills the current half of `LFE_DATA`; an index above 127 raises
CorruptStream and leaves `LFE_DATA` as it was. Own readings of the spec that it rests on: D34. Model conventions: log entries
21. -/
def Obligations.ReadLfeFillsCurrentHalf : Prop :=
  ∀ s : State, lfeSpan s ≤ 16 →
    let n := lfeSpan s
    let i := peek s (8 * n) 8
    let f := tget s.rom.scale7 i
    let k := s.rom.sampleKind
    (i ≤ 127 → ∃ lfe : Vector Sys2Proof.Num 32,
      exec .readLfe s = .next { s with
        bc := after s (8 * n + 8), sf := { s.sf with lfeScaleFactor := f }, lfe := lfe }
      ∧ ∀ j, j < 32 → (n ≤ j → j < 2 * n →
          vget lfe j = numMul k (numMul k (numOfInt k (BitVec.ofNat 8 (peek s (8 * (j - n)) 8)).toInt) f) s.rom.lfeGain)
        ∧ (j < n ∨ 2 * n ≤ j → vget lfe j = vget s.lfe j))
    ∧ (127 < i → exec .readLfe s = .next { s with
      bc := after s (8 * n + 8), code := .corruptStream, seq := { s.seq with frame := .aborted } })

/-- R138 to R140, R153, 30_encoding.md R81: SF.HEADER with one sub-block and the forms that no stream can make fail (4-bit
allocation indices, raw scale factors, no joint coding, no LFE channel): it completes whatever bits follow, stores each field
from its offset, and leaves the cursor behind the last one. Own readings of the spec that it rests on: D23 and the derivation
under R144. -/
def Obligations.SfHeaderPlainCompletes : Prop :=
  ∀ s : State, HeaderPlain s → exec .sfHeader s = .next (plainHeader s)

/-- R142: for every stream, a subframe header that is not rejected leaves every allocation index at most 26 and one to four
sub-blocks; a rejected one is CorruptStream. `SH`, `FR`, the frame half of `CH`, the histories and `OUT` are never touched.
Model conventions: log entries 21. -/
def Obligations.SfHeaderBitallocBounded : Prop :=
  ∀ s t : State, exec .sfHeader s = .next t →
    (t.sh = s.sh ∧ t.fr = s.fr ∧ t.chF = s.chF ∧ t.ph = s.ph ∧ t.hist = s.hist ∧ t.stage = s.stage ∧ t.out = s.out
      ∧ t.subsamp = s.subsamp)
    ∧ ((t.code = .corruptStream ∧ t.seq = { s.seq with frame := .aborted })
      ∨ (t.code = s.code ∧ t.seq = s.seq ∧ 1 ≤ t.sf.subsubframes.toNat ∧ t.sf.subsubframes.toNat ≤ 4
        ∧ ∀ c sb, c < primCount s → primCount s ≤ 8 → sb < vqOf s c → sb < 32 →
          (vget (vget t.chS c).bitalloc sb).toNat ≤ 26))

/-- R155, 44_sample_decode.md R162 to R166: a sub-block body whose groups are all legal, each of any of the four families,
completes: it consumes the bits of its groups, and each subband holds its scaled and predicted group, or its vector. Own
readings of the spec that it rests on: D27, D28 and the derivation under R171. -/
def Obligations.SsBodyCompletes : Prop :=
  ∀ (s : State) (ssf : Fin 4) (q : Nat → Nat → Vector Int 8) (n : Nat → Nat → Nat), BodyAt s q n →
    ∃ t, exec (.ssBody ssf) s = .next t
      ∧ t = { s with bc := after s (groupOffset s n (primCount s) 0), subsamp := t.subsamp }
      ∧ ∀ c sb, c < 8 → sb < 32 →
        (c < primCount s → sb < vqOf s c →
          let x := reconScale s c sb ssf.val (q c sb)
          subsampAt t c sb = if vget (vget s.chS c).predictionMode sb = 1#1 then
            subsampAt (reconAdpcm { s with subsamp := vput s.subsamp c (vput (vget s.subsamp c) sb x) } c sb) c sb else x)
        ∧ (c < primCount s → vqOf s c ≤ sb → sb < actOf s c → subsampAt t c sb = hfvqLookup s c sb ssf.val)
        ∧ (primCount s ≤ c ∨ actOf s c ≤ sb → subsampAt t c sb = subsampAt s c sb)

/-- R135: `DECODE_BLOCK` on an active frame is its micro-operations in order, when none of them raises; then the block is
counted, `RES_OUT_CH` is set and the valid slots of `OUT` are what the micro-operations left. Model conventions: log entries 6,
8, 9 and 34 (the six slots at most of 10_state.md R41, where R135's sum is seven for six channels and LFE). -/
def Obligations.DecodeBlockIsItsScript : Prop :=
  ∀ (s u : State) (ssf : Fin 4), s.life = .ready → s.seq.frame = .active →
    s.seq.currentSubframe.toNat < s.sh.subframes.toNat → s.seq.currentSubsubframe.toNat = ssf.val → primCount s ≤ 8 →
    runAll s (blockScript s ssf) = some u → u.seq.frame = .active →
    let n := min 6 (nchOf s.rom s.fr.output + s.fr.outputLfe.toNat)
    ∃ t, exec .decodeBlock s = .next t
      ∧ t = { u with
        unit := t.unit, fr := { s.fr with blocksDone := s.fr.blocksDone + 1#32 },
        res := { s.res with outCh := BitVec.ofNat 32 n }, code := .ok, out := t.out, subsamp := t.subsamp, free := t.free }
      ∧ t.unit = s.unit ∧ ∀ ch, ch < n → vget t.out ch = vget u.out ch

/-- R135: `DECODE_BLOCK` completes on every sub-block whose groups are legal, the first one of a subframe with a header of the
forms that no stream can make fail: OK, the frame still active, one more block done, a sub-block's `RES_OUT_CH`, and the side
information as the header left it. Own readings of the spec that it rests on: D23, D27, D28 and D36. Model conventions: log
entry 34 (the six slots at most of 10_state.md R41, where R135's sum is seven for six channels and LFE). -/
def Obligations.DecodeBlockCompletes : Prop :=
  ∀ (s : State) (q : Nat → Nat → Vector Int 8) (n : Nat → Nat → Nat), s.life = .ready → s.seq.frame = .active →
    s.seq.currentSubframe.toNat < s.sh.subframes.toNat →
    let first := s.seq.currentSubsubframe = 0#3
    let h := if first then plainHeader s else s
    (first → HeaderPlain s) → BodyAt h q n →
    ∃ t, exec .decodeBlock s = .next t ∧ t.code = .ok ∧ t.seq.frame = .active
      ∧ t.fr = { s.fr with blocksDone := s.fr.blocksDone + 1#32 }
      ∧ t.res = { s.res with outCh := BitVec.ofNat 32 (min 6 (nchOf s.rom s.fr.output + s.fr.outputLfe.toNat)) }
      ∧ t.sh = s.sh ∧ t.chF = s.chF ∧ t.chS = h.chS ∧ t.sf = h.sf ∧ t.warnJoint = s.warnJoint ∧ t.args = s.args
      ∧ t.hook = s.hook ∧ t.hookUser = s.hookUser ∧ t.life = s.life ∧ t.mem = s.mem ∧ t.rom = s.rom ∧ t.syn = s.syn

/-- R135, 60_exceptions.md R277: a failed `DECODE_BLOCK` leaves `PH`, `HIST`, `STAGE`, `OUT`, `RES_OUT_CH`, `FR` and the
frame-level side information exactly as before the command, and of `LFE_DATA` everything but the upper half (10_state.md R27);
with no active frame nothing but the code changes (D40). Own readings of the spec that it rests on: D40 and the derivation under
R277. Model conventions: log entries 8. -/
def Obligations.DecodeBlockFailureKeeps : Prop :=
  ∀ s t : State, s.life = .ready → exec .decodeBlock s = .next t → t.code ≠ .ok →
    let l := if s.seq.currentSubsubframe = 0#3 ∧ s.seq.currentSubframe.toNat < s.sh.subframes.toNat
      then 2 * s.sh.lfe.toNat * (peek s 0 2 + 1) else lfeSpan s
    t.code = .corruptStream ∧ t.ph = s.ph ∧ t.hist = s.hist ∧ t.stage = s.stage ∧ t.out = s.out ∧ t.res = s.res
      ∧ t.fr = s.fr ∧ t.sh = s.sh ∧ t.chF = s.chF ∧ t.args = s.args ∧ t.mem = s.mem
      ∧ (∀ i, i < 32 → i < l ∨ 2 * l ≤ i → vget t.lfe i = vget s.lfe i)
      ∧ (s.seq.frame = .active → t.seq.frame = .aborted)
      ∧ (s.seq.frame ≠ .active → t = { s with code := .corruptStream })

/-! ### Sample decoding -/

/-- 44_sample_decode.md R160: HUFF.DEC returns the value of the entry whose code comes next and consumes that code; bits that no
entry begins with raise CorruptStream after the longest code length. Own readings of the spec that it rests on: D24. Model
conventions: log entries 6, 21 and 25. -/
def Obligations.HuffDecReadsCode : Prop :=
  ∀ (s : State) (book : Codebook), book ≠ [] → bookWellFormed book = true →
    (∀ e, e ∈ book → peek s 0 e.len = e.code →
      exec (.huffDec book) s = .next { s with unit := .int e.value, bc := after s e.len })
    ∧ ((∀ e, e ∈ book → peek s 0 e.len ≠ e.code) →
      exec (.huffDec book) s = .next { s with
        bc := after s ((book.map CodeEntry.len).foldl max 0), code := .corruptStream,
        seq := { s.seq with frame := .aborted } })

/-- R162 to R166: each of the four families gives its eight values and consumes its bits, and QX runs the one family that its
operands select. Own readings of the spec that it rests on: D27 and D28. Model conventions: log entries 6 and 21. -/
def Obligations.QxFamiliesDecode : Prop :=
  ∀ (s : State) (a : Fin 27) (sel : BitVec 3),
    let done := fun (q : Vector Int 8) (n : Nat) => Host.Outcome.next { s with unit := .ints8 q, bc := after s n }
    (a.val = 0 → exec .qxNone s = done (vtab 8 fun _ => 0) 0 ∧ exec (.qx a sel) s = exec .qxNone s)
    ∧ (∀ book es, groupBook s.rom a.val sel.toNat = some book → a.val ≠ 0 → bookWellFormed book = true →
        es.length = 8 → (∀ e, e ∈ es → e ∈ book) → CodesAt (restBit s.mem s.bc) 0 es →
        exec (.qxHuff book) s = done (vtab 8 fun m => (es.map CodeEntry.value).getD m 0) (codesLength es)
          ∧ exec (.qx a sel) s = exec (.qxHuff book) s)
    ∧ (8 ≤ a.val →
        exec (.qxRaw a) s
          = done (vtab 8 fun m => (BitVec.ofNat (a.val - 3) (peek s (m * (a.val - 3)) (a.val - 3))).toInt) (8 * (a.val - 3))
        ∧ (groupBook s.rom a.val sel.toNat = none → exec (.qx a sel) s = exec (.qxRaw a) s))
    ∧ (1 ≤ a.val → a.val ≤ 7 →
        let n := blockSize a.val
        let l := blockLevels a.val
        let digit := fun (code m : Nat) => ((code / l ^ m % l : Nat) : Int) - ((l - 1) / 2 : Nat)
        (peek s 0 n < l ^ 4 → peek s n n < l ^ 4 →
          exec (.qxBlock a) s = done (vtab 8 fun m => if m < 4 then digit (peek s 0 n) m else digit (peek s n n) (m - 4)) (2 * n))
        ∧ (l ^ 4 ≤ peek s 0 n ∨ l ^ 4 ≤ peek s n n → exec (.qxBlock a) s = .next { s with
            bc := after s (2 * n), code := .corruptStream, seq := { s.seq with frame := .aborted } })
        ∧ (groupBook s.rom a.val sel.toNat = none → exec (.qx a sel) s = exec (.qxBlock a) s))

/-- R167, R168: BLK.DECODE gives the four base-`levels` digits less the offset, least significant first, each within the offset;
codeword 0 gives all `−offset`, codeword `levels^4 − 1` all `+offset`, and any codeword from `levels^4` on raises CorruptStream.
Own readings of the spec that it rests on: D28. Model conventions: log entries 6 and 21. -/
def Obligations.BlkDecodeDigits : Prop :=
  ∀ (s : State) (code levels : Nat), levels ∈ [3, 5, 7, 9, 13, 17, 25] →
    let off : Int := ((levels - 1) / 2 : Nat)
    (code < levels ^ 4 → ∃ v : Vector Int 4, exec (.blkDecode code levels) s = .next { s with unit := .ints4 v }
      ∧ (∀ i, i < 4 → -off ≤ vget v i ∧ vget v i ≤ off)
      ∧ (vget v 0 + off) + levels * ((vget v 1 + off) + levels * ((vget v 2 + off) + levels * (vget v 3 + off))) = code
      ∧ (code = 0 → ∀ i, i < 4 → vget v i = -off) ∧ (code = levels ^ 4 - 1 → ∀ i, i < 4 → vget v i = off))
    ∧ (levels ^ 4 ≤ code → exec (.blkDecode code levels) s
      = .next { s with code := .corruptStream, seq := { s.seq with frame := .aborted } })

/-! ### Reconstruction -/

/-- 45_reconstruct.md R181 to R183: RECON.SCALE multiplies each index by step size, scale factor of the slot in use, and
adjustment, in that order, the step size being a finite number; an index 0 gives +0 (R182, R190). 44_sample_decode.md R170:
HFVQ.LOOKUP takes eight entries of the vector at the sub-block's offset, times slot 0 of the scale factor, divided by 16. Own
readings of the spec that it rests on: D50, the product order of R182, and the derivation under R170. Model conventions: log
entries 6, 10 and 11. -/
def Obligations.SamplesScaled : Prop :=
  ∀ (s : State) (c : Fin 8) (sb : Fin 32) (ssf : Fin 4) (q : Vector Int 8),
    let k := s.rom.sampleKind
    let h := vget s.chS c.val
    let a := (vget h.bitalloc sb.val).toNat
    let sel := (vget (vget s.chF c.val).quantSel a).toNat
    let t := (vget h.transitionMode sb.val).toNat
    let step := if s.sh.bitRate.toNat = 31 then tget s.rom.qstepLossless a else tget s.rom.qstepLossy a
    let f := if 0 < t ∧ t ≤ ssf.val then vget h.scale1 sb.val else vget h.scale0 sb.val
    let adj := match s.rom.adjIndex with
      | .sel => vget (vget s.chF c.val).sfAdj sel
      | .abits => if a ≤ 10 then vget (vget s.chF c.val).sfAdj a else numOfInt k 1
    let i := (vget h.highFreqVq sb.val).toNat
    ∃ r v : Vector Sys2Proof.Num 8, exec (.reconScale c sb ssf q) s = .next { s with unit := .nums8 r }
      ∧ exec (.hfvqLookup c sb ssf) s = .next { s with unit := .nums8 v }
      ∧ ∀ m, m < 8 →
        (vget q m = 0 → vget r m = 0#64)
        ∧ (vget q m ≠ 0 → (k = .float → step.extractLsb' 52 11 ≠ 0x7FF#11) →
          vget r m = numMul k (numOfInt k (vget q m)) (numMul k (numMul k step f) adj))
        ∧ vget v m = numDiv k (numMul k (tget s.rom.hfvq (i, 8 * ssf.val + m)) (vget h.scale0 sb.val)) (numOfInt k 16)

/-- 45_reconstruct.md R184, R185: RECON.ADPCM is the in-place recursion of four taps: earlier samples of the sub-block as
already predicted, and the history where it is enabled and reached. Own readings of the spec that it rests on: D29. -/
def Obligations.ReconAdpcmRecurrence : Prop :=
  ∀ (s : State) (c : Fin 8) (sb : Fin 32),
    let k := s.rom.sampleKind
    let coef := fun n => tget s.rom.adpcm ((vget (vget s.chS c.val).predictionVq sb.val).toNat, n - 1)
    let h := fun i => vget (vget (vget s.ph c.val) sb.val) i
    ∃ y : Vector Sys2Proof.Num 8,
      exec (.reconAdpcm c sb) s = .next { s with
        subsamp := vput s.subsamp c.val (vput (vget s.subsamp c.val) sb.val y) }
      ∧ ∀ m, m < 8 →
        let tap := fun (acc : Sys2Proof.Num) (n : Nat) =>
          if n ≤ m then numAdd k acc (numMul k (coef n) (vget y (m - n)))
          else if s.sh.predictorHistory = 1#1 then numAdd k acc (numMul k (coef n) (h (m + 4 - n)))
          else acc
        vget y m = tap (tap (tap (tap (vget (subsampAt s c.val sb.val) m) 1) 2) 3) 4

/-- R186: PH.UPDATE keeps the last four samples of every subband that the sub-block produced, and no other history. Own readings
of the spec that it rests on: D30. -/
def Obligations.PhUpdateKeepsLastFour : Prop :=
  ∀ s : State, ∃ ph : Vector (Vector (Vector Sys2Proof.Num 4) 32) 8,
    exec .phUpdate s = .next { s with ph := ph }
      ∧ ∀ c sb i, c < 8 → sb < 32 → i < 4 →
        vget (vget (vget ph c) sb) i =
          if c < primCount s ∧ sb < max (actOf s c) (vqOf s c) then vget (subsampAt s c sb) (4 + i)
          else vget (vget (vget s.ph c) sb) i

/-! ### Synthesis, LFE, downmix -/

/-- 46_synthesis.md R218 to R221: MODULATE, BUTTERFLY, FOLD, ACCUMULATE and SHIFT, element by element. Own readings of the spec
that it rests on: D32. Model conventions: log entries 6. -/
def Obligations.FilterbankSteps : Prop :=
  ∀ (s : State) (c : Fin 8) (x : Vector Sys2Proof.Num 32) (p q : Vector Sys2Proof.Num 16),
    let k := s.rom.sampleKind
    let add := numAdd k
    let mul := numMul k
    let hist := vget s.hist c.val
    let stage := vget s.stage c.val
    (∃ a b : Vector Sys2Proof.Num 16, exec (.modulate x) s = .next { s with unit := .pair16 a b }
      ∧ ∀ row, row < 16 →
        vget a row = (List.range 16).foldl
          (fun acc i => add acc (mul (add (vget x (2 * i)) (vget x (2 * i + 1))) (vget (vget s.syn.cosA row) i))) 0#64
        ∧ vget b row = (List.range' 1 15).foldl
          (fun acc i => add acc (mul (add (vget x (2 * i)) (vget x (2 * i - 1))) (vget (vget s.syn.cosB row) i)))
          (add 0#64 (mul (vget x 0) (vget (vget s.syn.cosB row) 0))))
    ∧ (∃ sum diff : Vector Sys2Proof.Num 16, exec (.butterfly p q) s = .next { s with unit := .pair16 sum diff }
      ∧ ∀ i, i < 16 → vget sum i = add (vget p i) (vget q i) ∧ vget diff i = numSub k (vget p i) (vget q i))
    ∧ (∃ h : Vector Sys2Proof.Num 512, exec (.fold c p q) s = .next { s with hist := vput s.hist c.val h }
      ∧ (∀ i, i < 16 → vget h i = mul (vget s.syn.winF i) (vget p i)
          ∧ vget h (31 - i) = mul (vget s.syn.winA i) (vget q i))
      ∧ ∀ i, 32 ≤ i → i < 512 → vget h i = vget hist i)
    ∧ (∃ g : Vector Sys2Proof.Num 64, exec (.accumulate c) s = .next { s with stage := vput s.stage c.val g }
      ∧ ∀ i, i < 32 →
        let fir := if s.sh.multirateInter = 1#1 then s.rom.firPerfect else s.rom.firNonperfect
        vget g i = [0, 64, 128, 192, 256, 320, 384, 448].foldl
          (fun acc j => add acc (mul (tget fir (i + j)) (numSub k (vget hist (i + j)) (vget hist (j + 31 - i)))))
          (vget stage i)
        ∧ vget g (32 + i) = [0, 64, 128, 192, 256, 320, 384, 448].foldl
          (fun acc j => add acc (mul (tget fir (32 + i + j))
            (numSub k (numNeg k (vget hist (i + j))) (vget hist (j + 31 - i)))))
          (vget stage (32 + i)))
    ∧ ∃ (h : Vector Sys2Proof.Num 512) (g : Vector Sys2Proof.Num 64),
      exec (.shift c) s = .next { s with hist := vput s.hist c.val h, stage := vput s.stage c.val g }
      ∧ (∀ i, i < 32 → vget h i = vget hist i ∧ vget g i = vget stage (32 + i) ∧ vget g (32 + i) = 0#64)
      ∧ ∀ i, 32 ≤ i → i < 512 → vget h i = vget hist (i - 32)

/-- 46_synthesis.md R216, R217, R224(d): SYN.QMF32 is its eight positions in order, each made of the micro-operations of rules
R218 to R221 on an input vector of the active subbands' samples at that position and zeros from the activity count on, and
touches nothing of another channel. Own readings of the spec that it rests on: D33 and the derivation under R224. -/
def Obligations.SynQmf32IsItsPositions : Prop :=
  ∀ (s : State) (c : Fin 8) (x : Nat → Vector Sys2Proof.Num 32),
    (∀ p sb, p < 8 → sb < 32 → vget (x p) sb = if sb < actOf s c.val then vget (subsampAt s c.val sb) p else 0#64) →
    ∃ t u, positionsRun c x s [0, 1, 2, 3, 4, 5, 6, 7] = some u
      ∧ exec (.synQmf32 c) s = .next t ∧ t = { u with unit := s.unit }
      ∧ t = { s with hist := t.hist, stage := t.stage, out := t.out }
      ∧ ∀ d, d ≠ c.val → vget t.hist d = vget s.hist d ∧ vget t.stage d = vget s.stage d ∧ vget t.out d = vget s.out d

/-- 47_lfe.md R230, R234: LFE.INTERP fills the slot after the last output channel with the FIR sums plus the bias, for either
interpolation factor, and touches no other slot. Own readings of the spec that it rests on: D34 (the 0 below index 0, the table
length 512, the polyphase index) and the derivation under R234. Model conventions: log entries 31. -/
def Obligations.LfeInterpFillsSlot : Prop :=
  ∀ (s : State) (ssf : Fin 4), s.sh.lfe = 1#2 ∨ s.sh.lfe = 2#2 →
    let k := s.rom.sampleKind
    let d := 2 * s.sh.lfe.toNat
    let f := 256 / d
    let fir := if s.sh.lfe = 1#2 then s.rom.lfeFir128 else s.rom.lfeFir64
    let base := d * s.sf.subsubframes.toNat + d * ssf.val
    let slot := nchOf s.rom s.fr.output
    ∃ row : Vector Word32 256, exec (.lfeInterp ssf) s = .next { s with out := vput s.out slot row } ∧ slot < 9
      ∧ ∀ i j, i < d → j < f → vget row (i * f + j) = numStore k (numAdd k
        ((List.range (512 / f)).foldl (fun acc n =>
          numAdd k acc (numMul k (if n ≤ base + i then vget s.lfe (base + i - n) else 0#64) (tget fir (j + n * f)))) 0#64)
        s.fr.bias)

/-- 48_downmix.md R240 to R246: DMX.APPLY sums the slots of the mix program and adds the bias once (fewer outputs), copies or
zero-fills without bias (more outputs), or adds the bias (equal counts), reading each sample before it writes it. That slots
past the output count keep their words when DMX.APPLY runs alone is the model's choice (log entry 36). Own readings of the spec
that it rests on: D35 and the derivations under R242 and R243. Model conventions: log entries 13 and 36. -/
def Obligations.DmxApplyMixes : Prop :=
  ∀ (s : State) (a : Arrangement), arrangementOf s.sh.amode.toNat = some a → 1 ≤ primCount s → primCount s ≤ 8 →
    let k := s.rom.sampleKind
    let cin := primCount s
    let cout := nchOf s.rom s.fr.output
    let mix := dmxMixOf s.rom a s.fr.output s.fr.clev s.fr.slev
    let old := fun c n => numLoad k (vget (vget s.out c) n)
    ∃ out : Vector (Vector Word32 256) 9, exec .dmxApply s = .next { s with out := out }
      ∧ (∀ ch, cout ≤ ch → ch < 9 → vget out ch = vget s.out ch)
      ∧ ∀ o n, o < cout → n < 256 →
        (cout < cin → ∃ c cs, downList mix cin o = c :: cs ∧ c < cin ∧ (c :: cs).Pairwise (· < ·) ∧ (∀ x, x ∈ cs → x < cin)
          ∧ vget (vget out o) n = numStore k (numAdd k (cs.foldl (fun acc x => numAdd k acc (old x n)) (old c n)) s.fr.bias))
        ∧ (cin < cout → vget (vget out o) n = match upSource mix cin o with
          | some c => numStore k (old c n)
          | none => 0#32)
        ∧ (cin = cout → vget (vget out o) n = numStore k (numAdd k (old o n) s.fr.bias))

/-! ### Pseudo-commands -/

/-- 30_encoding.md R91: RESYNC stops at the first offset at which `PROBE` finds a frame, past every offset without a sync
pattern or with a header out of range. In a view in which no frame is found it tries every offset that leaves room for a header;
R91 gives no offset then, and that the answer is none, with the registers as the last `PROBE` left them, is the model's choice.
Own readings of the spec that it rests on: D4. Model conventions: log entries 6, 8 and 22. -/
def Obligations.ResyncStopsAtFirst : Prop :=
  ∀ (s : State) (buf len : Word32), s.life = .ready → buf ≠ 0#32 → buf.toNat + len.toNat < 2 ^ 32 →
    let view := fun off => (buf + BitVec.ofNat 32 off, len - BitVec.ofNat 32 off)
    (∀ k p, k + 14 ≤ len.toNat → (∀ off, off < k → NoFrameAt s (view off).1 (view off).2) →
      fsMatch s.mem (view k).1 (view k).2 = some p → viewAdmitted (view k).1 p = true →
      HeaderInRange s.rom (bitsFrom (payloadBit s.mem (view k).1 (view k).2 p)) →
      let h := probeAt s.rom p.wordMode (bitsFrom (payloadBit s.mem (view k).1 (view k).2 p))
      ∃ t, exec (.resync buf len) s = .next t ∧ t.unit = .offset (some k) ∧ t.code = .ok ∧ t.res.flags = h.flags
        ∧ t.res.sampleRate = h.sampleRate ∧ t.res.bitRate = h.bitRate ∧ t.res.frameLen.toNat = h.frameBytes
        ∧ t.args.bufAddr = (view k).1 ∧ t.args.bufLen = (view k).2
        ∧ t = { s with args := { s.args with bufAddr := (view k).1, bufLen := (view k).2 }
                       res := { t.res with blocks := s.res.blocks, outCh := s.res.outCh }
                       code := t.code, unit := t.unit, free := t.free })
    ∧ ((∀ off, off + 14 ≤ len.toNat → NoFrameAt s (view off).1 (view off).2) →
      (len.toNat < 14 → exec (.resync buf len) s = .next { s with unit := .offset none })
      ∧ ∀ last, last + 14 = len.toNat →
        ∃ t, exec (.resync buf len) s = .next t ∧ t.unit = .offset none ∧ t.code = .syncNotFound ∧ t.res.frameLen = 0#32
          ∧ t = { s with args := { s.args with bufAddr := (view last).1, bufLen := (view last).2 }
                         res := { t.res with blocks := s.res.blocks, outCh := s.res.outCh }
                         code := t.code, unit := t.unit, free := t.free })

/-- R91: DECODE_FRAME on a frame that BEGIN_FRAME accepts completes, whatever its blocks hold: it hands over all the blocks of
the frame, or stops at the one that fails. When every command answers OK it is BEGIN_FRAME and then as many blocks as
BLOCKS_REMAINING counts, each handed over. Own readings of the spec that it rests on: D4. Model conventions: log entries 6 and
22. -/
def Obligations.DecodeFrameIsItsScript : Prop :=
  ∀ (s : State) (buf len flags level bias : Word32), s.life = .ready →
    let r : State := { s with
      args := { s.args with bufAddr := buf, bufLen := len, flags := flags, level := level, bias := bias } }
    (∀ p a out lvl, FrameOpens r p a out lvl → ∃ t blocks, exec (.decodeFrame buf len flags level bias) s = .next t
      ∧ t.unit = .pcm blocks ∧ t.code = .ok ∧ t.life = .ready ∧ t.mem = s.mem ∧ t.rom = s.rom
      ∧ ((blocks.length = (openBits r p 39 7 + 1) / 8 ∧ t.seq.frame = .active)
        ∨ (blocks.length < (openBits r p 39 7 + 1) / 8 ∧ t.seq.frame = .aborted)))
    ∧ ∀ (us vs : Nat → State) (n : Nat), exec .beginFrame r = .next (us 0) →
      (us 0).code = .ok → (us 0).fr.blocksTotal.toNat = n →
      (∀ k, k ≤ n → exec .blocksRemaining (us k) = .next (vs k)) →
      (∀ k, k < n → exec .decodeBlock (vs k) = .next (us (k + 1)) ∧ (us (k + 1)).code = .ok) →
      exec (.decodeFrame buf len flags level bias) s = .next { vs n with
        unit := .pcm ((List.range n).map fun k => (List.range (us (k + 1)).res.outCh.toNat).map (vget (us (k + 1)).out)) }
end

