-- ==== Sys2Proof/Laws/Arrays.lean ====
section
/-! SUPPORT. Reading back what was written to, or built into, a fixed-size array. -/

namespace Sys2Proof.Laws

open Sys2Proof.Machine

variable {α : Type} [Inhabited α] {n : Nat}

@[simp] theorem vget_vtab (f : Nat → α) {i : Nat} (h : i < n) : vget (vtab n f) i = f i := by
  simp [vget, vtab, h]

theorem vget_vput (v : Vector α n) (i j : Nat) (a : α) :
    vget (vput v i a) j = if i = j ∧ i < n then a else vget v j := by
  unfold vget vput
  by_cases hj : j < n
  · by_cases hij : i = j
    · subst hij; simp [hj]
    · simp [hij, hj]
  · have : ¬ (i = j ∧ i < n) := by omega
    simp [this, hj]

@[simp] theorem vget_vput_same (v : Vector α n) {i : Nat} (a : α) (h : i < n) : vget (vput v i a) i = a := by
  rw [vget_vput, if_pos ⟨rfl, h⟩]

theorem vget_vput_ne (v : Vector α n) {i j : Nat} (a : α) (h : i ≠ j) : vget (vput v i a) j = vget v j := by
  rw [vget_vput, if_neg (fun k => h k.1)]

/-- Two arrays with the same elements are the same. -/
theorem vector_ext {v w : Vector α n} (h : ∀ i, i < n → vget v i = vget w i) : v = w := by
  apply Vector.ext
  intro i hi
  have := h i hi
  simpa [vget, hi] using this

@[simp] theorem vput_vget (v : Vector α n) (i : Nat) : vput v i (vget v i) = v := by
  apply vector_ext
  intro j _
  rw [vget_vput]
  split
  · rename_i hh; rw [hh.1]
  · rfl

@[simp] theorem vput_vput (v : Vector α n) (i : Nat) (a b : α) : vput (vput v i a) i b = vput v i b := by
  apply vector_ext
  intro j _
  simp only [vget_vput]
  split <;> rfl

end Sys2Proof.Laws
end

