-- ==== Sys2Proof/Laws/Stream.lean ====
section
/-! SUPPORT. The BitReader said once: `get` on a cursor returns the next bits of the stream and moves the cursor past them. -/

namespace Sys2Proof.Laws

open Sys2Proof.Machine Sys2Proof.Safety

theorem bitsFrom_lt (f : Nat → Bool) (off n : Nat) : bitsFrom f off n < 2 ^ n := by
  induction n generalizing off with
  | zero => simp [bitsFrom]
  | succ n ih =>
    have h := ih (off + 1)
    have hb : (f off).toNat ≤ 1 := by cases f off <;> simp
    have hm : 2 ^ n * (f off).toNat ≤ 2 ^ n * 1 := Nat.mul_le_mul_left _ hb
    simp only [bitsFrom, Nat.pow_succ]
    omega

theorem bitsFrom_congr {f g : Nat → Bool} {a b n : Nat} (h : ∀ k, k < n → f (a + k) = g (b + k)) :
    bitsFrom f a n = bitsFrom g b n := by
  induction n generalizing a b with
  | zero => rfl
  | succ n ih =>
    have h0 := h 0 (by omega)
    have ht : bitsFrom f (a + 1) n = bitsFrom g (b + 1) n :=
      ih fun k hk => by have := h (k + 1) (by omega); simpa [Nat.add_assoc, Nat.add_comm, Nat.add_left_comm] using this
    simp only [Nat.add_zero] at h0
    simp only [bitsFrom, h0, ht]

theorem bitsFrom_add (f : Nat → Bool) (off a b : Nat) :
    bitsFrom f off (a + b) = bitsFrom f off a * 2 ^ b + bitsFrom f (off + a) b := by
  induction a generalizing off with
  | zero => simp [bitsFrom]
  | succ a ih =>
    have e : a + 1 + b = (a + b) + 1 := by omega
    rw [e]
    simp only [bitsFrom, ih (off + 1)]
    rw [show off + 1 + a = off + (a + 1) by omega, Nat.add_mul, Nat.pow_add]
    rw [Nat.mul_right_comm]
    omega

/-- The top `t` of the low `l` bits of a number, read first bit first. -/
theorem bitsFrom_testBit (x l t : Nat) (h : t ≤ l) :
    bitsFrom (fun k => x.testBit (l - 1 - k)) 0 t = x >>> (l - t) % 2 ^ t := by
  induction t with
  | zero => simp [bitsFrom, Nat.mod_one]
  | succ t ih =>
    rw [bitsFrom_add _ 0 t 1, ih (by omega)]
    simp only [bitsFrom, Nat.zero_add, Nat.pow_zero, Nat.one_mul, Nat.pow_one, Nat.add_zero]
    have e : l - t = (l - (t + 1)) + 1 := by omega
    have e2 : l - 1 - t = l - (t + 1) := by omega
    rw [e2, e]
    generalize l - (t + 1) = m
    rw [Nat.shiftRight_succ, Nat.testBit_eq_decide_div_mod_eq]
    rw [Nat.shiftRight_eq_div_pow]
    generalize x / 2 ^ m = y
    have : (decide (y % 2 = 1)).toNat = y % 2 := by
      rcases Nat.mod_two_eq_zero_or_one y with h | h <;> simp [h]
    rw [this]
    have h3 : y % (2 ^ (t + 1)) = y % 2 + 2 * (y / 2 % 2 ^ t) := by
      rw [Nat.pow_succ, Nat.mul_comm (2 ^ t) 2, Nat.mod_mul]
    rw [h3]; omega

theorem payloadWidth_pos (w : WordMode) : 0 < payloadWidth w := by cases w <;> decide

theorem payloadWidth_le (w : WordMode) : payloadWidth w ≤ 32 := by cases w <;> decide

/-- The fetch of a cursor depends on its view and its mode flags only. -/
theorem fetchWord_congr {m : Memory} {c d : BitCursor} (h1 : c.base = d.base) (h2 : c.len = d.len)
    (h3 : c.wordMode = d.wordMode) (h4 : c.endian = d.endian) (j : Nat) : fetchWord m c j = fetchWord m d j := by
  simp only [fetchWord, streamWord, h1, h2, h3, h4]

@[simp] theorem advanceCursor_base (m : Memory) (c : BitCursor) (n : Nat) : (advanceCursor m c n).base = c.base := by
  unfold advanceCursor; split <;> rfl

@[simp] theorem advanceCursor_len (m : Memory) (c : BitCursor) (n : Nat) : (advanceCursor m c n).len = c.len := by
  unfold advanceCursor; split <;> rfl

@[simp] theorem advanceCursor_wordMode (m : Memory) (c : BitCursor) (n : Nat) :
    (advanceCursor m c n).wordMode = c.wordMode := by
  unfold advanceCursor; split <;> rfl

@[simp] theorem advanceCursor_endian (m : Memory) (c : BitCursor) (n : Nat) :
    (advanceCursor m c n).endian = c.endian := by
  unfold advanceCursor; split <;> rfl

@[simp] theorem advanceCursor_fetch (m : Memory) (c : BitCursor) (n j : Nat) :
    fetchWord m (advanceCursor m c n) j = fetchWord m c j :=
  fetchWord_congr (by simp) (by simp) (by simp) (by simp) j

@[simp] theorem advanceCursor_zero (m : Memory) (c : BitCursor) : advanceCursor m c 0 = c := by
  simp [advanceCursor]

theorem toNat_ofNat6 {n : Nat} (h : n ≤ 63) : (BitVec.ofNat 6 n).toNat = n := by
  simp only [BitVec.toNat_ofNat]; omega

theorem toNat_sub6 (x : BitVec 6) {n : Nat} (h : n ≤ x.toNat) : (x - BitVec.ofNat 6 n).toNat = x.toNat - n := by
  have := x.isLt
  rw [BitVec.toNat_sub, BitVec.toNat_ofNat]; omega

theorem add_ofNat32 (x : Word32) (a b : Nat) :
    x + BitVec.ofNat 32 a + BitVec.ofNat 32 b = x + BitVec.ofNat 32 (a + b) := by
  apply BitVec.eq_of_toNat_eq; simp only [BitVec.toNat_add, BitVec.toNat_ofNat]; omega

/-- The words that `j` bits past the lookahead register need: the last one is word `q - 1`. -/
theorem wordsFor {w j : Nat} (hw : 0 < w) (hj : 0 < j) :
    let q := (j + w - 1) / w
    0 < q ∧ j ≤ q * w ∧ (q - 1) * w < j := by
  intro q
  have h1 : q * w ≤ j + w - 1 := Nat.div_mul_le_self _ _
  have h2 : j + w - 1 < q * w + w := by
    have := Nat.lt_div_mul_add (a := j + w - 1) hw; omega
  have h3 : 0 < q := by
    rcases Nat.eq_zero_or_pos q with h | h
    · rw [h] at h2; simp only [Nat.zero_mul] at h2; omega
    · exact h
  refine ⟨h3, by omega, ?_⟩
  rw [Nat.sub_mul]; omega

theorem advance_within (m : Memory) (c : BitCursor) {n : Nat} (h : n ≤ c.left.toNat) :
    advanceCursor m c n = { c with left := c.left - BitVec.ofNat 6 n } := by
  simp [advanceCursor, h]

theorem advance_beyond (m : Memory) (c : BitCursor) {n : Nat} (h : ¬ n ≤ c.left.toNat) :
    advanceCursor m c n =
      { c with
        cur := fetchWord m c (c.wptr + BitVec.ofNat 32
          ((n - c.left.toNat + payloadWidth c.wordMode - 1) / payloadWidth c.wordMode - 1)).toNat
        wptr := c.wptr + BitVec.ofNat 32 ((n - c.left.toNat + payloadWidth c.wordMode - 1) / payloadWidth c.wordMode)
        left := BitVec.ofNat 6 ((n - c.left.toNat + payloadWidth c.wordMode - 1) / payloadWidth c.wordMode
          * payloadWidth c.wordMode - (n - c.left.toNat)) } := by
  simp [advanceCursor, h]

theorem restBit_advance (m : Memory) (c : BitCursor) (n k : Nat) :
    restBit m (advanceCursor m c n) k = restBit m c (n + k) := by
  by_cases h : n ≤ c.left.toNat
  · have e : advanceCursor m c n = { c with left := c.left - BitVec.ofNat 6 n } := by simp [advanceCursor, h]
    rw [e]
    unfold restBit
    simp only [toNat_sub6 _ h]
    by_cases h2 : k < c.left.toNat - n
    · rw [if_pos h2, if_pos (by omega)]; congr 1; omega
    · rw [if_neg h2, if_neg (by omega)]
      have e3 : k - (c.left.toNat - n) = n + k - c.left.toNat := by omega
      rw [e3]
      congr 1
  · have hw := payloadWidth_pos c.wordMode
    have hw2 := payloadWidth_le c.wordMode
    obtain ⟨h1, h2, h3⟩ := wordsFor hw (show 0 < n - c.left.toNat by omega)
    have hfetch := advanceCursor_fetch m c n
    obtain ⟨d, hd⟩ : ∃ d, d = advanceCursor m c n := ⟨_, rfl⟩
    rw [← hd] at hfetch ⊢
    rw [advance_beyond m c h] at hd
    unfold restBit
    simp only [hfetch]
    rw [if_neg (show ¬ n + k < c.left.toNat by omega)]
    generalize hW : payloadWidth c.wordMode = w at *
    generalize hJ : n - c.left.toNat = j at *
    generalize hQ : (j + w - 1) / w = q at *
    have hqw : q * w = (q - 1) * w + w := by
      rw [← Nat.succ_mul]; congr 1; omega
    have hl : d.left.toNat = q * w - j := by rw [hd]; apply toNat_ofNat6; omega
    have hwp : d.wptr = c.wptr + BitVec.ofNat 32 q := by rw [hd]
    have hcur : d.cur = fetchWord m c (c.wptr + BitVec.ofNat 32 (q - 1)).toNat := by rw [hd]
    have hmode : payloadWidth d.wordMode = w := by rw [hd]; exact hW
    have hjk : n + k - c.left.toNat = j + k := by omega
    rw [hl, hwp, hcur, hmode, hjk]
    by_cases h4 : k < q * w - j
    · rw [if_pos h4]
      have hd : (j + k) / w = q - 1 := by
        rw [Nat.div_eq_iff hw]; omega
      have hm : (j + k) % w = j + k - (q - 1) * w := by
        rw [Nat.mod_eq_sub_mul_div, hd, Nat.mul_comm]
      rw [hd, hm]
      congr 1
      omega
    · rw [if_neg h4]
      obtain ⟨r, hr⟩ : ∃ r, j + k = r + q * w := ⟨j + k - q * w, by omega⟩
      have e5 : k - (q * w - j) = r := by omega
      rw [hr, e5, Nat.add_mul_div_right _ _ hw, Nat.add_mul_mod_self_right, add_ofNat32, Nat.add_comm q]

theorem bitsFrom_advance (m : Memory) (c : BitCursor) (n off len : Nat) :
    bitsFrom (restBit m (advanceCursor m c n)) off len = bitsFrom (restBit m c) (n + off) len :=
  bitsFrom_congr fun k _ => by rw [restBit_advance, Nat.add_assoc]

theorem advance_add (m : Memory) (c : BitCursor) (a b : Nat) :
    advanceCursor m (advanceCursor m c a) b = advanceCursor m c (a + b) := by
  have hw := payloadWidth_pos c.wordMode
  have hw2 := payloadWidth_le c.wordMode
  have hlt := c.left.isLt
  by_cases ha : a ≤ c.left.toNat
  · have hs := toNat_sub6 c.left ha
    rw [advance_within m c ha]
    by_cases hb : a + b ≤ c.left.toNat
    · rw [advance_within m c hb, advance_within m _ (by rw [hs]; omega)]
      simp only
      congr 1
      apply BitVec.eq_of_toNat_eq
      rw [toNat_sub6 _ (by rw [hs]; omega), hs, toNat_sub6 _ hb]; omega
    · rw [advance_beyond m c hb, advance_beyond m _ (by rw [hs]; omega)]
      simp only [hs]
      have e3 : b - (c.left.toNat - a) = a + b - c.left.toNat := by omega
      rw [e3]
      rfl
  · obtain ⟨h1, h2, h3⟩ := wordsFor hw (show 0 < a - c.left.toNat by omega)
    have hqw : (a - c.left.toNat + payloadWidth c.wordMode - 1) / payloadWidth c.wordMode * payloadWidth c.wordMode
        = ((a - c.left.toNat + payloadWidth c.wordMode - 1) / payloadWidth c.wordMode - 1) * payloadWidth c.wordMode
          + payloadWidth c.wordMode := by
      rw [← Nat.succ_mul]; congr 1; omega
    have hfetch := advanceCursor_fetch m c a
    obtain ⟨d, hd⟩ : ∃ d, d = advanceCursor m c a := ⟨_, rfl⟩
    rw [← hd] at hfetch ⊢
    rw [advance_beyond m c ha] at hd
    rw [advance_beyond m c (show ¬ a + b ≤ c.left.toNat by omega)]
    generalize hW : payloadWidth c.wordMode = w at *
    generalize hQ : (a - c.left.toNat + w - 1) / w = q at *
    have hl : d.left.toNat = q * w - (a - c.left.toNat) := by
      rw [hd]; apply toNat_ofNat6; omega
    have hwp : d.wptr = c.wptr + BitVec.ofNat 32 q := by rw [hd]
    have hcur : d.cur = fetchWord m c (c.wptr + BitVec.ofNat 32 (q - 1)).toNat := by rw [hd]
    have hmode : payloadWidth d.wordMode = w := by rw [hd]; exact hW
    have mk : ∀ x y z, ({ d with cur := x, wptr := y, left := z } : BitCursor)
        = { c with cur := x, wptr := y, left := z } := by
      intro x y z; rw [hd]
    by_cases hb : b ≤ d.left.toNat
    · rw [advance_within m d hb]
      have hq' : (a + b - c.left.toNat + w - 1) / w = q := by
        rw [Nat.div_eq_iff hw]; omega
      rw [hq', ← hcur, ← hwp, ← mk]
      congr 1
      apply BitVec.eq_of_toNat_eq
      rw [toNat_sub6 _ hb, toNat_ofNat6 (by omega)]; omega
    · rw [advance_beyond m d hb, mk, hwp, hmode]
      have e1 : b - d.left.toNat = a + b - c.left.toNat - q * w := by omega
      have hq' : (a + b - c.left.toNat + w - 1) / w = q + (b - d.left.toNat + w - 1) / w := by
        rw [e1]
        have : a + b - c.left.toNat + w - 1 = (a + b - c.left.toNat - q * w + w - 1) + q * w := by omega
        rw [this, Nat.add_mul_div_right _ _ hw, Nat.add_comm]
      obtain ⟨k1, _, _⟩ := wordsFor hw (show 0 < b - d.left.toNat by omega)
      rw [hq', hfetch]
      generalize (b - d.left.toNat + w - 1) / w = r at *
      rw [add_ofNat32, add_ofNat32]
      have e2 : q + (r - 1) = q + r - 1 := by omega
      have e4 : r * w - (b - d.left.toNat) = (q + r) * w - (a + b - c.left.toNat) := by
        rw [Nat.add_mul]; omega
      rw [e2, e4]

/-- A refill changes neither the bits still to come nor where the cursor goes. -/
theorem restBit_refill (m : Memory) (c : BitCursor) (h : c.left = 0#6) (k : Nat) :
    restBit m (cursorRefill m c) k = restBit m c k := by
  have hw := payloadWidth_pos c.wordMode
  have hw2 := payloadWidth_le c.wordMode
  have hf : ∀ j, fetchWord m (cursorRefill m c) j = fetchWord m c j := fun j => fetchWord_congr rfl rfl rfl rfl j
  have hl : (cursorRefill m c).left.toNat = payloadWidth c.wordMode := toNat_ofNat6 (by omega)
  have h0 : c.left.toNat = 0 := by rw [h]; rfl
  unfold restBit
  simp only [hf, hl, h0, Nat.sub_zero, Nat.not_lt_zero, if_false]
  show (if k < payloadWidth c.wordMode then (fetchWord m c c.wptr.toNat).getLsbD (payloadWidth c.wordMode - 1 - k)
    else (fetchWord m c (c.wptr + 1#32 + BitVec.ofNat 32 ((k - payloadWidth c.wordMode) / payloadWidth c.wordMode)).toNat).getLsbD
      (payloadWidth c.wordMode - 1 - (k - payloadWidth c.wordMode) % payloadWidth c.wordMode)) = _
  generalize payloadWidth c.wordMode = w at *
  by_cases hk : k < w
  · rw [if_pos hk, Nat.div_eq_of_lt hk, Nat.mod_eq_of_lt hk]; simp
  · rw [if_neg hk]
    obtain ⟨r, hr⟩ : ∃ r, k = r + w := ⟨k - w, by omega⟩
    have e : k - w = r := by omega
    rw [e, hr, Nat.add_div_right _ hw, Nat.add_mod_right]
    rw [show (1#32 : Word32) = BitVec.ofNat 32 1 from rfl, add_ofNat32, Nat.add_comm 1]

theorem advance_refill (m : Memory) (c : BitCursor) (h : c.left = 0#6) {n : Nat} (hn : 0 < n) :
    advanceCursor m (cursorRefill m c) n = advanceCursor m c n := by
  have hw := payloadWidth_pos c.wordMode
  have hw2 := payloadWidth_le c.wordMode
  have h0 : c.left.toNat = 0 := by rw [h]; rfl
  have e : advanceCursor m c (payloadWidth c.wordMode)
      = { cursorRefill m c with left := (cursorRefill m c).left - BitVec.ofNat 6 (payloadWidth c.wordMode) } := by
    rw [advance_beyond m c (by omega), h0, Nat.sub_zero]
    have : (payloadWidth c.wordMode + payloadWidth c.wordMode - 1) / payloadWidth c.wordMode = 1 := by
      rw [Nat.div_eq_iff hw]; omega
    rw [this]
    simp [cursorRefill]
  have hl : (cursorRefill m c).left.toNat = payloadWidth c.wordMode := toNat_ofNat6 (by omega)
  by_cases hb : n ≤ payloadWidth c.wordMode
  · rw [advance_within m _ (by rw [hl]; exact hb), advance_beyond m c (by omega), h0, Nat.sub_zero]
    have : (n + payloadWidth c.wordMode - 1) / payloadWidth c.wordMode = 1 := by
      rw [Nat.div_eq_iff hw]; omega
    rw [this]
    have e3 : BitVec.ofNat 6 (payloadWidth c.wordMode) - BitVec.ofNat 6 n
        = BitVec.ofNat 6 (1 * payloadWidth c.wordMode - n) := by
      apply BitVec.eq_of_toNat_eq
      rw [toNat_sub6 _ (by rw [toNat_ofNat6 (by omega)]; exact hb), toNat_ofNat6 (by omega), toNat_ofNat6 (by omega)]
      omega
    simp only [cursorRefill, e3]
    simp
  · obtain ⟨r, hr⟩ : ∃ r, n = payloadWidth c.wordMode + r := ⟨n - payloadWidth c.wordMode, by omega⟩
    rw [hr, ← advance_add, ← advance_add, e, advance_within m (cursorRefill m c) (Nat.le_of_eq hl.symm)]

theorem cursorTake_eq (m : Memory) (c : BitCursor) {t : Nat} (h : t ≤ c.left.toNat) :
    cursorTake t c = (bitsFrom (restBit m c) 0 t, advanceCursor m c t) := by
  rw [advance_within m c h]
  unfold cursorTake
  congr 1
  rw [← bitsFrom_testBit _ _ _ h]
  apply bitsFrom_congr
  intro k hk
  simp only [Nat.zero_add]
  unfold restBit
  rw [if_pos (by omega)]
  rfl

theorem cursorLoop_eq (m : Memory) (fuel need result : Nat) (c : BitCursor) (h : need ≤ fuel) :
    cursorLoop m fuel need result c
      = (result * 2 ^ need + bitsFrom (restBit m c) 0 need, advanceCursor m c need) := by
  induction fuel generalizing need result c with
  | zero =>
    have : need = 0 := by omega
    subst this
    simp [cursorLoop, bitsFrom]
  | succ fuel ih =>
    by_cases h0 : need = 0
    · subst h0; simp [cursorLoop, bitsFrom]
    · obtain ⟨d, hd⟩ : ∃ d, d = if c.left = 0#6 then cursorRefill m c else c := ⟨_, rfl⟩
      have hbits : ∀ k, restBit m d k = restBit m c k := by
        intro k; rw [hd]; split
        · exact restBit_refill m c ‹_› k
        · rfl
      have hadv : advanceCursor m d need = advanceCursor m c need := by
        rw [hd]; split
        · exact advance_refill m c ‹_› (by omega)
        · rfl
      have hpos : 0 < d.left.toNat := by
        rw [hd]; split
        · have := payloadWidth_le c.wordMode
          have h2 : (cursorRefill m c).left.toNat = payloadWidth c.wordMode := toNat_ofNat6 (by omega)
          rw [h2]; exact payloadWidth_pos _
        · rename_i hne
          rcases Nat.eq_zero_or_pos c.left.toNat with h | h
          · exact absurd (BitVec.eq_of_toNat_eq (by simpa using h)) hne
          · exact h
      have ht : min need d.left.toNat ≤ d.left.toNat := Nat.min_le_right _ _
      have step : cursorLoop m (fuel + 1) need result c
          = cursorLoop m fuel (need - min need d.left.toNat)
              (result * 2 ^ min need d.left.toNat + bitsFrom (restBit m d) 0 (min need d.left.toNat))
              (advanceCursor m d (min need d.left.toNat)) := by
        conv => lhs; unfold cursorLoop
        rw [if_neg h0]
        simp only [← hd]
        rw [cursorTake_eq m d ht]
      rw [step, ih _ _ _ (by omega), advance_add]
      generalize hT : min need d.left.toNat = t at *
      have e1 : t + (need - t) = need := by omega
      rw [e1, hadv]
      congr 1
      rw [bitsFrom_advance, Nat.add_zero]
      have e2 : bitsFrom (restBit m c) 0 need = bitsFrom (restBit m d) 0 (t + (need - t)) := by
        rw [e1]; exact bitsFrom_congr fun k _ => (hbits _).symm
      rw [e2, bitsFrom_add, Nat.zero_add, Nat.add_mul, Nat.mul_assoc, ← Nat.pow_add, e1, Nat.add_assoc]

/-- R93: `get(n)` on a cursor. -/
theorem cursorGet_eq (m : Memory) (n : Nat) (c : BitCursor) :
    cursorGet m n c = (bitsFrom (restBit m c) 0 n, advanceCursor m c n) := by
  rw [cursorGet, cursorLoop_eq m n n 0 c (Nat.le_refl n)]; simp

end Sys2Proof.Laws
end

