-- ==== Sys2Proof/Laws/Ops.lean ====
section
/-! SUPPORT. Operations of a unit, said once: how they run in sequence, what taking an error does, what `get` answers, and
which part of the state an operation leaves alone. -/

namespace Sys2Proof.Laws

open Sys2Proof.Machine Sys2Proof.Safety

variable {α β γ : Type}

/-! ### Running in sequence -/

@[simp] theorem op_pure (a : α) (s : State) : (pure a : Op α) s = .ok a s := rfl

theorem op_bind (x : Op α) (f : α → Op β) (s : State) :
    (x >>= f) s = match x s with
      | .ok a t => f a t
      | .error e t => .error e t := by
  show EStateM.bind x f s = _
  unfold EStateM.bind
  cases x s <;> rfl

theorem op_bind_ok {x : Op α} {f : α → Op β} {s t : State} {a : α} (h : x s = .ok a t) : (x >>= f) s = f a t := by
  rw [op_bind, h]

theorem op_bind_error {x : Op α} {f : α → Op β} {s t : State} {e : Stop} (h : x s = .error e t) :
    (x >>= f) s = .error e t := by
  rw [op_bind, h]

@[simp] theorem op_get (s : State) : (get : Op State) s = .ok s s := rfl

@[simp] theorem op_set (t s : State) : (set t : Op Unit) s = .ok () t := rfl

@[simp] theorem op_modify (f : State → State) (s : State) : (modify f : Op Unit) s = .ok () (f s) := rfl

@[simp] theorem raiseOp_apply (c : Code) (l : Label) (s : State) :
    (raiseOp c l : Op α) s = .error (.raise c l) s := rfl

@[simp] theorem refuseOp_apply (r : Refusal) (s : State) : (refuseOp r : Op α) s = .error (.refuse r) s := rfl

@[simp] theorem forEach_nil (f : α → Op Unit) : forEach [] f = pure () := rfl

theorem forEach_cons (x : α) (xs : List α) (f : α → Op Unit) (s : State) :
    forEach (x :: xs) f s = match f x s with
      | .ok _ t => forEach xs f t
      | .error e t => .error e t := by
  show (f x >>= fun _ => forEach xs f) s = _
  rw [op_bind]
  cases f x s <;> rfl

/-- What a loop that raises nothing does: an invariant that each turn carries on, from the first element to the last. -/
theorem forEach_ok (xs : List α) (f : α → Op Unit) (inv : Nat → State → Prop)
    (step : ∀ i x, xs[i]? = some x → ∀ s, inv i s → ∃ t, f x s = .ok () t ∧ inv (i + 1) t) :
    ∀ s, inv 0 s → ∃ t, forEach xs f s = .ok () t ∧ inv xs.length t := by
  induction xs generalizing inv with
  | nil => exact fun s h => ⟨s, rfl, h⟩
  | cons x xs ih =>
    intro s h
    obtain ⟨t, ht, hi⟩ := step 0 x rfl s h
    obtain ⟨u, hu, hj⟩ := ih (fun i => inv (i + 1)) (fun i y hy s hs => step (i + 1) y (by simpa using hy) s hs) t hi
    exact ⟨u, by rw [forEach_cons, ht]; exact hu, hj⟩

/-! ### Answers -/

theorem answer_ok {op : Op α} {done : α → State → State} {s t : State} {a : α} (h : op s = .ok a t) :
    answer op done s = .next (done a t) := by
  simp only [answer, h]

theorem answer_raise {op : Op α} {done : α → State → State} {s t : State} {c : Code} {l : Label}
    (h : op s = .error (.raise c l) t) : answer op done s = .next (takeError c t) := by
  simp only [answer, h]

theorem answer_refuse {op : Op α} {done : α → State → State} {s t : State} {r : Refusal}
    (h : op s = .error (.refuse r) t) : answer op done s = .refused r := by
  simp only [answer, h]

/-- All that running an operation to its end can answer (60_exceptions.md R260). -/
theorem answer_cases {op : Op α} {done : α → State → State} {s t : State} (h : answer op done s = .next t) :
    (∃ a u, op s = .ok a u ∧ t = done a u) ∨ ∃ c l u, op s = .error (.raise c l) u ∧ t = takeError c u := by
  unfold answer at h
  split at h
  · rename_i a u e; exact .inl ⟨a, u, e, by cases h; rfl⟩
  · rename_i c l u e; exact .inr ⟨c, l, u, e, by cases h; rfl⟩
  · cases h

theorem takeError_eq (c : Code) (s : State) : takeError c s = errorTaken c s := rfl

/-! ### Fields of the stream -/

/-- 40_bitreader.md R93. -/
theorem getBits_ok {n : Nat} (h1 : 1 ≤ n) (h2 : n ≤ 32) (s : State) :
    getBits n s = .ok (peek s 0 n) { s with bc := after s n } := by
  have hw : widthAllowed n = true := by simp [widthAllowed, h1, h2]
  unfold getBits
  rw [if_pos hw]
  show (match cursorGet s.mem n s.bc with
    | (v, c) => (fun (s : State) => (set { s with bc := c } >>= fun _ => pure v : Op Nat) s) s) = _
  rw [cursorGet_eq]
  rfl

/-- 93 U1: a width outside 1 to 32 is refused and reads nothing. -/
theorem getBits_refused {n : Nat} (h : ¬ (1 ≤ n ∧ n ≤ 32)) (s : State) :
    getBits n s = .error (.refuse .getWidth) s := by
  have hw : widthAllowed n = false := by simp only [widthAllowed, Bool.and_eq_false_iff, decide_eq_false_iff_not]; omega
  unfold getBits
  rw [if_neg (by simp [hw])]
  rfl

theorem skipBits_ok {n : Nat} (h1 : 1 ≤ n) (h2 : n ≤ 32) (s : State) :
    skipBits n s = .ok () { s with bc := after s n } := by
  unfold skipBits
  rw [op_bind_ok (getBits_ok h1 h2 s)]
  rfl

/-- 40_bitreader.md R95. -/
theorem getSignedBits_ok {n : Nat} (h1 : 1 ≤ n) (h2 : n ≤ 32) (s : State) :
    getSignedBits n s = .ok (sext n (peek s 0 n)) { s with bc := after s n } := by
  unfold getSignedBits
  rw [op_bind_ok (getBits_ok h1 h2 s)]
  rfl

theorem peek_lt (s : State) (off n : Nat) : peek s off n < 2 ^ n := bitsFrom_lt _ _ _

/-- A field seen from a cursor further on: only the memory and the cursor count. -/
theorem peek_after {s t : State} {n : Nat} (hm : t.mem = s.mem) (hc : t.bc = after s n) (off len : Nat) :
    peek t off len = peek s (n + off) len := by
  unfold peek
  rw [hm, hc, after, bitsFrom_advance]

theorem after_after {s t : State} {n : Nat} (hm : t.mem = s.mem) (hc : t.bc = after s n) (k : Nat) :
    after t k = after s (n + k) := by
  unfold after at *
  rw [hm, hc, advance_add]

@[simp] theorem after_zero (s : State) : after s 0 = s.bc := advanceCursor_zero _ _

/-! ### What an operation leaves alone -/

/-- The state in which an operation ends, in either way. -/
def finalState : EStateM.Result Stop State α → State
  | .ok _ t => t
  | .error _ t => t

/-- A part `π` of the state is at the end of `x` what it was before. -/
def Keeps (π : State → β) (x : Op α) : Prop := ∀ s, π (finalState (x s)) = π s

theorem Keeps.ok {π : State → β} {x : Op α} (h : Keeps π x) {s t : State} {a : α} (e : x s = .ok a t) : π t = π s := by
  have := h s; rw [e] at this; exact this

theorem Keeps.error {π : State → β} {x : Op α} (h : Keeps π x) {s t : State} {r : Stop} (e : x s = .error r t) :
    π t = π s := by
  have := h s; rw [e] at this; exact this

theorem keeps_pure (π : State → β) (a : α) : Keeps π (pure a : Op α) := fun _ => rfl

theorem keeps_get (π : State → β) : Keeps π (get : Op State) := fun _ => rfl

theorem keeps_raise (π : State → β) (c : Code) (l : Label) : Keeps π (raiseOp c l : Op α) := fun _ => rfl

theorem keeps_refuse (π : State → β) (r : Refusal) : Keeps π (refuseOp r : Op α) := fun _ => rfl

theorem keeps_modify {π : State → β} {f : State → State} (h : ∀ s, π (f s) = π s) : Keeps π (modify f : Op Unit) := h

theorem keeps_bind {π : State → β} {x : Op α} {f : α → Op γ} (hx : Keeps π x) (hf : ∀ a, Keeps π (f a)) :
    Keeps π (x >>= f) := by
  intro s
  rw [op_bind]
  have h := hx s
  cases e : x s with
  | ok a t => rw [e] at h; exact (hf a t).trans h
  | error r t => rw [e] at h; exact h

theorem keeps_ite {π : State → β} {p : Prop} [Decidable p] {x y : Op α} (hx : Keeps π x) (hy : Keeps π y) :
    Keeps π (if p then x else y) := by
  split
  · exact hx
  · exact hy

theorem keeps_forEach {π : State → β} {f : γ → Op Unit} (h : ∀ x, Keeps π (f x)) (xs : List γ) :
    Keeps π (forEach xs f) := by
  induction xs with
  | nil => exact keeps_pure π ()
  | cons x xs ih => exact keeps_bind (h x) fun _ => ih

theorem keeps_collect {π : State → β} {x : Op α} (h : Keeps π x) (n : Nat) : Keeps π (collect n x) := by
  induction n with
  | zero => exact keeps_pure π []
  | succ n ih => exact keeps_bind h fun _ => keeps_bind ih fun _ => keeps_pure π _

/-- BR.GET writes the bit cursor and nothing else (R93, "No side effects beyond cursor state"). -/
theorem keeps_getBits {π : State → β} (hbc : ∀ s c, π { s with bc := c } = π s) (n : Nat) : Keeps π (getBits n) := by
  intro s
  by_cases h : 1 ≤ n ∧ n ≤ 32
  · rw [getBits_ok h.1 h.2]; exact hbc s _
  · rw [getBits_refused h]; rfl

theorem keeps_skipBits {π : State → β} (hbc : ∀ s c, π { s with bc := c } = π s) (n : Nat) : Keeps π (skipBits n) :=
  keeps_bind (keeps_getBits hbc n) fun _ => keeps_pure π ()

theorem keeps_getSignedBits {π : State → β} (hbc : ∀ s c, π { s with bc := c } = π s) (n : Nat) :
    Keeps π (getSignedBits n) :=
  keeps_bind (keeps_getBits hbc n) fun _ => keeps_pure π _

end Sys2Proof.Laws
end

