-- ==== Sys2Proof/Laws/Codes.lean ====
section
/-! SUPPORT. Codes and fields read in a row: what reading one code answers (44_sample_decode.md R160), and what reading several
fields of one width answers. -/

namespace Sys2Proof.Laws

open Sys2Proof.Machine Sys2Proof.Safety

/-- The bits of a field from a prefix of it and the rest. -/
theorem peek_split (s : State) (off a b : Nat) : peek s off (a + b) = 2 ^ b * peek s off a + peek s (off + a) b :=
  (bitsFrom_add _ off a b).trans (by rw [Nat.mul_comm]; rfl)

theorem peek_prefix (s : State) (off a b : Nat) : peek s off (a + b) / 2 ^ b = peek s off a := by
  rw [peek_split, Nat.mul_add_div (Nat.two_pow_pos b), Nat.div_eq_of_lt (peek_lt s _ b), Nat.add_zero]

/-- 30_encoding.md R85: a well-formed codebook has one entry at most that begins with a given code. -/
theorem prefix_unique {book : Codebook} (h : bookWellFormed book = true) :
    ∀ d e, d ∈ book → e ∈ book → codePrefix d e = true → d = e := by
  induction book with
  | nil => intro d e hd; cases hd
  | cons x xs ih =>
    simp only [bookWellFormed, Bool.and_eq_true, List.all_eq_true, Bool.not_eq_true'] at h
    obtain ⟨⟨_, h2⟩, h3⟩ := h
    intro d e hd he hp
    rcases List.mem_cons.mp hd with hx | hx <;> rcases List.mem_cons.mp he with hy | hy
    · rw [hx, hy]
    · subst hx; have := (h2 e hy).2; rw [hp] at this; cases this
    · subst hy; have := (h2 d hx).1; rw [hp] at this; cases this
    · exact ih h3 d e hx hy hp

theorem bookDepth_le {book : Codebook} {e : CodeEntry} (h : e ∈ book) : e.len ≤ bookDepth book := by
  have grow : ∀ (l : Codebook) n, n ≤ l.foldl (fun n e => max n e.len) n := by
    intro l
    induction l with
    | nil => exact fun _ => Nat.le_refl _
    | cons y ys ih => exact fun n => Nat.le_trans (Nat.le_max_left n y.len) (ih _)
  have main : ∀ (l : Codebook) n, e ∈ l → e.len ≤ l.foldl (fun n e => max n e.len) n := by
    intro l
    induction l with
    | nil => intro n h; cases h
    | cons y ys ih =>
      intro n h
      rcases List.mem_cons.mp h with rfl | h
      · exact Nat.le_trans (Nat.le_max_right n e.len) (grow ys _)
      · exact ih _ h
  exact main book 0 h

theorem bookFind_some {book : Codebook} {len code : Nat} {e : CodeEntry} (h : bookFind book len code = some e) :
    e ∈ book ∧ e.len = len ∧ e.code = code := by
  have h1 := List.mem_of_find?_eq_some h
  have h2 := List.find?_some h
  simp only [Bool.and_eq_true, beq_iff_eq] at h2
  exact ⟨h1, h2.1, h2.2⟩

/-- One turn of the loop of R160. -/
theorem huffLoop_turn (book : Codebook) (left len : Nat) (s : State) :
    huffLoop book (left + 1) len (peek s 0 len) { s with bc := after s len } =
      match bookFind book (len + 1) (peek s 0 (len + 1)) with
      | some e => .ok e.value { s with bc := after s (len + 1) }
      | none => huffLoop book left (len + 1) (peek s 0 (len + 1)) { s with bc := after s (len + 1) } := by
  have hb : getBits 1 { s with bc := after s len } = .ok (peek s len 1) { s with bc := after s (len + 1) } := by
    rw [getBits_ok (Nat.le_refl 1) (by decide)]
    rw [peek_after (t := { s with bc := after s len }) (s := s) (n := len) rfl rfl,
      after_after (t := { s with bc := after s len }) (s := s) (n := len) rfl rfl, Nat.add_zero]
  have hc : 2 * peek s 0 len + peek s len 1 = peek s 0 (len + 1) := by
    rw [peek_split s 0 len 1, Nat.zero_add, Nat.pow_one]
  rw [huffLoop, op_bind_ok hb, hc]
  cases bookFind book (len + 1) (peek s 0 (len + 1)) <;> rfl

/-- R160: the entry whose code comes next is answered, and its code consumed. -/
theorem huffOp_ok {book : Codebook} (h : bookWellFormed book = true) {e : CodeEntry} (he : e ∈ book) (hl : 1 ≤ e.len)
    (s : State) (hp : peek s 0 e.len = e.code) : huffOp book s = .ok e.value { s with bc := after s e.len } := by
  have same : ∀ d, d ∈ book → d.len ≤ e.len → peek s 0 d.len = d.code → d = e := by
    intro d hd hle hc
    refine prefix_unique h d e hd he ?_
    have hpre := peek_prefix s 0 d.len (e.len - d.len)
    rw [Nat.add_sub_cancel' hle, hp, hc] at hpre
    simp [codePrefix, hle, hpre]
  have main : ∀ left len, len < e.len → e.len ≤ len + left →
      huffLoop book left len (peek s 0 len) { s with bc := after s len } = .ok e.value { s with bc := after s e.len } := by
    intro left
    induction left with
    | zero => intro len h1 h2; omega
    | succ left ih =>
      intro len h1 h2
      rw [huffLoop_turn]
      split
      · rename_i d hd
        obtain ⟨hm, hlen, hcode⟩ := bookFind_some hd
        have hde := same d hm (by omega) (by rw [hlen, hcode])
        subst hde
        rw [← hlen]
      · rename_i hn
        rcases Nat.lt_or_ge (len + 1) e.len with hlt | hge
        · exact ih (len + 1) hlt (by omega)
        · have heq : e.len = len + 1 := by omega
          have := List.find?_eq_none.mp hn e he
          rw [heq] at hp
          simp [heq, hp] at this
  have start := main (max 1 (bookDepth book)) 0 hl (by have := bookDepth_le he; omega)
  rw [after_zero] at start
  exact start

/-- R160: bits that no entry begins with raise, after the longest code length. -/
theorem huffOp_fails (book : Codebook) (s : State) (h : ∀ e, e ∈ book → peek s 0 e.len ≠ e.code) :
    huffOp book s = .error (.raise .corruptStream .huffman) { s with bc := after s (max 1 (bookDepth book)) } := by
  have main : ∀ left len, huffLoop book left len (peek s 0 len) { s with bc := after s len } =
      .error (.raise .corruptStream .huffman) { s with bc := after s (len + left) } := by
    intro left
    induction left with
    | zero => intro len; rfl
    | succ left ih =>
      intro len
      rw [huffLoop_turn]
      split
      · rename_i d hd
        obtain ⟨hm, hlen, hcode⟩ := bookFind_some hd
        exact absurd (by rw [hlen, hcode]) (h d hm)
      · rw [ih, show len + 1 + left = len + (left + 1) by omega]
  have start := main (max 1 (bookDepth book)) 0
  rw [after_zero, Nat.zero_add] at start
  exact start

/-- 40_bitreader.md R94: several signed fields of one width in a row. -/
theorem collect_signed {n : Nat} (h1 : 1 ≤ n) (h2 : n ≤ 32) (k : Nat) (s : State) :
    collect k (getSignedBits n) s
      = .ok ((List.range k).map fun i => sext n (peek s (i * n) n)) { s with bc := after s (k * n) } := by
  induction k generalizing s with
  | zero => rw [Nat.zero_mul, after_zero]; rfl
  | succ k ih =>
    unfold collect
    rw [op_bind_ok (getSignedBits_ok h1 h2 s), op_bind_ok (ih _)]
    rw [after_after (t := { s with bc := after s n }) (s := s) (n := n) rfl rfl, show n + k * n = (k + 1) * n by rw [Nat.add_mul]; omega]
    rw [List.range_succ_eq_map, List.map_cons, List.map_map, Nat.zero_mul]
    have hf : (fun i => sext n (peek { s with bc := after s n } (i * n) n))
        = (fun i => sext n (peek s (i * n) n)) ∘ Nat.succ := by
      funext i
      show _ = sext n (peek s (Nat.succ i * n) n)
      rw [peek_after (t := { s with bc := after s n }) (s := s) (n := n) rfl rfl, Nat.succ_mul, Nat.add_comm]
    rw [hf]
    rfl

end Sys2Proof.Laws
end

