-- ==== Sys2Proof/Laws/Frames.lean ====
section
/-! SUPPORT. Which part of the state each shared operation leaves alone: for any part `π` of the state, if `π` does not see the
registers that the operation's rule writes, the operation keeps `π`. -/

namespace Sys2Proof.Laws

open Sys2Proof.Machine Sys2Proof.Safety

variable {β : Type} {π : State → β}

/-- A part of the state that the bit cursor is no part of. -/
def SeesNoBc (π : State → β) : Prop := ∀ s c, π { s with bc := c } = π s
/-- A part without StreamHeader. -/
def SeesNoSh (π : State → β) : Prop := ∀ s x, π { s with sh := x } = π s
/-- A part without the frame half of ChannelSideInfo. -/
def SeesNoChF (π : State → β) : Prop := ∀ s x, π { s with chF := x } = π s
/-- A part without the subframe half of ChannelSideInfo. -/
def SeesNoChS (π : State → β) : Prop := ∀ s x, π { s with chS := x } = π s
/-- A part without the subframe registers. -/
def SeesNoSf (π : State → β) : Prop := ∀ s x, π { s with sf := x } = π s
/-- A part without `SUBSAMP`. -/
def SeesNoSubsamp (π : State → β) : Prop := ∀ s x, π { s with subsamp := x } = π s
/-- A part without `LFE_DATA`. -/
def SeesNoLfe (π : State → β) : Prop := ∀ s x, π { s with lfe := x } = π s
/-- A part without the sequencer position. -/
def SeesNoSeq (π : State → β) : Prop := ∀ s x, π { s with seq := x } = π s
/-- A part without the frame registers. -/
def SeesNoFr (π : State → β) : Prop := ∀ s x, π { s with fr := x } = π s

theorem keeps_setSh (h : SeesNoSh π) (f : StreamHeader → StreamHeader) : Keeps π (setSh f) := fun s => h s _
theorem keeps_setFr (h : SeesNoFr π) (f : FrameRegs → FrameRegs) : Keeps π (setFr f) := fun s => h s _
theorem keeps_setSf (h : SeesNoSf π) (f : SubframeRegs → SubframeRegs) : Keeps π (setSf f) := fun s => h s _
theorem keeps_setSeq (h : SeesNoSeq π) (f : Sequencer → Sequencer) : Keeps π (setSeq f) := fun s => h s _
theorem keeps_setChF (h : SeesNoChF π) (c : Nat) (f : ChannelFrame → ChannelFrame) : Keeps π (setChF c f) :=
  fun s => h s _
theorem keeps_setChS (h : SeesNoChS π) (c : Nat) (f : ChannelSub → ChannelSub) : Keeps π (setChS c f) := fun s => h s _
theorem keeps_setSubsamp (h : SeesNoSubsamp π) (c sb : Nat) (x : Vector Num 8) : Keeps π (setSubsamp c sb x) :=
  fun s => h s _

/-! ### Codes -/

theorem keeps_huff (h : SeesNoBc π) (book : Codebook) : Keeps π (huffOp book) := by
  unfold huffOp
  generalize max 1 (bookDepth book) = n
  have main : ∀ n len code, Keeps π (huffLoop book n len code) := by
    intro n
    induction n with
    | zero => exact fun _ _ => keeps_raise _ _ _
    | succ n ih =>
      intro len code
      unfold huffLoop
      refine keeps_bind (keeps_getBits h 1) fun b => ?_
      split
      · exact keeps_pure _ _
      · exact ih _ _
  exact main n 0 0

/-! ### The subframe header -/

theorem keeps_bitallocIndex (h : SeesNoBc π) (c : Nat) : Keeps π (bitallocIndex c) := by
  unfold bitallocIndex
  dsimp only
  refine keeps_bind (keeps_get _) fun s => ?_
  split
  · exact keeps_bind (keeps_getBits h 5) fun _ => keeps_pure _ _
  · split
    · exact keeps_bind (keeps_getBits h 4) fun _ => keeps_pure _ _
    · exact keeps_huff h _

theorem keeps_readBitalloc (h : SeesNoBc π) (c : Nat) : Keeps π (readBitallocOp c) := by
  unfold readBitallocOp
  refine keeps_bind (keeps_bitallocIndex h c) fun v => ?_
  dsimp only
  exact keeps_ite (keeps_bind (keeps_raise _ _ _) fun _ => keeps_pure _ _) (keeps_pure _ _)

theorem keeps_nextScale (h : SeesNoBc π) (k : Nat) (sum : Int) : Keeps π (nextScaleOp k sum) := by
  unfold nextScaleOp
  refine keeps_bind (keeps_get _) fun s => ?_
  refine keeps_ite (keeps_bind (keeps_huff h _) fun _ => keeps_pure _ _) ?_
  refine keeps_ite (keeps_bind (keeps_getBits h _) fun _ => keeps_pure _ _) ?_
  exact keeps_ite (keeps_bind (keeps_getBits h _) fun _ => keeps_pure _ _) (keeps_raise _ _ _)

theorem keeps_scaleLookup (k : Nat) (i : Int) : Keeps π (scaleLookupOp k i) := by
  unfold scaleLookupOp
  refine keeps_bind (keeps_get _) fun s => ?_
  dsimp only
  exact keeps_ite (keeps_ite (keeps_bind (keeps_raise _ _ _) fun _ => keeps_pure _ _) (keeps_pure _ _))
    (keeps_ite (keeps_bind (keeps_raise _ _ _) fun _ => keeps_pure _ _) (keeps_pure _ _))

theorem keeps_readScale (h : SeesNoBc π) (k : Nat) (sum : Int) : Keeps π (readScaleOp k sum) :=
  keeps_bind (keeps_nextScale h k sum) fun _ => keeps_bind (keeps_scaleLookup k _) fun _ => keeps_pure _ _

theorem keeps_readSlot0 (h : SeesNoBc π) (hs : SeesNoChS π) (c k sb : Nat) (sum : Int) :
    Keeps π (readSlot0 c k sb sum) := by
  unfold readSlot0
  refine keeps_bind (keeps_get _) fun s => keeps_ite ?_ (keeps_pure _ _)
  exact keeps_bind (keeps_readScale h k sum) fun _ => keeps_bind (keeps_setChS hs c _) fun _ => keeps_pure _ _

theorem keeps_readSlot1 (h : SeesNoBc π) (hs : SeesNoChS π) (c k sb : Nat) (sum : Int) :
    Keeps π (readSlot1 c k sb sum) := by
  unfold readSlot1
  refine keeps_bind (keeps_get _) fun s => keeps_ite ?_ (keeps_pure _ _)
  exact keeps_bind (keeps_readScale h k sum) fun _ => keeps_bind (keeps_setChS hs c _) fun _ => keeps_pure _ _

theorem keeps_readScales (h : SeesNoBc π) (hs : SeesNoChS π) (c : Nat) : Keeps π (readScalesOp c) := by
  unfold readScalesOp
  refine keeps_bind (keeps_get _) fun s => keeps_bind (keeps_setChS hs c _) fun _ => ?_
  generalize List.range (actOf s c) = l
  generalize (0 : Int) = sum
  generalize (vget s.chF c).scalefactorHuffman.toNat = k
  induction l generalizing sum with
  | nil => exact keeps_pure _ _
  | cons sb l ih =>
    exact keeps_bind (keeps_readSlot0 h hs c k sb sum) fun _ => keeps_bind (keeps_readSlot1 h hs c k sb _) fun _ => ih _

theorem keeps_jointScale (h : SeesNoBc π) (k : Nat) : Keeps π (jointScaleOp k) := by
  unfold jointScaleOp
  refine keeps_bind (keeps_get _) fun s => ?_
  refine keeps_ite (keeps_huff h _) (keeps_ite (keeps_bind (keeps_getBits h _) fun _ => keeps_pure _ _) ?_)
  exact keeps_ite (keeps_bind (keeps_getBits h _) fun _ => keeps_pure _ _) (keeps_raise _ _ _)

theorem keeps_readJoint (h : SeesNoBc π) (hs : SeesNoChS π) (hw : ∀ s x, π { s with warnJoint := x } = π s) (c : Nat) :
    Keeps π (readJointOp c) := by
  unfold readJointOp
  refine keeps_bind (keeps_get _) fun s => ?_
  dsimp only
  have body : ∀ l (k : Nat), Keeps π (do
      forEach l fun sb => do
        let v ← jointScaleOp k
        setChS c fun r => { r with jointScaleFactor := vput r.jointScaleFactor sb (BitVec.ofInt 8 (v + 64)) }
      warnJointOp) := fun l k =>
    keeps_bind (keeps_forEach (fun sb => keeps_bind (keeps_jointScale h _) fun _ => keeps_setChS hs c _) l)
      fun _ => fun s => hw s true
  exact keeps_ite (keeps_bind (keeps_raise _ _ _) fun _ => body _ _) (body _ _)

theorem keeps_readLfe (h : SeesNoBc π) (hf : SeesNoSf π) (hl : SeesNoLfe π) : Keeps π readLfeOp := by
  unfold readLfeOp
  refine keeps_bind (keeps_get _) fun s => ?_
  dsimp only
  refine keeps_bind (keeps_collect (keeps_getSignedBits h 8) _) fun raw => keeps_bind (keeps_getBits h 8) fun i => ?_
  exact keeps_ite (keeps_bind (keeps_raise _ _ _) fun _ => keeps_bind (keeps_setSf hf _) fun _ => fun t => hl t _)
    (keeps_bind (keeps_setSf hf _) fun _ => fun t => hl t _)

theorem keeps_passActive {f : Nat → Nat → Op Unit} (h : ∀ c sb, Keeps π (f c sb)) (cs : List Nat) :
    Keeps π (passActive cs f) :=
  keeps_forEach (fun c => keeps_bind (keeps_get _) fun _ => keeps_forEach (h c) _) cs

theorem keeps_sfHeaderAlloc (h : SeesNoBc π) (hs : SeesNoChS π) (hf : SeesNoSf π) (cs : List Nat) :
    Keeps π (sfHeaderAlloc cs) := by
  unfold sfHeaderAlloc
  refine keeps_bind (keeps_getBits h 2) fun _ => keeps_bind (keeps_setSf hf _) fun _ => ?_
  refine keeps_bind (keeps_getBits h 3) fun _ => keeps_bind (keeps_setSf hf _) fun _ => ?_
  refine keeps_bind (keeps_passActive (fun c sb => ?_) cs) fun _ => ?_
  · exact keeps_bind (keeps_getBits h 1) fun _ => keeps_setChS hs c _
  refine keeps_bind (keeps_passActive (fun c sb => ?_) cs) fun _ => ?_
  · unfold readPvq
    exact keeps_bind (keeps_get _) fun s => keeps_ite (keeps_bind (keeps_getBits h 12) fun _ => keeps_setChS hs c _)
      (keeps_pure _ _)
  refine keeps_bind (keeps_forEach (fun c => keeps_bind (keeps_get _) fun s => keeps_forEach (fun sb => ?_) _) cs)
    fun _ => ?_
  · exact keeps_bind (keeps_readBitalloc h c) fun _ => keeps_setChS hs c _
  refine keeps_passActive (fun c sb => ?_) cs
  unfold readTransition
  exact keeps_bind (keeps_setChS hs c _) fun _ => keeps_bind (keeps_get _) fun s =>
    keeps_ite (keeps_bind (keeps_huff h _) fun _ => keeps_setChS hs c _) (keeps_pure _ _)

theorem keeps_sfHeaderScales (h : SeesNoBc π) (hs : SeesNoChS π) (hf : SeesNoSf π)
    (hw : ∀ s x, π { s with warnJoint := x } = π s) (cs : List Nat) : Keeps π (sfHeaderScales cs) := by
  have hfvq : Keeps π (forEach cs fun c => do
      let s ← get
      forEach (span (vqOf s c) (actOf s c)) (readHfvq c)) :=
    keeps_forEach (fun c => keeps_bind (keeps_get _) fun s => keeps_forEach (fun sb =>
      keeps_bind (keeps_getBits h 10) fun _ => keeps_setChS hs c _) _) cs
  unfold sfHeaderScales
  refine keeps_bind (keeps_forEach (keeps_readScales h hs) cs) fun _ => ?_
  refine keeps_bind (keeps_forEach (fun c => ?_) cs) fun _ => ?_
  · unfold readJhuff
    exact keeps_bind (keeps_get _) fun s => keeps_ite (keeps_bind (keeps_getBits h 3) fun _ => keeps_setChS hs c _)
      (keeps_pure _ _)
  refine keeps_bind (keeps_forEach (fun c => ?_) cs) fun _ => ?_
  · unfold readJointIf
    exact keeps_bind (keeps_get _) fun s => keeps_ite (keeps_readJoint h hs hw c) (keeps_pure _ _)
  refine keeps_bind (keeps_get _) fun s => ?_
  have crc : Keeps π (do
      if s.sh.crcPresent = 1#1 then skipBits 16
      forEach cs fun c => do
        let s ← get
        forEach (span (vqOf s c) (actOf s c)) (readHfvq c)) := by
    dsimp only
    exact keeps_ite (keeps_bind (keeps_skipBits h 16) fun _ => hfvq) hfvq
  have drc : Keeps π (do
      if s.sh.dynrange = 1#1 then
        let v ← getBits 8
        setSf fun r => { r with dynrangeCoef := BitVec.ofNat 8 v }
      if s.sh.crcPresent = 1#1 then skipBits 16
      forEach cs fun c => do
        let s ← get
        forEach (span (vqOf s c) (actOf s c)) (readHfvq c)) := by
    dsimp only
    exact keeps_ite (keeps_bind (keeps_getBits h 8) fun _ => keeps_bind (keeps_setSf hf _) fun _ => crc) crc
  dsimp only
  refine keeps_ite (keeps_bind (keeps_forEach (fun c => ?_) cs) fun _ => drc) drc
  exact keeps_bind (keeps_getBits h 7) fun _ => keeps_bind (keeps_setChS hs c _) fun _ =>
    keeps_bind (keeps_getBits h 7) fun _ => keeps_setChS hs c _

/-- SF.HEADER writes the cursor, the subframe half of `CH`, `SF`, `LFE_DATA` and `WARN_JOINT` (43_subframe.md R138). -/
theorem keeps_sfHeader (h : SeesNoBc π) (hs : SeesNoChS π) (hf : SeesNoSf π) (hl : SeesNoLfe π)
    (hw : ∀ s x, π { s with warnJoint := x } = π s) : Keeps π sfHeaderOp := by
  unfold sfHeaderOp
  refine keeps_bind (keeps_get _) fun s => ?_
  dsimp only
  exact keeps_bind (keeps_sfHeaderAlloc h hs hf _) fun _ => keeps_bind (keeps_sfHeaderScales h hs hf hw _) fun _ =>
    keeps_ite (keeps_readLfe h hf hl) (keeps_pure _ _)

/-! ### The sub-block body, the marker, the footer -/

theorem keeps_blkDecode (code levels : Nat) : Keeps π (blkDecodeOp code levels) := by
  unfold blkDecodeOp
  split
  · exact keeps_pure _ _
  · exact keeps_raise _ _ _

theorem keeps_qxHuff (h : SeesNoBc π) (book : Codebook) : Keeps π (qxHuffOp book) :=
  keeps_bind (keeps_collect (keeps_huff h book) 8) fun _ => keeps_pure _ _

theorem keeps_qxRaw (h : SeesNoBc π) (a : Nat) : Keeps π (qxRawOp a) :=
  keeps_bind (keeps_collect (keeps_getSignedBits h _) 8) fun _ => keeps_pure _ _

theorem keeps_qxBlock (h : SeesNoBc π) (a : Nat) : Keeps π (qxBlockOp a) :=
  keeps_bind (keeps_getBits h _) fun _ => keeps_bind (keeps_getBits h _) fun _ =>
    keeps_bind (keeps_blkDecode _ _) fun _ => keeps_bind (keeps_blkDecode _ _) fun _ => keeps_pure _ _

/-- QX writes the cursor and nothing else. -/
theorem keeps_qx (h : SeesNoBc π) (a sel : Nat) : Keeps π (qxOp a sel) := by
  unfold qxOp
  refine keeps_bind (keeps_get _) fun s => keeps_ite (keeps_pure _ _) ?_
  split
  · exact keeps_qxHuff h _
  · exact keeps_ite (keeps_qxBlock h a) (keeps_qxRaw h a)

/-- SS.BODY writes the cursor and `SUBSAMP` (43_subframe.md R155). -/
theorem keeps_ssBody (h : SeesNoBc π) (hx : SeesNoSubsamp π) (ssf : Nat) : Keeps π (ssBodyOp ssf) := by
  unfold ssBodyOp
  refine keeps_bind (keeps_get _) fun s => keeps_forEach (fun c => ?_) _
  unfold bodyChannel
  refine keeps_bind (keeps_get _) fun s => keeps_bind (keeps_forEach (fun sb => ?_) _) fun _ => keeps_forEach (fun sb => ?_) _
  · unfold bodyScalar
    refine keeps_bind (keeps_get _) fun s => ?_
    dsimp only
    exact keeps_bind (keeps_qx h _ _) fun q => keeps_bind (keeps_get _) fun s =>
      keeps_bind (keeps_setSubsamp hx c sb _) fun _ => keeps_ite (fun t => hx t _) (keeps_pure _ _)
  · exact keeps_bind (keeps_get _) fun s => keeps_setSubsamp hx c sb _

/-- DSYNC.CHECK writes the cursor and `WARN_DSYNC` (R156). -/
theorem keeps_dsyncCheck (h : SeesNoBc π) (hw : ∀ s x, π { s with warnDsync := x } = π s) (ssf : Nat) :
    Keeps π (dsyncCheckOp ssf) := by
  unfold dsyncCheckOp
  refine keeps_bind (keeps_get _) fun s => keeps_ite (keeps_bind (keeps_getBits h 16) fun v => ?_) (keeps_pure _ _)
  exact keeps_ite (fun t => hw t true) (keeps_pure _ _)

/-- SF.FOOTER writes the cursor and `LFE_DATA` (R157). -/
theorem keeps_sfFooter (h : SeesNoBc π) (hl : SeesNoLfe π) : Keeps π sfFooterOp := by
  have rot : Keeps π (modify lfeRotate : Op Unit) := fun t => hl t _
  unfold sfFooterOp
  refine keeps_bind (keeps_get _) fun s => ?_
  have crc : Keeps π (do
      if s.sh.crcPresent = 1#1 ∧ (s.sh.downmix = 1#1 ∨ s.sh.dynrange = 1#1) then skipBits 16
      modify lfeRotate) := by
    dsimp only
    exact keeps_ite (keeps_bind (keeps_skipBits h 16) fun _ => rot) rot
  have aux : Keeps π (do
      if s.sh.auxData = 1#1 then
        let n ← getBits 6
        forEach (List.range n) fun _ => skipBits 8
      if s.sh.crcPresent = 1#1 ∧ (s.sh.downmix = 1#1 ∨ s.sh.dynrange = 1#1) then skipBits 16
      modify lfeRotate) := by
    dsimp only
    exact keeps_ite (keeps_bind (keeps_getBits h 6) fun _ =>
      keeps_bind (keeps_forEach (fun _ => keeps_skipBits h 8) _) fun _ => crc) crc
  dsimp only
  exact keeps_ite (keeps_bind (keeps_skipBits h 32) fun _ => aux) aux

/-- ADVANCE writes the sequencer position and what SF.FOOTER writes (R136). -/
theorem keeps_advance (h : SeesNoBc π) (hl : SeesNoLfe π) (hq : SeesNoSeq π) : Keeps π advanceOp :=
  keeps_bind (keeps_get _) fun _ => keeps_bind (keeps_setSeq hq _) fun _ => keeps_bind (keeps_get _) fun _ =>
    keeps_ite (keeps_sfFooter h hl) (keeps_pure _ _)

/-- R135: what DECODE_BLOCK writes while it can still raise: the cursor, the subframe half of `CH`, `SF`, `SUBSAMP`, `LFE_DATA`
and `WARN_JOINT`. -/
theorem keeps_decodeSamples (h : SeesNoBc π) (hs : SeesNoChS π) (hf : SeesNoSf π) (hl : SeesNoLfe π) (hx : SeesNoSubsamp π)
    (hw : ∀ s x, π { s with warnJoint := x } = π s) (ssf : Nat) : Keeps π (decodeSamples ssf) := by
  unfold decodeSamples
  refine keeps_bind (keeps_get _) fun s => ?_
  have rest : Keeps π (do
      if ssf = 0 then sfHeaderOp
      ssBodyOp ssf) := by
    dsimp only
    exact keeps_ite (keeps_bind (keeps_sfHeader h hs hf hl hw) fun _ => keeps_ssBody h hx ssf) (keeps_ssBody h hx ssf)
  dsimp only
  exact keeps_ite (keeps_bind (keeps_raise _ _ _) fun _ => rest) rest

/-! ### The headers of a frame -/

theorem keeps_getField (h : SeesNoBc π) (n w : Nat) : Keeps π (getField n w) :=
  keeps_bind (keeps_getBits h n) fun _ => keeps_pure _ _

/-- One field of the fixed header read and stored. -/
theorem keeps_field {w : Nat} (h : SeesNoBc π) (hh : SeesNoSh π) (n : Nat)
    (f : BitVec w → StreamHeader → StreamHeader) {k : BitVec w → Op Unit} (hk : ∀ v, Keeps π (k v)) :
    Keeps π (do let v ← getField n w; setSh (f v); k v) :=
  keeps_bind (keeps_getField h n w) fun v => keeps_bind (keeps_setSh hh _) fun _ => hk v

/-- FD.HEADER writes the cursor and `SH` (42_framedecoder.md R114). -/
theorem keeps_fdHeader (h : SeesNoBc π) (hh : SeesNoSh π) : Keeps π fdHeaderOp := by
  have raise : ∀ (p : Prop) [Decidable p] (c : Code) (l : Label) (k : Op Unit), Keeps π k →
      Keeps π (if p then (raiseOp c l : Op Unit) >>= fun _ => k else k) :=
    fun p _ c l k hk => keeps_ite (keeps_bind (keeps_raise _ _ _) fun _ => hk) hk
  refine keeps_bind ?_ fun _ => keeps_bind ?_ fun _ => ?_
  · unfold fdHeaderChecked
    refine keeps_bind (keeps_skipBits h 32) fun _ => keeps_field h hh 1 _ fun _ => keeps_field h hh 5 _ fun _ =>
      keeps_field h hh 1 _ fun _ => keeps_bind (keeps_getBits h 7) fun v => keeps_bind (keeps_setSh hh _) fun _ => ?_
    refine raise _ _ _ _ (keeps_bind (keeps_getBits h 14) fun v => keeps_bind (keeps_setSh hh _) fun _ => ?_)
    refine raise _ _ _ _ (keeps_field h hh 6 _ fun _ => keeps_field h hh 4 _ fun _ => keeps_bind (keeps_get _) fun s => ?_)
    refine raise _ _ _ _ (keeps_field h hh 5 _ fun _ => keeps_ite (keeps_raise _ _ _) (keeps_pure _ _))
  · unfold fdHeaderFlags
    have bit : ∀ (f : BitVec 1 → StreamHeader → StreamHeader) {k : BitVec 1 → Op Unit}, (∀ v, Keeps π (k v)) →
        Keeps π (do let v ← getField 1 1; setSh (f v); k v) := keeps_field h hh 1
    refine bit _ fun _ => bit _ fun _ => bit _ fun _ => bit _ fun _ => bit _ fun _ => keeps_field h hh 3 _ fun _ => ?_
    refine bit _ fun _ => bit _ fun _ => keeps_field h hh 2 _ fun _ => ?_
    exact raise _ _ _ _ (keeps_bind (keeps_getField h 1 1) fun _ => keeps_setSh hh _)
  · unfold fdHeaderTail
    have tail : Keeps π (do
        let v ← getField 1 1
        setSh fun h => { h with multirateInter := v }
        let v ← getField 4 4
        setSh fun h => { h with version := v }
        let v ← getField 2 2
        setSh fun h => { h with copyHistory := v }
        let v ← getField 3 3
        setSh fun h => { h with sourcePcmRes := v }
        let v ← getField 1 1
        setSh fun h => { h with frontSum := v }
        let v ← getField 1 1
        setSh fun h => { h with surroundSum := v }
        let v ← getField 4 4
        setSh fun h => { h with dialogNorm := v }) :=
      keeps_field h hh 1 _ fun _ => keeps_field h hh 4 _ fun _ => keeps_field h hh 2 _ fun _ =>
        keeps_field h hh 3 _ fun _ => keeps_field h hh 1 _ fun _ => keeps_field h hh 1 _ fun _ =>
        keeps_bind (keeps_getField h 4 4) fun _ => keeps_setSh hh _
    exact keeps_bind (keeps_get _) fun s => keeps_ite (keeps_field h hh 16 _ fun _ => tail) tail

/-- FD.PRIMHDR writes the cursor, `SH` and the frame half of `CH` (R118). -/
theorem keeps_fdPrimhdr (h : SeesNoBc π) (hh : SeesNoSh π) (hc : SeesNoChF π) : Keeps π fdPrimhdrOp := by
  unfold fdPrimhdrOp
  refine keeps_bind ?_ fun _ => keeps_bind (keeps_get _) fun s => ?_
  · unfold primhdrCounts
    refine keeps_bind (keeps_getBits h 4) fun _ => keeps_bind (keeps_setSh hh _) fun _ =>
      keeps_bind (keeps_getBits h 3) fun _ => keeps_bind (keeps_setSh hh _) fun _ => keeps_bind (keeps_get _) fun s => ?_
    dsimp only
    refine keeps_bind (keeps_forEach (fun c => keeps_bind (keeps_getBits h 5) fun _ => keeps_setChF hc c _) _) fun _ => ?_
    refine keeps_bind (keeps_forEach (fun c => ?_) _) fun _ => ?_
    · unfold vqStartField
      exact keeps_bind (keeps_getBits h 5) fun _ => keeps_bind (keeps_setChF hc c _) fun _ => keeps_bind (keeps_get _)
        fun s => keeps_ite (keeps_raise _ _ _) (keeps_pure _ _)
    refine keeps_bind (keeps_forEach (fun c => keeps_bind (keeps_getField h 3 3) fun _ => keeps_setChF hc c _) _) fun _ => ?_
    refine keeps_bind (keeps_forEach (fun c => keeps_bind (keeps_getField h 2 2) fun _ => keeps_setChF hc c _) _) fun _ => ?_
    refine keeps_bind (keeps_forEach (fun c => keeps_bind (keeps_getField h 3 3) fun _ => keeps_setChF hc c _) _) fun _ => ?_
    refine keeps_forEach (fun c => ?_) _
    unfold bhuffField
    exact keeps_bind (keeps_getField h 3 3) fun _ => keeps_bind (keeps_setChF hc c _) fun _ =>
      keeps_ite (keeps_raise _ _ _) (keeps_pure _ _)
  · dsimp only
    have sel : ∀ n a c, Keeps π (selField n a c) := fun n a c =>
      keeps_bind (keeps_getField h n 3) fun _ => keeps_setChF hc c _
    have zero : ∀ a c, Keeps π (selZero a c) := fun a c => keeps_setChF hc c _
    have adj : ∀ b a c, Keeps π (adjField b a c) := by
      intro b a c
      unfold adjField
      exact keeps_bind (keeps_get _) fun s =>
        keeps_ite (keeps_bind (keeps_getBits h 2) fun _ => keeps_setChF hc c _) (keeps_pure _ _)
    refine keeps_bind ?_ fun _ => keeps_bind ?_ fun _ => keeps_ite (keeps_skipBits h 16) (keeps_pure _ _)
    · exact keeps_bind (keeps_forEach (fun c => keeps_bind (zero 0 c) fun _ => sel 1 1 c) _) fun _ =>
        keeps_bind (keeps_forEach (fun a => keeps_forEach (sel 2 a) _) _) fun _ =>
        keeps_bind (keeps_forEach (fun a => keeps_forEach (sel 3 a) _) _) fun _ =>
        keeps_forEach (fun a => keeps_forEach (zero a) _) _
    · exact keeps_bind (keeps_get _) fun s =>
        keeps_bind (keeps_forEach (fun a => keeps_forEach (fun c => keeps_setChF hc c _) _) _) fun _ =>
        keeps_bind (keeps_forEach (adj 1 1) _) fun _ =>
        keeps_bind (keeps_forEach (fun a => keeps_forEach (adj 3 a) _) _) fun _ =>
        keeps_forEach (fun a => keeps_forEach (adj 7 a) _) _

/-- BEGIN_FRAME writes the cursor, `SH`, the frame half of `CH`, `FR`, `SEQ` and the argument registers (R113). -/
theorem keeps_beginFrame (h : SeesNoBc π) (hh : SeesNoSh π) (hc : SeesNoChF π) (hr : SeesNoFr π) (hq : SeesNoSeq π)
    (ha : ∀ s x, π { s with args := x } = π s) : Keeps π beginFrameOp := by
  have brInit : ∀ base len p, Keeps π (brInitOp base len p) := by
    intro base len p
    refine keeps_bind ?_ fun _ => fun t => h t _
    unfold requireView
    exact keeps_ite (keeps_pure _ _) (keeps_refuse _ _)
  have tail : Keeps π (do fdHeaderOp; selectOutput; drcHookOp; fdPrimhdrOp; startFrame) := by
    refine keeps_bind (keeps_fdHeader h hh) fun _ => keeps_bind ?_ fun _ => keeps_bind ?_ fun _ =>
      keeps_bind (keeps_fdPrimhdr h hh hc) fun _ => ?_
    · unfold selectOutput
      refine keeps_bind (keeps_get _) fun s => ?_
      dsimp only
      refine keeps_bind ?_ fun x => keeps_bind (keeps_setFr hr _) fun _ => fun t => ha t _
      unfold dmxSelectOp
      refine keeps_bind (keeps_get _) fun s => ?_
      split
      · exact keeps_pure _ _
      · exact keeps_raise _ _ _
    · unfold drcHookOp
      exact keeps_bind (keeps_get _) fun s => keeps_ite (keeps_refuse _ _) (keeps_pure _ _)
    · unfold startFrame
      refine keeps_bind (keeps_get _) fun s => ?_
      have start : Keeps π (do
          setFr fun f => { f with blocksTotal := BitVec.ofNat 32 (s.sh.sampleBlocks.toNat / 8), blocksDone := 0#32 }
          setSeq fun _ => { frame := .active, currentSubframe := 0#5, currentSubsubframe := 0#3 }) :=
        keeps_bind (keeps_setFr hr _) fun _ => keeps_setSeq hq _
      dsimp only
      split
      · exact keeps_bind (keeps_raise _ _ _) fun _ => start
      · exact keeps_ite (keeps_bind (keeps_raise _ _ _) fun _ => start) start
  unfold beginFrameOp
  refine keeps_bind (keeps_setSeq hq _) fun _ => keeps_bind (keeps_get _) fun s => ?_
  dsimp only
  split
  · exact keeps_bind (keeps_raise _ _ _) fun _ => tail
  · exact keeps_bind (brInit _ _ _) fun _ => tail

end Sys2Proof.Laws
end

