-- ==== Sys2Proof/Laws/Memory.lean ====
section
/-! SUPPORT. Host memory: a read after a write, and the canonical form that every operation keeps. -/

namespace Sys2Proof.Laws

open Sys2Proof.Machine

theorem memRead_erase (m : Memory) (a x : Nat) :
    memRead (memErase m a) x = if a = x then memUnlisted else memRead m x := by
  induction m with
  | nil => simp [memErase, memRead]
  | cons c m ih =>
    obtain ⟨k, b⟩ := c
    by_cases h : k = a
    · subst h
      simp only [memErase, if_true, ih, memRead]
      split <;> rfl
    · simp only [memErase, if_neg h, memRead, ih]
      by_cases h2 : k = x
      · subst h2; simp [Ne.symm h]
      · simp [h2]

/-- Entries from `m` on lie at addresses other than `a`. -/
theorem memErase_absent (m : Memory) (a : Nat) : ∀ c, c ∈ memErase m a → c.1 ≠ a := by
  induction m with
  | nil => simp [memErase]
  | cons c m ih =>
    obtain ⟨k, b⟩ := c
    by_cases h : k = a
    · simpa [memErase, h] using ih
    · simp only [memErase, if_neg h, List.mem_cons]
      rintro c (rfl | hc)
      · exact h
      · exact ih c hc

theorem memRead_insert (m : Memory) (a : Nat) (b : Byte) (x : Nat) (h : ∀ c, c ∈ m → c.1 ≠ a) :
    memRead (memInsert m a b) x = if a = x then b else memRead m x := by
  induction m with
  | nil => simp [memInsert, memRead]
  | cons c m ih =>
    obtain ⟨k, v⟩ := c
    have hk : k ≠ a := h (k, v) (by simp)
    have ih' := ih fun c hc => h c (by simp [hc])
    by_cases h1 : a < k
    · simp [memInsert, if_pos h1, memRead]
    · simp only [memInsert, if_neg h1, memRead, ih']
      by_cases h2 : k = x
      · subst h2; simp [Ne.symm hk]
      · simp [h2]

/-- 00_scope.md R9: reading any address after a write. -/
theorem memRead_write (m : Memory) (a : Nat) (b : Byte) (x : Nat) :
    memRead (memWrite m a b) x = if a = x then b else memRead m x := by
  unfold memWrite
  split
  · rename_i h; rw [memRead_erase, h]
  · rw [memRead_insert _ _ _ _ (memErase_absent m a), memRead_erase]
    split <;> rfl

@[simp] theorem memRead_write_same (m : Memory) (a : Nat) (b : Byte) : memRead (memWrite m a b) a = b := by
  simp [memRead_write]

theorem memRead_write_other (m : Memory) {a x : Nat} (b : Byte) (h : a ≠ x) :
    memRead (memWrite m a b) x = memRead m x := by
  simp [memRead_write, h]

theorem memRead_writeBytes (bs : List Byte) (m : Memory) (a x : Nat) :
    memRead (memWriteBytes m a bs) x = if a ≤ x ∧ x < a + bs.length then bs.getD (x - a) 0#8 else memRead m x := by
  induction bs generalizing m a with
  | nil => simp [memWriteBytes]
  | cons b bs ih =>
    rw [memWriteBytes, ih, memRead_write]
    by_cases h : a = x
    · subst h; simp
    · by_cases h2 : a + 1 ≤ x ∧ x < a + 1 + bs.length
      · have e : x - a = (x - (a + 1)) + 1 := by omega
        rw [if_pos h2, if_pos (by simp only [List.length_cons]; omega), e]; simp
      · rw [if_neg h2, if_neg h, if_neg (by simp only [List.length_cons]; omega)]

/-- The canonical form, as a statement. -/
theorem memory_wf_cons (a : Nat) (b : Byte) (m : Memory) :
    Memory.wf ((a, b) :: m) = true ↔ b ≠ memUnlisted ∧ (∀ c, c ∈ m → a < c.1) ∧ Memory.wf m = true := by
  simp [Memory.wf, and_assoc]

theorem memErase_mem (m : Memory) (a : Nat) : ∀ c, c ∈ memErase m a → c ∈ m := by
  induction m with
  | nil => simp [memErase]
  | cons c m ih =>
    obtain ⟨k, b⟩ := c
    by_cases h : k = a
    · simp only [memErase, if_pos h]
      exact fun c hc => List.mem_cons_of_mem _ (ih c hc)
    · simp only [memErase, if_neg h, List.mem_cons]
      rintro c (rfl | hc)
      · exact Or.inl rfl
      · exact Or.inr (ih c hc)

theorem memErase_wf (m : Memory) (a : Nat) (h : Memory.wf m = true) : Memory.wf (memErase m a) = true := by
  induction m with
  | nil => rfl
  | cons c m ih =>
    obtain ⟨k, b⟩ := c
    obtain ⟨h1, h2, h3⟩ := (memory_wf_cons k b m).1 h
    by_cases hk : k = a
    · simpa [memErase, hk] using ih h3
    · simp only [memErase, if_neg hk]
      exact (memory_wf_cons _ _ _).2 ⟨h1, fun c hc => h2 c (memErase_mem m a c hc), ih h3⟩

theorem memInsert_mem (m : Memory) (a : Nat) (b : Byte) : ∀ c, c ∈ memInsert m a b → c = (a, b) ∨ c ∈ m := by
  induction m with
  | nil => simp [memInsert]
  | cons c m ih =>
    obtain ⟨k, v⟩ := c
    by_cases h1 : a < k
    · simp [memInsert, if_pos h1]
    · simp only [memInsert, if_neg h1, List.mem_cons]
      rintro c (rfl | hc)
      · exact Or.inr (Or.inl rfl)
      · rcases ih c hc with h | h
        · exact Or.inl h
        · exact Or.inr (Or.inr h)

theorem memInsert_wf (m : Memory) (a : Nat) (b : Byte) (h : Memory.wf m = true) (hb : b ≠ memUnlisted)
    (ha : ∀ c, c ∈ m → c.1 ≠ a) : Memory.wf (memInsert m a b) = true := by
  induction m with
  | nil => simp [memInsert, Memory.wf, hb]
  | cons c m ih =>
    obtain ⟨k, v⟩ := c
    obtain ⟨h1, h2, h3⟩ := (memory_wf_cons k v m).1 h
    have hk : k ≠ a := ha (k, v) (by simp)
    by_cases h1' : a < k
    · simp only [memInsert, if_pos h1']
      refine (memory_wf_cons _ _ _).2 ⟨hb, ?_, h⟩
      intro c hc
      rcases List.mem_cons.1 hc with rfl | hc
      · exact h1'
      · exact Nat.lt_trans h1' (h2 c hc)
    · simp only [memInsert, if_neg h1']
      refine (memory_wf_cons _ _ _).2 ⟨h1, ?_, ih h3 fun c hc => ha c (by simp [hc])⟩
      intro c hc
      rcases memInsert_mem m a b c hc with rfl | hc
      · exact Nat.lt_of_le_of_ne (Nat.le_of_not_lt h1') hk
      · exact h2 c hc

/-- A write keeps the canonical form. -/
theorem memWrite_wf (m : Memory) (a : Nat) (b : Byte) (h : Memory.wf m = true) : Memory.wf (memWrite m a b) = true := by
  unfold memWrite
  split
  · exact memErase_wf m a h
  · exact memInsert_wf _ a b (memErase_wf m a h) ‹_› (memErase_absent m a)

theorem memWriteBytes_wf (bs : List Byte) (m : Memory) (a : Nat) (h : Memory.wf m = true) :
    Memory.wf (memWriteBytes m a bs) = true := by
  induction bs generalizing m a with
  | nil => exact h
  | cons b bs ih => exact ih _ _ (memWrite_wf m a b h)

/-- Equal reads of canonical memories are equal memories. -/
theorem memory_ext {m m' : Memory} (h : Memory.wf m = true) (h' : Memory.wf m' = true)
    (e : ∀ x, memRead m x = memRead m' x) : m = m' := by
  have low : ∀ (m : Memory) (k : Nat), (∀ c, c ∈ m → k < c.1) → memRead m k = memUnlisted := by
    intro m k hk
    induction m with
    | nil => rfl
    | cons c m ih =>
      obtain ⟨a, b⟩ := c
      have := hk (a, b) (by simp)
      rw [memRead, if_neg (by simp only at this; omega)]
      exact ih fun c hc => hk c (by simp [hc])
  induction m generalizing m' with
  | nil =>
    cases m' with
    | nil => rfl
    | cons c m' =>
      obtain ⟨a, b⟩ := c
      have hb := ((memory_wf_cons a b m').1 h').1
      have := e a
      simp [memRead] at this
      exact absurd this.symm hb
  | cons c m ih =>
    obtain ⟨a, b⟩ := c
    obtain ⟨h1, h2, h3⟩ := (memory_wf_cons a b m).1 h
    cases m' with
    | nil =>
      have := e a
      simp [memRead] at this
      exact absurd this h1
    | cons c' m' =>
      obtain ⟨a', b'⟩ := c'
      obtain ⟨g1, g2, g3⟩ := (memory_wf_cons a' b' m').1 h'
      have haa : a = a' := by
        rcases Nat.lt_trichotomy a a' with hlt | heq | hgt
        · have hx := e a
          rw [memRead, if_pos rfl, memRead, if_neg (by omega), low m' a fun c hc => Nat.lt_trans hlt (g2 c hc)] at hx
          exact absurd hx h1
        · exact heq
        · have hx := e a'
          rw [memRead, if_neg (by omega), memRead, if_pos rfl, low m a' fun c hc => Nat.lt_trans hgt (h2 c hc)] at hx
          exact absurd hx.symm g1
      subst haa
      have hbb : b = b' := by have := e a; simpa [memRead] using this
      subst hbb
      congr 1
      apply ih h3 g3
      intro x
      by_cases hx : a = x
      · subst hx; rw [low m a h2, low m' a g2]
      · have := e x; simpa [memRead, hx] using this

end Sys2Proof.Laws
end

