-- ==== Sys2Proof/Laws/PerInstr.lean ====
section
/-! SUPPORT. A family of facts with one lemma for each instruction: the code word that the encoder writes decodes to the
instruction again. -/

namespace Sys2Proof.Laws

/-- Two patterns that both look at bit `k` and want different values there cannot both match. -/
theorem sync_apart {m1 k1 m2 k2 w : BitVec 48} (k : Nat) (a1 : k1.getLsbD k = true) (a2 : k2.getLsbD k = true)
    (d : m1.getLsbD k ≠ m2.getLsbD k) (h : syncMatches m1 k1 w = true) : syncMatches m2 k2 w = false := by
  simp only [syncMatches, beq_iff_eq, beq_eq_false_iff_ne, ne_eq] at *
  intro h2
  apply d
  rw [← h, ← h2, BitVec.getLsbD_and, BitVec.getLsbD_and, a1, a2]

theorem decode_14le {w : BitVec 48} (h : syncMatches sync14leMatch sync14leMask w = true) :
    decodeWindow w = .ok (.fsMatch14le w) := by
  rw [decodeWindow, if_pos h]

theorem decode_14be {w : BitVec 48} (h : syncMatches sync14beMatch sync14beMask w = true) :
    decodeWindow w = .ok (.fsMatch14be w) := by
  have h1 := sync_apart (m2 := sync14leMatch) (k2 := sync14leMask) 47 rfl rfl (by decide) h
  rw [decodeWindow, if_neg (by simp [h1]), if_pos h]

theorem decode_16le {w : BitVec 48} (h : syncMatches sync16leMatch sync16leMask w = true) :
    decodeWindow w = .ok (.fsMatch16le w) := by
  have h1 := sync_apart (m2 := sync14leMatch) (k2 := sync14leMask) 40 rfl rfl (by decide) h
  have h2 := sync_apart (m2 := sync14beMatch) (k2 := sync14beMask) 47 rfl rfl (by decide) h
  rw [decodeWindow, if_neg (by simp [h1]), if_neg (by simp [h2]), if_pos h]

theorem decode_16be {w : BitVec 48} (h : syncMatches sync16beMatch sync16beMask w = true) :
    decodeWindow w = .ok (.fsMatch16be w) := by
  have h1 := sync_apart (m2 := sync14leMatch) (k2 := sync14leMask) 47 rfl rfl (by decide) h
  have h2 := sync_apart (m2 := sync14beMatch) (k2 := sync14beMask) 46 rfl rfl (by decide) h
  have h3 := sync_apart (m2 := sync16leMatch) (k2 := sync16leMask) 47 rfl rfl (by decide) h
  rw [decodeWindow, if_neg (by simp [h1]), if_neg (by simp [h2]), if_neg (by simp [h3]), if_pos h]

/-- 30_encoding.md R65: a word that no command has is illegal. -/
theorem decodeCmd_illegal {w : Word32} (h : isCommandWord w = false) : decodeCmd w = .illegal w := by
  unfold decodeCmd
  split <;> first | rfl | (rename_i e; simp [isCommandWord, e] at h)

namespace EncodeLaw

/-- The encoder's word for a well-formed instruction decodes to that instruction. -/
def Statement (i : Instr) : Prop := i.wellFormed = true → ∀ w, encode i = some w → decode w = .ok i

theorem init : Statement Instr.init := by
  rintro _ _ ⟨⟩; rfl

theorem probe : Statement Instr.probe := by
  rintro _ _ ⟨⟩; rfl

theorem beginFrame : Statement Instr.beginFrame := by
  rintro _ _ ⟨⟩; rfl

theorem blocksRemaining : Statement Instr.blocksRemaining := by
  rintro _ _ ⟨⟩; rfl

theorem decodeBlock : Statement Instr.decodeBlock := by
  rintro _ _ ⟨⟩; rfl

theorem setDrcHook : Statement Instr.setDrcHook := by
  rintro _ _ ⟨⟩; rfl

theorem teardown : Statement Instr.teardown := by
  rintro _ _ ⟨⟩; rfl

theorem illegal (w : Word32) : Statement (Instr.illegal w) := by
  rintro h _ ⟨⟩
  simp only [Instr.wellFormed, Bool.not_eq_true'] at h
  rw [decode, decodeCmd_illegal h]

theorem fsMatch14le (window : BitVec 48) : Statement (Instr.fsMatch14le window) := by
  rintro h _ ⟨⟩; exact decode_14le h

theorem fsMatch14be (window : BitVec 48) : Statement (Instr.fsMatch14be window) := by
  rintro h _ ⟨⟩; exact decode_14be h

theorem fsMatch16le (window : BitVec 48) : Statement (Instr.fsMatch16le window) := by
  rintro h _ ⟨⟩; exact decode_16le h

theorem fsMatch16be (window : BitVec 48) : Statement (Instr.fsMatch16be window) := by
  rintro h _ ⟨⟩; exact decode_16be h

theorem brInit (base len : Word32) (p : Packing) : Statement (Instr.brInit base len p) := by
  rintro _ _ ⟨⟩

theorem brGet (n : Nat) : Statement (Instr.brGet n) := by
  rintro _ _ ⟨⟩

theorem getSigned (n : Nat) : Statement (Instr.getSigned n) := by
  rintro _ _ ⟨⟩

theorem fsHeader (base len : Word32) (p : Packing) : Statement (Instr.fsHeader base len p) := by
  rintro _ _ ⟨⟩

theorem fdHeader : Statement Instr.fdHeader := by
  rintro _ _ ⟨⟩

theorem fdPrimhdr : Statement Instr.fdPrimhdr := by
  rintro _ _ ⟨⟩

theorem drcHook : Statement Instr.drcHook := by
  rintro _ _ ⟨⟩

theorem dmxSelect (primary : BitVec 6) (flags : Word32) (level clev slev : Num) : Statement (Instr.dmxSelect primary flags level clev slev) := by
  rintro _ _ ⟨⟩

theorem advance : Statement Instr.advance := by
  rintro _ _ ⟨⟩

theorem sfHeader : Statement Instr.sfHeader := by
  rintro _ _ ⟨⟩

theorem readBitalloc (c : Fin 8) : Statement (Instr.readBitalloc c) := by
  rintro _ _ ⟨⟩

theorem readScales (c : Fin 8) : Statement (Instr.readScales c) := by
  rintro _ _ ⟨⟩

theorem readJoint (c : Fin 8) : Statement (Instr.readJoint c) := by
  rintro _ _ ⟨⟩

theorem readLfe : Statement Instr.readLfe := by
  rintro _ _ ⟨⟩

theorem ssBody (ssf : Fin 4) : Statement (Instr.ssBody ssf) := by
  rintro _ _ ⟨⟩

theorem dsyncCheck (ssf : Fin 4) : Statement (Instr.dsyncCheck ssf) := by
  rintro _ _ ⟨⟩

theorem sfFooter : Statement Instr.sfFooter := by
  rintro _ _ ⟨⟩

theorem lfeRotate : Statement Instr.lfeRotate := by
  rintro _ _ ⟨⟩

theorem huffDec (book : Codebook) : Statement (Instr.huffDec book) := by
  rintro _ _ ⟨⟩

theorem qx (a : Fin 27) (sel : BitVec 3) : Statement (Instr.qx a sel) := by
  rintro _ _ ⟨⟩

theorem qxNone : Statement Instr.qxNone := by
  rintro _ _ ⟨⟩

theorem qxHuff (book : Codebook) : Statement (Instr.qxHuff book) := by
  rintro _ _ ⟨⟩

theorem qxRaw (a : Fin 27) : Statement (Instr.qxRaw a) := by
  rintro _ _ ⟨⟩

theorem qxBlock (a : Fin 27) : Statement (Instr.qxBlock a) := by
  rintro _ _ ⟨⟩

theorem blkDecode (code levels : Nat) : Statement (Instr.blkDecode code levels) := by
  rintro _ _ ⟨⟩

theorem hfvqLookup (c : Fin 8) (s : Fin 32) (ssf : Fin 4) : Statement (Instr.hfvqLookup c s ssf) := by
  rintro _ _ ⟨⟩

theorem reconScale (c : Fin 8) (s : Fin 32) (ssf : Fin 4) (q : Vector Int 8) : Statement (Instr.reconScale c s ssf q) := by
  rintro _ _ ⟨⟩

theorem reconAdpcm (c : Fin 8) (s : Fin 32) : Statement (Instr.reconAdpcm c s) := by
  rintro _ _ ⟨⟩

theorem phUpdate : Statement Instr.phUpdate := by
  rintro _ _ ⟨⟩

theorem synQmf32 (c : Fin 8) : Statement (Instr.synQmf32 c) := by
  rintro _ _ ⟨⟩

theorem modulate (x : Vector Num 32) : Statement (Instr.modulate x) := by
  rintro _ _ ⟨⟩

theorem butterfly (a b : Vector Num 16) : Statement (Instr.butterfly a b) := by
  rintro _ _ ⟨⟩

theorem fold (c : Fin 8) (sum diff : Vector Num 16) : Statement (Instr.fold c sum diff) := by
  rintro _ _ ⟨⟩

theorem accumulate (c : Fin 8) : Statement (Instr.accumulate c) := by
  rintro _ _ ⟨⟩

theorem shift (c : Fin 8) : Statement (Instr.shift c) := by
  rintro _ _ ⟨⟩

theorem lfeInterp (ssf : Fin 4) : Statement (Instr.lfeInterp ssf) := by
  rintro _ _ ⟨⟩

theorem dmxApply : Statement Instr.dmxApply := by
  rintro _ _ ⟨⟩

theorem resync (buf len : Word32) : Statement (Instr.resync buf len) := by
  rintro _ _ ⟨⟩

theorem decodeFrame (buf len flags level bias : Word32) : Statement (Instr.decodeFrame buf len flags level bias) := by
  rintro _ _ ⟨⟩

end EncodeLaw
end Sys2Proof.Laws
end

