-- ==== Sys2Proof/Laws/Samples.lean ====
section
/-! SUPPORT. Sample memories, said once: what RECON.SCALE gives, which entries of `LFE_DATA` a failed block keeps, and where a
word of the OutputBuffer window lies, and how many slots of it can be valid. -/

namespace Sys2Proof.Laws

open Sys2Proof.Machine

/-- 45_reconstruct.md R181: a finite step size is taken as it is. -/
theorem numFinite_of_finite {k : SampleKind} {x : Num} (h : k = .float → x.extractLsb' 52 11 ≠ 0x7FF#11) : numFinite k x = x := by
  cases k with
  | float => exact if_neg (h rfl)
  | fixed => rfl

/-- R182: one sample of RECON.SCALE. -/
theorem vget_reconScale (s : State) (c sb ssf : Nat) (q : Vector Int 8) {m : Nat} (h : m < 8) :
    vget (reconScale s c sb ssf q) m = if vget q m = 0 then 0#64
      else numMul s.rom.sampleKind (numOfInt s.rom.sampleKind (vget q m)) (rscaleOf s c sb ssf) := by
  unfold reconScale
  dsimp only
  rw [vget_vtab _ h]

/-- 10_state.md R27, 43_subframe.md R135: a failed block keeps every entry of `LFE_DATA` outside the upper half. -/
theorem vget_forgetBlock_lfe (s : State) {i : Nat} (h : i < 32) (hl : i < lfeSpan s ∨ 2 * lfeSpan s ≤ i) :
    vget (forgetBlock s).lfe i = vget s.lfe i := by
  unfold forgetBlock
  dsimp only
  rw [vget_vtab _ h, if_neg (by omega)]

/-- 20_memory.md R56: the position of a window word is the inverse of the offset of `OUT[ch][n]`, and lies inside `OUT`. -/
theorem outPosition_inverse {layout : OutLayout} {count i : Nat} {p : Nat × Nat} (h : outPosition layout count i = some p) :
    outOffset layout count p.1 p.2 = 4 * i ∧ (i < 9 * 256 → p.1 < 9 ∧ p.2 < 256) := by
  cases layout with
  | interleaved =>
    simp only [outPosition] at h
    split at h
    · next hi =>
      cases h
      have hd := Nat.div_add_mod i count
      rw [Nat.mul_comm] at hd
      refine ⟨by simp only [outOffset]; omega, fun _ => ⟨hi.2, ?_⟩⟩
      exact Nat.div_lt_of_lt_mul (by rw [Nat.mul_comm]; exact Nat.mul_comm count 256 ▸ hi.1)
    · cases h
  | planar =>
    cases h
    simp only [outOffset]
    omega

/-- R7, R128: `T_NCH` is 1 to 6, and at most 5 but for 4F2R. -/
theorem nchOf_bounds (r : Rom) (a : Arrangement) : 1 ≤ nchOf r a ∧ nchOf r a ≤ 6 ∧ (a ≠ .f4r2 → nchOf r a ≤ 5) := by
  have h := (tget r.nch a).isLt
  by_cases hf : a = .f4r2
  · simp only [nchOf, hf] at h ⊢
    exact ⟨by simp, by simp, fun c => absurd rfl c⟩
  · simp only [nchOf, hf, if_false]
    omega

/-- 10_state.md R41: at most 6 slots are valid. -/
theorem outChannels_le (s : State) : outChannels s ≤ 6 := Nat.min_le_left _ _

/-- 43_subframe.md R135: but for an output of six channels with LFE, the valid slots are the output channels and the LFE slot. -/
theorem outChannels_eq {s : State} (h : s.fr.output ≠ .f4r2 ∨ s.fr.outputLfe = false) :
    outChannels s = nchOf s.rom s.fr.output + s.fr.outputLfe.toNat := by
  have b := nchOf_bounds s.rom s.fr.output
  unfold outChannels
  cases hl : s.fr.outputLfe with
  | false =>
    simp
    omega
  | true =>
    have n := b.2.2 (h.resolve_right (by simp [hl]))
    simp
    omega

/-- 45_reconstruct.md R188: binary64 holds every integer of at most 53 bits. -/
theorem f64Holds_of_lt {m : Nat} (h : m < 2 ^ 53) : f64Holds m = true := by
  have log : Nat.log2 m < 53 := by
    rcases Nat.eq_zero_or_pos m with rfl | pos
    · decide
    · exact (Nat.log2_lt (by omega)).2 h
  simp only [f64Holds, show Nat.log2 m - 52 = 0 by omega, Nat.pow_zero, Nat.mod_one, beq_self_eq_true, Bool.true_and,
    decide_eq_true_eq]
  omega

/-- R188: the number of such an integer is the one binary64 holds; nothing is left free. -/
theorem f64OfInt_of_lt {i : Int} (h : i.natAbs < 2 ^ 53) : f64OfInt i = f64Round (i < 0) i.natAbs 0 := by
  rw [f64OfInt, if_pos (f64Holds_of_lt h)]

/-- 20_memory.md R58: an address of the register block, and no other, is a register's. -/
theorem placeOf_eq_register {r : Rom} {a o : Nat} :
    placeOf r a = some (.register o) ↔ a = r.regBase + o ∧ o < registerBytes := by
  unfold placeOf
  split
  · simp only [Option.some.injEq, BlockPlace.register.injEq]
    omega
  · split
    · simp only [Option.some.injEq, reduceCtorEq, false_iff]
      omega
    · simp only [reduceCtorEq, false_iff]
      omega

/-- R51, R58: an address of the window outside the register block, and no other, is the window's. -/
theorem placeOf_eq_window {r : Rom} {a o : Nat} :
    placeOf r a = some (.window o) ↔ a = r.outBase + o ∧ o < windowBytes ∧ ¬ (r.regBase ≤ a ∧ a < r.regBase + registerBytes) := by
  unfold placeOf
  split
  · simp only [Option.some.injEq, reduceCtorEq, false_iff]
    omega
  · split
    · simp only [Option.some.injEq, BlockPlace.window.injEq]
      omega
    · simp only [reduceCtorEq, false_iff]
      omega

end Sys2Proof.Laws
end

