-- ==== Sys2Proof/Laws/State.lean ====
section
/-! SUPPORT. One lemma for each register and each named update of the state: what the register holds afterwards. -/

namespace Sys2Proof.Laws

open Sys2Proof.Machine

/-! 49_host_commands.md R257: an answer that writes `STATUS.CODE` only. -/

@[simp] theorem setCode_bc (c : Code) (s : State) : (setCode c s).bc = s.bc := rfl
@[simp] theorem setCode_sh (c : Code) (s : State) : (setCode c s).sh = s.sh := rfl
@[simp] theorem setCode_fr (c : Code) (s : State) : (setCode c s).fr = s.fr := rfl
@[simp] theorem setCode_chF (c : Code) (s : State) : (setCode c s).chF = s.chF := rfl
@[simp] theorem setCode_chS (c : Code) (s : State) : (setCode c s).chS = s.chS := rfl
@[simp] theorem setCode_sf (c : Code) (s : State) : (setCode c s).sf = s.sf := rfl
@[simp] theorem setCode_seq (c : Code) (s : State) : (setCode c s).seq = s.seq := rfl
@[simp] theorem setCode_subsamp (c : Code) (s : State) : (setCode c s).subsamp = s.subsamp := rfl
@[simp] theorem setCode_ph (c : Code) (s : State) : (setCode c s).ph = s.ph := rfl
@[simp] theorem setCode_hist (c : Code) (s : State) : (setCode c s).hist = s.hist := rfl
@[simp] theorem setCode_stage (c : Code) (s : State) : (setCode c s).stage = s.stage := rfl
@[simp] theorem setCode_lfe (c : Code) (s : State) : (setCode c s).lfe = s.lfe := rfl
@[simp] theorem setCode_out (c : Code) (s : State) : (setCode c s).out = s.out := rfl
@[simp] theorem setCode_warnJoint (c : Code) (s : State) : (setCode c s).warnJoint = s.warnJoint := rfl
@[simp] theorem setCode_warnDsync (c : Code) (s : State) : (setCode c s).warnDsync = s.warnDsync := rfl
@[simp] theorem setCode_hook (c : Code) (s : State) : (setCode c s).hook = s.hook := rfl
@[simp] theorem setCode_hookUser (c : Code) (s : State) : (setCode c s).hookUser = s.hookUser := rfl
@[simp] theorem setCode_res (c : Code) (s : State) : (setCode c s).res = s.res := rfl
@[simp] theorem setCode_syn (c : Code) (s : State) : (setCode c s).syn = s.syn := rfl
@[simp] theorem setCode_life (c : Code) (s : State) : (setCode c s).life = s.life := rfl
@[simp] theorem setCode_code (c : Code) (s : State) : (setCode c s).code = c := rfl
@[simp] theorem setCode_cmd (c : Code) (s : State) : (setCode c s).cmd = s.cmd := rfl
@[simp] theorem setCode_args (c : Code) (s : State) : (setCode c s).args = s.args := rfl
@[simp] theorem setCode_mem (c : Code) (s : State) : (setCode c s).mem = s.mem := rfl
@[simp] theorem setCode_rom (c : Code) (s : State) : (setCode c s).rom = s.rom := rfl
@[simp] theorem setCode_host (c : Code) (s : State) : (setCode c s).host = s.host := rfl
@[simp] theorem setCode_bus (c : Code) (s : State) : (setCode c s).bus = s.bus := rfl
@[simp] theorem setCode_unit (c : Code) (s : State) : (setCode c s).unit = s.unit := rfl
@[simp] theorem setCode_free (c : Code) (s : State) : (setCode c s).free = s.free := rfl

/-! 60_exceptions.md R260: taking an error. -/

@[simp] theorem takeError_bc (c : Code) (s : State) : (takeError c s).bc = s.bc := rfl
@[simp] theorem takeError_sh (c : Code) (s : State) : (takeError c s).sh = s.sh := rfl
@[simp] theorem takeError_fr (c : Code) (s : State) : (takeError c s).fr = s.fr := rfl
@[simp] theorem takeError_chF (c : Code) (s : State) : (takeError c s).chF = s.chF := rfl
@[simp] theorem takeError_chS (c : Code) (s : State) : (takeError c s).chS = s.chS := rfl
@[simp] theorem takeError_sf (c : Code) (s : State) : (takeError c s).sf = s.sf := rfl
@[simp] theorem takeError_seq (c : Code) (s : State) : (takeError c s).seq = { s.seq with frame := .aborted } := rfl
@[simp] theorem takeError_subsamp (c : Code) (s : State) : (takeError c s).subsamp = s.subsamp := rfl
@[simp] theorem takeError_ph (c : Code) (s : State) : (takeError c s).ph = s.ph := rfl
@[simp] theorem takeError_hist (c : Code) (s : State) : (takeError c s).hist = s.hist := rfl
@[simp] theorem takeError_stage (c : Code) (s : State) : (takeError c s).stage = s.stage := rfl
@[simp] theorem takeError_lfe (c : Code) (s : State) : (takeError c s).lfe = s.lfe := rfl
@[simp] theorem takeError_out (c : Code) (s : State) : (takeError c s).out = s.out := rfl
@[simp] theorem takeError_warnJoint (c : Code) (s : State) : (takeError c s).warnJoint = s.warnJoint := rfl
@[simp] theorem takeError_warnDsync (c : Code) (s : State) : (takeError c s).warnDsync = s.warnDsync := rfl
@[simp] theorem takeError_hook (c : Code) (s : State) : (takeError c s).hook = s.hook := rfl
@[simp] theorem takeError_hookUser (c : Code) (s : State) : (takeError c s).hookUser = s.hookUser := rfl
@[simp] theorem takeError_res (c : Code) (s : State) : (takeError c s).res = s.res := rfl
@[simp] theorem takeError_syn (c : Code) (s : State) : (takeError c s).syn = s.syn := rfl
@[simp] theorem takeError_life (c : Code) (s : State) : (takeError c s).life = s.life := rfl
@[simp] theorem takeError_code (c : Code) (s : State) : (takeError c s).code = c := rfl
@[simp] theorem takeError_cmd (c : Code) (s : State) : (takeError c s).cmd = s.cmd := rfl
@[simp] theorem takeError_args (c : Code) (s : State) : (takeError c s).args = s.args := rfl
@[simp] theorem takeError_mem (c : Code) (s : State) : (takeError c s).mem = s.mem := rfl
@[simp] theorem takeError_rom (c : Code) (s : State) : (takeError c s).rom = s.rom := rfl
@[simp] theorem takeError_host (c : Code) (s : State) : (takeError c s).host = s.host := rfl
@[simp] theorem takeError_bus (c : Code) (s : State) : (takeError c s).bus = s.bus := rfl
@[simp] theorem takeError_unit (c : Code) (s : State) : (takeError c s).unit = s.unit := rfl
@[simp] theorem takeError_free (c : Code) (s : State) : (takeError c s).free = s.free := rfl

/-! 43_subframe.md R158: `LFE.ROTATE`. -/

@[simp] theorem lfeRotate_bc (s : State) : (lfeRotate s).bc = s.bc := by dsimp only [lfeRotate]
@[simp] theorem lfeRotate_sh (s : State) : (lfeRotate s).sh = s.sh := by dsimp only [lfeRotate]
@[simp] theorem lfeRotate_fr (s : State) : (lfeRotate s).fr = s.fr := by dsimp only [lfeRotate]
@[simp] theorem lfeRotate_chF (s : State) : (lfeRotate s).chF = s.chF := by dsimp only [lfeRotate]
@[simp] theorem lfeRotate_chS (s : State) : (lfeRotate s).chS = s.chS := by dsimp only [lfeRotate]
@[simp] theorem lfeRotate_sf (s : State) : (lfeRotate s).sf = s.sf := by dsimp only [lfeRotate]
@[simp] theorem lfeRotate_seq (s : State) : (lfeRotate s).seq = s.seq := by dsimp only [lfeRotate]
@[simp] theorem lfeRotate_subsamp (s : State) : (lfeRotate s).subsamp = s.subsamp := by dsimp only [lfeRotate]
@[simp] theorem lfeRotate_ph (s : State) : (lfeRotate s).ph = s.ph := by dsimp only [lfeRotate]
@[simp] theorem lfeRotate_hist (s : State) : (lfeRotate s).hist = s.hist := by dsimp only [lfeRotate]
@[simp] theorem lfeRotate_stage (s : State) : (lfeRotate s).stage = s.stage := by dsimp only [lfeRotate]
@[simp] theorem lfeRotate_out (s : State) : (lfeRotate s).out = s.out := by dsimp only [lfeRotate]
@[simp] theorem lfeRotate_warnJoint (s : State) : (lfeRotate s).warnJoint = s.warnJoint := by dsimp only [lfeRotate]
@[simp] theorem lfeRotate_warnDsync (s : State) : (lfeRotate s).warnDsync = s.warnDsync := by dsimp only [lfeRotate]
@[simp] theorem lfeRotate_hook (s : State) : (lfeRotate s).hook = s.hook := by dsimp only [lfeRotate]
@[simp] theorem lfeRotate_hookUser (s : State) : (lfeRotate s).hookUser = s.hookUser := by dsimp only [lfeRotate]
@[simp] theorem lfeRotate_res (s : State) : (lfeRotate s).res = s.res := by dsimp only [lfeRotate]
@[simp] theorem lfeRotate_syn (s : State) : (lfeRotate s).syn = s.syn := by dsimp only [lfeRotate]
@[simp] theorem lfeRotate_life (s : State) : (lfeRotate s).life = s.life := by dsimp only [lfeRotate]
@[simp] theorem lfeRotate_code (s : State) : (lfeRotate s).code = s.code := by dsimp only [lfeRotate]
@[simp] theorem lfeRotate_cmd (s : State) : (lfeRotate s).cmd = s.cmd := by dsimp only [lfeRotate]
@[simp] theorem lfeRotate_args (s : State) : (lfeRotate s).args = s.args := by dsimp only [lfeRotate]
@[simp] theorem lfeRotate_mem (s : State) : (lfeRotate s).mem = s.mem := by dsimp only [lfeRotate]
@[simp] theorem lfeRotate_rom (s : State) : (lfeRotate s).rom = s.rom := by dsimp only [lfeRotate]
@[simp] theorem lfeRotate_host (s : State) : (lfeRotate s).host = s.host := by dsimp only [lfeRotate]
@[simp] theorem lfeRotate_bus (s : State) : (lfeRotate s).bus = s.bus := by dsimp only [lfeRotate]
@[simp] theorem lfeRotate_unit (s : State) : (lfeRotate s).unit = s.unit := by dsimp only [lfeRotate]
@[simp] theorem lfeRotate_free (s : State) : (lfeRotate s).free = s.free := by dsimp only [lfeRotate]

/-! 45_reconstruct.md R184: `RECON.ADPCM`. -/

@[simp] theorem reconAdpcm_bc (s : State) (c sb : Nat) : (reconAdpcm s c sb).bc = s.bc := by dsimp only [reconAdpcm]
@[simp] theorem reconAdpcm_sh (s : State) (c sb : Nat) : (reconAdpcm s c sb).sh = s.sh := by dsimp only [reconAdpcm]
@[simp] theorem reconAdpcm_fr (s : State) (c sb : Nat) : (reconAdpcm s c sb).fr = s.fr := by dsimp only [reconAdpcm]
@[simp] theorem reconAdpcm_chF (s : State) (c sb : Nat) : (reconAdpcm s c sb).chF = s.chF := by dsimp only [reconAdpcm]
@[simp] theorem reconAdpcm_chS (s : State) (c sb : Nat) : (reconAdpcm s c sb).chS = s.chS := by dsimp only [reconAdpcm]
@[simp] theorem reconAdpcm_sf (s : State) (c sb : Nat) : (reconAdpcm s c sb).sf = s.sf := by dsimp only [reconAdpcm]
@[simp] theorem reconAdpcm_seq (s : State) (c sb : Nat) : (reconAdpcm s c sb).seq = s.seq := by dsimp only [reconAdpcm]
@[simp] theorem reconAdpcm_ph (s : State) (c sb : Nat) : (reconAdpcm s c sb).ph = s.ph := by dsimp only [reconAdpcm]
@[simp] theorem reconAdpcm_hist (s : State) (c sb : Nat) : (reconAdpcm s c sb).hist = s.hist := by dsimp only [reconAdpcm]
@[simp] theorem reconAdpcm_stage (s : State) (c sb : Nat) : (reconAdpcm s c sb).stage = s.stage := by dsimp only [reconAdpcm]
@[simp] theorem reconAdpcm_lfe (s : State) (c sb : Nat) : (reconAdpcm s c sb).lfe = s.lfe := by dsimp only [reconAdpcm]
@[simp] theorem reconAdpcm_out (s : State) (c sb : Nat) : (reconAdpcm s c sb).out = s.out := by dsimp only [reconAdpcm]
@[simp] theorem reconAdpcm_warnJoint (s : State) (c sb : Nat) : (reconAdpcm s c sb).warnJoint = s.warnJoint := by dsimp only [reconAdpcm]
@[simp] theorem reconAdpcm_warnDsync (s : State) (c sb : Nat) : (reconAdpcm s c sb).warnDsync = s.warnDsync := by dsimp only [reconAdpcm]
@[simp] theorem reconAdpcm_hook (s : State) (c sb : Nat) : (reconAdpcm s c sb).hook = s.hook := by dsimp only [reconAdpcm]
@[simp] theorem reconAdpcm_hookUser (s : State) (c sb : Nat) : (reconAdpcm s c sb).hookUser = s.hookUser := by dsimp only [reconAdpcm]
@[simp] theorem reconAdpcm_res (s : State) (c sb : Nat) : (reconAdpcm s c sb).res = s.res := by dsimp only [reconAdpcm]
@[simp] theorem reconAdpcm_syn (s : State) (c sb : Nat) : (reconAdpcm s c sb).syn = s.syn := by dsimp only [reconAdpcm]
@[simp] theorem reconAdpcm_life (s : State) (c sb : Nat) : (reconAdpcm s c sb).life = s.life := by dsimp only [reconAdpcm]
@[simp] theorem reconAdpcm_code (s : State) (c sb : Nat) : (reconAdpcm s c sb).code = s.code := by dsimp only [reconAdpcm]
@[simp] theorem reconAdpcm_cmd (s : State) (c sb : Nat) : (reconAdpcm s c sb).cmd = s.cmd := by dsimp only [reconAdpcm]
@[simp] theorem reconAdpcm_args (s : State) (c sb : Nat) : (reconAdpcm s c sb).args = s.args := by dsimp only [reconAdpcm]
@[simp] theorem reconAdpcm_mem (s : State) (c sb : Nat) : (reconAdpcm s c sb).mem = s.mem := by dsimp only [reconAdpcm]
@[simp] theorem reconAdpcm_rom (s : State) (c sb : Nat) : (reconAdpcm s c sb).rom = s.rom := by dsimp only [reconAdpcm]
@[simp] theorem reconAdpcm_host (s : State) (c sb : Nat) : (reconAdpcm s c sb).host = s.host := by dsimp only [reconAdpcm]
@[simp] theorem reconAdpcm_bus (s : State) (c sb : Nat) : (reconAdpcm s c sb).bus = s.bus := by dsimp only [reconAdpcm]
@[simp] theorem reconAdpcm_unit (s : State) (c sb : Nat) : (reconAdpcm s c sb).unit = s.unit := by dsimp only [reconAdpcm]
@[simp] theorem reconAdpcm_free (s : State) (c sb : Nat) : (reconAdpcm s c sb).free = s.free := by dsimp only [reconAdpcm]

/-! R186: `PH.UPDATE`. -/

@[simp] theorem phUpdate_bc (s : State) : (phUpdate s).bc = s.bc := by dsimp only [phUpdate]
@[simp] theorem phUpdate_sh (s : State) : (phUpdate s).sh = s.sh := by dsimp only [phUpdate]
@[simp] theorem phUpdate_fr (s : State) : (phUpdate s).fr = s.fr := by dsimp only [phUpdate]
@[simp] theorem phUpdate_chF (s : State) : (phUpdate s).chF = s.chF := by dsimp only [phUpdate]
@[simp] theorem phUpdate_chS (s : State) : (phUpdate s).chS = s.chS := by dsimp only [phUpdate]
@[simp] theorem phUpdate_sf (s : State) : (phUpdate s).sf = s.sf := by dsimp only [phUpdate]
@[simp] theorem phUpdate_seq (s : State) : (phUpdate s).seq = s.seq := by dsimp only [phUpdate]
@[simp] theorem phUpdate_subsamp (s : State) : (phUpdate s).subsamp = s.subsamp := by dsimp only [phUpdate]
@[simp] theorem phUpdate_hist (s : State) : (phUpdate s).hist = s.hist := by dsimp only [phUpdate]
@[simp] theorem phUpdate_stage (s : State) : (phUpdate s).stage = s.stage := by dsimp only [phUpdate]
@[simp] theorem phUpdate_lfe (s : State) : (phUpdate s).lfe = s.lfe := by dsimp only [phUpdate]
@[simp] theorem phUpdate_out (s : State) : (phUpdate s).out = s.out := by dsimp only [phUpdate]
@[simp] theorem phUpdate_warnJoint (s : State) : (phUpdate s).warnJoint = s.warnJoint := by dsimp only [phUpdate]
@[simp] theorem phUpdate_warnDsync (s : State) : (phUpdate s).warnDsync = s.warnDsync := by dsimp only [phUpdate]
@[simp] theorem phUpdate_hook (s : State) : (phUpdate s).hook = s.hook := by dsimp only [phUpdate]
@[simp] theorem phUpdate_hookUser (s : State) : (phUpdate s).hookUser = s.hookUser := by dsimp only [phUpdate]
@[simp] theorem phUpdate_res (s : State) : (phUpdate s).res = s.res := by dsimp only [phUpdate]
@[simp] theorem phUpdate_syn (s : State) : (phUpdate s).syn = s.syn := by dsimp only [phUpdate]
@[simp] theorem phUpdate_life (s : State) : (phUpdate s).life = s.life := by dsimp only [phUpdate]
@[simp] theorem phUpdate_code (s : State) : (phUpdate s).code = s.code := by dsimp only [phUpdate]
@[simp] theorem phUpdate_cmd (s : State) : (phUpdate s).cmd = s.cmd := by dsimp only [phUpdate]
@[simp] theorem phUpdate_args (s : State) : (phUpdate s).args = s.args := by dsimp only [phUpdate]
@[simp] theorem phUpdate_mem (s : State) : (phUpdate s).mem = s.mem := by dsimp only [phUpdate]
@[simp] theorem phUpdate_rom (s : State) : (phUpdate s).rom = s.rom := by dsimp only [phUpdate]
@[simp] theorem phUpdate_host (s : State) : (phUpdate s).host = s.host := by dsimp only [phUpdate]
@[simp] theorem phUpdate_bus (s : State) : (phUpdate s).bus = s.bus := by dsimp only [phUpdate]
@[simp] theorem phUpdate_unit (s : State) : (phUpdate s).unit = s.unit := by dsimp only [phUpdate]
@[simp] theorem phUpdate_free (s : State) : (phUpdate s).free = s.free := by dsimp only [phUpdate]

/-! 46_synthesis.md R226: `SYN.QMF32`. -/

@[simp] theorem synQmf32_bc (s : State) (c : Nat) : (synQmf32 s c).bc = s.bc := by dsimp only [synQmf32]
@[simp] theorem synQmf32_sh (s : State) (c : Nat) : (synQmf32 s c).sh = s.sh := by dsimp only [synQmf32]
@[simp] theorem synQmf32_fr (s : State) (c : Nat) : (synQmf32 s c).fr = s.fr := by dsimp only [synQmf32]
@[simp] theorem synQmf32_chF (s : State) (c : Nat) : (synQmf32 s c).chF = s.chF := by dsimp only [synQmf32]
@[simp] theorem synQmf32_chS (s : State) (c : Nat) : (synQmf32 s c).chS = s.chS := by dsimp only [synQmf32]
@[simp] theorem synQmf32_sf (s : State) (c : Nat) : (synQmf32 s c).sf = s.sf := by dsimp only [synQmf32]
@[simp] theorem synQmf32_seq (s : State) (c : Nat) : (synQmf32 s c).seq = s.seq := by dsimp only [synQmf32]
@[simp] theorem synQmf32_subsamp (s : State) (c : Nat) : (synQmf32 s c).subsamp = s.subsamp := by dsimp only [synQmf32]
@[simp] theorem synQmf32_ph (s : State) (c : Nat) : (synQmf32 s c).ph = s.ph := by dsimp only [synQmf32]
@[simp] theorem synQmf32_lfe (s : State) (c : Nat) : (synQmf32 s c).lfe = s.lfe := by dsimp only [synQmf32]
@[simp] theorem synQmf32_warnJoint (s : State) (c : Nat) : (synQmf32 s c).warnJoint = s.warnJoint := by dsimp only [synQmf32]
@[simp] theorem synQmf32_warnDsync (s : State) (c : Nat) : (synQmf32 s c).warnDsync = s.warnDsync := by dsimp only [synQmf32]
@[simp] theorem synQmf32_hook (s : State) (c : Nat) : (synQmf32 s c).hook = s.hook := by dsimp only [synQmf32]
@[simp] theorem synQmf32_hookUser (s : State) (c : Nat) : (synQmf32 s c).hookUser = s.hookUser := by dsimp only [synQmf32]
@[simp] theorem synQmf32_res (s : State) (c : Nat) : (synQmf32 s c).res = s.res := by dsimp only [synQmf32]
@[simp] theorem synQmf32_syn (s : State) (c : Nat) : (synQmf32 s c).syn = s.syn := by dsimp only [synQmf32]
@[simp] theorem synQmf32_life (s : State) (c : Nat) : (synQmf32 s c).life = s.life := by dsimp only [synQmf32]
@[simp] theorem synQmf32_code (s : State) (c : Nat) : (synQmf32 s c).code = s.code := by dsimp only [synQmf32]
@[simp] theorem synQmf32_cmd (s : State) (c : Nat) : (synQmf32 s c).cmd = s.cmd := by dsimp only [synQmf32]
@[simp] theorem synQmf32_args (s : State) (c : Nat) : (synQmf32 s c).args = s.args := by dsimp only [synQmf32]
@[simp] theorem synQmf32_mem (s : State) (c : Nat) : (synQmf32 s c).mem = s.mem := by dsimp only [synQmf32]
@[simp] theorem synQmf32_rom (s : State) (c : Nat) : (synQmf32 s c).rom = s.rom := by dsimp only [synQmf32]
@[simp] theorem synQmf32_host (s : State) (c : Nat) : (synQmf32 s c).host = s.host := by dsimp only [synQmf32]
@[simp] theorem synQmf32_bus (s : State) (c : Nat) : (synQmf32 s c).bus = s.bus := by dsimp only [synQmf32]
@[simp] theorem synQmf32_unit (s : State) (c : Nat) : (synQmf32 s c).unit = s.unit := by dsimp only [synQmf32]
@[simp] theorem synQmf32_free (s : State) (c : Nat) : (synQmf32 s c).free = s.free := by dsimp only [synQmf32]

/-! 47_lfe.md R234: `LFE.INTERP`. -/

@[simp] theorem lfeInterp_bc (s : State) (ssf : Nat) : (lfeInterp s ssf).bc = s.bc := by dsimp only [lfeInterp]
@[simp] theorem lfeInterp_sh (s : State) (ssf : Nat) : (lfeInterp s ssf).sh = s.sh := by dsimp only [lfeInterp]
@[simp] theorem lfeInterp_fr (s : State) (ssf : Nat) : (lfeInterp s ssf).fr = s.fr := by dsimp only [lfeInterp]
@[simp] theorem lfeInterp_chF (s : State) (ssf : Nat) : (lfeInterp s ssf).chF = s.chF := by dsimp only [lfeInterp]
@[simp] theorem lfeInterp_chS (s : State) (ssf : Nat) : (lfeInterp s ssf).chS = s.chS := by dsimp only [lfeInterp]
@[simp] theorem lfeInterp_sf (s : State) (ssf : Nat) : (lfeInterp s ssf).sf = s.sf := by dsimp only [lfeInterp]
@[simp] theorem lfeInterp_seq (s : State) (ssf : Nat) : (lfeInterp s ssf).seq = s.seq := by dsimp only [lfeInterp]
@[simp] theorem lfeInterp_subsamp (s : State) (ssf : Nat) : (lfeInterp s ssf).subsamp = s.subsamp := by dsimp only [lfeInterp]
@[simp] theorem lfeInterp_ph (s : State) (ssf : Nat) : (lfeInterp s ssf).ph = s.ph := by dsimp only [lfeInterp]
@[simp] theorem lfeInterp_hist (s : State) (ssf : Nat) : (lfeInterp s ssf).hist = s.hist := by dsimp only [lfeInterp]
@[simp] theorem lfeInterp_stage (s : State) (ssf : Nat) : (lfeInterp s ssf).stage = s.stage := by dsimp only [lfeInterp]
@[simp] theorem lfeInterp_lfe (s : State) (ssf : Nat) : (lfeInterp s ssf).lfe = s.lfe := by dsimp only [lfeInterp]
@[simp] theorem lfeInterp_warnJoint (s : State) (ssf : Nat) : (lfeInterp s ssf).warnJoint = s.warnJoint := by dsimp only [lfeInterp]
@[simp] theorem lfeInterp_warnDsync (s : State) (ssf : Nat) : (lfeInterp s ssf).warnDsync = s.warnDsync := by dsimp only [lfeInterp]
@[simp] theorem lfeInterp_hook (s : State) (ssf : Nat) : (lfeInterp s ssf).hook = s.hook := by dsimp only [lfeInterp]
@[simp] theorem lfeInterp_hookUser (s : State) (ssf : Nat) : (lfeInterp s ssf).hookUser = s.hookUser := by dsimp only [lfeInterp]
@[simp] theorem lfeInterp_res (s : State) (ssf : Nat) : (lfeInterp s ssf).res = s.res := by dsimp only [lfeInterp]
@[simp] theorem lfeInterp_syn (s : State) (ssf : Nat) : (lfeInterp s ssf).syn = s.syn := by dsimp only [lfeInterp]
@[simp] theorem lfeInterp_life (s : State) (ssf : Nat) : (lfeInterp s ssf).life = s.life := by dsimp only [lfeInterp]
@[simp] theorem lfeInterp_code (s : State) (ssf : Nat) : (lfeInterp s ssf).code = s.code := by dsimp only [lfeInterp]
@[simp] theorem lfeInterp_cmd (s : State) (ssf : Nat) : (lfeInterp s ssf).cmd = s.cmd := by dsimp only [lfeInterp]
@[simp] theorem lfeInterp_args (s : State) (ssf : Nat) : (lfeInterp s ssf).args = s.args := by dsimp only [lfeInterp]
@[simp] theorem lfeInterp_mem (s : State) (ssf : Nat) : (lfeInterp s ssf).mem = s.mem := by dsimp only [lfeInterp]
@[simp] theorem lfeInterp_rom (s : State) (ssf : Nat) : (lfeInterp s ssf).rom = s.rom := by dsimp only [lfeInterp]
@[simp] theorem lfeInterp_host (s : State) (ssf : Nat) : (lfeInterp s ssf).host = s.host := by dsimp only [lfeInterp]
@[simp] theorem lfeInterp_bus (s : State) (ssf : Nat) : (lfeInterp s ssf).bus = s.bus := by dsimp only [lfeInterp]
@[simp] theorem lfeInterp_unit (s : State) (ssf : Nat) : (lfeInterp s ssf).unit = s.unit := by dsimp only [lfeInterp]
@[simp] theorem lfeInterp_free (s : State) (ssf : Nat) : (lfeInterp s ssf).free = s.free := by dsimp only [lfeInterp]

/-! 48_downmix.md R243: rewriting `OUT`. -/

@[simp] theorem outMap_bc (s : State) (count : Nat) (f : Nat → Nat → Word32) : (outMap s count f).bc = s.bc := by dsimp only [outMap]
@[simp] theorem outMap_sh (s : State) (count : Nat) (f : Nat → Nat → Word32) : (outMap s count f).sh = s.sh := by dsimp only [outMap]
@[simp] theorem outMap_fr (s : State) (count : Nat) (f : Nat → Nat → Word32) : (outMap s count f).fr = s.fr := by dsimp only [outMap]
@[simp] theorem outMap_chF (s : State) (count : Nat) (f : Nat → Nat → Word32) : (outMap s count f).chF = s.chF := by dsimp only [outMap]
@[simp] theorem outMap_chS (s : State) (count : Nat) (f : Nat → Nat → Word32) : (outMap s count f).chS = s.chS := by dsimp only [outMap]
@[simp] theorem outMap_sf (s : State) (count : Nat) (f : Nat → Nat → Word32) : (outMap s count f).sf = s.sf := by dsimp only [outMap]
@[simp] theorem outMap_seq (s : State) (count : Nat) (f : Nat → Nat → Word32) : (outMap s count f).seq = s.seq := by dsimp only [outMap]
@[simp] theorem outMap_subsamp (s : State) (count : Nat) (f : Nat → Nat → Word32) : (outMap s count f).subsamp = s.subsamp := by dsimp only [outMap]
@[simp] theorem outMap_ph (s : State) (count : Nat) (f : Nat → Nat → Word32) : (outMap s count f).ph = s.ph := by dsimp only [outMap]
@[simp] theorem outMap_hist (s : State) (count : Nat) (f : Nat → Nat → Word32) : (outMap s count f).hist = s.hist := by dsimp only [outMap]
@[simp] theorem outMap_stage (s : State) (count : Nat) (f : Nat → Nat → Word32) : (outMap s count f).stage = s.stage := by dsimp only [outMap]
@[simp] theorem outMap_lfe (s : State) (count : Nat) (f : Nat → Nat → Word32) : (outMap s count f).lfe = s.lfe := by dsimp only [outMap]
@[simp] theorem outMap_warnJoint (s : State) (count : Nat) (f : Nat → Nat → Word32) : (outMap s count f).warnJoint = s.warnJoint := by dsimp only [outMap]
@[simp] theorem outMap_warnDsync (s : State) (count : Nat) (f : Nat → Nat → Word32) : (outMap s count f).warnDsync = s.warnDsync := by dsimp only [outMap]
@[simp] theorem outMap_hook (s : State) (count : Nat) (f : Nat → Nat → Word32) : (outMap s count f).hook = s.hook := by dsimp only [outMap]
@[simp] theorem outMap_hookUser (s : State) (count : Nat) (f : Nat → Nat → Word32) : (outMap s count f).hookUser = s.hookUser := by dsimp only [outMap]
@[simp] theorem outMap_res (s : State) (count : Nat) (f : Nat → Nat → Word32) : (outMap s count f).res = s.res := by dsimp only [outMap]
@[simp] theorem outMap_syn (s : State) (count : Nat) (f : Nat → Nat → Word32) : (outMap s count f).syn = s.syn := by dsimp only [outMap]
@[simp] theorem outMap_life (s : State) (count : Nat) (f : Nat → Nat → Word32) : (outMap s count f).life = s.life := by dsimp only [outMap]
@[simp] theorem outMap_code (s : State) (count : Nat) (f : Nat → Nat → Word32) : (outMap s count f).code = s.code := by dsimp only [outMap]
@[simp] theorem outMap_cmd (s : State) (count : Nat) (f : Nat → Nat → Word32) : (outMap s count f).cmd = s.cmd := by dsimp only [outMap]
@[simp] theorem outMap_args (s : State) (count : Nat) (f : Nat → Nat → Word32) : (outMap s count f).args = s.args := by dsimp only [outMap]
@[simp] theorem outMap_mem (s : State) (count : Nat) (f : Nat → Nat → Word32) : (outMap s count f).mem = s.mem := by dsimp only [outMap]
@[simp] theorem outMap_rom (s : State) (count : Nat) (f : Nat → Nat → Word32) : (outMap s count f).rom = s.rom := by dsimp only [outMap]
@[simp] theorem outMap_host (s : State) (count : Nat) (f : Nat → Nat → Word32) : (outMap s count f).host = s.host := by dsimp only [outMap]
@[simp] theorem outMap_bus (s : State) (count : Nat) (f : Nat → Nat → Word32) : (outMap s count f).bus = s.bus := by dsimp only [outMap]
@[simp] theorem outMap_unit (s : State) (count : Nat) (f : Nat → Nat → Word32) : (outMap s count f).unit = s.unit := by dsimp only [outMap]
@[simp] theorem outMap_free (s : State) (count : Nat) (f : Nat → Nat → Word32) : (outMap s count f).free = s.free := by dsimp only [outMap]

/-! R248: `DMX.APPLY`. -/

@[simp] theorem dmxApply_bc (s : State) : (dmxApply s).bc = s.bc := by
  simp only [dmxApply]; split
  · simp
  · split <;> simp
@[simp] theorem dmxApply_sh (s : State) : (dmxApply s).sh = s.sh := by
  simp only [dmxApply]; split
  · simp
  · split <;> simp
@[simp] theorem dmxApply_fr (s : State) : (dmxApply s).fr = s.fr := by
  simp only [dmxApply]; split
  · simp
  · split <;> simp
@[simp] theorem dmxApply_chF (s : State) : (dmxApply s).chF = s.chF := by
  simp only [dmxApply]; split
  · simp
  · split <;> simp
@[simp] theorem dmxApply_chS (s : State) : (dmxApply s).chS = s.chS := by
  simp only [dmxApply]; split
  · simp
  · split <;> simp
@[simp] theorem dmxApply_sf (s : State) : (dmxApply s).sf = s.sf := by
  simp only [dmxApply]; split
  · simp
  · split <;> simp
@[simp] theorem dmxApply_seq (s : State) : (dmxApply s).seq = s.seq := by
  simp only [dmxApply]; split
  · simp
  · split <;> simp
@[simp] theorem dmxApply_subsamp (s : State) : (dmxApply s).subsamp = s.subsamp := by
  simp only [dmxApply]; split
  · simp
  · split <;> simp
@[simp] theorem dmxApply_ph (s : State) : (dmxApply s).ph = s.ph := by
  simp only [dmxApply]; split
  · simp
  · split <;> simp
@[simp] theorem dmxApply_hist (s : State) : (dmxApply s).hist = s.hist := by
  simp only [dmxApply]; split
  · simp
  · split <;> simp
@[simp] theorem dmxApply_stage (s : State) : (dmxApply s).stage = s.stage := by
  simp only [dmxApply]; split
  · simp
  · split <;> simp
@[simp] theorem dmxApply_lfe (s : State) : (dmxApply s).lfe = s.lfe := by
  simp only [dmxApply]; split
  · simp
  · split <;> simp
@[simp] theorem dmxApply_warnJoint (s : State) : (dmxApply s).warnJoint = s.warnJoint := by
  simp only [dmxApply]; split
  · simp
  · split <;> simp
@[simp] theorem dmxApply_warnDsync (s : State) : (dmxApply s).warnDsync = s.warnDsync := by
  simp only [dmxApply]; split
  · simp
  · split <;> simp
@[simp] theorem dmxApply_hook (s : State) : (dmxApply s).hook = s.hook := by
  simp only [dmxApply]; split
  · simp
  · split <;> simp
@[simp] theorem dmxApply_hookUser (s : State) : (dmxApply s).hookUser = s.hookUser := by
  simp only [dmxApply]; split
  · simp
  · split <;> simp
@[simp] theorem dmxApply_res (s : State) : (dmxApply s).res = s.res := by
  simp only [dmxApply]; split
  · simp
  · split <;> simp
@[simp] theorem dmxApply_syn (s : State) : (dmxApply s).syn = s.syn := by
  simp only [dmxApply]; split
  · simp
  · split <;> simp
@[simp] theorem dmxApply_life (s : State) : (dmxApply s).life = s.life := by
  simp only [dmxApply]; split
  · simp
  · split <;> simp
@[simp] theorem dmxApply_code (s : State) : (dmxApply s).code = s.code := by
  simp only [dmxApply]; split
  · simp
  · split <;> simp
@[simp] theorem dmxApply_cmd (s : State) : (dmxApply s).cmd = s.cmd := by
  simp only [dmxApply]; split
  · simp
  · split <;> simp
@[simp] theorem dmxApply_args (s : State) : (dmxApply s).args = s.args := by
  simp only [dmxApply]; split
  · simp
  · split <;> simp
@[simp] theorem dmxApply_mem (s : State) : (dmxApply s).mem = s.mem := by
  simp only [dmxApply]; split
  · simp
  · split <;> simp
@[simp] theorem dmxApply_rom (s : State) : (dmxApply s).rom = s.rom := by
  simp only [dmxApply]; split
  · simp
  · split <;> simp
@[simp] theorem dmxApply_host (s : State) : (dmxApply s).host = s.host := by
  simp only [dmxApply]; split
  · simp
  · split <;> simp
@[simp] theorem dmxApply_bus (s : State) : (dmxApply s).bus = s.bus := by
  simp only [dmxApply]; split
  · simp
  · split <;> simp
@[simp] theorem dmxApply_unit (s : State) : (dmxApply s).unit = s.unit := by
  simp only [dmxApply]; split
  · simp
  · split <;> simp
@[simp] theorem dmxApply_free (s : State) : (dmxApply s).free = s.free := by
  simp only [dmxApply]; split
  · simp
  · split <;> simp

/-! 43_subframe.md R135, 70_reset_and_hazards.md R281: what a failed DECODE_BLOCK keeps. -/

@[simp] theorem forgetBlock_sh (s : State) : (forgetBlock s).sh = s.sh := rfl
@[simp] theorem forgetBlock_fr (s : State) : (forgetBlock s).fr = s.fr := rfl
@[simp] theorem forgetBlock_chF (s : State) : (forgetBlock s).chF = s.chF := rfl
@[simp] theorem forgetBlock_ph (s : State) : (forgetBlock s).ph = s.ph := rfl
@[simp] theorem forgetBlock_hist (s : State) : (forgetBlock s).hist = s.hist := rfl
@[simp] theorem forgetBlock_stage (s : State) : (forgetBlock s).stage = s.stage := rfl
@[simp] theorem forgetBlock_out (s : State) : (forgetBlock s).out = s.out := rfl
@[simp] theorem forgetBlock_res (s : State) : (forgetBlock s).res = s.res := rfl
@[simp] theorem forgetBlock_code (s : State) : (forgetBlock s).code = s.code := rfl
@[simp] theorem forgetBlock_life (s : State) : (forgetBlock s).life = s.life := rfl
@[simp] theorem forgetBlock_warnJoint (s : State) : (forgetBlock s).warnJoint = s.warnJoint := rfl
@[simp] theorem forgetBlock_warnDsync (s : State) : (forgetBlock s).warnDsync = s.warnDsync := rfl
@[simp] theorem forgetBlock_hook (s : State) : (forgetBlock s).hook = s.hook := rfl
@[simp] theorem forgetBlock_hookUser (s : State) : (forgetBlock s).hookUser = s.hookUser := rfl
@[simp] theorem forgetBlock_syn (s : State) : (forgetBlock s).syn = s.syn := rfl
@[simp] theorem forgetBlock_args (s : State) : (forgetBlock s).args = s.args := rfl
@[simp] theorem forgetBlock_mem (s : State) : (forgetBlock s).mem = s.mem := rfl
@[simp] theorem forgetBlock_rom (s : State) : (forgetBlock s).rom = s.rom := rfl
@[simp] theorem forgetBlock_host (s : State) : (forgetBlock s).host = s.host := rfl
@[simp] theorem forgetBlock_bus (s : State) : (forgetBlock s).bus = s.bus := rfl
@[simp] theorem forgetBlock_unit (s : State) : (forgetBlock s).unit = s.unit := rfl
@[simp] theorem forgetBlock_cmd (s : State) : (forgetBlock s).cmd = s.cmd := rfl
@[simp] theorem forgetBlock_frame (s : State) : (forgetBlock s).seq.frame = s.seq.frame := rfl

end Sys2Proof.Laws
end

