-- ==== Sys2Proof/Tests/Slice0.lean ====
section
/-! SUPPORT. Tests: words and windows written out from the spec's encodings, an ill-formed instruction for each check, one step
of each instruction on a small state (expected values from the rules' examples and 95_test_vectors.md), and for every statement
with hypotheses a state and operands that meet them. -/

namespace Sys2Proof.Tests

open Sys2Proof.Machine Sys2Proof.Safety

set_option Elab.async false

/-! ### A small state -/

/-- 0.5, 1, 2, 3, 4 and −1 as binary64. -/
def half : Num := 0x3FE0000000000000#64
/-- See `half`. -/
def one : Num := 0x3FF0000000000000#64
/-- See `half`. -/
def two : Num := 0x4000000000000000#64
/-- See `half`. -/
def three : Num := 0x4008000000000000#64
/-- See `half`. -/
def four : Num := 0x4010000000000000#64
/-- See `half`. -/
def minusOne : Num := 0xBFF0000000000000#64

/-- 44_sample_decode.md R160, the example book: 0 → 0, 10 → +1, 11 → −1. -/
def book3 : Codebook := [⟨1, 0, 0⟩, ⟨2, 2, 1⟩, ⟨2, 3, -1⟩]

/-- A codebook with values at and past the ends of the allocation range. -/
def bookWide : Codebook := [⟨1, 0, 26⟩, ⟨2, 2, 27⟩, ⟨2, 3, -1⟩]

/-- A codebook in which no code begins with 11. -/
def bookOpen : Codebook := [⟨1, 0, 63⟩, ⟨2, 2, 1⟩]

/-- Stand-in tables, each constant but where a test needs an entry. -/
def testRom : Rom :=
  { (default : Rom) with
    sampleKind := .float
    clev := one
    slev := one
    lfeGain := one
    sampleRate := ⟨0#32, [(13, 48000#32)]⟩
    bitRate := ⟨0#32, [(15, 768000#32), (24, 1536000#32)]⟩
    nch := ⟨1, [(.mono, 0), (.f3, 2)]⟩
    huffBitalloc := ⟨bookWide, []⟩
    huffTmode := ⟨book3, []⟩
    huffScale := ⟨book3, []⟩
    qidxBook := ⟨none, [((1, 0), some book3)]⟩
    scale6 := ⟨one, [(1, two)]⟩
    scale7 := ⟨one, [(3, three)]⟩
    qstepLossy := ⟨half, []⟩
    adj := ⟨one, []⟩
    adpcm := ⟨0#64, [((4, 0), half)]⟩
    hfvq := ⟨four, []⟩
    syn := { cosA := vtab 16 fun _ => vtab 16 fun _ => one, cosB := vtab 16 fun _ => vtab 16 fun _ => one,
             winF := vtab 16 fun _ => two, winA := vtab 16 fun _ => three }
    firPerfect := ⟨one, []⟩
    firNonperfect := ⟨half, []⟩
    lfeFir64 := ⟨one, []⟩
    lfeFir128 := ⟨half, []⟩
    dmxSelect := ⟨none, [((2, 5), some .stereo), ((0, 5), some .mono), ((2, 0), some .stereo), ((0, 2), some .mono)]⟩
    dmxMix := ⟨⟨⟨⟨0, 2#8⟩, []⟩, ⟨some 0, [(1, none)]⟩⟩, []⟩ }

/-- The state after reset over the stand-in tables. -/
def small : State := { State.reset with toDecoder := Decoder.reset testRom.syn, rom := testRom }

/-- `small` with bytes in host memory from 0x1000 on, a cursor at their start, and the argument registers on them. -/
def reading (mode : WordMode) (order : Endian) (bytes : List Byte) : State :=
  { small with
    mem := memWriteBytes [] 0x1000 bytes
    bc := cursorInit 0x1000#32 (BitVec.ofNat 32 bytes.length) ⟨mode, order⟩
    args := { small.args with bufAddr := 0x1000#32, bufLen := BitVec.ofNat 32 bytes.length } }

/-- `reading` in the plainest packing. -/
def stream (bytes : List Byte) : State := reading .w16 .be bytes

/-- The state that an answer holds; the reset state where it holds none. -/
def stateOf (a : Answer) : State :=
  match a with
  | .next t => t
  | _ => State.reset

/-- Whether an answer is a next state. -/
def isNext (a : Answer) : Bool :=
  match a with
  | .next _ => true
  | _ => false

/-- Whether an answer is the refusal `r`. -/
def isRefused (r : Refusal) (a : Answer) : Bool :=
  match a with
  | .refused x => x == r
  | _ => false

/-! ### Decoding, from 30_encoding.md R65 and R66 -/

theorem test_decode_init : decode (.cmd 0x00000001#32) = .ok .init := rfl
theorem test_decode_probe : decode (.cmd 0x00000002#32) = .ok .probe := rfl
theorem test_decode_begin_frame : decode (.cmd 0x00000003#32) = .ok .beginFrame := rfl
theorem test_decode_blocks_remaining : decode (.cmd 0x00000004#32) = .ok .blocksRemaining := rfl
theorem test_decode_decode_block : decode (.cmd 0x00000005#32) = .ok .decodeBlock := rfl
theorem test_decode_set_drc_hook : decode (.cmd 0x00000006#32) = .ok .setDrcHook := rfl
theorem test_decode_teardown : decode (.cmd 0x00000007#32) = .ok .teardown := rfl
theorem test_decode_code_zero : decode (.cmd 0x00000000#32) = .ok (.illegal 0x00000000#32) := rfl
theorem test_decode_code_eight : decode (.cmd 0x00000008#32) = .ok (.illegal 0x00000008#32) := rfl
theorem test_decode_upper_bit : decode (.cmd 0x80000001#32) = .ok (.illegal 0x80000001#32) := rfl
/-- V20 (g). -/
theorem test_decode_14le : decodeBytes [0xFF#8, 0x1F#8, 0x00#8, 0xE8#8, 0xF7#8, 0x07#8]
    = .ok (.fsMatch14le 0xFF1F00E8F707#48) := rfl
theorem test_decode_14be : decodeBytes [0x1F#8, 0xFF#8, 0xE8#8, 0x00#8, 0x07#8, 0xFF#8]
    = .ok (.fsMatch14be 0x1FFFE80007FF#48) := rfl
theorem test_decode_16le : decodeBytes [0xFE#8, 0x7F#8, 0x01#8, 0x80#8, 0x12#8, 0x34#8]
    = .ok (.fsMatch16le 0xFE7F01801234#48) := rfl
theorem test_decode_16be : decodeBytes [0x7F#8, 0xFE#8, 0x80#8, 0x01#8, 0x00#8, 0x00#8]
    = .ok (.fsMatch16be 0x7FFE80010000#48) := rfl
theorem test_decode_no_pattern : decodeBytes [0xFF#8, 0x1F#8, 0x00#8, 0xE8#8, 0xE0#8, 0x07#8] = .error .noSyncPattern := rfl
theorem test_decode_short_window : decodeBytes [0x7F#8, 0xFE#8] = .error .notAWindow := rfl
theorem test_table_word : decodeTableWord 32 0x00000003 = some .beginFrame := rfl
theorem test_table_window : decodeTableWord 48 0x7FFE80010000 = some (.fsMatch16be 0x7FFE80010000#48) := rfl

/-! ### Ill-formed instructions -/

theorem test_ill_formed_illegal : (Instr.illegal 0x00000007#32).wellFormed = false := rfl
theorem test_ill_formed_14le : (Instr.fsMatch14le 0x7FFE80010000#48).wellFormed = false := rfl
theorem test_ill_formed_14be : (Instr.fsMatch14be 0x7FFE80010000#48).wellFormed = false := rfl
theorem test_ill_formed_16le : (Instr.fsMatch16le 0x7FFE80010000#48).wellFormed = false := rfl
theorem test_ill_formed_16be : (Instr.fsMatch16be 0xFE7F01800000#48).wellFormed = false := rfl
theorem test_ill_formed_view : (Instr.brInit 0x1001#32 8#32 ⟨.w16, .le⟩).wellFormed = false := rfl
theorem test_ill_formed_header_view : (Instr.fsHeader 0x1002#32 8#32 ⟨.w14, .be⟩).wellFormed = false := rfl
theorem test_ill_formed_width_zero : (Instr.brGet 0).wellFormed = false := rfl
theorem test_ill_formed_width_33 : (Instr.getSigned 33).wellFormed = false := rfl
theorem test_ill_formed_empty_book : (Instr.huffDec []).wellFormed = false := rfl
theorem test_ill_formed_prefix : (Instr.huffDec [⟨1, 0, 0⟩, ⟨2, 1, 1⟩]).wellFormed = false := rfl
theorem test_ill_formed_code : (Instr.qxHuff [⟨1, 2, 0⟩]).wellFormed = false := rfl
theorem test_ill_formed_length : (Instr.qxHuff [⟨0, 0, 0⟩]).wellFormed = false := rfl
theorem test_ill_formed_raw : (Instr.qxRaw 7).wellFormed = false := rfl
theorem test_ill_formed_block : (Instr.qxBlock 8).wellFormed = false := rfl
theorem test_ill_formed_levels : (Instr.blkDecode 0 4).wellFormed = false := by decide
theorem test_ill_formed_codeword : (Instr.blkDecode 128 3).wellFormed = false := by decide
theorem test_well_formed_codeword : (Instr.blkDecode 127 3).wellFormed = true := by decide

/-! ### Frames and channels for the tests -/

/-- 41_framesync.md R111: the worked example's header. -/
def header5 : List Byte :=
  [0x7F#8, 0xFE#8, 0x80#8, 0x01#8, 0xFC#8, 0x3C#8, 0x3F#8, 0xF2#8, 0x77#8, 0x00#8, 0x00#8, 0x38#8, 0x00#8, 0x00#8]

/-- V20 (c): the same header packed W14, big-endian. -/
def header14 : List Byte :=
  [0x1F#8, 0xFF#8, 0xE8#8, 0x00#8, 0x07#8, 0xF0#8, 0xFC#8, 0x3F#8, 0xFC#8, 0x9D#8, 0xF0#8, 0x00#8, 0x00#8, 0xE0#8,
   0x00#8, 0x00#8]

/-- Program P3: the first bytes of the MONO frame, the rest of it zeros. -/
def monoFrame : List Byte :=
  [0x7F#8, 0xFE#8, 0x80#8, 0x01#8, 0xFC#8, 0x1C#8, 0x05#8, 0xF0#8, 0x35#8, 0xE0#8, 0x00#8, 0x38#8, 0x00#8, 0x00#8,
   0x00#8, 0x82#8, 0xE0#8] ++ List.replicate 79 0#8

/-- V21: a header with a CRC. -/
def headerCrc : List Byte :=
  [0x7F#8, 0xFE#8, 0x80#8, 0x01#8, 0xFE#8, 0x3C#8, 0x7F#8, 0xF2#8, 0x77#8, 0x1E#8, 0xBD#8, 0xBE#8, 0xEF#8, 0xBD#8,
   0xA9#8, 0x00#8]

/-- A channel of two active subbands, the second one vector-quantized, with the given codebook selectors. -/
def channelOf (scales alloc joint : BitVec 3) : ChannelFrame :=
  { zeroChannelFrame with subbandActivity := 2#6, vqStartSubband := 1#6, sfAdj := vtab 11 fun _ => one,
                          scalefactorHuffman := scales, bitallocHuffman := alloc, jointIntensity := joint }

/-- A state with one MONO channel, its registers as given, reading `bytes`. -/
def oneChannel (f : ChannelFrame) (h : ChannelSub) (bytes : List Byte) : State :=
  let s := stream bytes
  { s with
    sh := { s.sh with primChannels := 1#4, totalChannels := 1#4, subframes := 1#5, sampleBlocks := 8#8, frameSize := 96#15 }
    sf := { s.sf with subsubframes := 1#3 }
    chF := vput s.chF 0 f
    chS := vput s.chS 0 h }

/-- `oneChannel` inside an active frame of one subframe, at sub-block `ssf`, of a subframe of `count`. -/
def inFrame (ssf count : BitVec 3) (h : ChannelSub) (bytes : List Byte) : State :=
  let s := oneChannel (channelOf 5#3 5#3 0#3) h bytes
  { s with
    sf := { s.sf with subsubframes := count }
    fr := { s.fr with output := .mono, blocksTotal := 1#32 }
    seq := { frame := .active, currentSubframe := 0#5, currentSubsubframe := ssf } }

/-! ### One step of each instruction -/

theorem test_init : (stateOf (exec .init { small with life := .uninit, code := .notReady })).life = .ready := rfl
theorem test_init_zeroes : (stateOf (exec .init { small with hook := 5#32 })).hook = 0#32 := rfl
/-- R111. -/
theorem test_probe : (stateOf (exec .probe (stream header5))).res.frameLen = 1024#32 := by decide +kernel
/-- V20 (c). -/
theorem test_probe_14 : (stateOf (exec .probe (reading .w14 .be header14))).res.frameLen = 1170#32 := by decide +kernel
/-- P3. -/
theorem test_begin_frame : (stateOf (exec .beginFrame (stream monoFrame))).fr.blocksTotal = 1#32 := by decide +kernel
/-- V24: ARR 11. -/
theorem test_begin_frame_refuses_request :
    (stateOf (exec .beginFrame { stream monoFrame with args := { (stream monoFrame).args with flags := 0x0B#32 } })).code
      = .unsupportedChannelArrangement := by decide +kernel
theorem test_blocks_remaining :
    (stateOf (exec .blocksRemaining { small with
      seq := { small.seq with frame := .active }, fr := { small.fr with blocksTotal := 2#32, blocksDone := 1#32 } })).res.blocks
      = 1#32 := rfl
theorem test_blocks_remaining_idle :
    (stateOf (exec .blocksRemaining { small with fr := { small.fr with blocksTotal := 2#32 } })).res.blocks = 0#32 := rfl
/-- V33: the block after the last one. -/
theorem test_decode_block_past_end :
    (stateOf (exec .decodeBlock { inFrame 0#3 1#3 zeroChannelSub [] with
      seq := { frame := .active, currentSubframe := 1#5, currentSubsubframe := 0#3 } })).code = .corruptStream := by
  decide +kernel
theorem test_decode_block_moves :
    (stateOf (exec .decodeBlock (inFrame 1#3 3#3 zeroChannelSub []))).seq.currentSubsubframe = 2#3 := by decide +kernel
theorem test_set_drc_hook :
    (stateOf (exec .setDrcHook { small with args := { small.args with hook := 7#32, user := 9#32 } })).hookUser = 9#32 := rfl
theorem test_teardown : (stateOf (exec .teardown small)).life = .uninit := rfl
theorem test_illegal : (stateOf (exec (.illegal 0x10#32) small)).code = .illegalCommand := rfl
/-- V20 (g). -/
theorem test_fs_match14le : (stateOf (exec (.fsMatch14le 0xFF1F00E8F707#48) small)).unit = .sync (some ⟨.w14, .le⟩) := rfl
theorem test_fs_match14be : (stateOf (exec (.fsMatch14be 0x1FFFE80006F0#48) small)).unit = .sync none := rfl
theorem test_fs_match16le : (stateOf (exec (.fsMatch16le 0xFE7F01810000#48) small)).unit = .sync none := rfl
theorem test_fs_match16be : (stateOf (exec (.fsMatch16be 0x7FFE80010000#48) small)).unit = .sync (some ⟨.w16, .be⟩) := rfl
theorem test_br_init :
    (stateOf (exec (.brInit 0x1000#32 512#32 ⟨.w14, .le⟩) small)).bc
      = { base := 0x1000#32, len := 512#32, wptr := 0#32, cur := 0#32, left := 0#6, wordMode := .w14, endian := .le } := rfl
/-- V8. -/
theorem test_br_get_swaps :
    (stateOf (exec (.brGet 16) (reading .w16 .le [0x12#8, 0x34#8, 0x56#8, 0x78#8]))).unit = .bits 0x3412 := by decide +kernel
/-- V3: 32 bits over two fetches of 28. -/
theorem test_br_get_14 :
    (stateOf (exec (.brGet 32) (reading .w14 .be [0x1F#8, 0xFF#8, 0xE8#8, 0x00#8, 0x07#8, 0xF0#8, 0#8, 0#8]))).unit
      = .bits 0x7FFE8001 := by decide +kernel
/-- V12. -/
theorem test_get_signed : (stateOf (exec (.getSigned 8) (stream [0x80#8, 0x7F#8]))).unit = .int (-128) := by decide +kernel
/-- V20 (e), NBLKS 4: rejected. -/
theorem test_fs_header_rejects :
    (stateOf (exec (.fsHeader 0x1000#32 14#32 ⟨.w16, .be⟩)
      (stream [0x7F#8, 0xFE#8, 0x80#8, 0x01#8, 0xFC#8, 0x10#8, 0x3F#8, 0xF2#8, 0x77#8, 0x00#8, 0x00#8, 0x38#8, 0#8, 0#8]))).unit
      = .header none := by decide +kernel
/-- R111. -/
theorem test_fs_header :
    (stateOf (exec (.fsHeader 0x1000#32 14#32 ⟨.w16, .be⟩) (stream header5))).unit
      = .header (some ⟨0x09#32, 48000#32, 1536000#32, 1024⟩) := by decide +kernel
/-- V21: HCRC and the last field behind it. -/
theorem test_fd_header_crc : (stateOf (exec .fdHeader (stream headerCrc))).sh.headerCrc = 0xBEEF#16 := by decide +kernel
theorem test_fd_header_tail : (stateOf (exec .fdHeader (stream headerCrc))).sh.dialogNorm = 9#4 := by decide +kernel
/-- V23: SUBS 31 gives 32. -/
theorem test_fd_primhdr_clamps :
    actOf (stateOf (exec .fdPrimhdr (stream [0x01#8, 0xF0#8, 0#8, 0#8]))) 0 = 32 := by decide +kernel
/-- V24: VQSUB 2 over an activity count of 2. -/
theorem test_fd_primhdr_vq_start :
    (stateOf (exec .fdPrimhdr (stream [0x00#8, 0x04#8, 0#8, 0#8]))).code = .corruptStream := by decide +kernel
theorem test_drc_hook_idle : isNext (exec .drcHook { small with hook := 1#32 }) = true := rfl
theorem test_drc_hook_refused :
    isRefused .drcHook (exec .drcHook { small with hook := 1#32, sh := { small.sh with dynrange := 1#1 } }) = true := rfl
/-- V70. -/
theorem test_dmx_select_itself :
    (stateOf (exec (.dmxSelect 2#6 0x102#32 three one one) small)).unit = .select .stereo three := by decide +kernel
theorem test_dmx_select_unsupported :
    (stateOf (exec (.dmxSelect 10#6 0x000#32 one one one) small)).code = .unsupportedChannelArrangement := by decide +kernel
/-- R236: a request of 4F2R, six output channels, that the table answers is answered. -/
theorem test_dmx_select_six_channels :
    (stateOf (exec (.dmxSelect 9#6 0x00A#32 one one one) { small with
      rom := { testRom with nch := ⟨1, [(.f4r2, 5)]⟩, dmxSelect := ⟨none, [((10, 9), some .f4r2)]⟩ } })).unit
      = .select .f4r2 one := by decide +kernel
/-- R41: 4F2R fills six slots, and six are valid with LFE too; five channels and LFE are six (R135). -/
theorem test_out_channels :
    ([(Arrangement.f4r2, false), (.f4r2, true), (.f3r2, true), (.mono, false)].map fun x => outChannels { small with
      rom := { testRom with nch := ⟨4, [(.f4r2, 5), (.mono, 0)]⟩ }, fr := { small.fr with output := x.1, outputLfe := x.2 } })
      = [6, 6, 6, 1] := by decide +kernel
/-- R12, R58: a register's address is its offset from REG_BASE; the last register, the first window byte, the last one, and the
bytes past either range. -/
theorem test_place_of :
    ([0x1000, 0x103C, 0x1040, 0x7FFF, 0x8000, 0xA3FF, 0xA400].map (placeOf { testRom with regBase := 0x1000, outBase := 0x8000 }))
      = [some (.register 0), some (.register 60), none, none, some (.window 0), some (.window 9215), none] := by decide +kernel
/-- R188: binary64 holds 2^53 and 3·2^60, and neither 2^53 + 1 nor 2^1024. -/
theorem test_f64_holds :
    ([2 ^ 53, 3 * 2 ^ 60, 2 ^ 53 + 1, 2 ^ 1024].map f64Holds, f64OfInt (-3)) = ([true, true, false, false], 0xC008000000000000#64) := by
  decide +kernel
/-- R136: (0,0) → (0,1) → (1,0). -/
theorem test_advance : (stateOf (exec .advance (inFrame 0#3 2#3 zeroChannelSub []))).seq.currentSubsubframe = 1#3 := by
  decide +kernel
theorem test_advance_wraps : (stateOf (exec .advance (inFrame 1#3 2#3 zeroChannelSub []))).seq.currentSubframe = 1#5 := by
  decide +kernel
/-- R138: SSC 0, PSC 5, PMODE 1 0, PVQ 0x804, one BITALLOC of 4 bits. -/
theorem test_sf_header_pvq :
    vget (vget (stateOf (exec .sfHeader
      (oneChannel (channelOf 5#3 5#3 0#3) zeroChannelSub [0x2D#8, 0x00#8, 0x8A#8, 0#8, 0#8, 0#8, 0#8]))).chS 0).predictionVq 0
      = 0x804#12 := by decide +kernel
theorem test_sf_header_alloc :
    vget (vget (stateOf (exec .sfHeader
      (oneChannel (channelOf 5#3 5#3 0#3) zeroChannelSub [0x2D#8, 0x00#8, 0x8A#8, 0#8, 0#8, 0#8, 0#8]))).chS 0).bitalloc 0
      = 0x5#5 := by decide +kernel
/-- V32: 27 in 5 bits. -/
theorem test_read_bitalloc_27 :
    (stateOf (exec (.readBitalloc 0) (oneChannel (channelOf 5#3 6#3 0#3) zeroChannelSub [0xD8#8]))).code = .corruptStream := by
  decide +kernel
theorem test_read_bitalloc_26 :
    (stateOf (exec (.readBitalloc 0) (oneChannel (channelOf 5#3 6#3 0#3) zeroChannelSub [0xD0#8]))).unit = .bits 26 := by
  decide +kernel
/-- V36: a 6-bit absolute index, 1. -/
theorem test_read_scales :
    vget (vget (stateOf (exec (.readScales 0) (oneChannel (channelOf 5#3 5#3 0#3) zeroChannelSub [0x04#8]))).chS 0).scale0 1
      = two := by decide +kernel
/-- V36: a running sum of −1. -/
theorem test_read_scales_negative :
    (stateOf (exec (.readScales 0) (oneChannel (channelOf 0#3 5#3 0#3) zeroChannelSub [0xC0#8]))).code = .corruptStream := by
  decide +kernel
/-- V37. -/
theorem test_read_joint_source :
    (stateOf (exec (.readJoint 0) (oneChannel (channelOf 5#3 5#3 2#3) zeroChannelSub [0x00#8]))).code = .corruptStream := by
  decide +kernel
/-- V35: −384 is the last of the samples 1, 2, −1, −128 times 3. -/
theorem test_read_lfe :
    vget (stateOf (exec .readLfe
      { stream [0x01#8, 0x02#8, 0xFF#8, 0x80#8, 0x03#8] with
        sh := { small.sh with lfe := 2#2 }, sf := { small.sf with subsubframes := 1#3 } })).lfe 7
      = 0xC078000000000000#64 := by decide +kernel
theorem test_read_lfe_index :
    (stateOf (exec .readLfe
      { stream [0x01#8, 0x02#8, 0xFF#8, 0x80#8, 0x80#8] with
        sh := { small.sh with lfe := 2#2 }, sf := { small.sf with subsubframes := 1#3 } })).code = .corruptStream := by
  decide +kernel
/-- A group of allocation 8, first value 15 (V41), times step 1/2 and scale 4. -/
theorem test_ss_body :
    vget (subsampAt (stateOf (exec (.ssBody 0)
      (inFrame 1#3 2#3 { zeroChannelSub with bitalloc := vtab 32 fun _ => 8#5, scale0 := vtab 32 fun _ => four }
        [0x7C#8, 0x00#8, 0x00#8, 0x00#8, 0x00#8]))) 0 0) 0 = 0x403E000000000000#64 := by decide +kernel
/-- R156. -/
theorem test_dsync_check : (stateOf (exec (.dsyncCheck 0) (inFrame 0#3 1#3 zeroChannelSub [0xFF#8, 0xFF#8]))).warnDsync = false := by
  decide +kernel
theorem test_dsync_check_warns :
    (stateOf (exec (.dsyncCheck 0) (inFrame 0#3 1#3 zeroChannelSub [0xFF#8, 0xFE#8]))).warnDsync = true := by decide +kernel
/-- R157: 22 bits. -/
theorem test_sf_footer :
    (stateOf (exec .sfFooter { stream [0x0A#8, 0xA9#8, 0x55#8, 0x00#8] with sh := { small.sh with auxData := 1#1 } })).bc.left
      = 10#6 := by decide +kernel
/-- V35. -/
theorem test_lfe_rotate :
    vget (stateOf (exec .lfeRotate { small with
      sh := { small.sh with lfe := 2#2 }, sf := { small.sf with subsubframes := 1#3 }
      lfe := vtab 32 fun i => BitVec.ofNat 64 i })).lfe 3 = 7#64 := by decide +kernel
/-- R160. -/
theorem test_huff_dec : (stateOf (exec (.huffDec book3) (stream [0xC0#8]))).unit = .int (-1) := by decide +kernel
theorem test_huff_dec_no_match :
    (stateOf (exec (.huffDec [⟨1, 0, 0⟩, ⟨2, 2, 1⟩]) (stream [0xC0#8]))).code = .corruptStream := by decide +kernel
/-- V45: (1, 0) is a codebook, (1, 1) a block code. -/
theorem test_qx_huff_selected : (stateOf (exec (.qx 1 0#3) (stream [0x58#8, 0x00#8]))).bc.left = 22#6 := by decide +kernel
theorem test_qx_block_selected : (stateOf (exec (.qx 1 1#3) (stream [0x01#8, 0x40#8]))).bc.left = 18#6 := by decide +kernel
theorem test_qx_none : (stateOf (exec .qxNone small)).unit = .ints8 (vtab 8 fun _ => 0) := rfl
/-- V42. -/
theorem test_qx_huff :
    (stateOf (exec (.qxHuff book3) (stream [0x58#8, 0x00#8]))).unit = .ints8 #v[0, 1, -1, 0, 0, 0, 0, 0] := by decide +kernel
/-- V41. -/
theorem test_qx_raw :
    (stateOf (exec (.qxRaw 11) (stream [0x7F#8, 0x80#8, 0xFF#8, 0x00#8, 0x01#8, 0xFE#8, 0x10#8, 0xF0#8]))).unit
      = .ints8 #v[127, -128, -1, 0, 1, -2, 16, -16] := by decide +kernel
/-- V43. -/
theorem test_qx_block :
    (stateOf (exec (.qxBlock 1) (stream [0x01#8, 0x40#8]))).unit = .ints8 #v[-1, -1, -1, -1, 1, 1, 1, 1] := by decide +kernel
/-- V44. -/
theorem test_blk_decode : (stateOf (exec (.blkDecode 202582 25) small)).unit = .ints4 #v[-5, -9, 12, 0] := by decide +kernel
theorem test_blk_decode_past_last : (stateOf (exec (.blkDecode 81 3) small)).code = .corruptStream := by decide +kernel
/-- R170, with the entry 4 and the scale factor 4: (4 × 4) / 16. -/
theorem test_hfvq_lookup :
    (stateOf (exec (.hfvqLookup 0 1 3)
      (oneChannel zeroChannelFrame { zeroChannelSub with scale0 := vtab 32 fun _ => four } []))).unit
      = .nums8 (vtab 8 fun _ => one) := by decide +kernel
/-- R182, the example: q = (2, −1, 0, …) with scale 4 at step 1/2. -/
theorem test_recon_scale :
    (stateOf (exec (.reconScale 0 0 0 #v[2, -1, 1, 1, 1, 1, 1, 1])
      (oneChannel { zeroChannelFrame with sfAdj := vtab 11 fun _ => one }
        { zeroChannelSub with scale0 := vtab 32 fun _ => two } []))).unit
      = .nums8 #v[two, minusOne, one, one, one, one, one, one] := by decide +kernel
/-- R182: an index 0 gives +0, whatever the sign of the scale. -/
theorem test_recon_scale_zero :
    (stateOf (exec (.reconScale 0 0 0 #v[0, 1, 0, 0, 0, 0, 0, 0])
      (oneChannel { zeroChannelFrame with sfAdj := vtab 11 fun _ => minusOne }
        { zeroChannelSub with scale0 := vtab 32 fun _ => two } []))).unit
      = .nums8 #v[0#64, minusOne, 0#64, 0#64, 0#64, 0#64, 0#64, 0#64] := by decide +kernel
/-- R184, the example: x[0] = 1 + 0.5·4 = 3. -/
theorem test_recon_adpcm :
    vget (subsampAt (stateOf (exec (.reconAdpcm 0 0)
      { oneChannel zeroChannelFrame { zeroChannelSub with predictionVq := vtab 32 fun _ => 4#12 } [] with
        sh := { small.sh with predictorHistory := 1#1 }
        subsamp := vtab 8 fun _ => vtab 32 fun _ => #v[one, 0#64, 0#64, 0#64, 0#64, 0#64, 0#64, 0#64]
        ph := vtab 8 fun _ => vtab 32 fun _ => #v[0#64, 0#64, 0#64, four] })) 0 0) 0 = three := by decide +kernel
/-- R186. -/
theorem test_ph_update :
    vget (vget (stateOf (exec .phUpdate { oneChannel (channelOf 5#3 5#3 0#3) zeroChannelSub [] with
      subsamp := vtab 8 fun _ => vtab 32 fun sb => vtab 8 fun m => BitVec.ofNat 64 (10 * sb + m) })).ph 0) 1
      = #v[14#64, 15#64, 16#64, 17#64] := by decide +kernel
/-- R217: the output of another channel stays. -/
theorem test_syn_qmf32_other :
    vget (vget (stateOf (exec (.synQmf32 0) { small with out := vtab 9 fun _ => vtab 256 fun _ => 5#32 })).out 1) 0
      = 5#32 := by decide +kernel
/-- R218: B[k] takes X[0] alone at i = 0, so that 31 of the 32 entries enter; A[k] takes all 32. -/
theorem test_modulate :
    (match (stateOf (exec (.modulate (vtab 32 fun _ => one)) small)).unit with
      | .pair16 a b => (vget a 0, vget b 0)
      | _ => (0#64, 0#64)) = (0x4040000000000000#64, 0x403F000000000000#64) := by decide +kernel
theorem test_butterfly :
    (match (stateOf (exec (.butterfly (vtab 16 fun _ => one) (vtab 16 fun _ => two)) small)).unit with
      | .pair16 a b => (vget a 5, vget b 5)
      | _ => (0#64, 0#64)) = (three, minusOne) := by decide +kernel
/-- R219: HIST[31] takes the anti window (3) times DIFF[0]. -/
theorem test_fold :
    vget (vget (stateOf (exec (.fold 0 (vtab 16 fun _ => one) (vtab 16 fun i => if i = 0 then one else 0#64)) small)).hist 0) 31
      = three := by decide +kernel
theorem test_fold_forward :
    vget (vget (stateOf (exec (.fold 0 (vtab 16 fun _ => one) (vtab 16 fun i => if i = 0 then one else 0#64)) small)).hist 0) 15
      = two := by decide +kernel
/-- R220 at i = 0 and j = 0, with HIST[0] = 2 alone: ½·(−2) in the upper half. -/
theorem test_accumulate :
    vget (vget (stateOf (exec (.accumulate 0) { small with
      hist := vput small.hist 0 (vput (vget small.hist 0) 0 two) })).stage 0) 32 = minusOne := by decide +kernel
/-- R221. -/
theorem test_shift :
    (fun g => (vget g 1, vget g 33))
      (vget (stateOf (exec (.shift 0) { small with stage := vtab 8 fun _ => vtab 64 fun i => BitVec.ofNat 64 i })).stage 0)
      = (33#64, 0#64) := by decide +kernel
/-- R230 with one decimated sample, 2, at the end of the history half, and the FIR ½: 1 in the first of its four taps. -/
theorem test_lfe_interp :
    vget (vget (stateOf (exec (.lfeInterp 0) { small with
      sh := { small.sh with lfe := 1#2 }, sf := { small.sf with subsubframes := 1#3 }
      fr := { small.fr with output := .mono }, lfe := vtab 32 fun i => if i = 1 then two else 0#64 })).out 1) 0
      = 0x3F800000#32 := by decide +kernel
/-- R246: equal counts, a bias of 2 over a stored 1.0. -/
theorem test_dmx_apply_bias :
    vget (vget (stateOf (exec .dmxApply { oneChannel zeroChannelFrame zeroChannelSub [] with
      fr := { small.fr with output := .mono, bias := two }, out := vtab 9 fun _ => vtab 256 fun _ => 0x3F800000#32 })).out 0) 7
      = 0x40400000#32 := by decide +kernel
/-- R245: an upmix copies slot 0 to slot 0, zero-fills slot 1, and adds no bias. -/
theorem test_dmx_apply_upmix :
    (fun o => (vget (vget o 0) 7, vget (vget o 1) 7))
      (stateOf (exec .dmxApply { oneChannel zeroChannelFrame zeroChannelSub [] with
        fr := { small.fr with output := .stereo, bias := two }, out := vtab 9 fun _ => vtab 256 fun _ => 0x3F800000#32 })).out
      = (0x3F800000#32, 0#32) := by decide +kernel
/-- R91: the frame starts one byte into the view, past the last offset at which 14 bytes remain. -/
theorem test_resync :
    (stateOf (exec (.resync 0x0FFF#32 14#32) (stream header5))).unit = .offset none := by decide +kernel
/-- R91. -/
theorem test_resync_found :
    (stateOf (exec (.resync 0x0FFC#32 18#32) (stream header5))).unit = .offset (some 4) := by decide +kernel
/-- R91: a failed BEGIN_FRAME leaves no blocks to hand over. -/
theorem test_decode_frame_no_sync :
    (stateOf (exec (.decodeFrame 0x1000#32 4#32 0#32 0#32 0#32) (stream [0#8, 0#8, 0#8, 0#8]))).unit = .pcm [] := by decide +kernel

/-! ### Witnesses: states and operands that meet the hypotheses of the statements -/

/-- `s` with host accesses pending. -/
def pending (s : State) (l : List HostAccess) : State := { s with host := l }

/-- `small` with its register block at address 1000 and its window at 8000. -/
def placed : State := { small with rom := { testRom with regBase := 0x1000, outBase := 0x8000 } }

theorem next_of_isNext {a : Answer} (h : isNext a = true) : a = .next (stateOf a) := by
  cases a with
  | next t => rfl
  | fault f => cases h
  | refused r => cases h

theorem witness_StepRunsDecoded :
    (pending small [.writeReg 0x00 5#32]).host = .writeReg 0x00 5#32 :: [] ∧ decode (.cmd 5#32) = .ok .decodeBlock
      ∧ (pending small [.syncWindow 0x7FFE80010000#48]).host = .syncWindow 0x7FFE80010000#48 :: []
      ∧ decode (.window 0x7FFE80010000#48) = .ok (.fsMatch16be 0x7FFE80010000#48) ∧ small.host = []
      ∧ (pending placed [.writeAddress 0x1000 5#32]).host = .writeAddress placed.rom.regBase 5#32 :: [] :=
  ⟨rfl, rfl, rfl, rfl, rfl, rfl⟩

/-- The first and the last argument register written; the first argument, the last result and the status register read. -/
theorem witness_HostRegistersReadBack :
    (pending small [.writeReg 8 1#32, .readReg 8]).host = .writeReg (8 + 4 * 0) 1#32 :: .readReg (8 + 4 * 0) :: []
      ∧ (pending small [.writeReg 36 1#32, .readReg 36]).host = .writeReg (8 + 4 * 7) 1#32 :: .readReg (8 + 4 * 7) :: []
      ∧ (pending small [.readReg 8]).host = .readReg (8 + 4 * 0) :: []
      ∧ (pending small [.readReg 60]).host = .readReg (8 + 4 * 13) :: []
      ∧ (pending small [.readReg 0x04]).host = .readReg 0x04 :: [] :=
  ⟨rfl, rfl, rfl, rfl, rfl⟩

/-- The last sample of the last slot, in either layout. -/
theorem witness_OutputWindowPosition :
    (fun s : State => s.rom.outLayout = .interleaved ∧ 8 < s.res.outCh.toNat ∧ s.res.outCh.toNat ≤ 9
        ∧ s.host = .readOut (4 * (255 * s.res.outCh.toNat + 8)) :: [])
      { small with rom := { testRom with outLayout := .interleaved }, res := { small.res with outCh := 9#32 }
                   host := [.readOut 9212] }
      ∧ (fun s : State => s.rom.outLayout = .planar ∧ s.host = .readOut (4 * (8 * 256 + 255)) :: [])
        { small with rom := { testRom with outLayout := .planar }, host := [.readOut 9212] } := by
  decide +kernel

/-- Addresses: the first and the last byte of the window; the first one past the registers and past the window. -/
theorem witness_OutputWindowPosition_addresses :
    (∀ address, address ∈ [0x8000, 0xA3FF] → ¬ (placed.rom.regBase ≤ address ∧ address < placed.rom.regBase + 0x40)
        ∧ placed.rom.outBase ≤ address ∧ address < placed.rom.outBase + 9 * 256 * 4)
      ∧ ∀ address, address ∈ [0x1040, 0xA400] → ¬ (placed.rom.regBase ≤ address ∧ address < placed.rom.regBase + 0x40)
        ∧ ¬ (placed.rom.outBase ≤ address ∧ address < placed.rom.outBase + 9 * 256 * 4) := by
  decide +kernel

/-- R13, R58: BLOCKS_REMAINING at REG_BASE is one; STATUS with WARN_DSYNC read at its address; OUT[4][1] at its own; a write into the window. -/
theorem test_addresses :
    ((stateOf (step (pending placed [.writeAddress 0x1000 3#32]))).cmd,
        (stateOf (step (pending { placed with warnDsync := true } [.readAddress 0x1004]))).bus) = (3#32, 0x20000#32)
      ∧ (stateOf (step (pending { placed with
          rom := { placed.rom with outLayout := .planar }
          out := vtab 9 fun ch => vtab 256 fun n => BitVec.ofNat 32 (256 * ch + n) } [.readAddress 0x9004]))).bus = 1025#32
      ∧ step (pending placed [.writeAddress 0x8000 1#32]) = .fault .windowNotWritable :=
  ⟨by decide +kernel, by decide +kernel, rfl⟩

theorem witness_StepKeepsMemory :
    ∃ t, step (pending small [.storeByte 0x1000 7#8]) = .next t ∧ Memory.wf small.mem = true := ⟨_, rfl, rfl⟩

/-- An active frame at its second sub-block, with `DECODE_BLOCK` pending. -/
def midFrame : State := inFrame 1#3 2#3 zeroChannelSub [0xFF#8, 0xFF#8]

theorem midFrame_accepted : FrameAccepted midFrame := by
  have small_indices : ∀ c, c < primCount midFrame → ∀ sb, sb < vqOf midFrame c →
      (vget (vget midFrame.chS c).bitalloc sb).toNat ≤ 26 := by decide +kernel
  have fields : midFrame.res.outCh.toNat ≤ 6 ∧ primCount midFrame = nchOf midFrame.rom .mono
      ∧ midFrame.sh.amode.toNat ≤ 9 ∧ midFrame.sh.lfe ≠ 3#2
      ∧ (midFrame.fr.outputLfe = true → midFrame.sh.lfe ≠ 0#2)
      ∧ 6 ≤ midFrame.sh.sampleBlocks.toNat ∧ 96 ≤ midFrame.sh.frameSize.toNat
      ∧ 1 ≤ midFrame.sh.subframes.toNat ∧ midFrame.sh.subframes.toNat ≤ 16
      ∧ midFrame.seq.currentSubframe.toNat ≤ midFrame.sh.subframes.toNat
      ∧ ∀ c, c < primCount midFrame → 1 ≤ vqOf midFrame c ∧ vqOf midFrame c ≤ actOf midFrame c ∧ 2 ≤ actOf midFrame c
        ∧ actOf midFrame c ≤ 32 ∧ (vget midFrame.chF c).bitallocHuffman ≠ 7#3 := by decide +kernel
  obtain ⟨slots, channels, amode, lfe, lfeOut, blocks, size, subframes, subframes16, inside, primary⟩ := fields
  intro _
  refine ⟨slots, fun _ => ⟨⟨.mono, rfl, channels⟩, amode, lfe, lfeOut, blocks, size, subframes, subframes16, inside, primary,
    fun _ => ?_⟩⟩
  have position : midFrame.seq.currentSubsubframe.toNat < midFrame.sf.subsubframes.toNat ∧ midFrame.sf.subsubframes.toNat ≤ 4
      ∧ midFrame.seq.currentSubframe.toNat < midFrame.sh.subframes.toNat := by decide +kernel
  exact ⟨position.1, position.2.1, position.2.2, fun c sb hc hs => small_indices c hc sb hs⟩

theorem witness_StepKeepsFrameAccepted :
    FrameAccepted (pending midFrame [.writeReg 0x00 5#32]) ∧ midFrame.life = .ready ∧ midFrame.seq.frame = .active
      ∧ ∃ t, step (pending midFrame [.writeReg 0x00 5#32]) = .next t :=
  ⟨midFrame_accepted, rfl, rfl, _, next_of_isNext (by decide +kernel)⟩

theorem witness_StepKeepsParameters :
    (∃ t, step (pending small [.writeReg 0x00 0x01#32]) = .next t)
      ∧ (∃ t, step (pending small [.writeReg 0x00 0x07#32]) = .next t)
      ∧ ∃ t, step (pending placed [.writeAddress 0x1000 0x07#32]) = .next t := ⟨⟨_, rfl⟩, ⟨_, rfl⟩, _, rfl⟩

theorem witness_BlocksRemainingCounts : small.life = .ready := rfl
theorem witness_SetDrcHookInstalls : small.life = .ready := rfl
theorem witness_TeardownEndsLife : small.life = .ready := rfl

theorem witness_IllegalWordSetsCodeOnly :
    ((0#32).toNat = 0 ∨ 7 < (0#32).toNat) ∧ ((8#32).toNat = 0 ∨ 7 < (8#32).toNat)
      ∧ (pending small [.writeReg 0x00 8#32]).host = .writeReg 0x00 8#32 :: [] := by decide

theorem witness_PreconditionsSetCodeOnly :
    ({ small with life := .uninit } : State).life = .uninit
      ∧ (fun s : State => s.life = .ready ∧ s.args.bufAddr = 0#32 ∧ s.args.bufLen ≠ 0#32)
        { small with args := { small.args with bufLen := 1#32 } }
      ∧ (fun s : State => s.life = .ready ∧ s.args.bufAddr ≠ 0#32 ∧ s.args.bufLen = 0#32)
        { small with args := { small.args with bufAddr := 1#32 } } := by decide

/-- The last byte under the mask of pattern 16BE, `B[3]`, changed from 01 to 00; and the first one, `B[0]`. -/
theorem witness_SyncCorruptionDetected :
    (sync16beMatch, sync16beMask) ∈ [(sync14leMatch, sync14leMask), (sync14beMatch, sync14beMask),
        (sync16leMatch, sync16leMask), (sync16beMatch, sync16beMask)]
      ∧ syncMatches sync16beMatch sync16beMask 0x7FFE80010000#48 = true
      ∧ (∀ k, k < 48 → k / 8 ≠ 2 → (0x7FFE80000000#48).getLsbD k = (0x7FFE80010000#48).getLsbD k)
      ∧ syncMatches sync16beMatch sync16beMask 0x7FFE80000000#48 = false
      ∧ (∀ k, k < 48 → k / 8 ≠ 5 → (0xFEFE80010000#48).getLsbD k = (0x7FFE80010000#48).getLsbD k)
      ∧ syncMatches sync16beMatch sync16beMask 0xFEFE80010000#48 = false := by
  decide +kernel

theorem witness_FsHeaderParses :
    viewAdmitted 0x1000#32 ⟨.w16, .be⟩ = true
      ∧ HeaderInRange testRom (bitsFrom (payloadBit (stream header5).mem 0x1000#32 14#32 ⟨.w16, .be⟩))
      ∧ ¬ HeaderInRange testRom (bitsFrom (payloadBit (stream header5).mem 0x1000#32 4#32 ⟨.w16, .be⟩))
      ∧ viewAdmitted 0x1001#32 ⟨.w16, .le⟩ = false := by
  unfold HeaderInRange
  decide +kernel

theorem witness_ProbeFindsFrame :
    (fun s : State => s.life = .ready ∧ s.args.bufAddr ≠ 0#32 ∧ s.args.bufLen ≠ 0#32
      ∧ fsMatch s.mem s.args.bufAddr s.args.bufLen = some ⟨.w16, .be⟩ ∧ viewAdmitted s.args.bufAddr ⟨.w16, .be⟩ = true
      ∧ HeaderInRange s.rom (bitsFrom (payloadBit s.mem s.args.bufAddr s.args.bufLen ⟨.w16, .be⟩))) (stream header5) := by
  unfold HeaderInRange
  decide +kernel

/-- V20: no pattern; and NBLKS 4 behind a pattern. -/
theorem witness_ProbeFindsNothing :
    (fun s : State => s.life = .ready ∧ s.args.bufAddr ≠ 0#32 ∧ s.args.bufLen ≠ 0#32
      ∧ fsMatch s.mem s.args.bufAddr s.args.bufLen = none) (stream [0x7F#8, 0xFE#8, 0x80#8, 0x00#8])
      ∧ (fun s : State => s.life = .ready ∧ s.args.bufAddr ≠ 0#32 ∧ s.args.bufLen ≠ 0#32
        ∧ fsMatch s.mem s.args.bufAddr s.args.bufLen = some ⟨.w16, .be⟩ ∧ viewAdmitted s.args.bufAddr ⟨.w16, .be⟩ = true
        ∧ ¬ HeaderInRange s.rom (bitsFrom (payloadBit s.mem s.args.bufAddr s.args.bufLen ⟨.w16, .be⟩)))
        (stream [0x7F#8, 0xFE#8, 0x80#8, 0x01#8, 0xFC#8, 0x10#8, 0x3F#8, 0xF2#8, 0x77#8, 0#8, 0#8, 0x38#8, 0#8, 0#8]) := by
  unfold HeaderInRange
  decide +kernel

theorem witness_ProbeNonMutating : ∃ t, exec .probe (stream header5) = .next t := ⟨_, next_of_isNext (by decide +kernel)⟩

theorem witness_ProbeLengthBound :
    (∃ t, exec .probe (stream monoFrame) = .next t ∧ t.code = .ok ∧ t.res.frameLen.toNat = 96)
      ∧ ∃ t, exec .probe (reading .w14 .be header14) = .next t ∧ t.code = .ok
        ∧ fsMatch (reading .w14 .be header14).mem 0x1000#32 16#32 = some ⟨.w14, .be⟩ :=
  ⟨⟨_, next_of_isNext (by decide +kernel), by decide +kernel, by decide +kernel⟩,
    _, next_of_isNext (by decide +kernel), by decide +kernel, by decide +kernel⟩

theorem witness_BrInitResetsCursor :
    (0x1004#32).toNat % 4 = 0 ∧ (0x1003#32).toNat % 4 ≠ 0 ∧ (⟨.w16, .be⟩ : Packing) ≠ ⟨.w16, .le⟩ := by decide

theorem witness_GetReturnsNextBits :
    (1 ≤ 1 ∧ 1 ≤ 32 ∧ 1 ≤ 32 ∧ 32 ≤ 32) ∧ CursorBounded { small.bc with left := 28#6 } ∧ 32 < 33 := by
  unfold CursorBounded
  decide

theorem witness_GetSequenceIsPayload :
    (∃ t, exec (.brInit 0x1000#32 8#32 ⟨.w14, .le⟩) small = .next t) ∧ (∀ n, n ∈ [1, 32, 27] → 1 ≤ n ∧ n ≤ 32)
      ∧ [1, 32, 27].sum ≤ 2 ^ 36 := ⟨⟨_, rfl⟩, by decide, by decide⟩

/-- A view of five bytes in each packing, with a bit of its last byte and one of the first byte past it; and two memories that
differ just before and just behind the view. -/
theorem witness_PayloadIsViewBytes :
    (∀ x, x ∈ [(⟨.w16, .be⟩, 39, 40), (⟨.w16, .le⟩, 40, 39), (⟨.w14, .be⟩, 33, 34), (⟨.w14, .le⟩, 34, 33)] →
        (packedAt x.1 x.2.1).1 = 4 ∧ (packedAt x.1 x.2.2).1 = 5)
      ∧ ∀ x, (0x1000#32).toNat ≤ x → x < (0x1000#32).toNat + (5#32).toNat →
        memRead [] x = memRead [(0xFFF, 1#8), (0x1005, 1#8)] x := by
  refine ⟨by decide, ?_⟩
  intro x h1 h2
  have h1 : 0x1000 ≤ x := h1
  have h2 : x < 0x1005 := h2
  simp only [memRead]
  rw [if_neg (by omega), if_neg (by omega)]

theorem witness_FdHeaderStoresFields :
    HeaderInRange testRom (peek (stream headerCrc)) ∧ peek (stream headerCrc) 85 2 ≠ 3
      ∧ HeaderInRange testRom (peek (stream monoFrame)) ∧ peek (stream monoFrame) 85 2 ≠ 3 := by
  unfold HeaderInRange
  decide +kernel

/-- V24: NBLKS 4; and LFE 3. -/
theorem witness_FdHeaderRejects :
    ¬ (HeaderInRange testRom (peek (stream [0x7F#8, 0xFE#8, 0x80#8, 0x01#8, 0xFC#8, 0x10#8, 0x05#8, 0xF0#8, 0x35#8])))
      ∧ peek (stream [0x7F#8, 0xFE#8, 0x80#8, 0x01#8, 0xFC#8, 0x1C#8, 0x05#8, 0xF0#8, 0x35#8, 0xE0#8, 0x06#8, 0x38#8]) 85 2
        = 3 := by
  unfold HeaderInRange
  decide +kernel

/-- V23, V24: SUBS 0 with VQSUB 1, the largest start that is accepted, and with VQSUB 2; and BHUFF 7. -/
theorem witness_FdPrimhdrParses :
    PrimaryAccepted (peek (stream [0#8, 0#8, 0x80#8, 0#8]))
      ∧ (fun b => phVqStart b 0 = 2 ∧ phActivity b 0 = 2) (peek (stream [0#8, 0#8, 0x80#8, 0#8]))
      ∧ (fun b => 0 < phCount b ∧ phActivity b 0 < phVqStart b 0 ∧ ∀ d, d < 0 → phVqStart b d ≤ phActivity b d)
        (peek (stream [0#8, 0x01#8, 0#8, 0#8]))
      ∧ (fun b => (∀ d, d < phCount b → phVqStart b d ≤ phActivity b d) ∧ 0 < phCount b ∧ phBhuff b 0 = 7
          ∧ ∀ d, d < 0 → phBhuff b d ≠ 7) (peek (stream [0#8, 0#8, 0#8, 0x70#8])) := by
  unfold PrimaryAccepted
  decide +kernel

theorem witness_DrcHookIdle :
    small.hook = 0#32 ∧ ({ small with hook := 1#32 } : State).sh.dynrange = 0#1
      ∧ (fun s : State => s.hook ≠ 0#32 ∧ s.sh.dynrange = 1#1)
        { small with hook := 1#32, sh := { small.sh with dynrange := 1#1 } } := by decide

/-- 3F to MONO with ADJUST_LEVEL; 3F to STEREO at −3 dB, which collapses; an arrangement requesting itself; and the three ways to
have no arrangement. -/
theorem witness_DmxSelectAnswers :
    (arrangementOf (5#6).toNat = some .f3 ∧ selectedOf testRom (flagsArr 0x100#32) (5#6).toNat = some .mono
        ∧ (0x100#32).getLsbD 8 = true ∧ adjustedLevel testRom .f3 .mono 0x100#32 one one one ≠ one)
      ∧ selectedOf testRom (flagsArr 0x002#32) (5#6).toNat = some .stereo
      ∧ ((9#6).toNat ≤ 9 ∧ arrangementOf (9#6).toNat = some .f3r2 ∧ flagsArr 0x109#32 = (9#6).toNat)
      ∧ selectedOf testRom (flagsArr 0x00B#32) (5#6).toNat = none ∧ selectedOf testRom (flagsArr 0#32) (10#6).toNat = none
      ∧ selectedOf testRom (flagsArr 0x003#32) (5#6).toNat = none := by
  decide +kernel

/-- The MONO frame of program P3, asked for as it stands with a level of 1. -/
def monoArgs : State :=
  { stream monoFrame with args := { (stream monoFrame).args with level := 0x3F800000#32 } }

theorem monoArgs_opens : FrameOpens monoArgs ⟨.w16, .be⟩ .mono .mono one := by
  unfold FrameOpens PrimaryAccepted HeaderInRange
  decide +kernel

theorem witness_BeginFrameAccepts : monoArgs.life = .ready ∧ FrameOpens monoArgs ⟨.w16, .be⟩ .mono .mono one :=
  ⟨rfl, monoArgs_opens⟩

/-- A success, and a failure past the argument checks. -/
theorem witness_BeginFrameKeepsHistories :
    (∃ t, exec .beginFrame monoArgs = .next t ∧ t.code = .ok)
      ∧ ∃ t, exec .beginFrame (stream [0#8]) = .next t ∧ t.code ≠ .ok :=
  ⟨⟨_, next_of_isNext (by decide +kernel), by decide +kernel⟩, _, next_of_isNext (by decide +kernel), by decide +kernel⟩

/-- `monoArgs` with bytes of its frame replaced. -/
def monoWith (l : List (Nat × Byte)) : State :=
  { monoArgs with mem := l.foldl (fun m x => memWrite m (0x1000 + x.1) x.2) monoArgs.mem }

/-- Header clauses: no pattern; a view that packing W14/BE does not admit; NBLKS 4; a request that no table holds; and hooked
dynamic range. -/
theorem witness_BeginFrameFailsInOrder :
    (∀ s, s ∈ [stream [0#8], monoArgs] → s.life = .ready ∧ s.args.bufAddr ≠ 0#32 ∧ s.args.bufLen ≠ 0#32)
      ∧ fsMatch (stream [0#8]).mem 0x1000#32 1#32 = none
      ∧ fsMatch (memWriteBytes [] 0x1001 header14) 0x1001#32 16#32 = some ⟨.w14, .be⟩ ∧ viewAdmitted 0x1001#32 ⟨.w14, .be⟩ = false
      ∧ (∀ s, s ∈ [monoArgs, monoWith [(5, 0x10#8)], monoWith [(9, 0xE8#8)]] →
        fsMatch s.mem s.args.bufAddr s.args.bufLen = some ⟨.w16, .be⟩ ∧ viewAdmitted s.args.bufAddr ⟨.w16, .be⟩ = true)
      ∧ ¬ HeaderInRange testRom (openBits (monoWith [(5, 0x10#8)]) ⟨.w16, .be⟩)
      ∧ (∀ s, s ∈ [monoArgs, monoWith [(9, 0xE8#8)]] →
        HeaderInRange testRom (openBits s ⟨.w16, .be⟩) ∧ openBits s ⟨.w16, .be⟩ 85 2 ≠ 3
          ∧ selectedOf testRom (flagsArr 0x00B#32) (openBits s ⟨.w16, .be⟩ 60 6) = none
          ∧ selectedOf testRom (flagsArr 0#32) (openBits s ⟨.w16, .be⟩ 60 6) ≠ none)
      ∧ openBits (monoWith [(9, 0xE8#8)]) ⟨.w16, .be⟩ 76 1 = 1 := by
  unfold HeaderInRange
  decide +kernel

/-- Primary header clauses, behind the header of `monoArgs`: VQSUB 3 over an activity count of 2; BHUFF 7; and two channels in a
MONO frame. -/
theorem witness_BeginFrameFailsInOrder_primary :
    (∀ s, s ∈ [monoWith [(14, 0x01#8)], monoWith [(16, 0xF0#8)], monoWith [(13, 0x02#8), (15, 0#8), (16, 0#8)]] →
      fsMatch s.mem s.args.bufAddr s.args.bufLen = some ⟨.w16, .be⟩ ∧ viewAdmitted s.args.bufAddr ⟨.w16, .be⟩ = true
        ∧ HeaderInRange testRom (openBits s ⟨.w16, .be⟩) ∧ openBits s ⟨.w16, .be⟩ 85 2 ≠ 3 ∧ s.hook = 0#32
        ∧ selectedOf testRom (flagsArr s.args.flags) (openBits s ⟨.w16, .be⟩ 60 6) ≠ none)
      ∧ (fun pb => ¬ ∀ c, c < phCount pb → phVqStart pb c ≤ phActivity pb c)
        (primaryBits (monoWith [(14, 0x01#8)]) ⟨.w16, .be⟩)
      ∧ (fun pb => (∀ c, c < phCount pb → phVqStart pb c ≤ phActivity pb c) ∧ 0 < phCount pb ∧ phBhuff pb 0 = 7)
        (primaryBits (monoWith [(16, 0xF0#8)]) ⟨.w16, .be⟩)
      ∧ (fun pb => (∀ c, c < phCount pb → phVqStart pb c ≤ phActivity pb c ∧ phBhuff pb c ≠ 7) ∧ phCount pb = 2)
        (primaryBits (monoWith [(13, 0x02#8), (15, 0#8), (16, 0#8)]) ⟨.w16, .be⟩)
      ∧ arrangementOf (openBits (monoWith [(13, 0x02#8), (15, 0#8), (16, 0#8)]) ⟨.w16, .be⟩ 60 6) = some .mono
      ∧ nchOf testRom .mono = 1 := by
  unfold HeaderInRange
  decide +kernel

/-- A next sub-block; and the last sub-block of the last subframe. -/
theorem witness_AdvanceMovesPosition :
    (fun s : State => s.seq.currentSubsubframe.toNat + 1 < s.sf.subsubframes.toNat
        ∧ s.seq.currentSubframe.toNat < s.sh.subframes.toNat) (inFrame 0#3 2#3 zeroChannelSub [])
      ∧ (fun s : State => ¬ s.seq.currentSubsubframe.toNat + 1 < s.sf.subsubframes.toNat
        ∧ s.sh.subframes.toNat ≤ (s.seq.currentSubframe + 1#5).toNat) (inFrame 1#3 2#3 zeroChannelSub []) := by
  decide +kernel

/-- A history of 16: its last entry moved, the next one not. -/
theorem witness_FooterSkipsAndRotates :
    (fun s : State => lfeSpan s = 16 ∧ 15 < lfeSpan s ∧ 15 + lfeSpan s < 32 ∧ lfeSpan s ≤ 16)
      { small with sh := { small.sh with lfe := 2#2 }, sf := { small.sf with subsubframes := 4#3 } } := by
  decide +kernel

theorem witness_DsyncCheckWarns :
    (fun s : State => s.sh.aspf = 1#1 ∧ 0 + 1 ≠ s.sf.subsubframes.toNat)
        { small with sh := { small.sh with aspf := 1#1 } }
      ∧ (fun s : State => s.sh.aspf = 0#1 ∧ 3 + 1 = s.sf.subsubframes.toNat)
        { small with sf := { small.sf with subsubframes := 4#3 } }
      ∧ (fun s : State => s.sh.aspf = 0#1 ∧ 2 + 1 ≠ s.sf.subsubframes.toNat)
        { small with sf := { small.sf with subsubframes := 4#3 } } := by decide +kernel

/-- The 4-bit form; the 5-bit form at 26 and 27; codes for 26, 27 and −1; and bits that no code begins. -/
theorem witness_ReadBitallocBounded :
    (fun s : State => (vget s.chF 0).bitallocHuffman.toNat = 5) (oneChannel (channelOf 5#3 5#3 0#3) zeroChannelSub [])
      ∧ (fun s : State => (vget s.chF 0).bitallocHuffman.toNat = 6 ∧ peek s 0 5 ≤ 26)
        (oneChannel (channelOf 5#3 6#3 0#3) zeroChannelSub [0xD0#8])
      ∧ (fun s : State => (vget s.chF 0).bitallocHuffman.toNat = 6 ∧ 26 < peek s 0 5)
        (oneChannel (channelOf 5#3 6#3 0#3) zeroChannelSub [0xD8#8])
      ∧ bookWellFormed (tget testRom.huffBitalloc 4) = true
      ∧ (fun s : State => (vget s.chF 0).bitallocHuffman.toNat ≤ 4
          ∧ (⟨1, 0, 26⟩ : CodeEntry) ∈ tget s.rom.huffBitalloc 4 ∧ peek s 0 1 = 0)
        (oneChannel (channelOf 5#3 4#3 0#3) zeroChannelSub [0x00#8])
      ∧ (fun s : State => (⟨2, 2, 27⟩ : CodeEntry) ∈ tget s.rom.huffBitalloc 4 ∧ peek s 0 2 = 2)
        (oneChannel (channelOf 5#3 4#3 0#3) zeroChannelSub [0x80#8])
      ∧ (fun s : State => (⟨2, 3, -1⟩ : CodeEntry) ∈ tget s.rom.huffBitalloc 4 ∧ peek s 0 2 = 3)
        (oneChannel (channelOf 5#3 4#3 0#3) zeroChannelSub [0xC0#8])
      ∧ NoCodeAt (stream [0xC0#8]) bookOpen 0 ∧ longestCode bookOpen = 2 ∧ bookWellFormed bookOpen = true := by
  unfold NoCodeAt
  decide +kernel

/-- A channel whose first subband has both slots and whose second has one. -/
def threeSlots : ChannelSub :=
  { zeroChannelSub with bitalloc := vput zeroChannelSub.bitalloc 0 1#5
                        transitionMode := vput zeroChannelSub.transitionMode 0 1#2 }

theorem threeSlots_slots (f : BitVec 3) (bytes : List Byte) :
    (scaleSlots (oneChannel (channelOf f 5#3 0#3) threeSlots bytes) 0).length = 3 := by rfl

/-- 6-bit indices 0, 63 and 1; 7-bit indices; and codes whose running sums are 1, 0 and 0. -/
theorem witness_ReadScalesStoresFactors :
    ScalesAt (oneChannel (channelOf 5#3 5#3 0#3) threeSlots [0x03#8, 0xF0#8, 0x40#8]) 5 3 [0, 63, 1] 18
      ∧ ScalesAt (oneChannel (channelOf 6#3 5#3 0#3) threeSlots [0x01#8, 0xFC#8, 0x08#8]) 6 3 [0, 127, 1] 21
      ∧ ScalesAt (oneChannel (channelOf 4#3 5#3 0#3) threeSlots [0xB0#8]) 4 3 [1, 0, 0] 5
      ∧ bookWellFormed (tget testRom.huffScale 4) = true := by
  refine ⟨.inr (.inl ⟨rfl, ?_, rfl⟩), .inr (.inr ⟨rfl, ?_, rfl⟩), .inl ⟨by decide, [⟨2, 2, 1⟩, ⟨2, 3, -1⟩, ⟨1, 0, 0⟩], ?_⟩, ?_⟩
  · decide +kernel
  · decide +kernel
  · unfold CodesAt CodesAt CodesAt CodesAt
    decide +kernel
  · decide +kernel

/-- `small` over tables whose scale codebooks are `bookOpen`. -/
def openBook (s : State) : State := { s with rom := { s.rom with huffScale := ⟨bookOpen, []⟩ } }

/-- A running sum of 63 and then of 64; bits that no code begins, behind a first factor; selector 7 with three slots and, on a
channel of no subbands, with none. -/
theorem witness_ReadScalesStoresFactors_raises :
    (fun s : State => CodesAt (restBit s.mem s.bc) 0 [⟨1, 0, 63⟩] ∧ (scaleSlots s 0).length = 3
        ∧ (∀ i, i ∈ runningSums 0 [⟨1, 0, 63⟩] → 0 ≤ i ∧ i ≤ 63) ∧ peek s (codesLength [⟨1, 0, 63⟩]) 2 = 2)
        (openBook (oneChannel (channelOf 4#3 5#3 0#3) threeSlots [0x40#8]))
      ∧ NoCodeAt (openBook (oneChannel (channelOf 4#3 5#3 0#3) threeSlots [0x60#8])) bookOpen (codesLength [⟨1, 0, 63⟩])
      ∧ (fun s : State => (vget s.chF 0).scalefactorHuffman.toNat = 7 ∧ scaleSlots s 0 ≠ [])
        (oneChannel (channelOf 7#3 5#3 0#3) threeSlots [])
      ∧ (fun s : State => (vget s.chF 0).scalefactorHuffman.toNat = 7 ∧ scaleSlots s 0 = [])
        (oneChannel { zeroChannelFrame with scalefactorHuffman := 7#3 } threeSlots []) := by
  unfold NoCodeAt CodesAt CodesAt
  decide +kernel

/-- Two channels, the second one narrower and joined to the first. -/
def joined (joint huff : BitVec 3) (bytes : List Byte) : State :=
  let s := openBook (stream bytes)
  { s with
    sh := { s.sh with primChannels := 2#4 }
    chF := vput (vput s.chF 0 { zeroChannelFrame with subbandActivity := 4#6 }) 1
      { zeroChannelFrame with subbandActivity := 3#6, jointIntensity := joint }
    chS := vput s.chS 1 { zeroChannelSub with jointHuff := huff } }

/-- V37; a source channel that the frame has not got; bits that no code begins; and selector 7, with one value to read and, joined
to itself, with none. -/
theorem witness_ReadJointStoresAndWarns :
    (fun s : State => (vget s.chF 1).jointIntensity.toNat = 1 ∧ 1 ≤ primCount s ∧ actOf s 0 - actOf s 1 = 1
        ∧ actOf s 0 ≤ 32) (joined 1#3 5#3 [0x04#8])
      ∧ JointsAt (joined 1#3 5#3 [0x04#8]) 5 1 [1] 6
      ∧ (fun s : State => primCount s < (vget s.chF 1).jointIntensity.toNat) (joined 3#3 5#3 [])
      ∧ NoCodeAt (joined 1#3 4#3 [0xC0#8]) bookOpen 0
      ∧ (fun s : State => (vget s.chS 1).jointHuff.toNat = 7 ∧ 0 < actOf s 0 - actOf s 1) (joined 1#3 7#3 [])
      ∧ (fun s : State => (vget s.chS 1).jointHuff.toNat = 7 ∧ (vget s.chF 1).jointIntensity.toNat = 2
        ∧ actOf s (2 - 1) - actOf s 1 = 0) (joined 2#3 7#3 []) := by
  unfold NoCodeAt
  refine ⟨by decide +kernel, .inr (.inl ⟨rfl, by decide +kernel, rfl⟩), by decide +kernel⟩

/-- Sixteen samples, with the last index of the table and the first one past it. -/
theorem witness_ReadLfeFillsCurrentHalf :
    (fun s : State => lfeSpan s = 16 ∧ peek s (8 * 16) 8 ≤ 127)
        { stream (List.replicate 16 0#8 ++ [0x7F#8]) with
          sh := { small.sh with lfe := 2#2 }, sf := { small.sf with subsubframes := 4#3 } }
      ∧ (fun s : State => lfeSpan s = 16 ∧ 127 < peek s (8 * 16) 8)
        { stream (List.replicate 16 0#8 ++ [0x80#8]) with
          sh := { small.sh with lfe := 2#2 }, sf := { small.sf with subsubframes := 4#3 } } := by
  decide +kernel

theorem witness_SfHeaderPlainCompletes :
    HeaderPlain (oneChannel (channelOf 5#3 5#3 0#3) zeroChannelSub [0x2D#8, 0x00#8, 0x8A#8, 0#8, 0#8, 0#8, 0#8])
      ∧ HeaderPlain (oneChannel (channelOf 6#3 5#3 0#3) zeroChannelSub [0x3F#8, 0xFF#8, 0xFF#8]) := by
  unfold HeaderPlain
  decide +kernel

/-- A header that is accepted, and one that is rejected. -/
theorem witness_SfHeaderBitallocBounded :
    (∃ t, exec .sfHeader (oneChannel (channelOf 5#3 5#3 0#3) zeroChannelSub [0x20#8]) = .next t ∧ t.code = .ok)
      ∧ ∃ t, exec .sfHeader (oneChannel (channelOf 5#3 6#3 0#3) zeroChannelSub [0x01#8, 0xF0#8]) = .next t
        ∧ t.code = .corruptStream :=
  ⟨⟨_, next_of_isNext (by decide +kernel), by decide +kernel⟩, _, next_of_isNext (by decide +kernel), by decide +kernel⟩

/-- A channel of six subbands, the last one vector-quantized, with one group of each family and one of allocation 0. -/
def fiveGroups : State :=
  oneChannel { zeroChannelFrame with subbandActivity := 6#6, vqStartSubband := 5#6, quantSel := vtab 27 fun a => if a = 2 then 1#3 else 0#3 }
    { zeroChannelSub with bitalloc := vtab 32 fun sb => [0#5, 1#5, 8#5, 26#5, 2#5].getD sb 0#5 }
    ([0x58#8, 0x00#8] ++ List.replicate 40 0#8)

/-- Its groups: zeros; 0, 1, −1 and zeros in codes; eight zeros of 5 bits; eight of 23 bits; and two block codes 0. -/
theorem fiveGroups_legal :
    BodyAt fiveGroups
      (fun _ sb => if sb = 1 then #v[0, 1, -1, 0, 0, 0, 0, 0] else if sb = 4 then vtab 8 fun _ => -2 else vtab 8 fun _ => 0)
      (fun _ sb => [0, 10, 40, 184, 20].getD sb 0) := by
  refine ⟨by decide +kernel, fun c hc => ?_⟩
  obtain rfl : c = 0 := by
    have : primCount fiveGroups = 1 := by decide +kernel
    omega
  refine ⟨by decide +kernel, by decide +kernel, fun sb hs => ?_⟩
  have : vqOf fiveGroups 0 = 5 := by decide +kernel
  obtain rfl | rfl | rfl | rfl | rfl : sb = 0 ∨ sb = 1 ∨ sb = 2 ∨ sb = 3 ∨ sb = 4 := by omega
  · exact .inl (by decide +kernel)
  · refine .inr (.inl ⟨by decide +kernel, book3, [⟨1, 0, 0⟩, ⟨2, 2, 1⟩, ⟨2, 3, -1⟩, ⟨1, 0, 0⟩, ⟨1, 0, 0⟩, ⟨1, 0, 0⟩, ⟨1, 0, 0⟩,
      ⟨1, 0, 0⟩], by decide +kernel, by decide +kernel, by decide +kernel, by decide +kernel, ?_, by decide +kernel, by decide +kernel⟩)
    repeat (refine ⟨by decide +kernel, ?_⟩)
    trivial
  · exact .inr (.inr (.inl (by decide +kernel)))
  · exact .inr (.inr (.inl (by decide +kernel)))
  · exact .inr (.inr (.inr (by decide +kernel)))

theorem witness_SsBodyCompletes : ∃ q n, BodyAt fiveGroups q n := ⟨_, _, fiveGroups_legal⟩

theorem some_of_map {α β : Type} {o : Option α} {f : α → β} {b : β} (h : o.map f = some b) : ∃ a, o = some a ∧ f a = b := by
  cases o with
  | none => cases h
  | some a => exact ⟨a, rfl, Option.some.inj h⟩

/-- A first sub-block, whose header is read, and a later one. -/
theorem witness_DecodeBlockIsItsScript :
    (∃ u, runAll midFrame (blockScript midFrame 1) = some u ∧ u.seq.frame = .active)
      ∧ (∃ u, runAll (inFrame 0#3 0#3 zeroChannelSub []) (blockScript (inFrame 0#3 0#3 zeroChannelSub []) 0) = some u
        ∧ u.seq.frame = .active)
      ∧ midFrame.life = .ready ∧ midFrame.seq.frame = .active
      ∧ midFrame.seq.currentSubframe.toNat < midFrame.sh.subframes.toNat
      ∧ midFrame.seq.currentSubsubframe.toNat = (1 : Fin 4).val ∧ primCount midFrame ≤ 8 :=
  ⟨some_of_map (f := fun u : State => u.seq.frame) (by decide +kernel),
    some_of_map (f := fun u : State => u.seq.frame) (by decide +kernel), rfl, rfl, by decide +kernel, by decide +kernel, by decide +kernel⟩

/-- A group of allocation 0 in a sub-block of one channel of two subbands. -/
theorem body_of_silence {s : State} (hc : primCount s = 1) (hv : vqOf s 0 = 1) (ha : actOf s 0 = 2)
    (h : (groupOf s 0 0).1 = 0) : BodyAt s (fun _ _ => vtab 8 fun _ => 0) (fun _ _ => 0) := by
  refine ⟨by omega, fun c h1 => ?_⟩
  obtain rfl : c = 0 := by omega
  refine ⟨by omega, by omega, fun sb h2 => ?_⟩
  obtain rfl : sb = 0 := by omega
  exact .inl ⟨h, rfl, rfl⟩

/-- A later sub-block, and the first one of a subframe. -/
theorem witness_DecodeBlockCompletes :
    (fun s : State => s.life = .ready ∧ s.seq.frame = .active ∧ s.seq.currentSubframe.toNat < s.sh.subframes.toNat
        ∧ s.seq.currentSubsubframe ≠ 0#3 ∧ ∃ q n, BodyAt s q n) midFrame
      ∧ (fun s : State => s.life = .ready ∧ s.seq.frame = .active ∧ s.seq.currentSubframe.toNat < s.sh.subframes.toNat
        ∧ s.seq.currentSubsubframe = 0#3 ∧ HeaderPlain s ∧ ∃ q n, BodyAt (plainHeader s) q n)
        (inFrame 0#3 0#3 zeroChannelSub []) :=
  ⟨⟨rfl, rfl, by decide +kernel, by decide +kernel, _, _,
      body_of_silence (by decide +kernel) (by decide +kernel) (by decide +kernel) (by decide +kernel)⟩,
    rfl, rfl, by decide +kernel, by decide +kernel, by unfold HeaderPlain; decide +kernel, _, _,
    body_of_silence (by decide +kernel) (by decide +kernel) (by decide +kernel) (by decide +kernel)⟩

/-- A rejected subframe header, and no active frame. -/
theorem witness_DecodeBlockFailureKeeps :
    (fun s : State => s.life = .ready ∧ s.seq.frame = .active ∧ isNext (exec .decodeBlock s) = true
        ∧ (stateOf (exec .decodeBlock s)).code ≠ .ok)
        { inFrame 0#3 1#3 zeroChannelSub [0x01#8, 0xF0#8] with
          chF := vput small.chF 0 (channelOf 5#3 6#3 0#3) }
      ∧ (fun s : State => s.life = .ready ∧ s.seq.frame ≠ .active ∧ isNext (exec .decodeBlock s) = true
        ∧ (stateOf (exec .decodeBlock s)).code ≠ .ok) small := by
  decide +kernel

theorem witness_HuffDecReadsCode :
    book3 ≠ [] ∧ bookWellFormed book3 = true ∧ (⟨2, 3, -1⟩ : CodeEntry) ∈ book3 ∧ peek (stream [0xC0#8]) 0 2 = 3
      ∧ bookWellFormed [⟨1, 0, 0⟩, ⟨2, 2, 1⟩] = true
      ∧ ∀ e, e ∈ ([⟨1, 0, 0⟩, ⟨2, 2, 1⟩] : Codebook) → peek (stream [0xC0#8]) 0 e.len ≠ e.code := by
  decide +kernel

/-- Each family; the block codes at the last legal and the first illegal codeword. -/
theorem witness_QxFamiliesDecode :
    (groupBook testRom 1 0 = some book3 ∧ bookWellFormed book3 = true
        ∧ (∀ e, e ∈ [⟨1, 0, 0⟩, ⟨2, 2, 1⟩, ⟨2, 3, -1⟩, ⟨1, 0, 0⟩, ⟨1, 0, 0⟩, ⟨1, 0, 0⟩, ⟨1, 0, 0⟩, ⟨1, 0, 0⟩] → e ∈ book3)
        ∧ CodesAt (restBit (stream [0x58#8, 0x00#8]).mem (stream [0x58#8, 0x00#8]).bc) 0
          [⟨1, 0, 0⟩, ⟨2, 2, 1⟩, ⟨2, 3, -1⟩, ⟨1, 0, 0⟩, ⟨1, 0, 0⟩, ⟨1, 0, 0⟩, ⟨1, 0, 0⟩, ⟨1, 0, 0⟩])
      ∧ groupBook testRom 8 7 = none ∧ groupBook testRom 26 0 = none ∧ groupBook testRom 1 1 = none
      ∧ (peek (stream [0xA1#8, 0x40#8]) 0 (blockSize 1) = 80 ∧ peek (stream [0xA1#8, 0x40#8]) 7 (blockSize 1) = 80)
      ∧ blockLevels 1 ^ 4 ≤ peek (stream [0xA3#8, 0x40#8]) 0 (blockSize 1)
      ∧ blockLevels 7 ^ 4 ≤ peek (stream [0#8, 0#8, 0x1F#8, 0xFF#8, 0xFF#8]) (blockSize 7) (blockSize 7) := by
  refine ⟨⟨by decide +kernel, by decide +kernel, by decide +kernel, ?_⟩, by decide +kernel⟩
  repeat (refine ⟨by decide +kernel, ?_⟩)
  trivial

/-- An index 0; another one with a step size that is a finite number; and a step size that is none. -/
theorem witness_SamplesScaled :
    (fun q : Vector Int 8 => vget q 0 = 0 ∧ vget q 1 ≠ 0) #v[0, 1, 0, 0, 0, 0, 0, 0]
      ∧ half.extractLsb' 52 11 ≠ 0x7FF#11 ∧ (0x7FF0000000000000#64).extractLsb' 52 11 = 0x7FF#11 := by decide

theorem witness_BlkDecodeDigits :
    3 ∈ [3, 5, 7, 9, 13, 17, 25] ∧ 25 ∈ [3, 5, 7, 9, 13, 17, 25] ∧ 80 < 3 ^ 4 ∧ 80 = 3 ^ 4 - 1 ∧ 3 ^ 4 ≤ 81
      ∧ 390624 = 25 ^ 4 - 1 ∧ 25 ^ 4 ≤ 390625 := by decide

/-- A channel of two active subbands, with its sub-block samples numbered. -/
def numbered : State :=
  { oneChannel (channelOf 5#3 5#3 0#3) zeroChannelSub [] with
    subsamp := vtab 8 fun _ => vtab 32 fun sb => vtab 8 fun m => BitVec.ofNat 64 (10 * sb + m) }

/-- The input vectors: the two subbands' samples at each position, and zeros. -/
theorem witness_SynQmf32IsItsPositions :
    ∀ p sb, p < 8 → sb < 32 →
      vget (vtab 32 fun i => [BitVec.ofNat 64 p, BitVec.ofNat 64 (10 + p)].getD i 0#64) sb
        = if sb < actOf numbered 0 then vget (subsampAt numbered 0 sb) p else 0#64 := by
  have h : ∀ p, p < 8 → ∀ sb, sb < 32 →
      vget (vtab 32 fun i => [BitVec.ofNat 64 p, BitVec.ofNat 64 (10 + p)].getD i 0#64) sb
        = if sb < actOf numbered 0 then vget (subsampAt numbered 0 sb) p else 0#64 := by decide +kernel
  exact fun p sb hp hs => h p hp sb hs

theorem witness_LfeInterpFillsSlot :
    ({ small with sh := { small.sh with lfe := 1#2 } } : State).sh.lfe = 1#2
      ∧ ({ small with sh := { small.sh with lfe := 2#2 } } : State).sh.lfe = 2#2 := ⟨rfl, rfl⟩

/-- MONO rendered as MONO and as STEREO, and eight channels as one. -/
theorem witness_DmxApplyMixes :
    (fun s : State => arrangementOf s.sh.amode.toNat = some .mono ∧ primCount s = 1
        ∧ nchOf s.rom s.fr.output = primCount s) (inFrame 0#3 1#3 zeroChannelSub [])
      ∧ (fun s : State => arrangementOf s.sh.amode.toNat = some .mono ∧ 1 ≤ primCount s
        ∧ primCount s < nchOf s.rom s.fr.output)
        { inFrame 0#3 1#3 zeroChannelSub [] with fr := { small.fr with output := .stereo } }
      ∧ (fun s : State => arrangementOf s.sh.amode.toNat = some .mono ∧ nchOf s.rom s.fr.output < primCount s
        ∧ primCount s = 8)
        { small with sh := { small.sh with primChannels := 8#4 } } := by
  decide +kernel

/-- A header that is rejected (NBLKS 4), one behind it that is in range, and the bytes of both. -/
def rejectedThenFound : List Byte :=
  [0x7F#8, 0xFE#8, 0x80#8, 0x01#8, 0xFC#8, 0x10#8, 0x3F#8, 0xF2#8, 0x77#8, 0#8, 0#8, 0x38#8, 0#8, 0#8] ++ header5

/-- The rejected header alone gives no frame; no other offset below 14 has a pattern. -/
theorem rejected_noFrame : ∀ off, off < 14 →
    NoFrameAt (stream rejectedThenFound) (0x1000#32 + BitVec.ofNat 32 off) (28#32 - BitVec.ofNat 32 off) := by
  intro off h
  rcases Nat.eq_zero_or_pos off with rfl | h0
  · exact .inr ⟨⟨.w16, .be⟩, by unfold HeaderInRange; decide +kernel⟩
  · have none_at : ∀ o, o < 14 → 0 < o →
        fsMatch (stream rejectedThenFound).mem (0x1000#32 + BitVec.ofNat 32 o) (28#32 - BitVec.ofNat 32 o) = none := by
      decide +kernel
    exact .inl (none_at off h h0)

/-- A frame behind a rejected header, with just its header in the view; a view of zeros with one offset to try, and one with none. -/
theorem witness_ResyncStopsAtFirst :
    (fun s : State => s.life = .ready ∧ (0x1000#32).toNat + (28#32).toNat < 2 ^ 32 ∧ 14 + 14 ≤ (28#32).toNat
        ∧ (∀ off, off < 14 → NoFrameAt s (0x1000#32 + BitVec.ofNat 32 off) (28#32 - BitVec.ofNat 32 off))
        ∧ fsMatch s.mem (0x1000#32 + BitVec.ofNat 32 14) (28#32 - BitVec.ofNat 32 14) = some ⟨.w16, .be⟩
        ∧ viewAdmitted (0x1000#32 + BitVec.ofNat 32 14) ⟨.w16, .be⟩ = true
        ∧ HeaderInRange s.rom (bitsFrom (payloadBit s.mem (0x1000#32 + BitVec.ofNat 32 14) (28#32 - BitVec.ofNat 32 14)
          ⟨.w16, .be⟩))) (stream rejectedThenFound)
      ∧ NoFrameAt small (0x1000#32 + BitVec.ofNat 32 0) (14#32 - BitVec.ofNat 32 0) ∧ 0 + 14 = (14#32).toNat
      ∧ (13#32).toNat < 14 := by
  refine ⟨⟨rfl, by decide, by decide, rejected_noFrame, by unfold HeaderInRange; decide +kernel⟩, ?_⟩
  unfold NoFrameAt
  exact ⟨.inl (by decide +kernel), by decide, by decide⟩

/-- The states of program P3 between its commands: `us k` before the count of block `k`, `vs k` after it. -/
def scriptStates : Nat → State
  | 0 => stateOf (exec .beginFrame monoArgs)
  | k + 1 => stateOf (exec .decodeBlock (stateOf (exec .blocksRemaining (scriptStates k))))

theorem witness_DecodeFrameIsItsScript :
    FrameOpens monoArgs ⟨.w16, .be⟩ .mono .mono one ∧ monoArgs.life = .ready
      ∧ exec .beginFrame monoArgs = .next (scriptStates 0) ∧ (scriptStates 0).code = .ok
      ∧ (scriptStates 0).fr.blocksTotal.toNat = 1
      ∧ (∀ k, k ≤ 1 → exec .blocksRemaining (scriptStates k) = .next (stateOf (exec .blocksRemaining (scriptStates k))))
      ∧ ∀ k, k < 1 → exec .decodeBlock (stateOf (exec .blocksRemaining (scriptStates k))) = .next (scriptStates (k + 1))
        ∧ (scriptStates (k + 1)).code = .ok := by
  refine ⟨monoArgs_opens, rfl, next_of_isNext (by decide +kernel), by decide +kernel, by decide +kernel, ?_, ?_⟩
  · intro k _
    rfl
  · intro k hk
    obtain rfl : k = 0 := by omega
    exact ⟨next_of_isNext (by decide +kernel), by decide +kernel⟩

end Sys2Proof.Tests
end

section
/-! PROOFS. The state as a whole: what one step and one command can do (10_state.md R12, R13), the registers that the host reads
back (O5), the parameters that no step changes (O10), and the invariant of an accepted frame (O8). -/

namespace Sys2Proof.Proofs

open Sys2Proof.Machine Sys2Proof.Safety Sys2Proof.Laws

/-! ### What one step can do -/

theorem step_access {s : State} {a : HostAccess} {rest : List HostAccess} (h : s.host = a :: rest) :
    step s = access a { s with host := rest } := by
  unfold step
  rw [h]

/-- The decoder's own state, its life and its parameters are in `t` what they are in `s`. -/
def SameDecoder (s t : State) : Prop := t.toDecoder = s.toDecoder ∧ t.life = s.life ∧ t.rom = s.rom

theorem hostWrite_same {o : Nat} {v : Word32} {s t : State} (h : hostWrite o v s = .next t) : SameDecoder s t := by
  unfold hostWrite at h
  split at h
  · cases h; exact ⟨rfl, rfl, rfl⟩
  · split at h <;> cases h

theorem hostRead_same {o : Nat} {s t : State} (h : hostRead o s = .next t) : SameDecoder s t := by
  unfold hostRead at h
  split at h
  · cases h; exact ⟨rfl, rfl, rfl⟩
  · split at h
    · cases h; exact ⟨rfl, rfl, rfl⟩
    · cases h

theorem hostReadOut_same {o : Nat} {s t : State} (h : hostReadOut o s = .next t) : SameDecoder s t := by
  unfold hostReadOut at h
  split at h
  · cases h
  · split at h <;> (cases h; exact ⟨rfl, rfl, rfl⟩)

/-- 30_encoding.md R66: a window decodes to the instruction of one of the four patterns. -/
theorem decodeWindow_mem {b : BitVec 48} {i : Instr} (h : decodeWindow b = .ok i) :
    i ∈ [.fsMatch14le b, .fsMatch14be b, .fsMatch16le b, .fsMatch16be b] := by
  unfold decodeWindow at h
  split_ifs at h <;> (cases h; simp)

/-- 41_framesync.md R101: a window presented to FrameSync reaches the latch `unit` alone. -/
theorem runWindow_same {b : BitVec 48} {s t : State} (h : runCodeWord (.window b) s = .next t) : SameDecoder s t := by
  unfold runCodeWord at h
  split at h
  · next i e =>
    have four := decodeWindow_mem e
    simp only [List.mem_cons, List.not_mem_nil, or_false] at four
    obtain rfl | rfl | rfl | rfl := four <;> (cases h; exact ⟨rfl, rfl, rfl⟩)
  · cases h
    exact ⟨rfl, rfl, rfl⟩

/-- 10_state.md R13: a write to a register is a command at `CMD`, and no matter of the decoder's anywhere else. -/
theorem writeRegister_cases {o : Nat} {v : Word32} {s t : State} (h : writeRegister o v s = .next t) :
    SameDecoder s t ∨ o = 0x00 ∧ exec (decodeCmd v) { s with cmd := v } = .next t := by
  unfold writeRegister at h
  split at h
  · exact .inr ⟨‹_›, h⟩
  · exact .inl (hostWrite_same h)

/-- 20_memory.md R58: an access is a command only where it writes at `CMD`'s offset or address. -/
theorem access_cases {a : HostAccess} {s t : State} (h : access a s = .next t) :
    SameDecoder s t ∨ ∃ w, (a = .writeReg 0x00 w ∨ a = .writeAddress s.rom.regBase w)
      ∧ exec (decodeCmd w) { s with cmd := w } = .next t := by
  cases a with
  | writeReg o v => exact (writeRegister_cases h).imp_right fun ⟨ho, run⟩ => ⟨v, .inl (by rw [ho]), run⟩
  | readReg o => exact .inl (hostRead_same h)
  | readOut o => exact .inl (hostReadOut_same h)
  | writeAddress a v =>
    simp only [access, writeAt] at h
    split at h
    · next o place =>
      have at_base := (placeOf_eq_register.1 place).1
      exact (writeRegister_cases h).imp_right fun ⟨ho, run⟩ => ⟨v, .inr (by rw [at_base, ho, Nat.add_zero]), run⟩
    · cases h
    · cases h
  | readAddress a =>
    simp only [access, readAt] at h
    split at h
    · exact .inl (hostRead_same h)
    · exact .inl (hostReadOut_same h)
    · cases h
  | storeByte a b => cases h; exact .inl ⟨rfl, rfl, rfl⟩
  | syncWindow b => exact .inl (runWindow_same h)

/-- A step leaves the decoder as it is, or runs the command that the host wrote. -/
theorem step_cases {s t : State} (h : step s = .next t) :
    SameDecoder s t
      ∨ ∃ w rest, (s.host = .writeReg 0x00 w :: rest ∨ s.host = .writeAddress s.rom.regBase w :: rest)
        ∧ exec (decodeCmd w) { s with host := rest, cmd := w } = .next t := by
  cases hq : s.host with
  | nil =>
    rw [step, hq] at h
    cases h
    exact .inl ⟨rfl, rfl, rfl⟩
  | cons a rest =>
    rw [step_access hq] at h
    obtain same | ⟨w, at_cmd, run⟩ := access_cases h
    · exact .inl same
    · exact .inr ⟨w, rest, at_cmd.imp (by rintro rfl; rfl) (by rintro rfl; rfl), run⟩

/-- 30_encoding.md R65: `INIT`, `TEARDOWN`, or one of the commands that leave the lifecycle alone. -/
theorem decodeCmd_cases (w : Word32) :
    w = 0x01#32 ∧ decodeCmd w = .init ∨ w = 0x07#32 ∧ decodeCmd w = .teardown
      ∨ decodeCmd w ∈ [.probe, .beginFrame, .blocksRemaining, .decodeBlock, .setDrcHook, .illegal w] := by
  unfold decodeCmd
  split
  · next e => exact .inl ⟨BitVec.eq_of_toNat_eq e, rfl⟩
  iterate 5 next => exact .inr (.inr (by simp))
  · next e => exact .inr (.inl ⟨BitVec.eq_of_toNat_eq e, rfl⟩)
  · exact .inr (.inr (by simp))

/-! ### What one command can answer -/

theorem ready_of_not_uninit {l : Life} (h : ¬ l = .uninit) : l = .ready := by
  cases l with
  | uninit => exact absurd rfl h
  | ready => rfl

/-- 41_framesync.md R100. -/
theorem probeCmd_cases {s t : State} (h : probeCmd s = .next t) :
    (∃ c, t = setCode c s) ∨ t = probeFail s ∨ ∃ r, t = probeFound r s := by
  unfold probeCmd at h
  split_ifs at h
  · cases h; exact .inl ⟨_, rfl⟩
  · cases h; exact .inl ⟨_, rfl⟩
  · split at h
    · cases h; exact .inr (.inl rfl)
    · split_ifs at h
      split at h
      · cases h; exact .inr (.inl rfl)
      · cases h; exact .inr (.inr ⟨_, rfl⟩)

/-- 42_framedecoder.md R113. -/
theorem beginFrameCmd_cases {s t : State} (h : beginFrameCmd s = .next t) :
    (∃ c, t = setCode c s) ∨ (∃ u, beginFrameOp s = .ok () u ∧ t = setCode .ok u)
      ∨ ∃ c l u, beginFrameOp s = .error (.raise c l) u ∧ t = forgetFrame (takeError c u) := by
  unfold beginFrameCmd at h
  split_ifs at h
  · cases h; exact .inl ⟨_, rfl⟩
  · cases h; exact .inl ⟨_, rfl⟩
  · split at h
    · next u e => cases h; exact .inr (.inl ⟨u, e, rfl⟩)
    · next c l u e => cases h; exact .inr (.inr ⟨c, l, u, e, rfl⟩)
    · cases h

/-- 43_subframe.md R135. -/
theorem decodeBlockCmd_cases {s t : State} (h : decodeBlockCmd s = .next t) :
    (∃ c, t = setCode c s)
      ∨ s.life = .ready ∧ s.seq.frame = .active
        ∧ ((∃ u, decodeBlockOp s = .ok () u ∧ t = setCode .ok u)
          ∨ ∃ c l u, decodeBlockOp s = .error (.raise c l) u ∧ t = forgetBlock (takeError c u)) := by
  unfold decodeBlockCmd at h
  split_ifs at h with life frame
  · cases h; exact .inl ⟨_, rfl⟩
  · cases h; exact .inl ⟨_, rfl⟩
  · refine .inr ⟨ready_of_not_uninit life, not_not.1 frame, ?_⟩
    split at h
    · next u e => cases h; exact .inl ⟨u, e, rfl⟩
    · next c l u e => cases h; exact .inr ⟨c, l, u, e, rfl⟩
    · cases h

/-! ### O5: the register block -/

/-- 10_state.md R12: a write to argument register `k` is read back there and moves no other argument register. -/
theorem writeArg_reads {k : Nat} (hk : k < 8) (v : Word32) (s : State) :
    ∃ a, writeArg (8 + 4 * k) v s.args = some a ∧ registerWord { s with args := a } (8 + 4 * k) = some v
      ∧ ∀ j, j < 8 → j ≠ k → registerWord { s with args := a } (8 + 4 * j) = registerWord s (8 + 4 * j) := by
  interval_cases k
  all_goals
    refine ⟨_, rfl, rfl, fun j hj other => ?_⟩
    interval_cases j <;> first | rfl | exact absurd rfl other

/-- 10_state.md R12: the argument and result registers in the order of their offsets. -/
theorem registerWord_eq {k : Nat} (hk : k < 14) (s : State) :
    registerWord s (8 + 4 * k) = some ([s.args.bufAddr, s.args.bufLen, s.args.flags, s.args.level, s.args.bias, s.args.hint,
      s.args.hook, s.args.user, s.res.flags, s.res.sampleRate, s.res.bitRate, s.res.frameLen, s.res.blocks,
      s.res.outCh].getD k 0#32) := by
  interval_cases k <;> rfl

/-- A read of a register with a content puts it on the bus, and takes nothing else along. -/
theorem step_readReg {s : State} {o : Nat} {v : Word32} {rest : List HostAccess} (h : s.host = .readReg o :: rest)
    (content : registerWord s o = some v) : step s = .next { s with host := rest, bus := v } := by
  have not_cmd : o ≠ cmdOffset := by
    rintro rfl
    cases content
  have read : registerWord { s with host := rest } o = some v := content
  rw [step_access h, access, hostRead, if_neg not_cmd, read]

/-- A write to an argument register changes the argument registers alone. -/
theorem step_writeReg {s : State} {o : Nat} {v : Word32} {a : ArgRegs} {rest : List HostAccess}
    (h : s.host = .writeReg o v :: rest) (write : writeArg o v s.args = some a) :
    step s = .next { s with host := rest, args := a } := by
  have not_cmd : o ≠ cmdOffset := by
    rintro rfl
    cases write
  rw [step_access h, access, writeRegister, if_neg not_cmd, hostWrite, write]

theorem toNat_append_add {m n : Nat} (x : BitVec m) (y : BitVec n) : (x ++ y).toNat = x.toNat * 2 ^ n + y.toNat := by
  rw [BitVec.toNat_append, ← Nat.shiftLeft_add_eq_or_of_lt y.isLt, Nat.shiftLeft_eq]

/-- 60_exceptions.md R261. -/
theorem codeBits_toNat (c : Code) : (codeBits c).toNat = errorNumber c := by cases c <;> rfl

/-- 10_state.md R14: the fields of the status word. -/
theorem statusWord_toNat (s : State) :
    (statusWord s).toNat = errorNumber s.code + 2 ^ 16 * s.warnJoint.toNat + 2 ^ 17 * s.warnDsync.toNat := by
  simp only [statusWord, toNat_append_add, codeBits_toNat, BitVec.toNat_ofBool, BitVec.toNat_ofNat]
  omega

/-- 20_memory.md R58: an access at an address of the register block is the access at its offset. -/
theorem access_at_register {s : State} {o : Nat} (h : o < 0x40) (v : Word32) :
    access (.writeAddress (s.rom.regBase + o) v) s = access (.writeReg o v) s
      ∧ access (.readAddress (s.rom.regBase + o)) s = access (.readReg o) s := by
  have place := placeOf_eq_register.2 ⟨(rfl : s.rom.regBase + o = s.rom.regBase + o), h⟩
  simp only [access, writeAt, readAt, place, and_self]

/-- Settles O5: each clause is one access, performed by the rule of its register. -/
theorem hostRegistersReadBack : Obligations.HostRegistersReadBack := by
  refine ⟨fun s k v rest hk h => ?_, fun s k rest h hk => ?_, fun s rest h => ?_, fun s o v rest ho => ⟨?_, ?_⟩⟩
  · obtain ⟨a, write, read, others⟩ := writeArg_reads hk v s
    exact ⟨_, step_writeReg h write, rfl, rfl, rfl, rfl, rfl, step_readReg rfl read, others⟩
  · exact step_readReg h (registerWord_eq hk s)
  · exact ⟨_, step_readReg h rfl, rfl, statusWord_toNat s⟩
  · rw [step_access rfl, step_access rfl]
    exact (access_at_register ho v).1
  · rw [step_access rfl, step_access rfl]
    exact (access_at_register ho v).2

/-! ### What an operation that does not stop establishes -/

section Ends

variable {α β : Type} {P P' : State → Prop} {x : Op α}

/-- From a state with `P`, an operation that ends with a result establishes `Q`; nothing is said where it stops. -/
def Ends (P : State → Prop) (x : Op α) (Q : α → State → Prop) : Prop := ∀ s, P s → ∀ a t, x s = .ok a t → Q a t

theorem ends_bind {Q : α → State → Prop} {f : α → Op β} {R : β → State → Prop} (hx : Ends P x Q)
    (hf : ∀ a, Ends (Q a) (f a) R) : Ends P (x >>= f) R := by
  intro s hs b u h
  rw [op_bind] at h
  cases e : x s with
  | ok a t => rw [e] at h; exact hf a t (hx s hs a t e) b u h
  | error r t => rw [e] at h; cases h

theorem ends_pre {Q : α → State → Prop} (h : Ends P x Q) (imp : ∀ s, P' s → P s) : Ends P' x Q :=
  fun s hs => h s (imp s hs)

theorem ends_post {Q R : α → State → Prop} (h : Ends P x Q) (imp : ∀ a s, Q a s → R a s) : Ends P x R :=
  fun s hs a t e => imp a t (h s hs a t e)

theorem ends_pure {Q : α → State → Prop} {a : α} (h : ∀ s, P s → Q a s) : Ends P (pure a) Q := by
  rintro s hs _ _ ⟨⟩
  exact h s hs

theorem ends_modify {Q : Unit → State → Prop} {g : State → State} (h : ∀ s, P s → Q () (g s)) : Ends P (modify g) Q := by
  rintro s hs _ _ ⟨⟩
  exact h s hs

theorem ends_raise {Q : α → State → Prop} (c : Code) (l : Label) : Ends P (raiseOp c l : Op α) Q := by
  rintro s _ _ _ ⟨⟩

theorem ends_ite {Q : α → State → Prop} {p : Prop} [Decidable p] {y : Op α} (hx : p → Ends P x Q) (hy : ¬ p → Ends P y Q) :
    Ends P (if p then x else y) Q := by
  split
  · exact hx ‹_›
  · exact hy ‹_›

/-- A check that raises where `p` holds: what follows it may take `p` to be false. -/
theorem ends_check {Q : α → State → Prop} {p : Prop} [Decidable p] {c : Code} {l : Label} (h : ¬ p → Ends P x Q) :
    Ends P (if p then (raiseOp c l : Op Unit) >>= fun _ => x else x) Q :=
  ends_ite (fun _ => ends_bind (Q := fun _ _ => False) (ends_raise c l) fun _ _ hs => hs.elim) h

theorem ends_get {f : State → Op β} {Q : β → State → Prop} (h : ∀ s, P s → Ends (fun t => t = s) (f s) Q) :
    Ends P (get >>= f) Q :=
  fun s hs => h s hs s rfl

theorem ends_keeps (h : Keeps P x) : Ends P x fun _ t => P t := fun _ hs _ _ e => (h.ok e).mpr hs

/-- A condition that `x` keeps is carried past it. -/
theorem ends_past {f : α → Op β} {Q : β → State → Prop} (hx : Keeps P x) (hf : ∀ a, Ends P (f a) Q) : Ends P (x >>= f) Q :=
  ends_bind (ends_keeps hx) hf

theorem ends_and_keeps {Q : α → State → Prop} (h : Ends P x Q) (k : Keeps P x) : Ends P x fun a t => Q a t ∧ P t :=
  fun s hs a t e => ⟨h s hs a t e, (k.ok e).mpr hs⟩

/-- 40_bitreader.md R93: a field of `n` bits is below `2^n`, and reading it moves the cursor alone. -/
theorem ends_getBits {n : Nat} {f : Nat → Op β} {Q : β → State → Prop} (hb : SeesNoBc P)
    (hf : ∀ v, v < 2 ^ n → Ends P (f v) Q) : Ends P (getBits n >>= f) Q := by
  refine ends_bind (Q := fun v t => v < 2 ^ n ∧ P t) ?_ fun v s hs => hf v hs.1 s hs.2
  intro s hs v t e
  refine ⟨?_, ((keeps_getBits hb n).ok e).mpr hs⟩
  by_cases w : 1 ≤ n ∧ n ≤ 32
  · rw [getBits_ok w.1 w.2] at e
    cases e
    exact peek_lt s 0 n
  · rw [getBits_refused w] at e
    cases e

theorem keeps_and {Q : State → Prop} (hp : Keeps P x) (hq : Keeps Q x) : Keeps (fun s => P s ∧ Q s) x :=
  fun s => congrArg₂ And (hp s) (hq s)

theorem keeps_forall {ι : Sort*} {F : ι → State → Prop} (h : ∀ i, Keeps (F i) x) : Keeps (fun s => ∀ i, F i s) x :=
  fun s => forall_congr fun i => h i s

theorem keeps_true : Keeps (fun _ => True) x := fun _ => rfl

/-- A loop whose turn for `i` establishes `R i` and leaves `R j` alone for every other `j`. -/
theorem ends_forEach {ι : Type} {xs : List ι} {f : ι → Op Unit} {R : ι → State → Prop}
    (turn : ∀ i, i ∈ xs → Ends P (f i) fun _ t => P t ∧ R i t) (other : ∀ i j, j ≠ i → Keeps (R j) (f i)) :
    Ends P (forEach xs f) fun _ t => P t ∧ ∀ i, i ∈ xs → R i t := by
  classical
  have main : ∀ done : ι → Prop, Ends (fun s => P s ∧ ∀ j, done j → R j s) (forEach xs f)
      fun _ t => P t ∧ ∀ j, done j ∨ j ∈ xs → R j t := by
    induction xs with
    | nil => exact fun done => ends_pure fun s hs => ⟨hs.1, fun j hj => hs.2 j (hj.resolve_right (by simp))⟩
    | cons i xs ih =>
      intro done
      refine ends_bind (Q := fun _ s => P s ∧ ∀ j, done j ∨ j = i → R j s) ?_ fun _ => ?_
      · intro s hs a t e
        obtain ⟨keep, new⟩ := turn i (by simp) s hs.1 a t e
        refine ⟨keep, fun j hj => ?_⟩
        by_cases same : j = i
        · exact same ▸ new
        · exact ((other i j same).ok e).mpr (hs.2 j (hj.resolve_right same))
      · refine ends_post (ih (fun j hj => turn j (by simp [hj])) _) fun _ t ht => ⟨ht.1, fun j hj => ht.2 j ?_⟩
        simpa [or_assoc] using hj
  exact ends_post (ends_pre (main fun _ => False) fun s hs => ⟨hs, fun _ no => no.elim⟩)
    fun _ t ht => ⟨ht.1, fun j hj => ht.2 j (.inr hj)⟩

end Ends

/-! ### DECODE_BLOCK as a whole -/

/-- 43_subframe.md R135: the lines from PH.UPDATE to LFE.INTERP write sample memories and nothing else. -/
theorem renderBlock_eq (ssf : Nat) (s : State) :
    ∃ ph hist stage out, renderBlock ssf s = { s with ph := ph, hist := hist, stage := stage, out := out } := by
  have synth : ∀ (cs : List Nat) (u : State),
      ∃ hist stage out, cs.foldl synQmf32 u = { u with hist := hist, stage := stage, out := out } := by
    intro cs
    induction cs with
    | nil => exact fun u => ⟨u.hist, u.stage, u.out, rfl⟩
    | cons c cs ih =>
      intro u
      obtain ⟨hist, stage, out, e⟩ := ih (synQmf32 u c)
      exact ⟨hist, stage, out, e⟩
  have mix : ∀ u : State, ∃ out, dmxApply u = { u with out := out } := by
    intro u
    simp only [dmxApply]
    split_ifs <;> exact ⟨_, rfl⟩
  have lfe : ∀ u : State, ∃ out, (if u.fr.outputLfe then lfeInterp u ssf else u) = { u with out := out } := by
    intro u
    split_ifs
    · exact ⟨_, rfl⟩
    · exact ⟨u.out, rfl⟩
  obtain ⟨hist, stage, o1, e1⟩ := synth (List.range (primCount (phUpdate s))) (phUpdate s)
  obtain ⟨o2, e2⟩ := mix (synthesizeAll (phUpdate s))
  obtain ⟨o3, e3⟩ := lfe (dmxApply (synthesizeAll (phUpdate s)))
  refine ⟨(phUpdate s).ph, hist, stage, o3, ?_⟩
  rw [renderBlock, e3, e2, synthesizeAll, e1]
  rfl

/-- A condition on the state that holds at the end of `x`, however it ends, if it held before. -/
def Preserves {α : Type} (P : State → Prop) (x : Op α) : Prop := ∀ s, P s → P (finalState (x s))

theorem preserves_of_keeps {α : Type} {P : State → Prop} {x : Op α} (h : Keeps P x) : Preserves P x :=
  fun s hs => (h s).mpr hs

theorem preserves_bind {α β : Type} {P : State → Prop} {x : Op α} {f : α → Op β} (hx : Preserves P x)
    (hf : ∀ a, Preserves P (f a)) : Preserves P (x >>= f) := by
  intro s hs
  have mid := hx s hs
  rw [op_bind]
  cases e : x s with
  | ok a t => rw [e] at mid; exact hf a t mid
  | error r t => rw [e] at mid; exact mid

/-- 43_subframe.md R135: a condition on what DECODE_BLOCK writes in its last lines alone. -/
theorem preserves_decodeBlock {P : State → Prop} (hb : SeesNoBc P) (hs : SeesNoChS P) (hf : SeesNoSf P) (hl : SeesNoLfe P)
    (hx : SeesNoSubsamp P) (hq : SeesNoSeq P) (hj : ∀ s w, P { s with warnJoint := w } = P s)
    (hd : ∀ s w, P { s with warnDsync := w } = P s)
    (ho : ∀ s ph hist stage out, P { s with ph := ph, hist := hist, stage := stage, out := out } = P s)
    (last : ∀ s, P s → P (finishBlock s)) : Preserves P decodeBlockOp := by
  have render : ∀ ssf, Keeps P (modify (renderBlock ssf)) := fun ssf => keeps_modify fun s => by
    obtain ⟨ph, hist, stage, out, e⟩ := renderBlock_eq ssf s
    rw [e, ho]
  refine preserves_bind (preserves_of_keeps (keeps_get P)) fun s => ?_
  refine preserves_bind (preserves_of_keeps (keeps_decodeSamples hb hs hf hl hx hj _)) fun _ => ?_
  refine preserves_bind (preserves_of_keeps (render _)) fun _ => ?_
  refine preserves_bind (preserves_of_keeps (keeps_dsyncCheck hb hd _)) fun _ => ?_
  exact preserves_bind (preserves_of_keeps (keeps_advance hb hl hq)) fun _ => last

/-! ### O10: parameters and synthesis tables -/

/-- The parameters and the synthesis tables of `t` are those of `s`. -/
def SameTables (s t : State) : Prop := t.rom = s.rom ∧ t.syn = s.syn

theorem beginFrame_sameTables (s : State) : SameTables s (finalState (beginFrameOp s)) := by
  have kept : Keeps (SameTables s) beginFrameOp := keeps_beginFrame (fun _ _ => rfl) (fun _ _ => rfl) (fun _ _ => rfl)
    (fun _ _ => rfl) (fun _ _ => rfl) (fun _ _ => rfl)
  exact (kept s).mpr ⟨rfl, rfl⟩

theorem decodeBlock_sameTables (s : State) : SameTables s (finalState (decodeBlockOp s)) := by
  have kept : Preserves (SameTables s) decodeBlockOp := preserves_decodeBlock (fun _ _ => rfl) (fun _ _ => rfl)
    (fun _ _ => rfl) (fun _ _ => rfl) (fun _ _ => rfl) (fun _ _ => rfl) (fun _ _ => rfl) (fun _ _ => rfl)
    (fun _ _ _ _ _ => rfl) (fun _ h => h)
  exact kept s ⟨rfl, rfl⟩

/-- Every command but `INIT` and `TEARDOWN` keeps the parameters and the synthesis tables. -/
theorem command_sameTables {w : Word32} {i : Instr} {s t : State}
    (hi : i ∈ [.probe, .beginFrame, .blocksRemaining, .decodeBlock, .setDrcHook, .illegal w])
    (h : exec i s = .next t) : SameTables s t := by
  simp only [List.mem_cons, List.not_mem_nil, or_false] at hi
  obtain rfl | rfl | rfl | rfl | rfl | rfl := hi
  · obtain ⟨c, rfl⟩ | rfl | ⟨r, rfl⟩ := probeCmd_cases h <;> exact ⟨rfl, rfl⟩
  · have kept := beginFrame_sameTables s
    obtain ⟨c, rfl⟩ | ⟨u, e, rfl⟩ | ⟨c, l, u, e, rfl⟩ := beginFrameCmd_cases h
    · exact ⟨rfl, rfl⟩
    · rw [e] at kept; exact kept
    · rw [e] at kept; exact kept
  · cases h
    unfold blocksRemainingCmd
    split_ifs <;> exact ⟨rfl, rfl⟩
  · have kept := decodeBlock_sameTables s
    obtain ⟨c, rfl⟩ | ⟨_, _, ⟨u, e, rfl⟩ | ⟨c, l, u, e, rfl⟩⟩ := decodeBlockCmd_cases h
    · exact ⟨rfl, rfl⟩
    · rw [e] at kept; exact kept
    · rw [e] at kept; exact kept
  · simp only [exec, execSetDrcHook] at h
    split_ifs at h <;> (cases h; exact ⟨rfl, rfl⟩)
  · cases h
    exact ⟨rfl, rfl⟩

/-- Settles O10: a step is no command, or one of the eight, and each is looked up once. -/
theorem stepKeepsParameters : Obligations.StepKeepsParameters := by
  intro s t h
  obtain ⟨dec, _, rom⟩ | ⟨w, rest, at_cmd, run⟩ := step_cases h
  · exact ⟨rom, .inl (by rw [dec])⟩
  obtain ⟨rfl, e⟩ | ⟨rfl, e⟩ | other := decodeCmd_cases w
  · rw [e] at run
    cases run
    exact ⟨rfl, .inr (.inl ⟨⟨rest, at_cmd⟩, rfl⟩)⟩
  · rw [e] at run
    simp only [exec, execTeardown] at run
    split_ifs at run with life
    · cases run
      exact ⟨rfl, .inl rfl⟩
    · cases run
      exact ⟨rfl, .inr (.inr ⟨⟨rest, at_cmd⟩, ready_of_not_uninit life⟩)⟩
  · obtain ⟨rom, syn⟩ := command_sameTables other run
    exact ⟨rom, .inl syn⟩

/-! ### FD.HEADER -/

/-- One field of the fixed header, in a register that the condition `C` does not speak of. -/
theorem ends_headerField (C : StreamHeader → Prop) {n w : Nat} {g : BitVec w → StreamHeader → StreamHeader}
    {k : BitVec w → Op Unit} {Q : Unit → State → Prop} (hg : ∀ v h, C (g v h) = C h)
    (hk : ∀ v, Ends (fun s => C s.sh) (k v) Q) :
    Ends (fun s => C s.sh) (do let v ← getField n w; setSh (g v); k v) Q :=
  ends_past (keeps_getField (fun _ _ => rfl) n w) fun v =>
    ends_past (x := setSh (g v)) (fun s => hg v s.sh) fun _ => hk v

/-- 30_encoding.md R69, R70: the two lengths that the fixed header checks. -/
def LengthsInRange (h : StreamHeader) : Prop := 6 ≤ h.sampleBlocks.toNat ∧ 96 ≤ h.frameSize.toNat

/-- 42_framedecoder.md R115. -/
theorem fdHeaderChecked_lengths : Ends (fun _ => True) fdHeaderChecked fun _ t => LengthsInRange t.sh := by
  unfold fdHeaderChecked
  refine ends_past keeps_true fun _ => ?_
  iterate 3 refine ends_headerField (fun _ => True) (fun _ _ => rfl) fun _ => ?_
  refine ends_getBits (fun _ _ => rfl) fun v hv => ?_
  refine ends_bind (Q := fun _ t => t.sh.sampleBlocks = BitVec.ofNat 8 (v + 1)) (ends_modify fun _ _ => rfl) fun _ => ?_
  refine ends_check fun blocks => ends_getBits (fun _ _ => rfl) fun u hu => ?_
  refine ends_bind (Q := fun _ t => t.sh.sampleBlocks = BitVec.ofNat 8 (v + 1) ∧ t.sh.frameSize = BitVec.ofNat 15 (u + 1))
    (ends_modify fun s hs => ⟨hs, rfl⟩) fun _ => ends_check fun size => ?_
  refine ends_pre (P := fun t => LengthsInRange t.sh) ?_ fun t ht => ?_
  · iterate 2 refine ends_headerField LengthsInRange (fun _ _ => rfl) fun _ => ?_
    refine ends_past (keeps_get _) fun s => ends_check fun _ => ?_
    refine ends_headerField LengthsInRange (fun _ _ => rfl) fun _ => ?_
    exact ends_ite (fun _ => ends_raise _ _) fun _ => ends_pure fun _ h => h
  · rw [LengthsInRange, ht.1, ht.2, BitVec.toNat_ofNat, BitVec.toNat_ofNat]
    omega

/-- What an accepted fixed header says (42_framedecoder.md R115, R116). -/
def HeaderSound (h : StreamHeader) : Prop := h.lfe ≠ 3#2 ∧ LengthsInRange h

/-- R116. -/
theorem fdHeaderFlags_sound : Ends (fun s => LengthsInRange s.sh) fdHeaderFlags fun _ t => HeaderSound t.sh := by
  unfold fdHeaderFlags
  iterate 8 refine ends_headerField LengthsInRange (fun _ _ => rfl) fun _ => ?_
  refine ends_past (keeps_getField (fun _ _ => rfl) 2 2) fun v => ?_
  refine ends_bind (Q := fun _ t => LengthsInRange t.sh ∧ t.sh.lfe = v) (ends_modify fun s hs => ⟨hs, rfl⟩) fun _ => ?_
  refine ends_check fun ne => ends_pre (P := fun t => HeaderSound t.sh) ?_ fun t ht => ⟨by rw [ht.2]; exact ne, ht.1⟩
  exact ends_past (keeps_getField (fun _ _ => rfl) 1 1) fun _ => ends_modify fun _ h => h

theorem fdHeaderTail_sound : Ends (fun s => HeaderSound s.sh) fdHeaderTail fun _ t => HeaderSound t.sh := by
  unfold fdHeaderTail
  refine ends_past (keeps_get _) fun s =>
    ends_ite (fun _ => ends_headerField HeaderSound (fun _ _ => rfl) fun _ => ?_) fun _ => ?_
  all_goals
    iterate 6 refine ends_headerField HeaderSound (fun _ _ => rfl) fun _ => ?_
    exact ends_past (keeps_getField (fun _ _ => rfl) 4 4) fun _ => ends_modify fun _ h => h

/-- 42_framedecoder.md R114 to R116. -/
theorem fdHeader_sound : Ends (fun _ => True) fdHeaderOp fun _ t => HeaderSound t.sh :=
  ends_bind fdHeaderChecked_lengths fun _ => ends_bind fdHeaderFlags_sound fun _ => fdHeaderTail_sound

/-! ### The output arrangement -/

/-- What holds once the output arrangement is selected (48_downmix.md R236; 42_framedecoder.md R117). -/
def OutputSound (s : State) : Prop :=
  HeaderSound s.sh ∧ s.sh.amode.toNat ≤ 9 ∧ (s.fr.outputLfe = true → s.sh.lfe ≠ 0#2)

/-- 60_exceptions.md R265: only the arrangements 0 to 9 are decoded. -/
theorem dmxSelect_primary_le {r : Rom} {p : Nat} {fl : Word32} {lvl cl sl : Num} {o : Arrangement × Num}
    (h : dmxSelect r p fl lvl cl sl = some o) : p ≤ 9 := by
  simp only [dmxSelect] at h
  split_ifs at h with out
  omega

theorem selectOutput_sound : Ends (fun s => HeaderSound s.sh) selectOutput fun _ t => OutputSound t := by
  unfold selectOutput
  refine ends_get fun s header => ?_
  refine ends_bind (Q := fun _ t => t = s ∧ s.sh.amode.toNat ≤ 9) ?_ fun x => ?_
  · refine ends_get fun _ hs => ?_
    subst hs
    split
    · next o e => exact ends_pure fun t ht => ⟨ht, dmxSelect_primary_le e⟩
    · exact ends_raise _ _
  · refine ends_bind (Q := fun _ t => OutputSound t) (ends_modify fun t ht => ?_) fun _ => ends_modify fun _ h => h
    obtain ⟨rfl, amode⟩ := ht
    refine ⟨header, amode, fun lfe => ?_⟩
    simp only [Bool.and_eq_true, bne_iff_ne] at lfe
    exact lfe.1

theorem drcHook_keeps (P : State → Prop) : Keeps P drcHookOp :=
  keeps_bind (keeps_get P) fun _ => keeps_ite (keeps_refuse P _) (keeps_pure P ())

/-! ### FD.PRIMHDR -/

/-- 30_encoding.md R77: the counts of the primary header, for `n` channels. -/
def CountsSound (n : Nat) (s : State) : Prop :=
  OutputSound s ∧ 1 ≤ s.sh.subframes.toNat ∧ s.sh.subframes.toNat ≤ 16 ∧ primCount s = n ∧ n ≤ 8

theorem CountsSound.channels {n : Nat} {s : State} (h : CountsSound n s) : primCount s = n := by
  obtain ⟨_, _, _, channels, _⟩ := h
  exact channels

theorem CountsSound.channels_le {n : Nat} {s : State} (h : CountsSound n s) : n ≤ 8 := by
  obtain ⟨_, _, _, _, le⟩ := h
  exact le

/-- R77: the activity count of a channel. -/
def ActivitySound (f : ChannelFrame) : Prop := 2 ≤ f.subbandActivity.toNat ∧ f.subbandActivity.toNat ≤ 32

/-- 42_framedecoder.md R129: the VQ start of a channel. -/
def VqStartSound (f : ChannelFrame) : Prop :=
  1 ≤ f.vqStartSubband.toNat ∧ f.vqStartSubband.toNat ≤ f.subbandActivity.toNat

/-- `V` holds of the frame halves of all `n` channels. -/
def EveryChannel (n : Nat) (V : ChannelFrame → Prop) (s : State) : Prop := ∀ c, c < n → V (vget s.chF c)

theorem vget_update {α γ : Type} [Inhabited α] {n : Nat} {V : α → γ} {g : α → α} (hg : ∀ a, V (g a) = V a) (v : Vector α n)
    (i j : Nat) : V (vget (vput v i (g (vget v i))) j) = V (vget v j) := by
  rw [vget_vput]
  split
  · next h => rw [hg, h.1]
  · rfl

/-- A write to a channel that `V` does not see. -/
theorem keeps_setChF_unseen {n c : Nat} {V : ChannelFrame → Prop} {g : ChannelFrame → ChannelFrame}
    (hg : ∀ f, V (g f) = V f) : Keeps (EveryChannel n V) (setChF c g) :=
  fun s => forall_congr fun j => implies_congr rfl (vget_update hg s.chF c j)

theorem keeps_setChF_other {V : ChannelFrame → Prop} {c j : Nat} (h : j ≠ c) (g : ChannelFrame → ChannelFrame) :
    Keeps (fun s => V (vget s.chF j)) (setChF c g) :=
  fun s => congrArg V (vget_vput_ne s.chF _ h.symm)

theorem ends_setChF {P : State → Prop} {V : ChannelFrame → Prop} {c : Nat} {g : ChannelFrame → ChannelFrame} (hc : c < 8)
    (hp : Keeps P (setChF c g)) (hg : ∀ s, P s → V (g (vget s.chF c))) :
    Ends P (setChF c g) fun _ t => P t ∧ V (vget t.chF c) := by
  rintro s hs _ _ ⟨⟩
  refine ⟨(hp s).mpr hs, ?_⟩
  show V (vget (vput s.chF c _) c)
  rw [vget_vput_same _ _ hc]
  exact hg s hs

/-- A loop over the channels whose turn for channel `c` establishes `V` there and writes no other channel. -/
theorem ends_channels {n : Nat} {P : State → Prop} {V : ChannelFrame → Prop} {f : Nat → Op Unit} (hn : n ≤ 8)
    (turn : ∀ c, c < 8 → Ends P (f c) fun _ t => P t ∧ V (vget t.chF c))
    (other : ∀ c j, j ≠ c → Keeps (fun s => V (vget s.chF j)) (f c)) :
    Ends P (forEach (List.range n) f) fun _ t => P t ∧ EveryChannel n V t :=
  ends_post
    (ends_forEach (R := fun c s => V (vget s.chF c)) (fun c hc => turn c (Nat.lt_of_lt_of_le (List.mem_range.1 hc) hn)) other)
    fun _ _ ht => ⟨ht.1, fun c hc => ht.2 c (List.mem_range.2 hc)⟩

/-- The state of the headers when the activity counts of all channels are read. -/
def ActivitiesRead (n : Nat) (s : State) : Prop := CountsSound n s ∧ EveryChannel n ActivitySound s

/-- The state of the headers when the VQ starts of all channels are read. -/
def VqStartsRead (n : Nat) (s : State) : Prop := ActivitiesRead n s ∧ EveryChannel n VqStartSound s

theorem activitiesRead_setChF {n c : Nat} {g : ChannelFrame → ChannelFrame}
    (act : ∀ f, (g f).subbandActivity = f.subbandActivity) : Keeps (ActivitiesRead n) (setChF c g) :=
  keeps_and (fun _ => rfl) (keeps_setChF_unseen fun f => by rw [ActivitySound, act]; rfl)

theorem vqStartsRead_setChF {n c : Nat} {g : ChannelFrame → ChannelFrame}
    (act : ∀ f, (g f).subbandActivity = f.subbandActivity)
    (vq : ∀ f, (g f).vqStartSubband = f.vqStartSubband) : Keeps (VqStartsRead n) (setChF c g) :=
  keeps_and (activitiesRead_setChF act) (keeps_setChF_unseen fun f => by rw [VqStartSound, act, vq]; rfl)

theorem readActivities {n : Nat} (hn : n ≤ 8) :
    Ends (CountsSound n) (forEach (List.range n) fun c => do
      let v ← getBits 5
      setChF c fun f => { f with subbandActivity := BitVec.ofNat 6 (min (v + 2) 32) }) fun _ => ActivitiesRead n := by
  refine ends_channels hn (fun c hc => ?_) fun c j hj => ?_
  · refine ends_getBits (fun _ _ => rfl) fun v hv => ends_setChF hc (fun _ => rfl) fun s _ => ?_
    simp only [ActivitySound, BitVec.toNat_ofNat]
    omega
  · exact keeps_bind (keeps_getBits (fun _ _ => rfl) 5) fun v => keeps_setChF_other hj _

/-- 42_framedecoder.md R129. -/
theorem readVqStarts {n : Nat} (hn : n ≤ 8) :
    Ends (ActivitiesRead n) (forEach (List.range n) vqStartField) fun _ => VqStartsRead n := by
  refine ends_channels hn (fun c hc => ?_) fun c j hj => ?_
  · unfold vqStartField
    refine ends_getBits (fun _ _ => rfl) fun v hv => ?_
    refine ends_bind (ends_setChF (V := fun f => 1 ≤ f.vqStartSubband.toNat) hc
      (activitiesRead_setChF fun _ => rfl) fun s _ => ?_) fun _ => ?_
    · simp only [BitVec.toNat_ofNat]
      omega
    · refine ends_get fun s hs => ends_ite (fun _ => ends_raise _ _) fun le => ends_pure fun t ht => ?_
      subst ht
      exact ⟨hs.1, hs.2, Nat.le_of_not_lt le⟩
  · exact keeps_bind (keeps_getBits (fun _ _ => rfl) 5) fun v => keeps_bind (keeps_setChF_other hj _) fun _ =>
      keeps_bind (keeps_get _) fun s => keeps_ite (keeps_raise _ _ _) (keeps_pure _ _)

/-- 42_framedecoder.md R120. -/
theorem readBhuffs {n : Nat} (hn : n ≤ 8) :
    Ends (VqStartsRead n) (forEach (List.range n) bhuffField)
      fun _ t => VqStartsRead n t ∧ EveryChannel n (fun f => f.bitallocHuffman ≠ 7#3) t := by
  refine ends_channels hn (fun c hc => ?_) fun c j hj => ?_
  · unfold bhuffField
    refine ends_past (keeps_getField (fun _ _ => rfl) 3 3) fun v => ?_
    refine ends_bind (ends_setChF (V := fun f => f.bitallocHuffman = v) hc
      (vqStartsRead_setChF (fun _ => rfl) fun _ => rfl) fun _ _ => rfl) fun _ => ?_
    exact ends_ite (fun _ => ends_raise _ _) fun ne => ends_pure fun t ht => ⟨ht.1, ht.2 ▸ ne⟩
  · exact keeps_bind (keeps_getField (fun _ _ => rfl) 3 3) fun v =>
      keeps_bind (keeps_setChF_other (V := fun f => f.bitallocHuffman ≠ 7#3) hj _) fun _ =>
      keeps_ite (keeps_raise _ _ _) (keeps_pure _ _)

/-- What every channel of an accepted frame holds (42_framedecoder.md R120, R129). -/
def ChannelSound (f : ChannelFrame) : Prop :=
  1 ≤ f.vqStartSubband.toNat ∧ f.vqStartSubband.toNat ≤ f.subbandActivity.toNat ∧ 2 ≤ f.subbandActivity.toNat
    ∧ f.subbandActivity.toNat ≤ 32 ∧ f.bitallocHuffman ≠ 7#3

/-- What an accepted primary header says. -/
def PrimarySound (s : State) : Prop := CountsSound (primCount s) s ∧ EveryChannel (primCount s) ChannelSound s

/-- A field of every channel that the counts do not depend on. -/
theorem keeps_channelField {n w : Nat} {cs : List Nat} {g : BitVec w → ChannelFrame → ChannelFrame}
    (act : ∀ v f, (g v f).subbandActivity = f.subbandActivity) (vq : ∀ v f, (g v f).vqStartSubband = f.vqStartSubband) :
    Keeps (VqStartsRead n) (forEach cs fun c => do
      let v ← getField w w
      setChF c (g v)) :=
  keeps_forEach (fun _ => keeps_bind (keeps_getField (fun _ _ => rfl) w w) fun v => vqStartsRead_setChF (act v) (vq v)) cs

theorem primhdrCounts_sound : Ends OutputSound primhdrCounts fun _ => PrimarySound := by
  unfold primhdrCounts
  refine ends_getBits (fun _ _ => rfl) fun v hv => ?_
  refine ends_bind (Q := fun _ t => OutputSound t ∧ t.sh.subframes = BitVec.ofNat 5 (v + 1))
    (ends_modify fun s hs => ⟨hs, rfl⟩) fun _ => ?_
  refine ends_getBits (fun _ _ => rfl) fun u hu => ?_
  refine ends_bind (Q := fun _ t => CountsSound (primCount t) t)
    (ends_modify fun s hs => ⟨hs.1, ?_, ?_, rfl, ?_⟩) fun _ => ?_
  · simp only [hs.2, BitVec.toNat_ofNat]
    omega
  · simp only [hs.2, BitVec.toNat_ofNat]
    omega
  · simp only [primCount, BitVec.toNat_ofNat]
    omega
  refine ends_get fun s counts => ?_
  dsimp only
  generalize primCount s = n at counts
  refine ends_pre (P := CountsSound n) ?_ fun t ht => ht ▸ counts
  have hn : n ≤ 8 := counts.channels_le
  refine ends_bind (readActivities hn) fun _ => ends_bind (readVqStarts hn) fun _ => ?_
  refine ends_past (keeps_channelField (fun _ _ => rfl) fun _ _ => rfl) fun _ => ?_
  refine ends_past (keeps_channelField (fun _ _ => rfl) fun _ _ => rfl) fun _ => ?_
  refine ends_past (keeps_channelField (fun _ _ => rfl) fun _ _ => rfl) fun _ => ?_
  refine ends_post (readBhuffs hn) fun _ t ⟨⟨⟨counts, act⟩, vq⟩, bhuff⟩ => ?_
  obtain rfl : primCount t = n := counts.channels
  exact ⟨counts, fun c hc => ⟨(vq c hc).1, (vq c hc).2, (act c hc).1, (act c hc).2, bhuff c hc⟩⟩

theorem primarySound_setChF {c : Nat} {g : ChannelFrame → ChannelFrame} (act : ∀ f, (g f).subbandActivity = f.subbandActivity)
    (vq : ∀ f, (g f).vqStartSubband = f.vqStartSubband) (bhuff : ∀ f, (g f).bitallocHuffman = f.bitallocHuffman) :
    Keeps PrimarySound (setChF c g) :=
  fun s => congrArg₂ And rfl (keeps_setChF_unseen (fun f => by rw [ChannelSound, act, vq, bhuff]; rfl) s)

/-- R118: the codebook selectors and the adjustments are no part of what the checks look at. -/
theorem keeps_primhdrSelectors (cs : List Nat) : Keeps PrimarySound (primhdrSelectors cs) := by
  have zero : ∀ a c, Keeps PrimarySound (selZero a c) := fun a c =>
    primarySound_setChF (fun _ => rfl) (fun _ => rfl) fun _ => rfl
  have sel : ∀ n a c, Keeps PrimarySound (selField n a c) := fun n a c =>
    keeps_bind (keeps_getField (fun _ _ => rfl) n 3) fun _ => primarySound_setChF (fun _ => rfl) (fun _ => rfl) fun _ => rfl
  exact keeps_bind (keeps_forEach (fun c => keeps_bind (zero 0 c) fun _ => sel 1 1 c) cs) fun _ =>
    keeps_bind (keeps_forEach (fun a => keeps_forEach (sel 2 a) cs) _) fun _ =>
    keeps_bind (keeps_forEach (fun a => keeps_forEach (sel 3 a) cs) _) fun _ =>
    keeps_forEach (fun a => keeps_forEach (zero a) cs) _

/-- See `keeps_primhdrSelectors`. -/
theorem keeps_primhdrAdjust (cs : List Nat) : Keeps PrimarySound (primhdrAdjust cs) := by
  have adj : ∀ b a c, Keeps PrimarySound (adjField b a c) := fun b a c => keeps_bind (keeps_get _) fun s =>
    keeps_ite (keeps_bind (keeps_getBits (fun _ _ => rfl) 2) fun _ =>
      primarySound_setChF (fun _ => rfl) (fun _ => rfl) fun _ => rfl) (keeps_pure _ _)
  refine keeps_bind (keeps_get _) fun s => keeps_bind (keeps_forEach (fun a => keeps_forEach (fun c => ?_) cs) _) fun _ => ?_
  · exact primarySound_setChF (fun _ => rfl) (fun _ => rfl) fun _ => rfl
  · exact keeps_bind (keeps_forEach (adj 1 1) cs) fun _ =>
      keeps_bind (keeps_forEach (fun a => keeps_forEach (adj 3 a) cs) _) fun _ =>
      keeps_forEach (fun a => keeps_forEach (adj 7 a) cs) _

/-- 42_framedecoder.md R118 to R120, R129. -/
theorem fdPrimhdr_sound : Ends OutputSound fdPrimhdrOp fun _ => PrimarySound := by
  refine ends_bind primhdrCounts_sound fun _ => ends_keeps ?_
  refine keeps_bind (keeps_get _) fun s => keeps_bind (keeps_primhdrSelectors _) fun _ =>
    keeps_bind (keeps_primhdrAdjust _) fun _ => ?_
  exact keeps_ite (keeps_skipBits (fun _ _ => rfl) 16) (keeps_pure _ _)

/-! ### BEGIN_FRAME -/

/-- The part of `FrameAccepted` that the headers of the frame settle (42_framedecoder.md R115, R116, R120, R128, R129). -/
def HeadersAccepted (s : State) : Prop :=
  (∃ a, arrangementOf s.sh.amode.toNat = some a ∧ primCount s = nchOf s.rom a) ∧ PrimarySound s

/-- The frame is at its first sub-block (R113). -/
def AtStart (s : State) : Prop := s.seq = { frame := .active, currentSubframe := 0#5, currentSubsubframe := 0#3 }

/-- 42_framedecoder.md R128. -/
theorem startFrame_accepts : Ends PrimarySound startFrame fun _ t => HeadersAccepted t ∧ AtStart t := by
  unfold startFrame
  refine ends_get fun s primary => ?_
  dsimp only
  split
  · exact ends_bind (Q := fun _ _ => False) (ends_raise _ _) fun _ _ no => no.elim
  · next a arrangement =>
    refine ends_check fun channels => ?_
    refine ends_bind (Q := fun _ t => HeadersAccepted t) (ends_modify fun t ht => ?_) fun _ =>
      ends_modify fun t ht => ⟨ht, rfl⟩
    subst ht
    exact ⟨⟨a, arrangement, not_not.1 channels⟩, primary⟩

/-- 42_framedecoder.md R113: a BEGIN_FRAME that ends without an error has accepted its frame. -/
theorem beginFrame_accepts : Ends (fun _ => True) beginFrameOp fun _ t => HeadersAccepted t ∧ AtStart t := by
  have headers : Ends (fun _ => True) (do fdHeaderOp; selectOutput; drcHookOp; fdPrimhdrOp; startFrame)
      fun _ t => HeadersAccepted t ∧ AtStart t :=
    ends_bind fdHeader_sound fun _ => ends_bind selectOutput_sound fun _ => ends_past (drcHook_keeps _) fun _ =>
      ends_bind fdPrimhdr_sound fun _ => startFrame_accepts
  unfold beginFrameOp
  refine ends_past keeps_true fun _ => ends_past keeps_true fun s => ?_
  dsimp only
  split
  · exact ends_past keeps_true fun _ => headers
  · exact ends_past keeps_true fun _ => headers

/-! ### SF.HEADER: the sub-block count and the allocation indices -/

/-- 43_subframe.md R139: one to four sub-blocks. -/
def SubCountSound (s : State) : Prop := 1 ≤ s.sf.subsubframes.toNat ∧ s.sf.subsubframes.toNat ≤ 4

/-- R142: the allocation index of one subband. -/
def IndexSound (c sb : Nat) (s : State) : Prop := (vget (vget s.chS c).bitalloc sb).toNat ≤ 26

/-- R142: the allocation indices of channel `c`. -/
def IndicesSound (c : Nat) (s : State) : Prop := ∀ sb, sb < vqOf s c → IndexSound c sb s

/-- What SF.HEADER reads of an accepted frame's sub-block grid, for `n` channels. -/
def GridRead (n : Nat) (s : State) : Prop := SubCountSound s ∧ ∀ c, c < n → IndicesSound c s

theorem indicesSound_setChS_other {c j : Nat} (h : j ≠ c) (g : ChannelSub → ChannelSub) :
    Keeps (IndicesSound j) (setChS c g) :=
  fun s => congrArg (fun r : ChannelSub => ∀ sb, sb < vqOf s j → (vget r.bitalloc sb).toNat ≤ 26)
    (vget_vput_ne s.chS _ h.symm)

/-- A write to side information other than the allocation indices. -/
theorem gridRead_setChS {n c : Nat} {g : ChannelSub → ChannelSub} (hg : ∀ r, (g r).bitalloc = r.bitalloc) :
    Keeps (GridRead n) (setChS c g) :=
  keeps_and (fun _ => rfl) (keeps_forall fun j => fun s => implies_congr rfl
    (congrArg (fun b : Vector (BitVec 5) 32 => ∀ sb, sb < vqOf s j → (vget b sb).toNat ≤ 26)
      (vget_update (V := ChannelSub.bitalloc) hg s.chS c j)))

/-- R141, R142: READ_BITALLOC answers an index of at most 26. -/
theorem readBitalloc_le {P : State → Prop} (hb : SeesNoBc P) (c : Nat) :
    Ends P (readBitallocOp c) fun v t => v ≤ 26 ∧ P t := by
  unfold readBitallocOp
  refine ends_past (keeps_bitallocIndex hb c) fun v => ends_check fun range => ends_pure fun t ht => ⟨?_, ht⟩
  omega

theorem readAlloc_sound {P : State → Prop} (hb : SeesNoBc P) (hs : SeesNoChS P) {c sb : Nat} (hc : c < 8) (hsb : sb < 32) :
    Ends P (readAlloc c sb) fun _ t => P t ∧ IndexSound c sb t := by
  refine ends_bind (readBitalloc_le hb c) fun v => ends_modify fun s ⟨hv, hp⟩ => ⟨(hs s _).mpr hp, ?_⟩
  simp only [IndexSound, vget_vput_same, hc, hsb, BitVec.toNat_ofNat]
  omega

theorem readAlloc_other {c sb j : Nat} (h : j ≠ sb) : Keeps (IndexSound c j) (readAlloc c sb) := by
  refine keeps_bind (keeps_readBitalloc (fun _ _ => rfl) c) fun v s => ?_
  have unseen : ∀ r : ChannelSub, vget (vput r.bitalloc sb (BitVec.ofNat 5 v)) j = vget r.bitalloc j :=
    fun r => vget_vput_ne r.bitalloc _ h.symm
  exact congrArg (fun a : BitVec 5 => a.toNat ≤ 26) (vget_update (V := fun r : ChannelSub => vget r.bitalloc j)
    (g := fun r => { r with bitalloc := vput r.bitalloc sb (BitVec.ofNat 5 v) }) unseen s.chS c c)

/-- R138: BITALLOC of all subbands of one channel below its VQ start. -/
theorem readAllocs_sound {P : State → Prop} (hb : SeesNoBc P) (hs : SeesNoChS P) {c : Nat} (hc : c < 8)
    (vq : ∀ s, P s → vqOf s c ≤ 32) :
    Ends P (do let s ← get; forEach (List.range (vqOf s c)) (readAlloc c)) fun _ t => P t ∧ IndicesSound c t := by
  refine ends_get fun s hp => ?_
  have turns : Ends (fun t => P t ∧ vqOf t c = vqOf s c) (forEach (List.range (vqOf s c)) (readAlloc c))
      fun _ t => (P t ∧ vqOf t c = vqOf s c) ∧ ∀ sb, sb ∈ List.range (vqOf s c) → IndexSound c sb t := by
    refine ends_forEach (fun sb hsb => ?_) fun sb j hj => readAlloc_other hj
    have below := List.mem_range.1 hsb
    exact readAlloc_sound (fun t x => congrArg₂ And (hb t x) rfl) (fun t x => congrArg₂ And (hs t x) rfl) hc
      (Nat.lt_of_lt_of_le below (vq s hp))
  refine ends_post (ends_pre turns fun t ht => by subst ht; exact ⟨hp, rfl⟩) fun _ t ⟨⟨keep, count⟩, sound⟩ =>
    ⟨keep, fun sb hsb => ?_⟩
  exact sound sb (List.mem_range.2 (count ▸ hsb))

/-- What SF.HEADER starts from: an accepted frame of `n` channels. -/
def FrameOf (n : Nat) (s : State) : Prop := HeadersAccepted s ∧ primCount s = n

theorem FrameOf.channels_le {n : Nat} {s : State} (h : FrameOf n s) : n ≤ 8 := by
  obtain ⟨⟨_, counts, _⟩, rfl⟩ := h
  exact counts.channels_le

theorem FrameOf.vq_le {n c : Nat} {s : State} (h : FrameOf n s) (hc : c < n) : vqOf s c ≤ 32 := by
  obtain ⟨⟨_, _, channels⟩, rfl⟩ := h
  obtain ⟨_, vq, _, act, _⟩ := channels c hc
  exact Nat.le_trans vq act

theorem keeps_readTransition (n c sb : Nat) : Keeps (GridRead n) (readTransition c sb) := by
  unfold readTransition
  refine keeps_bind (gridRead_setChS fun _ => rfl) fun _ => keeps_bind (keeps_get _) fun s => keeps_ite ?_ (keeps_pure _ _)
  exact keeps_bind (keeps_huff (fun _ _ => rfl) _) fun _ => gridRead_setChS fun _ => rfl

theorem sfHeaderAlloc_reads (n : Nat) : Ends (FrameOf n) (sfHeaderAlloc (List.range n)) fun _ => GridRead n := by
  unfold sfHeaderAlloc
  refine ends_getBits (fun _ _ => rfl) fun v hv => ?_
  refine ends_bind (Q := fun _ t => FrameOf n t ∧ SubCountSound t) (ends_modify fun s hs => ⟨hs, ?_⟩) fun _ => ?_
  · simp only [SubCountSound, BitVec.toNat_ofNat]
    omega
  refine ends_past (keeps_getBits (fun _ _ => rfl) 3) fun u => ends_past (fun _ => rfl) fun _ => ?_
  refine ends_past (keeps_passActive (fun c sb => ?_) _) fun _ => ?_
  · exact keeps_bind (keeps_getBits (fun _ _ => rfl) 1) fun _ => keeps_setChS (fun _ _ => rfl) c _
  refine ends_past (keeps_passActive (fun c sb => ?_) _) fun _ => ?_
  · exact keeps_bind (keeps_get _) fun s =>
      keeps_ite (keeps_bind (keeps_getBits (fun _ _ => rfl) 12) fun _ => keeps_setChS (fun _ _ => rfl) c _) (keeps_pure _ _)
  refine ends_bind (ends_forEach (R := IndicesSound) (fun c hc => ?_) fun c j hj => ?_) fun _ => ?_
  · have hc := List.mem_range.1 hc
    intro s hs
    exact readAllocs_sound (P := fun s => FrameOf n s ∧ SubCountSound s) (fun _ _ => rfl) (fun _ _ => rfl)
      (Nat.lt_of_lt_of_le hc hs.1.channels_le) (fun s hs => hs.1.vq_le hc) s hs
  · exact keeps_bind (keeps_get _) fun s => keeps_forEach (fun sb => keeps_bind (keeps_readBitalloc (fun _ _ => rfl) c)
      fun v => indicesSound_setChS_other hj _) _
  refine ends_pre (P := GridRead n) (ends_keeps (keeps_passActive (keeps_readTransition n) _)) fun t ht => ?_
  exact ⟨ht.1.2, fun c hc => ht.2 c (List.mem_range.2 hc)⟩

/-! What SF.HEADER reads behind the allocation indices leaves them, and the sub-block count, as they are. -/

section Behind

variable {n : Nat}

theorem gridRead_seesNoBc : SeesNoBc (GridRead n) := fun _ _ => rfl

theorem gridRead_seesNoLfe : SeesNoLfe (GridRead n) := fun _ _ => rfl

theorem gridRead_readScaleLoop (c k : Nat) (sbs : List Nat) (sum : Int) : Keeps (GridRead n) (readScaleLoop c k sbs sum) := by
  induction sbs generalizing sum with
  | nil => exact keeps_pure _ _
  | cons sb sbs ih =>
    refine keeps_bind (keeps_bind (keeps_get _) fun s => keeps_ite ?_ (keeps_pure _ _)) fun _ =>
      keeps_bind (keeps_bind (keeps_get _) fun s => keeps_ite ?_ (keeps_pure _ _)) fun _ => ih _
    all_goals
      refine keeps_bind (keeps_readScale gridRead_seesNoBc k _) fun _ => keeps_bind ?_ fun _ => keeps_pure _ _
      exact gridRead_setChS fun _ => rfl

theorem gridRead_readScales (c : Nat) : Keeps (GridRead n) (readScalesOp c) :=
  keeps_bind (keeps_get _) fun _ => keeps_bind (gridRead_setChS fun _ => rfl) fun _ => gridRead_readScaleLoop c _ _ _

theorem gridRead_readJhuff (c : Nat) : Keeps (GridRead n) (readJhuff c) :=
  keeps_bind (keeps_get _) fun _ =>
    keeps_ite (keeps_bind (keeps_getBits gridRead_seesNoBc 3) fun _ => gridRead_setChS fun _ => rfl) (keeps_pure _ _)

theorem gridRead_readJoint (c : Nat) : Keeps (GridRead n) (readJointOp c) := by
  unfold readJointOp
  refine keeps_bind (keeps_get _) fun s => ?_
  refine keeps_ite (keeps_bind (keeps_raise _ _ _) fun _ => ?_) ?_
  all_goals
    refine keeps_bind (keeps_forEach (fun sb => keeps_bind (keeps_jointScale gridRead_seesNoBc _) fun _ => ?_) _) fun _ _ => rfl
    exact gridRead_setChS fun _ => rfl

theorem gridRead_readJointIf (c : Nat) : Keeps (GridRead n) (readJointIf c) :=
  keeps_bind (keeps_get _) fun _ => keeps_ite (gridRead_readJoint c) (keeps_pure _ _)

theorem gridRead_readDmxCoef (c : Nat) : Keeps (GridRead n) (readDmxCoef c) :=
  keeps_bind (keeps_getBits gridRead_seesNoBc 7) fun _ => keeps_bind (gridRead_setChS fun _ => rfl) fun _ =>
    keeps_bind (keeps_getBits gridRead_seesNoBc 7) fun _ => gridRead_setChS fun _ => rfl

theorem gridRead_readHfvq (c sb : Nat) : Keeps (GridRead n) (readHfvq c sb) :=
  keeps_bind (keeps_getBits gridRead_seesNoBc 10) fun _ => gridRead_setChS fun _ => rfl

theorem gridRead_sfHeaderScales (cs : List Nat) : Keeps (GridRead n) (sfHeaderScales cs) := by
  have hfvq : Keeps (GridRead n) (forEach cs fun c => do
      let s ← get
      forEach (span (vqOf s c) (actOf s c)) (readHfvq c)) :=
    keeps_forEach (fun c => keeps_bind (keeps_get _) fun _ => keeps_forEach (gridRead_readHfvq c) _) cs
  unfold sfHeaderScales
  refine keeps_bind (keeps_forEach gridRead_readScales cs) fun _ => keeps_bind (keeps_forEach gridRead_readJhuff cs) fun _ =>
    keeps_bind (keeps_forEach gridRead_readJointIf cs) fun _ => keeps_bind (keeps_get _) fun s => ?_
  dsimp only
  refine keeps_ite (keeps_bind (keeps_forEach gridRead_readDmxCoef cs) fun _ => ?_) ?_
  all_goals refine keeps_ite (keeps_bind (keeps_getBits gridRead_seesNoBc 8) fun _ => keeps_bind (fun _ => rfl) fun _ => ?_) ?_
  all_goals exact keeps_ite (keeps_bind (keeps_skipBits gridRead_seesNoBc 16) fun _ => hfvq) hfvq

theorem gridRead_readLfe : Keeps (GridRead n) readLfeOp := by
  unfold readLfeOp
  refine keeps_bind (keeps_get _) fun s => ?_
  refine keeps_bind (keeps_collect (keeps_getSignedBits gridRead_seesNoBc 8) _) fun raw =>
    keeps_bind (keeps_getBits gridRead_seesNoBc 8) fun i => ?_
  refine keeps_ite (keeps_bind (keeps_raise _ _ _) fun _ => ?_) ?_
  all_goals exact keeps_bind (fun _ => rfl) fun _ t => gridRead_seesNoLfe t _

end Behind

/-- 43_subframe.md R138, R139, R142: a subframe header that is read to its end. -/
theorem sfHeader_reads (n : Nat) : Ends (FrameOf n) sfHeaderOp fun _ => GridRead n := by
  unfold sfHeaderOp
  refine ends_get fun s frame => ?_
  obtain rfl : primCount s = n := frame.2
  refine ends_pre (P := FrameOf (primCount s)) ?_ fun t ht => ht ▸ frame
  refine ends_bind (sfHeaderAlloc_reads _) fun _ => ends_past (gridRead_sfHeaderScales _) fun _ => ends_keeps ?_
  exact keeps_ite gridRead_readLfe (keeps_pure _ _)

/-! ### DECODE_BLOCK -/

/-- The sequencer at a sub-block that is there, its side information read (10_state.md R22, R44). -/
def InsideSubframe (s : State) : Prop :=
  s.seq.currentSubsubframe.toNat < s.sf.subsubframes.toNat ∧ s.sf.subsubframes.toNat ≤ 4
    ∧ s.seq.currentSubframe.toNat < s.sh.subframes.toNat
    ∧ ∀ c sb, c < primCount s → sb < vqOf s c → (vget (vget s.chS c).bitalloc sb).toNat ≤ 26

/-- The sequencer between two blocks of a frame: at the first sub-block of a subframe nothing is read yet. -/
def InsideFrame (s : State) : Prop :=
  s.seq.currentSubframe.toNat ≤ s.sh.subframes.toNat ∧ (s.seq.currentSubsubframe ≠ 0#3 → InsideSubframe s)

/-- R135: the samples of a block are read only inside a subframe. -/
theorem decodeSamples_inside (ssf : Nat) :
    Ends (fun s => HeadersAccepted s ∧ InsideFrame s ∧ s.seq.currentSubsubframe.toNat = ssf) (decodeSamples ssf)
      fun _ t => HeadersAccepted t ∧ InsideSubframe t := by
  have body : Keeps (fun s => HeadersAccepted s ∧ InsideSubframe s) (ssBodyOp ssf) :=
    keeps_ssBody (fun _ _ => rfl) (fun _ _ => rfl) ssf
  unfold decodeSamples
  refine ends_get fun s ⟨headers, ⟨_, inside⟩, position⟩ => ends_check fun subframe => ?_
  refine ends_ite (fun first => ?_) fun later => ?_
  · refine ends_bind (Q := fun _ t => HeadersAccepted t ∧ InsideSubframe t) ?_ fun _ => ends_keeps body
    have kept : Keeps (fun t => FrameOf (primCount s) t ∧ t.seq = s.seq ∧ t.sh = s.sh) sfHeaderOp :=
      keeps_sfHeader (fun _ _ => rfl) (fun _ _ => rfl) (fun _ _ => rfl) (fun _ _ => rfl) (fun _ _ => rfl)
    have read := ends_and_keeps (ends_pre (sfHeader_reads (primCount s)) fun t ht => ht.1) kept
    refine ends_post (ends_pre read ?_) ?_
    · rintro t rfl
      exact ⟨⟨headers, rfl⟩, rfl, rfl⟩
    · rintro _ t ⟨⟨⟨one_sub, four_subs⟩, indices⟩, ⟨accepted, channels⟩, seq, sh⟩
      refine ⟨accepted, ?_, four_subs, ?_, fun c sb hc hsb => indices c (channels ▸ hc) sb hsb⟩
      · rw [seq]
        omega
      · rw [seq, sh]
        omega
  · refine ends_pre (ends_keeps body) fun t ht => ?_
    subst ht
    exact ⟨headers, inside fun zero => later (by rw [← position, zero]; rfl)⟩

/-- 43_subframe.md R136: the position after a block is inside the frame again. -/
theorem advance_inside :
    Ends (fun s => HeadersAccepted s ∧ InsideSubframe s) advanceOp fun _ t => HeadersAccepted t ∧ InsideFrame t := by
  unfold advanceOp
  refine ends_get fun s ⟨headers, inside⟩ => ?_
  refine ends_bind (Q := fun _ t => HeadersAccepted t ∧ InsideFrame t) (ends_modify ?_) fun _ => ?_
  · rintro t rfl
    refine ⟨headers, ?_⟩
    obtain ⟨_, ⟨_, _, subframes, _⟩, _⟩ := headers
    obtain ⟨sub, four_subs, subframe, indices⟩ := inside
    unfold InsideFrame nextPosition
    split_ifs with last
    · refine ⟨?_, fun no => absurd rfl no⟩
      simp only [BitVec.toNat_add, BitVec.toNat_ofNat]
      omega
    · refine ⟨subframe.le, fun _ => ⟨?_, four_subs, subframe, indices⟩⟩
      simp only [BitVec.toNat_add, BitVec.toNat_ofNat]
      omega
  · refine ends_past (keeps_get _) fun u => ends_keeps (keeps_ite ?_ (keeps_pure _ _))
    exact keeps_sfFooter (fun _ _ => rfl) (fun _ _ => rfl)

/-- 10_state.md R41: the number of valid slots that DECODE_BLOCK reports. -/
theorem finishBlock_outCh_le (s : State) : (finishBlock s).res.outCh.toNat ≤ 6 := by
  have six : outChannels s ≤ 6 := outChannels_le s
  show (BitVec.ofNat 32 (outChannels s)).toNat ≤ 6
  rw [BitVec.toNat_ofNat]
  omega

/-- R135: a block that ends without an error. -/
theorem decodeBlock_inside :
    Ends (fun s => HeadersAccepted s ∧ InsideFrame s) decodeBlockOp
      fun _ t => HeadersAccepted t ∧ InsideFrame t ∧ t.res.outCh.toNat ≤ 6 := by
  have render : ∀ ssf, Keeps (fun s => HeadersAccepted s ∧ InsideSubframe s) (modify (renderBlock ssf)) := fun ssf =>
    keeps_modify fun s => by
      obtain ⟨ph, hist, stage, out, e⟩ := renderBlock_eq ssf s
      rw [e]
      rfl
  unfold decodeBlockOp
  refine ends_get fun s ⟨headers, inside⟩ => ?_
  refine ends_bind (ends_pre (decodeSamples_inside _) ?_) fun _ => ?_
  · rintro t rfl
    exact ⟨headers, inside, rfl⟩
  refine ends_past (render _) fun _ => ends_past (keeps_dsyncCheck (fun _ _ => rfl) (fun _ _ => rfl) _) fun _ => ?_
  refine ends_bind advance_inside fun _ => ends_modify fun t ⟨headers, inside⟩ =>
    ⟨headers, inside, finishBlock_outCh_le t⟩

/-! ### O8: the accepted frame -/

/-- `FrameAccepted` by its two halves: what the headers settle, and where the sequencer stands. -/
theorem frameAccepted_iff (s : State) : FrameAccepted s ↔
    (s.life = .ready → s.res.outCh.toNat ≤ 6 ∧ (s.seq.frame = .active → HeadersAccepted s ∧ InsideFrame s)) := by
  refine forall_congr' fun _ => and_congr_right fun _ => forall_congr' fun _ => ?_
  constructor
  · rintro ⟨⟨a, arr, channels⟩, amode, lfe, outLfe, blocks, size, sub1, sub16, subframe, primary, inside⟩
    have six := (nchOf_bounds s.rom a).2.1
    exact ⟨⟨⟨a, arr, channels⟩, ⟨⟨⟨lfe, blocks, size⟩, amode, outLfe⟩, sub1, sub16, rfl, by omega⟩, primary⟩,
      subframe, inside⟩
  · rintro ⟨⟨arr, ⟨⟨⟨lfe, blocks, size⟩, amode, outLfe⟩, sub1, sub16, _, _⟩, primary⟩, subframe, inside⟩
    exact ⟨arr, amode, lfe, outLfe, blocks, size, sub1, sub16, subframe, primary, inside⟩

/-- 10_state.md R41: at most 6 slots of `OUT` are valid. -/
def SlotsSound (s : State) : Prop := s.life = .ready → s.res.outCh.toNat ≤ 6

theorem slotsSound_of_accepted {s : State} (h : FrameAccepted s) : SlotsSound s := fun ready => (h ready).1

/-- Without an active frame only the valid slots count. -/
theorem frameAccepted_of_not_active {s : State} (slots : SlotsSound s) (h : s.seq.frame ≠ .active) : FrameAccepted s :=
  fun ready => ⟨slots ready, fun active => absurd active h⟩

theorem frameAccepted_setCode {s : State} (h : FrameAccepted s) (c : Code) : FrameAccepted (setCode c s) := h

theorem probe_keeps_accepted {s t : State} (acc : FrameAccepted s) (h : probeCmd s = .next t) : FrameAccepted t := by
  obtain ⟨c, rfl⟩ | rfl | ⟨r, rfl⟩ := probeCmd_cases h <;> exact acc

/-- 42_framedecoder.md R113: BEGIN_FRAME accepts its frame or aborts it. -/
theorem beginFrame_keeps_accepted {s t : State} (acc : FrameAccepted s) (h : beginFrameCmd s = .next t) : FrameAccepted t := by
  have kept : Keeps SlotsSound beginFrameOp := keeps_beginFrame (fun _ _ => rfl) (fun _ _ => rfl) (fun _ _ => rfl)
    (fun _ _ => rfl) (fun _ _ => rfl) (fun _ _ => rfl)
  obtain ⟨c, rfl⟩ | ⟨u, e, rfl⟩ | ⟨c, l, u, e, rfl⟩ := beginFrameCmd_cases h
  · exact frameAccepted_setCode acc c
  · have slots : SlotsSound u := (kept.ok e).mpr (slotsSound_of_accepted acc)
    obtain ⟨headers, start⟩ := beginFrame_accepts s trivial () u e
    refine frameAccepted_setCode ((frameAccepted_iff u).2 fun ready => ⟨slots ready, fun _ => ⟨headers, ?_⟩⟩) .ok
    exact ⟨by rw [start]; exact Nat.zero_le _, fun later => absurd (by rw [start]) later⟩
  · have slots : SlotsSound u := (kept.error e).mpr (slotsSound_of_accepted acc)
    exact frameAccepted_of_not_active slots (by simp [forgetFrame])

/-- 43_subframe.md R135: DECODE_BLOCK moves inside the frame or aborts it. -/
theorem decodeBlock_keeps_accepted {s t : State} (acc : FrameAccepted s) (h : decodeBlockCmd s = .next t) :
    FrameAccepted t := by
  obtain ⟨c, rfl⟩ | ⟨ready, active, ⟨u, e, rfl⟩ | ⟨c, l, u, e, rfl⟩⟩ := decodeBlockCmd_cases h
  · exact frameAccepted_setCode acc c
  · have frame := ((frameAccepted_iff s).1 acc ready).2 active
    obtain ⟨headers, inside, slots⟩ := decodeBlock_inside s frame () u e
    exact frameAccepted_setCode ((frameAccepted_iff u).2 fun _ => ⟨slots, fun _ => ⟨headers, inside⟩⟩) .ok
  · have kept : Preserves SlotsSound decodeBlockOp := preserves_decodeBlock (fun _ _ => rfl) (fun _ _ => rfl)
      (fun _ _ => rfl) (fun _ _ => rfl) (fun _ _ => rfl) (fun _ _ => rfl) (fun _ _ => rfl) (fun _ _ => rfl)
      (fun _ _ _ _ _ => rfl) fun t _ _ => finishBlock_outCh_le t
    have slots : SlotsSound u := by
      have last := kept s (slotsSound_of_accepted acc)
      rw [e] at last
      exact last
    exact frameAccepted_of_not_active slots (by simp)

theorem init_accepted {s t : State} (h : execInit s = .next t) : FrameAccepted t := by
  cases h
  exact frameAccepted_of_not_active (fun _ => Nat.zero_le _) (by simp [Decoder.reset])

theorem teardown_keeps_accepted {s t : State} (acc : FrameAccepted s) (h : execTeardown s = .next t) : FrameAccepted t := by
  unfold execTeardown at h
  split_ifs at h
  · cases h
    exact frameAccepted_setCode acc _
  · cases h
    exact fun ready => by cases ready

/-- Every command keeps the invariant; `INIT` needs no premise. -/
theorem command_keeps_accepted {w : Word32} {s t : State} (acc : FrameAccepted s) (h : exec (decodeCmd w) s = .next t) :
    FrameAccepted t := by
  obtain ⟨_, e⟩ | ⟨_, e⟩ | other := decodeCmd_cases w
  · rw [e] at h
    exact init_accepted h
  · rw [e] at h
    exact teardown_keeps_accepted acc h
  · generalize decodeCmd w = i at other h
    simp only [List.mem_cons, List.not_mem_nil, or_false] at other
    obtain rfl | rfl | rfl | rfl | rfl | rfl := other
    · exact probe_keeps_accepted acc h
    · exact beginFrame_keeps_accepted acc h
    · cases h
      unfold blocksRemainingCmd
      split_ifs <;> exact acc
    · exact decodeBlock_keeps_accepted acc h
    · simp only [exec, execSetDrcHook] at h
      split_ifs at h <;> (cases h; exact acc)
    · cases h
      exact acc

/-- Settles O8: a step that is no command leaves every register of the invariant alone, and each command keeps it. -/
theorem stepKeepsFrameAccepted : Obligations.StepKeepsFrameAccepted := by
  intro s t acc h
  obtain ⟨dec, life, rom⟩ | ⟨w, rest, _, run⟩ := step_cases h
  · obtain ⟨dec', life', _, _, _, _, rom', _, _, _, _⟩ := t
    subst dec life rom
    exact acc
  · exact command_keeps_accepted (s := { s with host := rest, cmd := w }) acc run

end Sys2Proof.Proofs
end

section
/-! PROOFS. Host memory (20_memory.md R50 to R55): what a step does to it (O7), and which of its bytes the payload of a view
consists of (O27). -/

namespace Sys2Proof.Proofs

open Sys2Proof.Machine Sys2Proof.Safety Sys2Proof.Laws

/-! ### What a command and an access do to host memory -/

theorem probe_mem {s t : State} (h : probeCmd s = .next t) : t.mem = s.mem := by
  obtain ⟨c, rfl⟩ | rfl | ⟨r, rfl⟩ := probeCmd_cases h <;> rfl

theorem beginFrame_mem {s t : State} (h : beginFrameCmd s = .next t) : t.mem = s.mem := by
  have kept : Keeps State.mem beginFrameOp := keeps_beginFrame (fun _ _ => rfl) (fun _ _ => rfl) (fun _ _ => rfl)
    (fun _ _ => rfl) (fun _ _ => rfl) (fun _ _ => rfl)
  obtain ⟨c, rfl⟩ | ⟨u, e, rfl⟩ | ⟨c, l, u, e, rfl⟩ := beginFrameCmd_cases h
  · rfl
  · exact (setCode_mem .ok u).trans (kept.ok e)
  · exact (takeError_mem c u).trans (kept.error e)

theorem decodeBlock_mem {s t : State} (h : decodeBlockCmd s = .next t) : t.mem = s.mem := by
  have kept : Preserves (fun u => u.mem = s.mem) decodeBlockOp := preserves_decodeBlock (fun _ _ => rfl) (fun _ _ => rfl)
    (fun _ _ => rfl) (fun _ _ => rfl) (fun _ _ => rfl) (fun _ _ => rfl) (fun _ _ => rfl) (fun _ _ => rfl)
    (fun _ _ _ _ _ => rfl) (fun _ same => same)
  have last := kept s rfl
  obtain ⟨c, rfl⟩ | ⟨_, _, ⟨u, e, rfl⟩ | ⟨c, l, u, e, rfl⟩⟩ := decodeBlockCmd_cases h
  · rfl
  · rw [e] at last; exact last
  · rw [e] at last; exact last

/-- 20_memory.md R50: no command writes host memory. -/
theorem command_mem {w : Word32} {s t : State} (h : exec (decodeCmd w) s = .next t) : t.mem = s.mem := by
  obtain ⟨_, e⟩ | ⟨_, e⟩ | other := decodeCmd_cases w
  · rw [e] at h
    cases h
    rfl
  · rw [e] at h
    simp only [exec, execTeardown] at h
    split_ifs at h <;> (cases h; rfl)
  · generalize decodeCmd w = i at other h
    simp only [List.mem_cons, List.not_mem_nil, or_false] at other
    obtain rfl | rfl | rfl | rfl | rfl | rfl := other
    · exact probe_mem h
    · exact beginFrame_mem h
    · cases h
      unfold blocksRemainingCmd
      split_ifs <;> rfl
    · exact decodeBlock_mem h
    · simp only [exec, execSetDrcHook] at h
      split_ifs at h <;> (cases h; rfl)
    · cases h
      rfl

theorem writeRegister_mem {o : Nat} {v : Word32} {s t : State} (h : writeRegister o v s = .next t) : t.mem = s.mem := by
  unfold writeRegister at h
  split at h
  · exact command_mem (s := { s with cmd := v }) h
  · unfold hostWrite at h
    split at h
    · cases h; rfl
    · split at h <;> cases h

theorem hostRead_mem {o : Nat} {s t : State} (h : hostRead o s = .next t) : t.mem = s.mem := by
  unfold hostRead at h
  split at h
  · cases h; rfl
  · split at h
    · cases h; rfl
    · cases h

theorem hostReadOut_mem {o : Nat} {s t : State} (h : hostReadOut o s = .next t) : t.mem = s.mem := by
  unfold hostReadOut at h
  split at h
  · cases h
  · split at h <;> (cases h; rfl)

theorem runWindow_mem {b : BitVec 48} {s t : State} (h : runCodeWord (.window b) s = .next t) : t.mem = s.mem := by
  unfold runCodeWord at h
  split at h
  · next i e =>
    have four := decodeWindow_mem e
    simp only [List.mem_cons, List.not_mem_nil, or_false] at four
    obtain rfl | rfl | rfl | rfl := four <;> (cases h; rfl)
  · cases h
    rfl

/-- R50, R63: an access leaves host memory as it is, or is the host's own store into it. -/
theorem access_mem_cases {a : HostAccess} {s t : State} (h : access a s = .next t) :
    t.mem = s.mem ∨ ∃ x b, a = .storeByte x b ∧ t.mem = memWrite s.mem x b := by
  cases a with
  | writeReg o v => exact .inl (writeRegister_mem h)
  | readReg o => exact .inl (hostRead_mem h)
  | readOut o => exact .inl (hostReadOut_mem h)
  | writeAddress a v =>
    simp only [access, writeAt] at h
    split at h
    · exact .inl (writeRegister_mem h)
    · cases h
    · cases h
  | readAddress a =>
    simp only [access, readAt] at h
    split at h
    · exact .inl (hostRead_mem h)
    · exact .inl (hostReadOut_mem h)
    · cases h
  | storeByte x b => cases h; exact .inr ⟨x, b, rfl, rfl⟩
  | syncWindow b => exact .inl (runWindow_mem h)

theorem step_mem_cases {s t : State} (h : step s = .next t) :
    t.mem = s.mem ∨ ∃ x b rest, s.host = .storeByte x b :: rest ∧ t.mem = memWrite s.mem x b := by
  cases queue : s.host with
  | nil =>
    rw [step, queue] at h
    cases h
    exact .inl rfl
  | cons a rest =>
    rw [step_access queue] at h
    obtain same | ⟨x, b, rfl, stored⟩ := access_mem_cases h
    · exact .inl same
    · exact .inr ⟨x, b, rest, rfl, stored⟩

/-! ### O7: the canonical memory -/

/-- Settles O7: a step keeps host memory, or is one store, which keeps the canonical form and writes one byte. -/
theorem stepKeepsMemory : Obligations.StepKeepsMemory := by
  intro s t h
  obtain same | ⟨a, b, rest, queue, stored⟩ := step_mem_cases h
  · rw [same]
    exact ⟨id, fun _ => .inl rfl⟩
  · rw [stored]
    refine ⟨memWrite_wf s.mem a b, fun x => ?_⟩
    by_cases at_store : a = x
    · subst at_store
      exact .inr ⟨b, rest, queue, memRead_write_same s.mem a b⟩
    · exact .inl (memRead_write_other s.mem b at_store)

/-! ### O27: the payload of a view -/

/-- 20_memory.md R52: a byte inside the view. -/
theorem viewByte_inside {len : Word32} {i : Nat} (h : i < len.toNat) (m : Memory) (base : Word32) :
    viewByte m base len i = memRead m (base.toNat + i) := if_pos h

/-- R53: a byte at or past the end of the view. -/
theorem viewByte_past {len : Word32} {i : Nat} (h : len.toNat ≤ i) (m : Memory) (base : Word32) :
    viewByte m base len i = 0#8 := if_neg (Nat.not_lt.2 h)

/-- R53: memory outside the view is not looked at. -/
theorem viewByte_congr {m m' : Memory} {base len : Word32}
    (h : ∀ x, base.toNat ≤ x → x < base.toNat + len.toNat → memRead m x = memRead m' x) (i : Nat) :
    viewByte m base len i = viewByte m' base len i := by
  rcases Nat.lt_or_ge i len.toNat with inside | past
  · rw [viewByte_inside inside, viewByte_inside inside]
    exact h _ (by omega) (by omega)
  · rw [viewByte_past past, viewByte_past past]

/-- R54: which of the two bytes of a stream word its bit `j` lies in; the more significant byte comes first in BE. -/
def byteOfBit : Endian → Nat → Nat
  | .be, j => 1 - j / 8
  | .le, j => j / 8

/-- Bit `j` of two bytes put together. -/
theorem byte_append_getLsbD (hi lo : Byte) (j : Nat) :
    (hi ++ lo : BitVec 16).getLsbD j = if j < 8 then lo.getLsbD j else hi.getLsbD (j - 8) :=
  BitVec.getLsbD_append

theorem streamWord_getLsbD (m : Memory) (c : BitCursor) (k : Nat) {j : Nat} (h : j < 16) :
    (streamWord m c k).getLsbD j = (viewByte m c.base c.len (2 * k + byteOfBit c.endian j)).getLsbD (j % 8) := by
  unfold streamWord byteOfBit
  rcases Nat.lt_or_ge j 8 with low | high
  · have byte : j / 8 = 0 := by omega
    have bit : j % 8 = j := by omega
    cases c.endian <;> simp only [byte_append_getLsbD, if_pos low, byte, bit, Nat.add_zero, Nat.sub_zero]
  · have byte : j / 8 = 1 := by omega
    have bit : j % 8 = j - 8 := by omega
    cases c.endian <;> simp only [byte_append_getLsbD, if_neg (Nat.not_lt.2 high), byte, bit, Nat.add_zero, Nat.sub_self]

/-- R54: a fetch is two stream words of `half` payload bits each, the first one in the more significant half. -/
theorem fetchWord_getLsbD (m : Memory) (c : BitCursor) (n : Nat) {half j : Nat} (hw : payloadWidth c.wordMode = 2 * half)
    (h : j < 2 * half) :
    (fetchWord m c n).getLsbD j =
      if j < half then (streamWord m c (2 * n + 1)).getLsbD j else (streamWord m c (2 * n)).getLsbD (j - half) := by
  unfold fetchWord
  cases mode : c.wordMode <;> rw [mode, payloadWidth] at hw
  case w16 =>
    obtain rfl : half = 16 := by omega
    exact BitVec.getLsbD_append
  case w14 =>
    obtain rfl : half = 14 := by omega
    refine BitVec.getLsbD_append.trans ?_
    split
    · next low => simp [low]
    · have high : j - 14 < 14 := by omega
      refine BitVec.getLsbD_append.trans ?_
      simp [high]

/-- R54, R94: payload bit `k` is a bit of stream word `k / half`, counted from its top payload bit. -/
theorem payloadBit_eq_streamWord (m : Memory) (base len : Word32) (p : Packing) (k : Nat) {half : Nat}
    (hw : payloadWidth p.wordMode = 2 * half) :
    payloadBit m base len p k = (streamWord m (cursorInit base len p) (k / half)).getLsbD (half - 1 - k % half) := by
  have pos : 0 < half := by have := payloadWidth_pos p.wordMode; omega
  have word : k / half = 2 * (k / (2 * half)) + k % (2 * half) / half := by
    rw [Nat.mod_mul_left_div_self]
    have := Nat.div_add_mod (k / half) 2
    rw [Nat.div_div_eq_div_mul, Nat.mul_comm half 2] at this
    omega
  have offset : k % half = k % (2 * half) % half := (Nat.mod_mod_of_dvd k (Nat.dvd_mul_left half 2)).symm
  have inside : k % (2 * half) < 2 * half := Nat.mod_lt k (by omega)
  unfold payloadBit
  simp only [hw]
  rw [fetchWord_getLsbD m _ _ hw (by omega), word, offset]
  generalize k % (2 * half) = r at *
  rcases Nat.lt_or_ge r half with first | second
  · rw [if_neg (by omega), Nat.div_eq_of_lt first, Nat.mod_eq_of_lt first, Nat.add_zero]
    congr 1
    omega
  · have one : r / half = 1 := by rw [Nat.div_eq_iff pos]; omega
    have rest : r % half = r - half := by rw [Nat.mod_eq_sub_mod second, Nat.mod_eq_of_lt (by omega)]
    rw [if_pos (by omega), one, rest]
    congr 1
    omega

/-- R54: `packedAt` through the stream word and the byte of it that hold payload bit `k`. -/
theorem packedAt_eq (p : Packing) (k : Nat) {half : Nat} (hw : payloadWidth p.wordMode = 2 * half) :
    packedAt p k = (2 * (k / half) + byteOfBit p.endian (half - 1 - k % half), (half - 1 - k % half) % 8) := by
  obtain ⟨mode, order⟩ := p
  cases mode <;> simp only [payloadWidth] at hw
  case w16 =>
    obtain rfl : half = 16 := by omega
    cases order <;> simp only [packedAt, byteOfBit, Prod.mk.injEq] <;> omega
  case w14 =>
    obtain rfl : half = 14 := by omega
    cases order <;> simp only [packedAt, byteOfBit, Prod.mk.injEq] <;> omega

/-- R52 to R54: in each packing a payload bit is the bit of the view that `packedAt` names. -/
theorem payloadBit_eq_viewByte (m : Memory) (base len : Word32) (p : Packing) (k : Nat) :
    payloadBit m base len p k = (viewByte m base len (packedAt p k).1).getLsbD (packedAt p k).2 := by
  obtain ⟨half, hw⟩ : ∃ half, payloadWidth p.wordMode = 2 * half := by
    cases p.wordMode
    · exact ⟨14, rfl⟩
    · exact ⟨16, rfl⟩
  have bounds : 0 < payloadWidth p.wordMode ∧ payloadWidth p.wordMode ≤ 32 := ⟨payloadWidth_pos _, payloadWidth_le _⟩
  rw [payloadBit_eq_streamWord m base len p k hw, streamWord_getLsbD _ _ _ (by omega), packedAt_eq p k hw]
  rfl

/-- Settles O27: each payload bit is a bit of one byte of the view, and the view is all that such a byte is read from. -/
theorem payloadIsViewBytes : Obligations.PayloadIsViewBytes := by
  refine fun m base len p => ⟨fun k => ⟨fun inside => ?_, fun past => ?_⟩, fun m' same k => ?_⟩
  · rw [payloadBit_eq_viewByte, viewByte_inside inside]
  · rw [payloadBit_eq_viewByte, viewByte_past past]
    exact BitVec.getLsbD_zero
  · rw [payloadBit_eq_viewByte, payloadBit_eq_viewByte, viewByte_congr same]

end Sys2Proof.Proofs
end

section
/-! PROOFS. The Huffman codes of 30_encoding.md R85 and their reader (44_sample_decode.md R160): what a well-formed codebook says
of each of its entries, and HUFF.DEC run on its own (O49). -/

namespace Sys2Proof.Proofs

open Sys2Proof.Machine Sys2Proof.Safety Sys2Proof.Laws

/-- 30_encoding.md R85: no code of a well-formed book is empty. -/
theorem bookWellFormed_len_pos {book : Codebook} (h : bookWellFormed book = true) {e : CodeEntry} (he : e ∈ book) :
    1 ≤ e.len := by
  induction book with
  | nil => cases he
  | cons d ds ih =>
    simp only [bookWellFormed, Bool.and_eq_true, decide_eq_true_eq] at h
    obtain ⟨⟨⟨nonempty, _⟩, _⟩, rest⟩ := h
    rcases List.mem_cons.mp he with rfl | tail
    · exact nonempty
    · exact ih rest tail

/-- A book with an entry reads one bit at least, so that the lower bound of `huffOp` counts for the empty book alone. -/
theorem bookDepth_pos {book : Codebook} (nonempty : book ≠ []) (h : bookWellFormed book = true) : 1 ≤ bookDepth book := by
  obtain ⟨e, he⟩ := List.exists_mem_of_ne_nil book nonempty
  exact (bookWellFormed_len_pos h he).trans (bookDepth_le he)

theorem bookDepth_eq_foldl_map (book : Codebook) : bookDepth book = (book.map CodeEntry.len).foldl max 0 :=
  List.foldl_map.symm

theorem exec_huffDec (book : Codebook) (s : State) :
    exec (.huffDec book) s = answerValue (huffOp book) UnitResult.int s := rfl

/-- Settles O49: `huffOp` on a book whose codes all have a bit, its value kept or its error taken. -/
theorem huffDecReadsCode : Obligations.HuffDecReadsCode := by
  refine fun s book nonempty wf => ⟨fun e he next => ?_, fun noCode => ?_⟩
  · have read := huffOp_ok wf he (bookWellFormed_len_pos wf he) s next
    rw [exec_huffDec]
    exact answer_ok read
  · have fails := huffOp_fails book s noCode
    rw [Nat.max_eq_right (bookDepth_pos nonempty wf), bookDepth_eq_foldl_map] at fails
    rw [exec_huffDec]
    exact answer_raise fails

end Sys2Proof.Proofs
end

section
/-! PROOFS. The BitReader (40_bitreader.md): what BR.INIT, BR.GET and get_signed answer (O24, O25), and the fields that
successive gets return (O26). -/

namespace Sys2Proof.Proofs

open Sys2Proof.Machine Sys2Proof.Safety Sys2Proof.Laws

/-! ### O24: BR.INIT -/

@[simp] theorem cursorInit_left_toNat (base len : Word32) (p : Packing) : (cursorInit base len p).left.toNat = 0 := rfl

@[simp] theorem cursorInit_wptr (base len : Word32) (p : Packing) : (cursorInit base len p).wptr = 0#32 := rfl

@[simp] theorem cursorInit_wordMode (base len : Word32) (p : Packing) :
    (cursorInit base len p).wordMode = p.wordMode := rfl

/-- 20_memory.md R55. -/
theorem viewAdmitted_iff (base : Word32) (p : Packing) :
    viewAdmitted base p = true ↔ base.toNat % 4 = 0 ∨ p = ⟨.w16, .be⟩ := by
  obtain ⟨mode, order⟩ := p
  simp [viewAdmitted]

/-- R92. -/
theorem exec_brInit_admitted {base : Word32} {p : Packing} (h : viewAdmitted base p = true) (len : Word32) (s : State) :
    exec (.brInit base len p) s = .next { s with bc := cursorInit base len p } := by
  have run : brInitOp base len p s = .ok () { s with bc := cursorInit base len p } := by
    rw [brInitOp, requireView, if_pos h]
    rfl
  exact answer_ok run

/-- R55. -/
theorem exec_brInit_misaligned {base : Word32} {p : Packing} (h : ¬ viewAdmitted base p = true) (len : Word32) (s : State) :
    exec (.brInit base len p) s = .refused .misalignedView := by
  have stop : brInitOp base len p s = .error (.refuse .misalignedView) s := by
    rw [brInitOp, requireView, if_neg h]
    rfl
  exact answer_refuse stop

/-- A `BR.INIT` that answers a next state has placed the cursor. -/
theorem exec_brInit_next {base len : Word32} {p : Packing} {s t : State} (h : exec (.brInit base len p) s = .next t) :
    t = { s with bc := cursorInit base len p } := by
  by_cases admitted : viewAdmitted base p = true
  · rw [exec_brInit_admitted admitted] at h
    cases h
    rfl
  · rw [exec_brInit_misaligned admitted] at h
    cases h

/-- Settles O24: the cursor where the view is admitted, the refusal where it is not. -/
theorem brInitResetsCursor : Obligations.BrInitResetsCursor := by
  refine fun s base len p => ⟨fun admitted => ?_, fun unaligned other => ?_⟩
  · exact exec_brInit_admitted ((viewAdmitted_iff base p).2 admitted) len s
  · exact exec_brInit_misaligned (fun h => ((viewAdmitted_iff base p).1 h).elim unaligned other) len s

/-! ### O25: BR.GET and get_signed -/

/-- R93. -/
theorem exec_brGet_ok {n : Nat} (h1 : 1 ≤ n) (h2 : n ≤ 32) (s : State) :
    exec (.brGet n) s = .next { s with unit := .bits (peek s 0 n), bc := after s n } :=
  answer_ok (getBits_ok h1 h2 s)

/-- 93_implementation_defined.md U1. -/
theorem exec_brGet_refused {n : Nat} (h : ¬ (1 ≤ n ∧ n ≤ 32)) (s : State) :
    exec (.brGet n) s = .refused .getWidth :=
  answer_refuse (getBits_refused h s)

/-- R95. -/
theorem exec_getSigned_ok {n : Nat} (h1 : 1 ≤ n) (h2 : n ≤ 32) (s : State) :
    exec (.getSigned n) s = .next { s with unit := .int (sext n (peek s 0 n)), bc := after s n } :=
  answer_ok (getSignedBits_ok h1 h2 s)

/-- U1. -/
theorem exec_getSigned_refused {n : Nat} (h : ¬ (1 ≤ n ∧ n ≤ 32)) (s : State) :
    exec (.getSigned n) s = .refused .getWidth := by
  have stop : getSignedBits n s = .error (.refuse .getWidth) s := op_bind_error (getBits_refused h s)
  exact answer_refuse stop

/-- 00_scope.md R9: `sext_n` reads `n` bits as two's complement. -/
theorem sext_eq_toInt {n v : Nat} (pos : 1 ≤ n) (h : v < 2 ^ n) : sext n v = (BitVec.ofNat n v).toInt := by
  have half : 2 ^ n = 2 * 2 ^ (n - 1) := by
    rw [← Nat.pow_succ']
    congr 1
    omega
  have sign : v < 2 ^ (n - 1) ↔ 2 * v < 2 ^ n := by omega
  rw [BitVec.toInt_eq_toNat_cond, BitVec.toNat_ofNat, Nat.mod_eq_of_lt h]
  simp only [sext, sign, Nat.cast_pow, Nat.cast_ofNat]

/-- 10_state.md R16: what is left of the last word fetched is less than a word. -/
theorem cursorBounded_advance (m : Memory) {c : BitCursor} (h : CursorBounded c) (n : Nat) :
    CursorBounded (advanceCursor m c n) := by
  unfold CursorBounded at *
  rw [advanceCursor_wordMode]
  by_cases within : n ≤ c.left.toNat
  · rw [advance_within m c within]
    have left := toNat_sub6 c.left within
    dsimp only
    omega
  · have width := payloadWidth_le c.wordMode
    obtain ⟨_, enough, last⟩ := wordsFor (payloadWidth_pos c.wordMode) (show 0 < n - c.left.toNat by omega)
    rw [advance_beyond m c within]
    dsimp only
    generalize (n - c.left.toNat + payloadWidth c.wordMode - 1) / payloadWidth c.wordMode = q at *
    rw [Nat.sub_mul, Nat.one_mul] at last
    rw [toNat_ofNat6 (by omega)]
    omega

/-- Settles O25: `getBits` and `getSignedBits` run on their own, with the refusal of the other widths. -/
theorem getReturnsNextBits : Obligations.GetReturnsNextBits := by
  refine fun s n => ⟨fun h1 h2 => ⟨exec_brGet_ok h1 h2 s, ?_, peek_lt s 0 n, fun h => cursorBounded_advance s.mem h n⟩,
    fun outside => ?_⟩
  · rw [exec_getSigned_ok h1 h2, sext_eq_toInt h1 (peek_lt s 0 n)]
    rfl
  · have width : ¬ (1 ≤ n ∧ n ≤ 32) := by omega
    exact ⟨exec_brGet_refused width s, exec_getSigned_refused width s⟩

/-! ### O26: successive gets -/

/-- The fields depend on the bits they cover only. -/
theorem fieldsAt_congr {f g : Nat → Bool} {a b : Nat} {widths : List Nat}
    (h : ∀ k, k < widths.sum → f (a + k) = g (b + k)) : fieldsAt f a widths = fieldsAt g b widths := by
  induction widths generalizing a b with
  | nil => rfl
  | cons n ns ih =>
    rw [List.sum_cons] at h
    have first : bitsFrom f a n = bitsFrom g b n := bitsFrom_congr fun k hk => h k (by omega)
    have others : fieldsAt f (a + n) ns = fieldsAt g (b + n) ns := ih fun k hk => by
      rw [Nat.add_assoc, Nat.add_assoc]
      exact h (n + k) (by omega)
    rw [fieldsAt, fieldsAt, first, others]

/-- R93, R94: successive gets return the consecutive fields of what the cursor has still to return, and move it past all. -/
theorem getRun_eq {widths : List Nat} (h : ∀ n, n ∈ widths → 1 ≤ n ∧ n ≤ 32) (s : State) :
    ∃ x, getRun s widths
      = some (fieldsAt (restBit s.mem s.bc) 0 widths, { s with bc := after s widths.sum, unit := x }) := by
  induction widths generalizing s with
  | nil => exact ⟨s.unit, by rw [List.sum_nil, after_zero]; rfl⟩
  | cons n ns ih =>
    obtain ⟨h1, h2⟩ := h n (by simp)
    obtain ⟨x, rest⟩ := ih (fun k hk => h k (by simp [hk])) { s with unit := .bits (peek s 0 n), bc := after s n }
    have fields : fieldsAt (restBit s.mem (after s n)) 0 ns = fieldsAt (restBit s.mem s.bc) (0 + n) ns :=
      fieldsAt_congr fun k _ => by rw [after, restBit_advance, Nat.zero_add, Nat.zero_add]
    have cursor : advanceCursor s.mem (after s n) ns.sum = after s (n + ns.sum) := advance_add s.mem s.bc n ns.sum
    refine ⟨x, ?_⟩
    simp only [getRun, exec_brGet_ok h1 h2, rest, Option.map_some, fields, List.sum_cons]
    rw [after, cursor]
    rfl

/-- R94: as long as the fetches are counted without wrapping, a cursor fresh from `BR.INIT` returns the payload bit string. -/
theorem restBit_cursorInit (m : Memory) (base len : Word32) (p : Packing) {k : Nat}
    (h : k < payloadWidth p.wordMode * 2 ^ 32) : restBit m (cursorInit base len p) k = payloadBit m base len p k := by
  have count : k / payloadWidth p.wordMode < 2 ^ 32 := Nat.div_lt_of_lt_mul h
  simp only [restBit, payloadBit, cursorInit_left_toNat, cursorInit_wptr, cursorInit_wordMode, Nat.not_lt_zero, if_false,
    Nat.sub_zero, BitVec.zero_add, BitVec.toNat_ofNat, Nat.mod_eq_of_lt count]

/-- R94: `W·BC.wptr − BC.left` counts the bits consumed since `BR.INIT`, as long as `BC.wptr` does not wrap. -/
theorem advance_cursorInit_count (m : Memory) (base len : Word32) (p : Packing) {n : Nat}
    (h : n ≤ payloadWidth p.wordMode * (2 ^ 32 - 1)) :
    payloadWidth p.wordMode * (advanceCursor m (cursorInit base len p) n).wptr.toNat
      = n + (advanceCursor m (cursorInit base len p) n).left.toNat := by
  rcases Nat.eq_zero_or_pos n with rfl | pos
  · rw [advanceCursor_zero]
    exact Nat.mul_zero _
  · have width := payloadWidth_le p.wordMode
    have beyond : ¬ n ≤ (cursorInit base len p).left.toNat := Nat.not_le.2 pos
    obtain ⟨some_word, enough, last⟩ := wordsFor (payloadWidth_pos p.wordMode) pos
    simp only [advance_beyond m _ beyond, cursorInit_left_toNat, cursorInit_wptr, cursorInit_wordMode,
      Nat.sub_zero, BitVec.zero_add]
    generalize (n + payloadWidth p.wordMode - 1) / payloadWidth p.wordMode = q at *
    have words : q - 1 < 2 ^ 32 - 1 :=
      Nat.lt_of_mul_lt_mul_left (a := payloadWidth p.wordMode) (by rw [Nat.mul_comm]; omega)
    rw [Nat.sub_mul, Nat.one_mul] at last
    rw [BitVec.toNat_ofNat, Nat.mod_eq_of_lt (by omega), toNat_ofNat6 (by omega), Nat.mul_comm]
    omega

/-- Settles O26: the run of gets from the cursor that `BR.INIT` placed; `2^36` bits are fewer than `2^32` words. -/
theorem getSequenceIsPayload : Obligations.GetSequenceIsPayload := by
  intro s t base len p widths init allowed short
  obtain rfl := exec_brInit_next init
  have width : 28 ≤ payloadWidth p.wordMode := by cases p.wordMode <;> decide
  obtain ⟨x, run⟩ := getRun_eq allowed { s with bc := cursorInit base len p }
  have fields : fieldsAt (restBit s.mem (cursorInit base len p)) 0 widths
      = fieldsAt (payloadBit s.mem base len p) 0 widths :=
    fieldsAt_congr fun k hk => restBit_cursorInit s.mem base len p (by omega)
  rw [fields] at run
  exact ⟨_, run, advance_cursorInit_count s.mem base len p (by omega), rfl⟩

end Sys2Proof.Proofs
end

section
/-! PROOFS. FrameSync (41_framesync.md): what tells the four sync patterns apart (O3, O17, O18), the fixed header read on a
scratch cursor (O19), and `PROBE` (O20 to O23). -/

namespace Sys2Proof.Proofs

open Sys2Proof.Machine Sys2Proof.Safety Sys2Proof.Laws

/-! ### What tells the patterns apart -/

/-- 30_encoding.md R66: match and mask of the four patterns, in the order of trial. -/
def syncRow : Fin 4 → BitVec 48 × BitVec 48 :=
  ![(sync14leMatch, sync14leMask), (sync14beMatch, sync14beMask), (sync16leMatch, sync16leMask),
    (sync16beMatch, sync16beMask)]

/-- R66: row `i` matches the window. -/
def rowMatches (i : Fin 4) (w : BitVec 48) : Bool := syncMatches (syncRow i).1 (syncRow i).2 w

/-- The byte of bits `8 * j` to `8 * j + 7` of a window: `B[5 - j]`. -/
def windowByte (j : Nat) (w : BitVec 48) : Byte := w.extractLsb' (8 * j) 8

theorem windowByte_and (j : Nat) (w k : BitVec 48) : windowByte j (w &&& k) = windowByte j w &&& windowByte j k :=
  BitVec.extractLsb'_and

theorem windowByte_congr {v w : BitVec 48} {i j : Nat} (other : i ≠ j)
    (same : ∀ k, k < 48 → k / 8 ≠ j → v.getLsbD k = w.getLsbD k) : windowByte i v = windowByte i w := by
  refine BitVec.eq_of_getLsbD_eq fun b hb => ?_
  rw [windowByte, windowByte, BitVec.getLsbD_extractLsb', BitVec.getLsbD_extractLsb']
  by_cases inside : 8 * i + b < 48
  · rw [same (8 * i + b) inside (by omega)]
  · rw [BitVec.getLsbD_of_ge v _ (by omega), BitVec.getLsbD_of_ge w _ (by omega)]

/-- R66: every pattern looks at the whole of `B[0]` and of `B[1]`. -/
theorem syncRow_mask (i : Fin 4) {j : Nat} (hj : j = 5 ∨ j = 4) : windowByte j (syncRow i).2 = BitVec.allOnes 8 := by
  revert i
  obtain rfl | rfl := hj <;> decide

/-- R109, "the rows differ in more than one byte": `B[0]` alone tells which row it is, and so does `B[1]`. -/
theorem syncRow_eq_of_byte {i l : Fin 4} {j : Nat} (hj : j = 5 ∨ j = 4)
    (h : windowByte j (syncRow i).1 = windowByte j (syncRow l).1) : i = l := by
  revert i l
  obtain rfl | rfl := hj <;> decide

theorem windowByte_of_rowMatches {i : Fin 4} {w : BitVec 48} {j : Nat} (hj : j = 5 ∨ j = 4) (h : rowMatches i w = true) :
    windowByte j w = windowByte j (syncRow i).1 := by
  have masked : w &&& (syncRow i).2 = (syncRow i).1 := eq_of_beq h
  rw [← masked, windowByte_and, syncRow_mask i hj, BitVec.and_allOnes]

/-- R109: a change of one byte leaves `B[0]` or `B[1]` as it was, so that it does not lead from one pattern to another. -/
theorem rowMatches_unique {i l : Fin 4} {v w : BitVec 48} {j : Nat}
    (same : ∀ k, k < 48 → k / 8 ≠ j → v.getLsbD k = w.getLsbD k) (before : rowMatches i w = true)
    (now : rowMatches l v = true) : i = l := by
  obtain ⟨kept, hk, other⟩ : ∃ kept, (kept = 5 ∨ kept = 4) ∧ kept ≠ j := by
    by_cases first : j = 5
    · exact ⟨4, .inr rfl, by omega⟩
    · exact ⟨5, .inl rfl, Ne.symm first⟩
  refine syncRow_eq_of_byte hk ?_
  rw [← windowByte_of_rowMatches hk before, ← windowByte_of_rowMatches hk now, windowByte_congr other same]

/-- R66: a window that matches a pattern matches no other. -/
theorem rowMatches_eq_decide {i : Fin 4} {w : BitVec 48} (matched : rowMatches i w = true) (l : Fin 4) :
    rowMatches l w = decide (l = i) := by
  rw [Bool.eq_iff_iff, decide_eq_true_iff]
  constructor
  · exact fun also => (rowMatches_unique (j := 6) (fun _ _ _ => rfl) matched also).symm
  · rintro rfl
    exact matched

/-! ### FS.MATCH on a window -/

/-- R101: what each row of the trial answers. -/
theorem tries_eq (w : BitVec 48) :
    try14le w = (if rowMatches 0 w then some ⟨.w14, .le⟩ else none)
      ∧ try14be w = (if rowMatches 1 w then some ⟨.w14, .be⟩ else none)
      ∧ try16le w = (if rowMatches 2 w then some ⟨.w16, .le⟩ else none)
      ∧ try16be w = (if rowMatches 3 w then some ⟨.w16, .be⟩ else none) := ⟨rfl, rfl, rfl, rfl⟩

/-- Settles O3: no row matches, or row `i` does and the others do not. -/
theorem syncPatternsExclusive : Obligations.SyncPatternsExclusive := by
  intro w
  obtain ⟨row0, row1, row2, row3⟩ := tries_eq w
  by_cases found : ∃ i, rowMatches i w = true
  · obtain ⟨i, matched⟩ := found
    simp only [matchWindow, row0, row1, row2, row3, rowMatches_eq_decide matched]
    fin_cases i <;> simp
  · have unmatched : ∀ i, rowMatches i w = false := fun i => Bool.eq_false_iff.2 fun matched => found ⟨i, matched⟩
    simp [matchWindow, row0, row1, row2, row3, unmatched]

/-- Settles O18: the corrupted pattern does not match by hypothesis, and no other one does. -/
theorem syncCorruptionDetected : Obligations.SyncCorruptionDetected := by
  intro w v j p hp same matched broken
  obtain ⟨i, rfl⟩ : ∃ i, syncRow i = p := List.mem_ofFn.1 hp
  have unmatched : ∀ l, rowMatches l v = false := fun l => Bool.eq_false_iff.2 fun now => by
    obtain rfl := rowMatches_unique same matched now
    exact Bool.eq_false_iff.1 broken now
  obtain ⟨row0, row1, row2, row3⟩ := tries_eq v
  simp [matchWindow, row0, row1, row2, row3, unmatched]

theorem tryPattern_eq (m k w : BitVec 48) (p : Packing) :
    tryPattern m k p w = if w &&& k = m then some p else none := by
  simp only [tryPattern, syncMatches, beq_iff_eq]

theorem exec_fsMatch14le (w : BitVec 48) (s : State) :
    exec (.fsMatch14le w) s = .next { s with unit := .sync (try14le w) } := rfl

theorem exec_fsMatch14be (w : BitVec 48) (s : State) :
    exec (.fsMatch14be w) s = .next { s with unit := .sync (try14be w) } := rfl

theorem exec_fsMatch16le (w : BitVec 48) (s : State) :
    exec (.fsMatch16le w) s = .next { s with unit := .sync (try16le w) } := rfl

theorem exec_fsMatch16be (w : BitVec 48) (s : State) :
    exec (.fsMatch16be w) s = .next { s with unit := .sync (try16be w) } := rfl

/-- Settles O17: each row on its own. -/
theorem syncPatternsTried : Obligations.SyncPatternsTried := by
  intro s w
  rw [exec_fsMatch14le, exec_fsMatch14be, exec_fsMatch16le, exec_fsMatch16be, try14le, try14be, try16le, try16be,
    tryPattern_eq, tryPattern_eq, tryPattern_eq, tryPattern_eq]
  exact ⟨rfl, rfl, rfl, rfl⟩

/-! ### The fixed header -/

/-- R102: what FS.HEADER looks at are fields of the fixed header's first 87 bits. -/
def SameHeader (b b' : Nat → Nat → Nat) : Prop := ∀ off n, off + n ≤ 87 → b off n = b' off n

theorem headerInRange_congr {b b' : Nat → Nat → Nat} (h : SameHeader b b') (r : Rom) :
    HeaderInRange r b ↔ HeaderInRange r b' := by
  rw [HeaderInRange, HeaderInRange, h 39 7 (by decide), h 46 14 (by decide), h 66 4 (by decide), h 70 5 (by decide)]

theorem lengthAt_congr {b b' : Nat → Nat → Nat} (h : SameHeader b b') (mode : WordMode) :
    lengthAt mode b = lengthAt mode b' := by
  unfold lengthAt
  rw [h 46 14 (by decide)]

theorem probeAt_congr {b b' : Nat → Nat → Nat} (h : SameHeader b b') (r : Rom) (mode : WordMode) :
    probeAt r mode b = probeAt r mode b' := by
  rw [probeAt, probeAt, lengthAt_congr h, h 60 6 (by decide), h 66 4 (by decide), h 70 5 (by decide), h 85 2 (by decide)]

/-- R94: the first bits of a scratch cursor fresh on the view are the view's payload. -/
theorem sameHeader_cursorInit (m : Memory) (base len : Word32) (p : Packing) :
    SameHeader (bitsFrom (restBit m (cursorInit base len p))) (bitsFrom (payloadBit m base len p)) := by
  intro off n short
  have width : 28 ≤ payloadWidth p.wordMode := by cases p.wordMode <;> decide
  exact bitsFrom_congr fun k hk => restBit_cursorInit m base len p (by omega)

theorem frameBytes_lengthAt (mode : WordMode) (b : Nat → Nat → Nat) : frameBytes mode (b 46 14 + 1) = lengthAt mode b := by
  cases mode <;> rfl

/-- 30_encoding.md R87: the flags word of an arrangement code of 6 bits. -/
theorem flagsWord_eq {a : Nat} (h : a < 64) (l : Nat) :
    flagsWord a (l != 0) = BitVec.ofNat 32 (a + if l = 0 then 0 else 0x80) := by
  by_cases zero : l = 0 <;> simp [flagsWord, zero, Nat.mod_eq_of_lt h]

/-- R102: FS.HEADER accepts a header in range and returns its fields at the offsets of 30_encoding.md R67; anything else is
REJECT. The checks of `amode`, `i` and `k` against their widths never fail. -/
theorem fsHeader_eq_some_iff (m : Memory) (r : Rom) (c : BitCursor) (h : ProbeResult) :
    fsHeader m r c = some h ↔
      HeaderInRange r (bitsFrom (restBit m c)) ∧ h = probeAt r c.wordMode (bitsFrom (restBit m c)) := by
  have amode : bitsFrom (restBit m c) 60 6 < 64 := bitsFrom_lt _ 60 6
  have sfreq : bitsFrom (restBit m c) 66 4 < 16 := bitsFrom_lt _ 66 4
  have rate : bitsFrom (restBit m c) 70 5 < 32 := bitsFrom_lt _ 70 5
  simp only [fsHeader, cursorGet_eq, advance_add, bitsFrom_advance, advanceCursor_wordMode, Nat.add_zero, Nat.reduceAdd]
  have results : ProbeResult.mk (flagsWord (bitsFrom (restBit m c) 60 6) (bitsFrom (restBit m c) 85 2 != 0))
      (tget r.sampleRate (bitsFrom (restBit m c) 66 4)) (tget r.bitRate (bitsFrom (restBit m c) 70 5))
      (frameBytes c.wordMode (bitsFrom (restBit m c) 46 14 + 1)) = probeAt r c.wordMode (bitsFrom (restBit m c)) := by
    rw [flagsWord_eq amode, frameBytes_lengthAt]
    rfl
  simp only [results, Option.ite_none_left_eq_some, Option.some.injEq, not_or, HeaderInRange, ne_eq,
    eq_comm (b := h)]
  constructor
  · rintro ⟨blocks, size, _, ⟨_, hz⟩, ⟨_, bits⟩, rfl⟩
    exact ⟨⟨by omega, by omega, hz, bits⟩, rfl⟩
  · rintro ⟨⟨blocks, size, hz, bits⟩, rfl⟩
    exact ⟨by omega, by omega, by omega, ⟨by omega, hz⟩, ⟨by omega, bits⟩, rfl⟩

/-- R102 on a view: the fields are those of its payload. -/
theorem fsHeader_view_eq_some_iff (m : Memory) (r : Rom) (base len : Word32) (p : Packing) (h : ProbeResult) :
    fsHeader m r (cursorInit base len p) = some h ↔
      HeaderInRange r (bitsFrom (payloadBit m base len p)) ∧ h = probeAt r p.wordMode (bitsFrom (payloadBit m base len p)) := by
  have same := sameHeader_cursorInit m base len p
  rw [fsHeader_eq_some_iff, headerInRange_congr same, probeAt_congr same, cursorInit_wordMode]

theorem fsHeader_of_inRange {m : Memory} {r : Rom} {base len : Word32} {p : Packing}
    (h : HeaderInRange r (bitsFrom (payloadBit m base len p))) :
    fsHeader m r (cursorInit base len p) = some (probeAt r p.wordMode (bitsFrom (payloadBit m base len p))) :=
  (fsHeader_view_eq_some_iff m r base len p _).2 ⟨h, rfl⟩

theorem fsHeader_of_not_inRange {m : Memory} {r : Rom} {base len : Word32} {p : Packing}
    (h : ¬ HeaderInRange r (bitsFrom (payloadBit m base len p))) : fsHeader m r (cursorInit base len p) = none :=
  Option.eq_none_iff_forall_ne_some.2 fun x found => h ((fsHeader_view_eq_some_iff m r base len p x).1 found).1

/-! ### O19: FS.HEADER -/

/-- 20_memory.md R55: FS.HEADER on a view that the packing admits. -/
theorem exec_fsHeader_admitted {base : Word32} {p : Packing} (h : viewAdmitted base p = true) (len : Word32) (s : State) :
    exec (.fsHeader base len p) s
      = .next { s with unit := .header (fsHeader s.mem s.rom (cursorInit base len p)) } := if_pos h

/-- R55: the refusal of any other view. -/
theorem exec_fsHeader_misaligned {base : Word32} {p : Packing} (h : viewAdmitted base p = false) (len : Word32) (s : State) :
    exec (.fsHeader base len p) s = .refused .misalignedView := if_neg (Bool.eq_false_iff.1 h)

/-- Settles O19: the header read on a scratch cursor, where the view is admitted. -/
theorem fsHeaderParses : Obligations.FsHeaderParses := by
  refine fun s base len p => ⟨fun admitted => ⟨fun inRange => ?_, fun outOfRange => ?_⟩, fun refused => ?_⟩
  · rw [exec_fsHeader_admitted admitted, fsHeader_of_inRange inRange]
  · rw [exec_fsHeader_admitted admitted, fsHeader_of_not_inRange outOfRange]
  · exact exec_fsHeader_misaligned refused len s

/-! ### PROBE -/

/-- 60_exceptions.md R271: a view that is not null and not empty. -/
theorem badView_eq_false_iff (s : State) : badView s = false ↔ s.args.bufAddr ≠ 0#32 ∧ s.args.bufLen ≠ 0#32 := by
  rw [badView, Bool.or_eq_false_iff, beq_eq_false_iff_ne, beq_eq_false_iff_ne]

/-- R100: what PROBE does with the answer of FS.HEADER. -/
def probeOutcome (s : State) : Option ProbeResult → State
  | none => probeFail s
  | some h => probeFound h s

/-- R100: PROBE on a view without a sync pattern. -/
theorem probeCmd_no_pattern {s : State} (ready : s.life = .ready) (view : badView s = false)
    (unmatched : fsMatch s.mem s.args.bufAddr s.args.bufLen = none) : probeCmd s = .next (probeFail s) := by
  simp only [probeCmd, ready, view, unmatched, reduceCtorEq, if_false, Bool.false_eq_true]

/-- R100: PROBE on a sync pattern answers by the header behind it. -/
theorem probeCmd_pattern {s : State} {p : Packing} (ready : s.life = .ready) (view : badView s = false)
    (found : fsMatch s.mem s.args.bufAddr s.args.bufLen = some p) (admitted : viewAdmitted s.args.bufAddr p = true) :
    probeCmd s = .next (probeOutcome s (fsHeader s.mem s.rom (cursorInit s.args.bufAddr s.args.bufLen p))) := by
  simp only [probeCmd, ready, view, found, admitted, reduceCtorEq, if_false, if_true, Bool.false_eq_true]
  cases fsHeader s.mem s.rom (cursorInit s.args.bufAddr s.args.bufLen p) with
  | none => rfl
  | some r => rfl

/-- R100: PROBE answers OK only where it found a pattern and FS.HEADER accepted the header. -/
theorem probeCmd_ok {s t : State} (h : probeCmd s = .next t) (ok : t.code = .ok) :
    ∃ p r, fsMatch s.mem s.args.bufAddr s.args.bufLen = some p
      ∧ fsHeader s.mem s.rom (cursorInit s.args.bufAddr s.args.bufLen p) = some r ∧ t = probeFound r s := by
  unfold probeCmd at h
  split_ifs at h
  · cases h; cases ok
  · cases h; cases ok
  · split at h
    · cases h; cases ok
    · next p found =>
      split_ifs at h
      split at h
      · cases h; cases ok
      · next r header => cases h; exact ⟨p, r, found, header, rfl⟩

theorem exec_probe (s : State) : exec .probe s = probeCmd s := rfl

/-- Settles O20: a pattern, and a header that FS.HEADER accepts. -/
theorem probeFindsFrame : Obligations.ProbeFindsFrame := by
  intro s p ready buf len found admitted inRange
  have view := (badView_eq_false_iff s).2 ⟨buf, len⟩
  rw [exec_probe, probeCmd_pattern ready view found admitted, fsHeader_of_inRange inRange]
  rfl

/-- R262: what `probeFail` leaves alone, with its free values in three result registers. -/
theorem probeFail_frame (s : State) :
    (probeFail s).code = .syncNotFound ∧ (probeFail s).res.frameLen = 0#32 ∧ (probeFail s).res.blocks = s.res.blocks
      ∧ (probeFail s).res.outCh = s.res.outCh
      ∧ probeFail s = { s with res := (probeFail s).res, code := (probeFail s).code, free := (probeFail s).free } :=
  ⟨rfl, rfl, rfl, rfl, rfl⟩

/-- Settles O21: both cases end in `probeFail`. -/
theorem probeFindsNothing : Obligations.ProbeFindsNothing := by
  intro s ready buf len nothing
  have view := (badView_eq_false_iff s).2 ⟨buf, len⟩
  refine ⟨probeFail s, ?_, probeFail_frame s⟩
  obtain unmatched | ⟨p, found, admitted, outOfRange⟩ := nothing
  · exact probeCmd_no_pattern ready view unmatched
  · rw [exec_probe, probeCmd_pattern ready view found admitted, fsHeader_of_not_inRange outOfRange]
    rfl

/-- Settles O22: each of PROBE's answers writes the code, and at most the four result registers besides. -/
theorem probeNonMutating : Obligations.ProbeNonMutating := by
  intro s t h
  obtain ⟨c, rfl⟩ | rfl | ⟨r, rfl⟩ := probeCmd_cases h <;> rfl

/-- 30_encoding.md R70: the bounds on the length of a frame whose FSIZE is in range. -/
theorem lengthAt_bounds {b : Nat → Nat → Nat} (low : 95 ≤ b 46 14) (high : b 46 14 < 2 ^ 14) (mode : WordMode) :
    96 ≤ lengthAt mode b ∧ lengthAt mode b < 2 ^ 32 ∧ (mode = .w14 → 108 ≤ lengthAt mode b) := by
  cases mode with
  | w16 => simp only [lengthAt, reduceCtorEq, false_implies, and_true]; omega
  | w14 => simp only [lengthAt, forall_const]; omega

/-- Settles O23: an accepted header has FSIZE at least 95, and its length fits `RES_FRAME_LEN`. -/
theorem probeLengthBound : Obligations.ProbeLengthBound := by
  intro s t h ok
  obtain ⟨p, r, found, header, rfl⟩ := probeCmd_ok h ok
  obtain ⟨⟨_, size, _, _⟩, rfl⟩ := (fsHeader_view_eq_some_iff _ _ _ _ _ _).1 header
  obtain ⟨least, fits, least14⟩ := lengthAt_bounds size (bitsFrom_lt _ 46 14) p.wordMode
  have reported : (probeFound (probeAt s.rom p.wordMode (bitsFrom (payloadBit s.mem s.args.bufAddr s.args.bufLen p)))
      s).res.frameLen.toNat = lengthAt p.wordMode (bitsFrom (payloadBit s.mem s.args.bufAddr s.args.bufLen p)) :=
    (BitVec.toNat_ofNat _ _).trans (Nat.mod_eq_of_lt fits)
  rw [reported]
  refine ⟨least, fun q matched w14 => least14 ?_⟩
  obtain rfl := Option.some.inj (found.symm.trans matched)
  exact w14

end Sys2Proof.Proofs
end

section
/-! PROOFS. The end of a sub-block (43_subframe.md): how an operation that reads optional fields runs, SF.FOOTER and LFE.ROTATE
(O37), ADVANCE (O36), DSYNC.CHECK. None of them can stop. -/

namespace Sys2Proof.Proofs

open Sys2Proof.Machine Sys2Proof.Safety Sys2Proof.Laws

-- As in the tests: elaborating these declarations side by side needs more threads than the checker's memory limit allows.
set_option Elab.async false

/-! ### The micro-operations of the sub-block, run alone -/

theorem exec_advance (s : State) : exec .advance s = answerUnit advanceOp s := rfl
theorem exec_sfHeader (s : State) : exec .sfHeader s = answerUnit sfHeaderOp s := rfl
theorem exec_readBitalloc (c : Fin 8) (s : State) :
    exec (.readBitalloc c) s = answerValue (readBitallocOp c.val) UnitResult.bits s := rfl
theorem exec_readScales (c : Fin 8) (s : State) : exec (.readScales c) s = answerUnit (readScalesOp c.val) s := rfl
theorem exec_readJoint (c : Fin 8) (s : State) : exec (.readJoint c) s = answerUnit (readJointOp c.val) s := rfl
theorem exec_ssBody (ssf : Fin 4) (s : State) : exec (.ssBody ssf) s = answerUnit (ssBodyOp ssf.val) s := rfl
theorem exec_dsyncCheck (ssf : Fin 4) (s : State) :
    exec (.dsyncCheck ssf) s = answerUnit (dsyncCheckOp ssf.val) s := rfl
theorem exec_sfFooter (s : State) : exec .sfFooter s = answerUnit sfFooterOp s := rfl
theorem exec_phUpdate (s : State) : exec .phUpdate s = .next (phUpdate s) := rfl
theorem exec_synQmf32 (c : Fin 8) (s : State) : exec (.synQmf32 c) s = .next (synQmf32 s c.val) := rfl
theorem exec_dmxApply (s : State) : exec .dmxApply s = .next (dmxApply s) := rfl
theorem exec_lfeInterp (ssf : Fin 4) (s : State) : exec (.lfeInterp ssf) s = .next (lfeInterp s ssf.val) := rfl
theorem exec_decodeBlock (s : State) : exec .decodeBlock s = decodeBlockCmd s := rfl

/-! ### Reading at a place of the stream -/

section Reading

variable {α β : Type} {s t u : State} {p : Nat}

/-- An operation that ends with a result hands over to what follows it. -/
theorem op_run {x : Op α} {f : α → Op β} {a : α} {r : EStateM.Result Stop State β} (h : x s = .ok a t) (k : f a t = r) :
    (x >>= f) s = r := (op_bind_ok h).trans k

theorem op_get_run {f : State → Op β} {r : EStateM.Result Stop State β} (k : f s s = r) : (get >>= f) s = r :=
  op_run (op_get s) k

/-- A part of an operation that runs only where `p` holds, and what follows it. -/
theorem op_optional {p : Prop} [Decidable p] {x : Op α} {k : Op β} {r : EStateM.Result Stop State β} (t : State)
    (yes : p → ∃ a, x s = .ok a t) (no : ¬ p → s = t) (rest : k t = r) : (if p then x >>= fun _ => k else k) s = r := by
  by_cases h : p
  · obtain ⟨a, run⟩ := yes h
    rw [if_pos h]
    exact op_run run rest
  · rw [if_neg h, no h]
    exact rest

/-- A state with the memory and the parameters of `s` whose cursor stands `p` bits behind that of `s`. -/
def Behind (s t : State) (p : Nat) : Prop := t.mem = s.mem ∧ t.rom = s.rom ∧ t.bc = after s p

theorem Behind.bc_eq (h : Behind s t p) : t.bc = after s p := h.2.2

theorem Behind.rom_eq (h : Behind s t p) : t.rom = s.rom := h.2.1

theorem Behind.peek_eq (h : Behind s t p) (off n : Nat) : peek t off n = peek s (p + off) n := peek_after h.1 h.bc_eq off n

theorem Behind.after_eq (h : Behind s t p) (n : Nat) : after t n = after s (p + n) := after_after h.1 h.bc_eq n

theorem behind_zero (s : State) : Behind s s 0 := ⟨rfl, rfl, (after_zero s).symm⟩

theorem Behind.getBits {n : Nat} (h : Behind s t p) (h1 : 1 ≤ n := by decide) (h2 : n ≤ 32 := by decide) :
    getBits n t = .ok (peek s p n) { t with bc := after s (p + n) } := by
  rw [getBits_ok h1 h2, h.peek_eq, h.after_eq, Nat.add_zero]

theorem Behind.skipBits {n : Nat} (h : Behind s t p) (h1 : 1 ≤ n := by decide) (h2 : n ≤ 32 := by decide) :
    skipBits n t = .ok () { t with bc := after s (p + n) } := by
  rw [skipBits_ok h1 h2, h.after_eq]

theorem Behind.forEach_skipBits {ι : Type} {n : Nat} (xs : List ι) (h : Behind s t p) (h1 : 1 ≤ n := by decide)
    (h2 : n ≤ 32 := by decide) :
    forEach xs (fun _ => Machine.skipBits n) t = .ok () { t with bc := after s (p + n * xs.length) } := by
  induction xs generalizing t p with
  | nil => rw [List.length_nil, Nat.mul_zero, Nat.add_zero, ← h.bc_eq]; rfl
  | cons x xs ih =>
    refine op_run (h.skipBits h1 h2) ((ih (t := { t with bc := after s (p + n) }) ⟨h.1, h.2.1, rfl⟩).trans ?_)
    rw [List.length_cons, Nat.mul_succ, Nat.add_assoc, Nat.add_comm n]

end Reading

/-! ### O37: SF.FOOTER and LFE.ROTATE -/

/-- 43_subframe.md R158. -/
theorem vget_lfeRotate_low {s : State} {i : Nat} (h : i < 32) (low : i < lfeSpan s) :
    vget (lfeRotate s).lfe i = vget s.lfe (i + lfeSpan s) := by
  rw [lfeRotate, vget_vtab _ h, if_pos low]

theorem vget_lfeRotate_high {s : State} {i : Nat} (h : i < 32) (high : lfeSpan s ≤ i) :
    vget (lfeRotate s).lfe i = vget s.lfe i := by
  rw [lfeRotate, vget_vtab _ h, if_neg (Nat.not_lt.2 high)]

/-- R157: the footer drops its fields and rotates; it cannot stop. -/
theorem sfFooterOp_ok (s : State) :
    sfFooterOp s = .ok () { s with lfe := (lfeRotate s).lfe, bc := after s (footerBits s) } := by
  unfold sfFooterOp footerBits
  refine op_get_run ?_
  refine op_optional { s with bc := after s (if s.sh.timestamp = 1#1 then 32 else 0) } (fun yes => ?_) (fun no => ?_) ?_
  · exact ⟨(), by rw [if_pos yes]; exact skipBits_ok (by decide) (by decide) s⟩
  · rw [if_neg no, after_zero]
  generalize (if s.sh.timestamp = 1#1 then 32 else 0) = stamp
  have aux : ∀ {k : Op Unit} {r}, k { s with bc := after s (stamp
        + if s.sh.auxData = 1#1 then 6 + 8 * peek s stamp 6 else 0) } = r →
      (if s.sh.auxData = 1#1 then do
        let n ← getBits 6
        forEach (List.range n) fun _ => skipBits 8
        k
      else k) { s with bc := after s stamp } = r := by
    intro k r rest
    by_cases h : s.sh.auxData = 1#1
    · rw [if_pos h] at rest ⊢
      refine op_run (Behind.getBits (s := s) ⟨rfl, rfl, rfl⟩) ?_
      refine op_run (Behind.forEach_skipBits (s := s) _ ⟨rfl, rfl, rfl⟩) ?_
      rw [List.length_range, Nat.add_assoc]
      exact rest
    · rw [if_neg h] at rest ⊢
      exact rest
  refine aux ?_
  refine op_optional { s with bc := after s (stamp + (if s.sh.auxData = 1#1 then 6 + 8 * peek s stamp 6 else 0)
    + if s.sh.crcPresent = 1#1 ∧ (s.sh.downmix = 1#1 ∨ s.sh.dynrange = 1#1) then 16 else 0) } (fun yes => ?_) (fun no => ?_) rfl
  · exact ⟨(), by rw [if_pos yes]; exact Behind.skipBits (s := s) ⟨rfl, rfl, rfl⟩⟩
  · rw [if_neg no, Nat.add_zero]

/-- Settles O37: the rotated half, LFE.ROTATE alone, and the footer. -/
theorem footerSkipsAndRotates : Obligations.FooterSkipsAndRotates := by
  intro s
  refine ⟨(lfeRotate s).lfe, fun i hi => ⟨fun low _ => vget_lfeRotate_low hi low, vget_lfeRotate_high hi⟩, rfl, ?_⟩
  rw [exec_sfFooter]
  exact answer_ok (sfFooterOp_ok s)

/-! ### O36: ADVANCE -/

/-- 43_subframe.md R136: ADVANCE is the move of the position, and the footer where that leaves the last subframe. -/
theorem advanceOp_eq (s : State) :
    advanceOp s =
      if s.sh.subframes.toNat ≤ (nextPosition s.sf.subsubframes.toNat s.seq).currentSubframe.toNat then
        sfFooterOp { s with seq := nextPosition s.sf.subsubframes.toNat s.seq }
      else .ok () { s with seq := nextPosition s.sf.subsubframes.toNat s.seq } := by
  unfold advanceOp
  refine op_get_run (op_run (t := { s with seq := nextPosition s.sf.subsubframes.toNat s.seq }) rfl (op_get_run ?_))
  split_ifs <;> rfl

/-- R136: ADVANCE cannot stop, and moves the position alone but for what the footer writes. -/
theorem advanceOp_ok (s : State) :
    ∃ bc lfe, advanceOp s
      = .ok () { s with seq := nextPosition s.sf.subsubframes.toNat s.seq, bc := bc, lfe := lfe } := by
  rw [advanceOp_eq]
  split_ifs with last
  · exact ⟨_, _, sfFooterOp_ok _⟩
  · exact ⟨s.bc, s.lfe, rfl⟩

theorem nextPosition_eq (n : Nat) (q : Sequencer) :
    nextPosition n q = if q.currentSubsubframe.toNat + 1 < n then
        { q with currentSubsubframe := q.currentSubsubframe + 1#3 }
      else { q with currentSubsubframe := 0#3, currentSubframe := q.currentSubframe + 1#5 } := by
  unfold nextPosition
  by_cases inside : q.currentSubsubframe.toNat + 1 < n
  · rw [if_pos inside, if_neg (Nat.not_le.2 inside)]
  · rw [if_neg inside, if_pos (Nat.not_lt.1 inside)]

theorem nextPosition_frame (n : Nat) (q : Sequencer) : (nextPosition n q).frame = q.frame := by
  unfold nextPosition
  split_ifs <;> rfl

/-- Settles O36: the two sides of `advanceOp_eq`. -/
theorem advanceMovesPosition : Obligations.AdvanceMovesPosition := by
  intro s
  dsimp only
  rw [← nextPosition_eq, exec_sfFooter, exec_advance]
  have run := advanceOp_eq s
  refine ⟨fun inside => ?_, fun beyond => ?_⟩
  · rw [if_neg (Nat.not_le.2 inside)] at run
    exact answer_ok run
  · rw [if_pos beyond, sfFooterOp_ok] at run
    exact ⟨_, answer_ok (sfFooterOp_ok _), answer_ok run, rfl⟩

/-! ### DSYNC.CHECK -/

/-- 43_subframe.md R156: DSYNC.CHECK cannot stop; it writes the cursor and `WARN_DSYNC`. -/
theorem dsyncCheckOp_ok (ssf : Nat) (s : State) :
    ∃ bc warn, dsyncCheckOp ssf s = .ok () { s with bc := bc, warnDsync := warn } := by
  unfold dsyncCheckOp
  by_cases marker : s.sh.aspf = 1#1 ∨ ssf + 1 = s.sf.subsubframes.toNat
  · by_cases value : peek s 0 16 = 0xFFFF
    · refine ⟨after s 16, s.warnDsync, op_get_run ?_⟩
      rw [if_pos marker]
      refine op_run (getBits_ok (by decide) (by decide) s) ?_
      rw [if_neg (not_not.2 value)]
      rfl
    · refine ⟨after s 16, true, op_get_run ?_⟩
      rw [if_pos marker]
      refine op_run (getBits_ok (by decide) (by decide) s) ?_
      rw [if_pos value]
      rfl
  · refine ⟨s.bc, s.warnDsync, op_get_run ?_⟩
    rw [if_neg marker]
    rfl

end Sys2Proof.Proofs
end

section
/-! PROOFS. The readers of the side information (43_subframe.md): allocation indices (O39), scale factors (O40) and joint scale
factors (O41). A row of values in the stream is described once, by `RawsAt`; each reader then runs along it. -/

namespace Sys2Proof.Proofs

open Sys2Proof.Machine Sys2Proof.Safety Sys2Proof.Laws

-- As in the tests: elaborating these declarations side by side needs more threads than the checker's memory limit allows.
set_option Elab.async false

/-! ### One code at a place of the stream -/

section Codes

variable {s t : State} {p : Nat} {book : Codebook}

theorem Behind.huffOp {e : CodeEntry} (h : Behind s t p) (wf : bookWellFormed book = true) (he : e ∈ book)
    (next : peek s p e.len = e.code) : huffOp book t = .ok e.value { t with bc := after s (p + e.len) } := by
  rw [huffOp_ok wf he (bookWellFormed_len_pos wf he) t (by rw [h.peek_eq]; exact next), h.after_eq]

/-- 44_sample_decode.md R160: bits that no code begins. -/
theorem Behind.huffOp_fails (h : Behind s t p) (wf : bookWellFormed book = true) (nonempty : book ≠ [])
    (none : NoCodeAt s book p) :
    Machine.huffOp book t
      = .error (.raise .corruptStream .huffman) { t with bc := after s (p + longestCode book) } := by
  have fails := Laws.huffOp_fails book t fun e he => by rw [h.peek_eq]; exact none e he
  rw [Nat.max_eq_right (bookDepth_pos nonempty wf), bookDepth_eq_foldl_map, h.after_eq] at fails
  exact fails

theorem op_stop {α β : Type} {x : Op α} {f : α → Op β} {e : Stop} {r : EStateM.Result Stop State β}
    (h : x s = .error e t) (k : .error e t = r) : (x >>= f) s = r := (op_bind_error h).trans k

end Codes

/-! ### O39: READ_BITALLOC -/

/-- R141: the three forms of an allocation index. -/
theorem bitallocIndex_eq (c : Nat) (s : State) : bitallocIndex c s =
    if (vget s.chF c).bitallocHuffman.toNat = 6 then .ok (peek s 0 5 : Int) { s with bc := after s 5 }
    else if (vget s.chF c).bitallocHuffman.toNat = 5 then .ok (peek s 0 4 : Int) { s with bc := after s 4 }
    else huffOp (tget s.rom.huffBitalloc (vget s.chF c).bitallocHuffman.toNat) s := by
  unfold bitallocIndex
  refine op_get_run ?_
  split_ifs
  · exact op_run (getBits_ok (by decide) (by decide) s) rfl
  · exact op_run (getBits_ok (by decide) (by decide) s) rfl
  · rfl

/-- R142: an index in range. -/
theorem readBitallocOp_ok {c v : Nat} {s t : State} (read : bitallocIndex c s = .ok (v : Int) t) (range : v ≤ 26) :
    readBitallocOp c s = .ok v t := by
  refine op_run read ?_
  rw [if_neg (by omega)]
  rfl

/-- R142: an index out of range. -/
theorem readBitallocOp_raises {c : Nat} {v : Int} {s t : State} (read : bitallocIndex c s = .ok v t)
    (range : v < 0 ∨ 26 < v) : readBitallocOp c s = .error (.raise .corruptStream .bitalloc) t := by
  refine op_run read ?_
  rw [if_pos (by omega)]
  rfl

/-- Settles O39: the index by its form, and the bound on it. -/
theorem readBitallocBounded : Obligations.ReadBitallocBounded := by
  intro s c
  have index := bitallocIndex_eq c.val s
  rw [exec_readBitalloc]
  refine ⟨fun four => ?_, fun five => ⟨fun range => ?_, fun range => ?_⟩,
    fun coded wf nonempty => ⟨fun e he next => ⟨fun v value range => ?_, fun range => ?_⟩, fun noCode => ?_⟩⟩
  · have small := peek_lt s 0 4
    rw [if_neg (by omega), if_pos four] at index
    exact answer_ok (readBitallocOp_ok index (by omega))
  · rw [if_pos five] at index
    exact answer_ok (readBitallocOp_ok index range)
  · rw [if_pos five] at index
    exact answer_raise (readBitallocOp_raises index (by omega))
  all_goals rw [if_neg (by omega), if_neg (by omega)] at index
  · rw [(behind_zero s).huffOp wf he next, value, Nat.zero_add] at index
    exact answer_ok (readBitallocOp_ok index range)
  · rw [(behind_zero s).huffOp wf he next, Nat.zero_add] at index
    exact answer_raise (readBitallocOp_raises index range)
  · rw [(behind_zero s).huffOp_fails wf nonempty noCode, Nat.zero_add] at index
    exact answer_raise (op_bind_error index)

/-! ### A row of scale values in the stream -/

/-- R146, R152: the value of selector `h` that stands `p` bits ahead, and the bits that it takes. -/
def RawAt (s : State) (h p : Nat) (v : Int) (n : Nat) : Prop :=
  (h ≤ 4 ∧ ∃ e, e ∈ tget s.rom.huffScale h ∧ peek s p e.len = e.code ∧ v = e.value ∧ n = e.len)
    ∨ (h = 5 ∧ v = peek s p 6 ∧ n = 6) ∨ (h = 6 ∧ v = peek s p 7 ∧ n = 7)

/-- The values `vs` of selector `h` that stand from offset `p` to offset `q`. -/
def RawsAt (s : State) (h p : Nat) : List Int → Nat → Prop
  | [], q => q = p
  | v :: vs, q => ∃ n, RawAt s h p v n ∧ RawsAt s h (p + n) vs q

/-- The selector's codebook can be read (30_encoding.md R85). -/
def BookReadable (s : State) (h : Nat) : Prop :=
  h ≤ 4 → bookWellFormed (tget s.rom.huffScale h) = true ∧ tget s.rom.huffScale h ≠ []

theorem rawsAt_codes {s : State} {h p : Nat} {es : List CodeEntry} (coded : h ≤ 4)
    (mem : ∀ e, e ∈ es → e ∈ tget s.rom.huffScale h) (codes : CodesAt (restBit s.mem s.bc) p es) :
    RawsAt s h p (es.map CodeEntry.value) (p + codesLength es) := by
  induction es generalizing p with
  | nil => rfl
  | cons e es ih =>
    obtain ⟨first, rest⟩ := codes
    have tail := ih (fun d hd => mem d (by simp [hd])) rest
    refine ⟨e.len, .inl ⟨coded, e, mem e (by simp), first, rfl, rfl⟩, ?_⟩
    rw [codesLength, List.map_cons, List.sum_cons, ← Nat.add_assoc]
    exact tail

theorem rawsAt_fields {s : State} {h w : Nat} (raw : ∀ p, RawAt s h p (peek s p w) w) (p n : Nat) :
    RawsAt s h p ((List.range n).map fun k => (peek s (p + w * k) w : Int)) (p + w * n) := by
  induction n generalizing p with
  | zero => rfl
  | succ n ih =>
    rw [List.range_succ_eq_map, List.map_cons, List.map_map, Nat.mul_zero, Nat.add_zero]
    refine ⟨w, raw p, ?_⟩
    have shift : (fun k => (peek s (p + w * k) w : Int)) ∘ Nat.succ = fun k => (peek s (p + w + w * k) w : Int) := by
      funext k
      show (peek s (p + w * (k + 1)) w : Int) = _
      rw [Nat.mul_succ, Nat.add_comm (w * k), ← Nat.add_assoc]
    rw [shift, Nat.mul_succ, Nat.add_comm (w * n), ← Nat.add_assoc]
    exact ih (p + w)

theorem rawAt_field6 (s : State) (p : Nat) : RawAt s 5 p (peek s p 6) 6 := .inr (.inl ⟨rfl, rfl, rfl⟩)

theorem rawAt_field7 (s : State) (p : Nat) : RawAt s 6 p (peek s p 7) 7 := .inr (.inr ⟨rfl, rfl, rfl⟩)

/-- R152: what `JointsAt` says of the stream. -/
theorem rawsAt_of_jointsAt {s : State} {h n : Nat} {vals : List Int} {used : Nat} (at0 : JointsAt s h n vals used) :
    RawsAt s h 0 vals used ∧ vals.length = n := by
  obtain ⟨coded, es, len, mem, codes, rfl, rfl⟩ | ⟨rfl, rfl, rfl⟩ | ⟨rfl, rfl, rfl⟩ := at0
  · have raws := rawsAt_codes coded mem codes
    rw [Nat.zero_add] at raws
    exact ⟨raws, by rw [List.length_map, len]⟩
  · have raws := rawsAt_fields (rawAt_field6 s) 0 n
    simp only [Nat.zero_add] at raws
    exact ⟨raws, by simp⟩
  · have raws := rawsAt_fields (rawAt_field7 s) 0 n
    simp only [Nat.zero_add] at raws
    exact ⟨raws, by simp⟩

section Values

variable {s t : State} {h p n : Nat} {v : Int}

/-- R152: one value read. -/
theorem Behind.jointScaleOp (bh : Behind s t p) (ok : BookReadable s h) (raw : RawAt s h p v n) :
    jointScaleOp h t = .ok v { t with bc := after s (p + n) } := by
  unfold Machine.jointScaleOp
  refine op_get_run ?_
  obtain ⟨coded, e, he, next, rfl, rfl⟩ | ⟨rfl, rfl, rfl⟩ | ⟨rfl, rfl, rfl⟩ := raw
  · rw [if_pos coded, show tget t.rom.huffScale h = tget s.rom.huffScale h by rw [bh.rom_eq]]
    exact bh.huffOp (ok coded).1 he next
  · exact op_run bh.getBits rfl
  · exact op_run bh.getBits rfl

/-- R160: no value read. -/
theorem Behind.jointScaleOp_fails (bh : Behind s t p) (ok : BookReadable s h) (coded : h ≤ 4)
    (none : NoCodeAt s (tget s.rom.huffScale h) p) : Machine.jointScaleOp h t
      = .error (.raise .corruptStream .huffman) { t with bc := after s (p + longestCode (tget s.rom.huffScale h)) } := by
  unfold Machine.jointScaleOp
  refine op_get_run ?_
  rw [if_pos coded, show tget t.rom.huffScale h = tget s.rom.huffScale h by rw [bh.rom_eq]]
  exact bh.huffOp_fails (ok coded).1 (ok coded).2 none

/-- R148: selector 7 reads nothing. -/
theorem jointScaleOp_seven (t : State) : Machine.jointScaleOp 7 t = .error (.raise .corruptStream .scaleSelector) t := rfl

end Values

/-! ### O41: READ_JOINT -/

/-- R152: a joint scale factor stored. -/
def storeJoint (sb : Nat) (v : Int) (r : ChannelSub) : ChannelSub :=
  { r with jointScaleFactor := vput r.jointScaleFactor sb (BitVec.ofInt 8 (v + 64)) }

/-- The values stored one after the other from subband `a` on. -/
def storeJoints : Nat → List Int → ChannelSub → ChannelSub
  | _, [], r => r
  | a, v :: vs, r => storeJoints (a + 1) vs (storeJoint a v r)

theorem storeJoints_frame (a : Nat) (vs : List Int) (r : ChannelSub) :
    storeJoints a vs r = { r with jointScaleFactor := (storeJoints a vs r).jointScaleFactor } := by
  induction vs generalizing a r with
  | nil => rfl
  | cons v vs ih => exact ih (a + 1) (storeJoint a v r)

theorem vget_storeJoints (a : Nat) (vs : List Int) (r : ChannelSub) {sb : Nat} (h : sb < 32) :
    vget (storeJoints a vs r).jointScaleFactor sb
      = if a ≤ sb ∧ sb < a + vs.length then BitVec.ofInt 8 (vs.getD (sb - a) 0 + 64) else vget r.jointScaleFactor sb := by
  induction vs generalizing a r with
  | nil => rw [if_neg (by simp)]; rfl
  | cons v vs ih =>
    rw [storeJoints, ih, List.length_cons]
    by_cases here : sb = a
    · subst here
      rw [if_neg (by omega), if_pos (by omega), Nat.sub_self]
      exact vget_vput_same _ _ h
    · by_cases later : a + 1 ≤ sb ∧ sb < a + 1 + vs.length
      · rw [if_pos later, if_pos (by omega), show sb - a = sb - (a + 1) + 1 by omega, List.getD_cons_succ]
      · rw [if_neg later, if_neg (by omega)]
        exact vget_vput_ne _ _ (Ne.symm here)

/-- R152: the turn of READ_JOINT's loop. -/
def jointTurn (c h sb : Nat) : Op Unit := do
  let v ← jointScaleOp h
  setChS c (storeJoint sb v)

theorem readJointOp_eq (c : Nat) (s : State) : readJointOp c s =
    if (vget s.chF c).jointIntensity.toNat - 1 ≥ primCount s then .error (.raise .corruptStream .jointSource) s
    else (forEach (span (actOf s c) (actOf s ((vget s.chF c).jointIntensity.toNat - 1)))
      (jointTurn c (vget s.chS c).jointHuff.toNat) >>= fun _ => warnJointOp) s := by
  unfold readJointOp
  refine op_get_run ?_
  split_ifs
  · exact op_bind_error rfl
  · rfl

theorem forEach_append {α : Type} (xs ys : List α) (f : α → Op Unit) (s : State) :
    forEach (xs ++ ys) f s = (forEach xs f >>= fun _ => forEach ys f) s := by
  induction xs generalizing s with
  | nil => rfl
  | cons x xs ih =>
    rw [List.cons_append, forEach_cons, op_bind, forEach_cons]
    cases f x s with
    | ok _ t => exact (ih t).trans (op_bind _ _ t)
    | error e t => rfl

section Joint

variable {s t : State} {c h p q : Nat} {vs : List Int}

/-- The loop of READ_JOINT along a row of values. -/
theorem Behind.jointTurns (bh : Behind s t p) (ok : BookReadable s h) (hc : c < 8)
    (raws : RawsAt s h p vs q) (a : Nat) : forEach (List.range' a vs.length) (jointTurn c h) t
      = .ok () { t with bc := after s q, chS := vput t.chS c (storeJoints a vs (vget t.chS c)) } := by
  induction vs generalizing t p a with
  | nil =>
    obtain rfl : q = p := raws
    rw [storeJoints, vput_vget, ← bh.bc_eq]
    rfl
  | cons v vs ih =>
    obtain ⟨n, raw, rest⟩ := raws
    refine op_run (op_run (bh.jointScaleOp ok raw) rfl) ?_
    refine (ih (t := { t with bc := after s (p + n), chS := vput t.chS c (storeJoint a v (vget t.chS c)) })
      ⟨bh.1, bh.rom_eq, rfl⟩ rest (a + 1)).trans ?_
    simp only [vput_vput, vget_vput_same _ _ hc]
    rfl

/-- The loop of READ_JOINT along a row of values that is followed by an error. -/
theorem Behind.jointTurns_stop (bh : Behind s t p) (ok : BookReadable s h) (hc : c < 8)
    (raws : RawsAt s h p vs q) {a n : Nat} (short : vs.length < n) {stop : Stop} {b : BitCursor}
    (fails : ∀ u : State, Behind s u q → Machine.jointScaleOp h u = .error stop { u with bc := b }) :
    forEach (List.range' a n) (jointTurn c h) t
      = .error stop { t with bc := b, chS := vput t.chS c (storeJoints a vs (vget t.chS c)) } := by
  have parts : List.range' a n = List.range' a vs.length ++ List.range' (a + vs.length) (n - vs.length - 1 + 1) := by
    rw [List.range'_append_1]
    congr 1
    omega
  rw [parts, forEach_append]
  refine op_run (bh.jointTurns ok hc raws a) ?_
  exact op_bind_error (op_bind_error (fails _ ⟨bh.1, bh.rom_eq, rfl⟩))

end Joint

/-- Settles O41: the loop along the values, and the four ways to end it. -/
theorem readJointStoresAndWarns : Obligations.ReadJointStoresAndWarns := by
  intro s c j h book n aborted positive
  have run := readJointOp_eq c.val s
  rw [exec_readJoint]
  refine ⟨fun present act wf => ?_, fun absent => ?_⟩
  · rw [if_neg (show ¬ j - 1 ≥ primCount s by omega)] at run
    have span_eq : span (actOf s c.val) (actOf s (j - 1)) = List.range' (actOf s c.val) n := rfl
    rw [span_eq] at run
    refine ⟨fun vals used at0 => ?_, fun coded es short mem codes noCode => ?_, fun seven => ⟨fun some => ?_, fun none => ?_⟩⟩
    · obtain ⟨raws, len⟩ := rawsAt_of_jointsAt at0
      have turns := (behind_zero s).jointTurns wf c.isLt raws (actOf s c.val)
      rw [len] at turns
      have frame := storeJoints_frame (actOf s c.val) vals (vget s.chS c.val)
      refine ⟨_, _, answer_ok (run.trans (op_run turns rfl)), rfl, frame, fun sb hsb => ⟨fun low high => ?_, fun out => ?_⟩⟩
      · rw [vget_storeJoints _ _ _ hsb, if_pos (by omega)]
      · rw [vget_storeJoints _ _ _ hsb, if_neg (by omega)]
    · have raws := rawsAt_codes coded mem codes
      rw [Nat.zero_add] at raws
      have turns := (behind_zero s).jointTurns_stop wf c.isLt raws (a := actOf s c.val)
        (by rw [List.length_map]; exact short) fun u bh => bh.jointScaleOp_fails wf coded noCode
      exact ⟨_, _, answer_raise (run.trans (op_bind_error turns)), storeJoints_frame _ _ _, rfl⟩
    · have turns := (behind_zero s).jointTurns_stop (h := h) (vs := []) wf c.isLt rfl (a := actOf s c.val) some
        (stop := .raise .corruptStream .scaleSelector) (b := s.bc) fun u bh => by
          rw [seven, jointScaleOp_seven, ← after_zero s, ← bh.bc_eq]
      rw [storeJoints, vput_vget] at turns
      exact answer_raise (run.trans (op_bind_error turns))
    · rw [none] at run
      exact answer_ok run
  · rw [if_pos (show j - 1 ≥ primCount s by omega)] at run
    exact answer_raise run

/-! ### O40: READ_SCALES -/

/-- R146: the running value after one more value is read: a sum with the selectors 0 to 4, the value itself with 5 and 6. -/
def nextIndex (h : Nat) (sum v : Int) : Int := if h ≤ 4 then sum + v else v

/-- The scale indices that the values `vs` stand for. -/
def indicesOf (h : Nat) : Int → List Int → List Int
  | _, [] => []
  | sum, v :: vs => nextIndex h sum v :: indicesOf h (nextIndex h sum v) vs

/-- R147: an index inside the selector's table. -/
def IndexInRange (h : Nat) (i : Int) : Prop := 0 ≤ i ∧ i ≤ if h = 6 then 127 else 63

/-- R147: the table's entry. -/
def scaleEntry (r : Rom) (h : Nat) (i : Int) : Num := if h = 6 then tget r.scale7 i.toNat else tget r.scale6 i.toNat

theorem nextScaleOp_eq (h : Nat) (sum : Int) (s : State) :
    nextScaleOp h sum s = (jointScaleOp h >>= fun v => pure (nextIndex h sum v)) s := by
  unfold nextScaleOp jointScaleOp nextIndex
  rw [op_bind_ok (op_get s), op_bind, op_bind_ok (op_get s)]
  by_cases coded : h ≤ 4
  · simp only [if_pos coded]
    exact op_bind _ _ s
  by_cases five : h = 5
  · subst five; rfl
  by_cases six : h = 6
  · subst six; rfl
  · simp only [if_neg coded, if_neg five, if_neg six]
    rfl

/-- R147: SCALE_LOOKUP. -/
theorem scaleLookupOp_ok {h : Nat} {i : Int} (range : IndexInRange h i) (s : State) :
    scaleLookupOp h i s = .ok (scaleEntry s.rom h i) s := by
  unfold scaleLookupOp scaleEntry
  refine op_get_run ?_
  unfold IndexInRange at range
  by_cases six : h = 6
  · rw [if_pos six] at range
    rw [if_pos six, if_pos six, if_neg (by omega)]
    rfl
  · rw [if_neg six] at range
    rw [if_neg six, if_neg six, if_neg (by omega)]
    rfl

theorem scaleLookupOp_raises {h : Nat} {i : Int} (range : ¬ IndexInRange h i) (s : State) :
    scaleLookupOp h i s = .error (.raise .corruptStream .scaleIndex) s := by
  unfold scaleLookupOp
  refine op_get_run ?_
  unfold IndexInRange at range
  by_cases six : h = 6
  · rw [if_pos six] at range
    rw [if_pos six, if_pos (by omega)]
    rfl
  · rw [if_neg six] at range
    rw [if_neg six, if_pos (by omega)]
    rfl

/-- R146: a factor stored in a slot (subband, 0 or 1). -/
def storeScale (x : Nat × Nat) (f : Num) (r : ChannelSub) : ChannelSub :=
  if x.2 = 0 then { r with scale0 := vput r.scale0 x.1 f } else { r with scale1 := vput r.scale1 x.1 f }

/-- R146: one slot that is present. -/
def readSlot (c h : Nat) (x : Nat × Nat) (sum : Int) : Op Int := do
  let r ← readScaleOp h sum
  setChS c (storeScale x r.2)
  pure r.1

/-- R146: the slots that are present, in order. -/
def readSlots (c h : Nat) : List (Nat × Nat) → Int → Op Int
  | [], sum => pure sum
  | x :: xs, sum => do
    let sum ← readSlot c h x sum
    readSlots c h xs sum

/-- R146: slot 0 of a subband, where it is present. -/
def slot0At (s : State) (c sb : Nat) : List (Nat × Nat) :=
  if vqOf s c ≤ sb ∨ vget (vget s.chS c).bitalloc sb ≠ 0#5 then [(sb, 0)] else []

/-- R146: slot 1 of a subband, where it is present. -/
def slot1At (s : State) (c sb : Nat) : List (Nat × Nat) :=
  if sb < vqOf s c ∧ vget (vget s.chS c).transitionMode sb ≠ 0#2 then [(sb, 1)] else []

/-- R146: the slots of one subband that are present, in stream order. -/
def slotsAt (s : State) (c sb : Nat) : List (Nat × Nat) := slot0At s c sb ++ slot1At s c sb

theorem slotsAt_congr {s t : State} {c : Nat} (vq : vqOf t c = vqOf s c)
    (alloc : (vget t.chS c).bitalloc = (vget s.chS c).bitalloc)
    (trans : (vget t.chS c).transitionMode = (vget s.chS c).transitionMode) : slotsAt t c = slotsAt s c := by
  funext sb
  rw [slotsAt, slotsAt, slot0At, slot0At, slot1At, slot1At, vq, alloc, trans]

theorem scaleSlots_eq (s : State) (c : Nat) : scaleSlots s c = (List.range (actOf s c)).flatMap (slotsAt s c) := rfl

theorem op_bind_assoc {α β γ : Type} (x : Op α) (f : α → Op β) (g : β → Op γ) (s : State) :
    ((x >>= f) >>= g) s = (x >>= fun a => f a >>= g) s := by
  rw [op_bind, op_bind, op_bind]
  cases x s with
  | ok a t => exact (op_bind _ _ t).symm
  | error e t => rfl

theorem readSlots_append (c h : Nat) (xs ys : List (Nat × Nat)) (sum : Int) (s : State) :
    readSlots c h (xs ++ ys) sum s = (readSlots c h xs sum >>= readSlots c h ys) s := by
  induction xs generalizing sum s with
  | nil => rfl
  | cons x xs ih =>
    rw [List.cons_append, readSlots, readSlots, op_bind_assoc, op_bind, op_bind]
    cases readSlot c h x sum s with
    | ok a t => exact ih a t
    | error e t => rfl

theorem readSlots_single (c h : Nat) (x : Nat × Nat) (sum : Int) (s : State) :
    readSlots c h [x] sum s = readSlot c h x sum s := by
  rw [readSlots, op_bind]
  cases readSlot c h x sum s <;> rfl

theorem readSlot0_eq (c h sb : Nat) (sum : Int) (s : State) :
    readSlot0 c h sb sum s = readSlots c h (slot0At s c sb) sum s := by
  unfold readSlot0 slot0At
  refine op_get_run ?_
  split_ifs
  · exact (readSlots_single c h (sb, 0) sum s).symm
  · rfl

theorem readSlot1_eq (c h sb : Nat) (sum : Int) (s : State) :
    readSlot1 c h sb sum s = readSlots c h (slot1At s c sb) sum s := by
  unfold readSlot1 slot1At
  refine op_get_run ?_
  split_ifs
  · exact (readSlots_single c h (sb, 1) sum s).symm
  · rfl

/-- What tells which slots are present is not written by the reader. -/
theorem keeps_slots (c h : Nat) (xs : List (Nat × Nat)) (sum : Int) :
    Keeps (fun s => (slot0At s c, slot1At s c)) (readSlots c h xs sum) := by
  have store : ∀ x f, Keeps (fun s => (slot0At s c, slot1At s c)) (setChS c (storeScale x f)) := by
    intro x f s
    have alloc := vget_update (V := ChannelSub.bitalloc) (g := storeScale x f)
      (fun r => by unfold storeScale; split_ifs <;> rfl) s.chS c c
    have trans := vget_update (V := ChannelSub.transitionMode) (g := storeScale x f)
      (fun r => by unfold storeScale; split_ifs <;> rfl) s.chS c c
    refine Prod.ext (funext fun sb => ?_) (funext fun sb => ?_)
    · simp only [slot0At, finalState, setChS, op_modify, alloc]
      rfl
    · simp only [slot1At, finalState, setChS, op_modify, trans]
      rfl
  induction xs generalizing sum with
  | nil => exact keeps_pure _ _
  | cons x xs ih =>
    refine keeps_bind (keeps_bind (keeps_readScale (fun _ _ => rfl) h sum) fun r => ?_) fun _ => ih _
    exact keeps_bind (store x r.2) fun _ => keeps_pure _ _

/-- R146: the loop over the subbands reads the slots that are present, in stream order. -/
theorem readScaleLoop_eq (c h : Nat) (sbs : List Nat) (sum : Int) (s : State) :
    readScaleLoop c h sbs sum s = (readSlots c h (sbs.flatMap (slotsAt s c)) sum >>= fun _ => pure ()) s := by
  induction sbs generalizing sum s with
  | nil => rfl
  | cons sb sbs ih =>
    rw [List.flatMap_cons, slotsAt, List.append_assoc, op_bind, readSlots_append, op_bind, readScaleLoop, op_bind,
      readSlot0_eq]
    cases e0 : readSlots c h (slot0At s c sb) sum s with
    | error stop t => rfl
    | ok sum0 t =>
      obtain ⟨zero0, one0⟩ := Prod.ext_iff.1 ((keeps_slots c h _ sum).ok e0)
      dsimp only at zero0 one0 ⊢
      rw [readSlots_append, op_bind, op_bind, readSlot1_eq, one0]
      cases e1 : readSlots c h (slot1At s c sb) sum0 t with
      | error stop u => rfl
      | ok sum1 u =>
        obtain ⟨zero1, one1⟩ := Prod.ext_iff.1 ((keeps_slots c h _ sum0).ok e1)
        have same : slotsAt u c = slotsAt s c := by
          funext x
          simp only [slotsAt, show slot0At u c = slot0At s c from zero1.trans zero0,
            show slot1At u c = slot1At s c from one1.trans one0]
        dsimp only
        rw [ih, same, op_bind]

/-! What the slots hold. -/

/-- The content of a slot. -/
def slotValue (r : ChannelSub) (x : Nat × Nat) : Num := if x.2 = 0 then vget r.scale0 x.1 else vget r.scale1 x.1

/-- The factors of the indices stored one after the other. -/
def storeScales (rom : Rom) (h : Nat) : List (Nat × Nat) → List Int → ChannelSub → ChannelSub
  | x :: xs, i :: is, r => storeScales rom h xs is (storeScale x (scaleEntry rom h i) r)
  | _, _, r => r

/-- `r` is `old` but for the scale factors. -/
def SameButScales (r old : ChannelSub) : Prop := r = { old with scale0 := r.scale0, scale1 := r.scale1 }

theorem SameButScales.trans {r₁ r₂ r₃ : ChannelSub} (h : SameButScales r₁ r₂) (h' : SameButScales r₂ r₃) :
    SameButScales r₁ r₃ := by
  cases r₁
  cases r₂
  cases r₃
  simp_all [SameButScales]

theorem storeScale_frame (x : Nat × Nat) (f : Num) (r : ChannelSub) : SameButScales (storeScale x f r) r := by
  unfold storeScale
  split_ifs <;> rfl

theorem storeScales_frame (rom : Rom) (h : Nat) (xs : List (Nat × Nat)) (is : List Int) (r : ChannelSub) :
    SameButScales (storeScales rom h xs is r) r := by
  induction xs generalizing is r with
  | nil => rfl
  | cons x xs ih =>
    cases is with
    | nil => rfl
    | cons i is => exact (ih is _).trans (storeScale_frame x _ r)

/-- A slot of a channel (R146). -/
def IsSlot (x : Nat × Nat) : Prop := x.1 < 32 ∧ x.2 ≤ 1

theorem slotValue_storeScale {x y : Nat × Nat} (hx : IsSlot x) (hy : IsSlot y) (f : Num) (r : ChannelSub) :
    slotValue (storeScale x f r) y = if y = x then f else slotValue r y := by
  obtain ⟨sb, slot⟩ := x
  obtain ⟨sb', slot'⟩ := y
  obtain ⟨low, two⟩ := hx
  obtain ⟨_, two'⟩ := hy
  simp only at low two two'
  unfold slotValue storeScale
  by_cases zero : slot = 0 <;> by_cases zero' : slot' = 0
  · subst zero zero'
    simp only [vget_vput, Prod.mk.injEq, and_true, if_true, low, eq_comm]
  · simp [zero, zero']
  · simp [zero, zero', Ne.symm zero]
  · obtain rfl : slot' = slot := by omega
    simp only [if_neg zero, vget_vput, Prod.mk.injEq, and_true, low, eq_comm]

theorem slotValue_storeScales_other {rom : Rom} {h : Nat} {xs : List (Nat × Nat)} {is : List Int} {r : ChannelSub}
    {y : Nat × Nat} (slots : ∀ x, x ∈ xs → IsSlot x) (hy : IsSlot y) (absent : y ∉ xs) :
    slotValue (storeScales rom h xs is r) y = slotValue r y := by
  induction xs generalizing is r with
  | nil => rfl
  | cons x xs ih =>
    cases is with
    | nil => rfl
    | cons i is =>
      obtain ⟨ne, rest⟩ := not_or.1 (fun m => absent (List.mem_cons.2 m))
      rw [storeScales, ih (fun z hz => slots z (by simp [hz])) rest,
        slotValue_storeScale (slots x (by simp)) hy, if_neg ne]

theorem slotValue_storeScales {rom : Rom} {h : Nat} {xs : List (Nat × Nat)} {is : List Int} {r : ChannelSub}
    (slots : ∀ x, x ∈ xs → IsSlot x) (nodup : xs.Nodup) {k : Nat} {y : Nat × Nat} {i : Int} (hx : xs[k]? = some y)
    (hi : is[k]? = some i) : slotValue (storeScales rom h xs is r) y = scaleEntry rom h i := by
  induction xs generalizing is r k with
  | nil => cases hx
  | cons x xs ih =>
    cases is with
    | nil => cases hi
    | cons j js =>
      obtain ⟨new, nodup⟩ := List.nodup_cons.1 nodup
      have rest : ∀ z, z ∈ xs → IsSlot z := fun z hz => slots z (by simp [hz])
      cases k with
      | zero =>
        cases hx
        cases hi
        have hy := slots y (by simp)
        rw [storeScales, slotValue_storeScales_other rest hy new, slotValue_storeScale hy hy, if_pos rfl]
      | succ k => exact ih rest nodup hx hi

theorem mem_slot0At {s : State} {c sb : Nat} {x : Nat × Nat} (h : x ∈ slot0At s c sb) : x = (sb, 0) := by
  unfold slot0At at h
  split_ifs at h
  · exact List.mem_singleton.1 h
  · cases h

theorem mem_slot1At {s : State} {c sb : Nat} {x : Nat × Nat} (h : x ∈ slot1At s c sb) : x = (sb, 1) := by
  unfold slot1At at h
  split_ifs at h
  · exact List.mem_singleton.1 h
  · cases h

theorem mem_slotsAt {s : State} {c sb : Nat} {x : Nat × Nat} (h : x ∈ slotsAt s c sb) : x.1 = sb ∧ x.2 ≤ 1 := by
  rcases List.mem_append.1 h with zero | one
  · rw [mem_slot0At zero]
    exact ⟨rfl, Nat.zero_le 1⟩
  · rw [mem_slot1At one]
    exact ⟨rfl, Nat.le_refl 1⟩

theorem mem_scaleSlots {s : State} {c : Nat} {x : Nat × Nat} (h : x ∈ scaleSlots s c) : x.1 < actOf s c ∧ x.2 ≤ 1 := by
  obtain ⟨sb, hsb, hx⟩ := List.mem_flatMap.1 h
  obtain ⟨rfl, two⟩ := mem_slotsAt hx
  exact ⟨List.mem_range.1 hsb, two⟩

theorem nodup_scaleSlots (s : State) (c : Nat) : (scaleSlots s c).Nodup := by
  rw [scaleSlots_eq, List.nodup_flatMap]
  refine ⟨fun sb _ => ?_, List.nodup_range.imp_of_mem fun ha hb ne x hx hy => ?_⟩
  · unfold slotsAt slot0At slot1At
    split_ifs <;> simp
  · exact ne ((mem_slotsAt hx).1.symm.trans (mem_slotsAt hy).1)

section Scales

variable {s t : State} {c h p q : Nat} {sum : Int} {vs : List Int} {xs : List (Nat × Nat)}

/-- R146: one scale factor whose index is in range. -/
theorem Behind.readSlot {v : Int} {n : Nat} (bh : Behind s t p) (ok : BookReadable s h) (raw : RawAt s h p v n)
    (range : IndexInRange h (nextIndex h sum v)) (x : Nat × Nat) : readSlot c h x sum t = .ok (nextIndex h sum v)
      { t with
        bc := after s (p + n)
        chS := vput t.chS c (storeScale x (scaleEntry s.rom h (nextIndex h sum v)) (vget t.chS c)) } := by
  have next : nextScaleOp h sum t = .ok (nextIndex h sum v) { t with bc := after s (p + n) } := by
    rw [nextScaleOp_eq]
    exact op_run (bh.jointScaleOp ok raw) rfl
  rw [← bh.rom_eq]
  exact op_run (op_run next (op_run (scaleLookupOp_ok range _) rfl)) rfl

/-- R146: one scale factor whose index is out of range. -/
theorem Behind.readSlot_raises {v : Int} {n : Nat} (bh : Behind s t p) (ok : BookReadable s h) (raw : RawAt s h p v n)
    (range : ¬ IndexInRange h (nextIndex h sum v)) (x : Nat × Nat) :
    Proofs.readSlot c h x sum t = .error (.raise .corruptStream .scaleIndex) { t with bc := after s (p + n) } := by
  have next : nextScaleOp h sum t = .ok (nextIndex h sum v) { t with bc := after s (p + n) } := by
    rw [nextScaleOp_eq]
    exact op_run (bh.jointScaleOp ok raw) rfl
  exact op_bind_error (op_run next (op_bind_error (scaleLookupOp_raises range _)))

/-- R146: one scale factor whose value cannot be read. -/
theorem readSlot_stops {stop : Stop} (fails : Machine.jointScaleOp h s = .error stop t) (x : Nat × Nat) :
    Proofs.readSlot c h x sum s = .error stop t := by
  have next : nextScaleOp h sum s = .error stop t := by
    rw [nextScaleOp_eq]
    exact op_bind_error fails
  exact op_bind_error (op_bind_error next)

/-- R146: the slots that are present, along a row of values. -/
theorem Behind.readSlots (bh : Behind s t p) (ok : BookReadable s h) (hc : c < 8) (raws : RawsAt s h p vs q)
    (range : ∀ i, i ∈ indicesOf h sum vs → IndexInRange h i) (len : xs.length = vs.length) :
    readSlots c h xs sum t = .ok (vs.foldl (nextIndex h) sum)
      { t with bc := after s q, chS := vput t.chS c (storeScales s.rom h xs (indicesOf h sum vs) (vget t.chS c)) } := by
  induction xs generalizing t p sum vs with
  | nil =>
    obtain rfl : vs = [] := List.length_eq_zero_iff.1 len.symm
    obtain rfl : q = p := raws
    rw [storeScales, vput_vget, ← bh.bc_eq]
    · rfl
    · rintro _ _ _ _ ⟨⟩
  | cons x xs ih =>
    cases vs with
    | nil => cases len
    | cons v vs =>
      obtain ⟨n, raw, rest⟩ := raws
      have turn := bh.readSlot (c := c) (sum := sum) ok raw (range _ (List.mem_cons_self ..)) x
      have tail := ih (sum := nextIndex h sum v) (t := { t with
          bc := after s (p + n)
          chS := vput t.chS c (storeScale x (scaleEntry s.rom h (nextIndex h sum v)) (vget t.chS c)) })
        ⟨bh.1, bh.rom_eq, rfl⟩ rest (fun i hi => range i (List.mem_cons_of_mem _ hi)) (Nat.succ.inj len)
      refine op_run turn (tail.trans ?_)
      simp only [vput_vput, vget_vput_same _ _ hc]
      rfl

/-- R146: the slots that are present, along a row of values that is followed by an error. -/
theorem Behind.readSlots_stop (bh : Behind s t p) (ok : BookReadable s h) (hc : c < 8) (raws : RawsAt s h p vs q)
    (range : ∀ i, i ∈ indicesOf h sum vs → IndexInRange h i) (short : vs.length < xs.length) {stop : Stop} {b : BitCursor}
    (fails : ∀ (u : State) (x : Nat × Nat), Behind s u q →
      Proofs.readSlot c h x (vs.foldl (nextIndex h) sum) u = .error stop { u with bc := b }) :
    ∃ ys, Proofs.readSlots c h xs sum t = .error stop
      { t with bc := b, chS := vput t.chS c (storeScales s.rom h ys (indicesOf h sum vs) (vget t.chS c)) } := by
  obtain ⟨x, rest, tail⟩ : ∃ x rest, xs.drop vs.length = x :: rest :=
    List.exists_cons_of_length_pos (by rw [List.length_drop]; omega)
  refine ⟨xs.take vs.length, ?_⟩
  rw [← List.take_append_drop vs.length xs, tail, readSlots_append, List.take_append_of_le_length (by simp; omega),
    List.take_take, Nat.min_self]
  refine op_run (bh.readSlots ok hc raws range (by rw [List.length_take]; omega)) ?_
  exact op_bind_error (fails _ x ⟨bh.1, bh.rom_eq, rfl⟩)

end Scales

/-- R146: a channel's scale factors below the activity count reset. -/
def clearScales (act : Nat) (r : ChannelSub) : ChannelSub :=
  { r with
    scale0 := vtab 32 fun sb => if sb < act then 0#64 else vget r.scale0 sb
    scale1 := vtab 32 fun sb => if sb < act then 0#64 else vget r.scale1 sb }

theorem slotValue_clearScales {act : Nat} {x : Nat × Nat} (h : IsSlot x) (r : ChannelSub) :
    slotValue (clearScales act r) x = if x.1 < act then 0#64 else slotValue r x := by
  unfold slotValue clearScales
  by_cases zero : x.2 = 0
  · simp only [if_pos zero, vget_vtab _ h.1]
  · simp only [if_neg zero, vget_vtab _ h.1]

theorem clearScales_frame (act : Nat) (r : ChannelSub) : SameButScales (clearScales act r) r := by
  dsimp only [SameButScales, clearScales]

theorem clearScales_bitalloc (act : Nat) (r : ChannelSub) : (clearScales act r).bitalloc = r.bitalloc := by
  dsimp only [clearScales]

theorem clearScales_transitionMode (act : Nat) (r : ChannelSub) :
    (clearScales act r).transitionMode = r.transitionMode := by
  dsimp only [clearScales]

/-- R146: READ_SCALES is the reset and the slots that are present. -/
theorem readScalesOp_eq {c : Nat} (hc : c < 8) (s : State) : readScalesOp c s =
    (readSlots c (vget s.chF c).scalefactorHuffman.toNat (scaleSlots s c) 0 >>= fun _ => pure ())
      { s with chS := vput s.chS c (clearScales (actOf s c) (vget s.chS c)) } := by
  unfold readScalesOp
  refine op_get_run (op_run rfl ?_)
  rw [readScaleLoop_eq]
  have slots : slotsAt { s with chS := vput s.chS c (clearScales (actOf s c) (vget s.chS c)) } c = slotsAt s c := by
    refine slotsAt_congr rfl ?_ ?_
    · rw [vget_vput_same _ _ hc, clearScales_bitalloc]
    · rw [vget_vput_same _ _ hc, clearScales_transitionMode]
  rw [scaleSlots_eq, ← slots]
  rfl

theorem runningSums_eq {h : Nat} (coded : h ≤ 4) (es : List CodeEntry) (sum : Int) :
    runningSums sum es = indicesOf h sum (es.map CodeEntry.value) := by
  induction es generalizing sum with
  | nil => rfl
  | cons e es ih => rw [runningSums, List.map_cons, indicesOf, nextIndex, if_pos coded, ih]

/-- R146: what `ScalesAt` says of the stream. -/
theorem rawsAt_of_scalesAt {s : State} {h n : Nat} {idx : List Int} {used : Nat} (at0 : ScalesAt s h n idx used) :
    ∃ vs, RawsAt s h 0 vs used ∧ vs.length = n ∧ idx = indicesOf h 0 vs ∧ ∀ i, i ∈ idx → IndexInRange h i := by
  have same : 4 < h → ∀ vs sum, indicesOf h sum vs = vs := by
    intro raw vs
    induction vs with
    | nil => exact fun _ => rfl
    | cons v vs ih =>
      intro sum
      rw [indicesOf, nextIndex, if_neg (by omega), ih]
  obtain ⟨coded, es, len, mem, codes, rfl, rfl, range⟩ | ⟨rfl, rfl, rfl⟩ | ⟨rfl, rfl, rfl⟩ := at0
  · obtain ⟨raws, len⟩ := rawsAt_of_jointsAt (.inl ⟨coded, es, len, mem, codes, rfl, rfl⟩)
    refine ⟨_, raws, len, runningSums_eq coded es 0, fun i hi => ?_⟩
    rw [IndexInRange, if_neg (by omega)]
    exact range i hi
  · obtain ⟨raws, len⟩ := rawsAt_of_jointsAt (s := s) (n := n) (.inr (.inl ⟨rfl, rfl, rfl⟩))
    refine ⟨_, raws, len, (same (by decide) _ 0).symm, fun i hi => ?_⟩
    obtain ⟨k, _, rfl⟩ := List.mem_map.1 hi
    have small := peek_lt s (6 * k) 6
    rw [IndexInRange, if_neg (by decide)]
    omega
  · obtain ⟨raws, len⟩ := rawsAt_of_jointsAt (s := s) (n := n) (.inr (.inr ⟨rfl, rfl, rfl⟩))
    refine ⟨_, raws, len, (same (by decide) _ 0).symm, fun i hi => ?_⟩
    obtain ⟨k, _, rfl⟩ := List.mem_map.1 hi
    have small := peek_lt s (7 * k) 7
    rw [IndexInRange, if_pos rfl]
    omega

theorem foldl_nextIndex {h : Nat} (coded : h ≤ 4) (vs : List Int) (sum : Int) :
    vs.foldl (nextIndex h) sum = sum + vs.sum := by
  induction vs generalizing sum with
  | nil => simp
  | cons v vs ih => rw [List.foldl_cons, ih, nextIndex, if_pos coded, List.sum_cons, Int.add_assoc]

/-- What READ_SCALES leaves in channel `c` after it has filled the slots `xs` with the factors of `idx` (R146). -/
def scalesRead (s : State) (c : Nat) (xs : List (Nat × Nat)) (idx : List Int) : ChannelSub :=
  storeScales s.rom (vget s.chF c).scalefactorHuffman.toNat xs idx (clearScales (actOf s c) (vget s.chS c))

theorem scalesRead_frame (s : State) (c : Nat) (xs : List (Nat × Nat)) (idx : List Int) :
    SameButScales (scalesRead s c xs idx) (vget s.chS c) :=
  (storeScales_frame _ _ _ _ _).trans (clearScales_frame _ _)

section Channel

variable {s : State} {c h q : Nat} {vs : List Int}

/-- READ_SCALES along a row of values. -/
theorem readScalesOp_ok (hc : c < 8) (sel : h = (vget s.chF c).scalefactorHuffman.toNat) (ok : BookReadable s h)
    (raws : RawsAt s h 0 vs q) (range : ∀ i, i ∈ indicesOf h 0 vs → IndexInRange h i)
    (len : vs.length = (scaleSlots s c).length) : readScalesOp c s
      = .ok () { s with bc := after s q, chS := vput s.chS c (scalesRead s c (scaleSlots s c) (indicesOf h 0 vs)) } := by
  subst sel
  rw [readScalesOp_eq hc]
  refine op_run (Behind.readSlots (s := s) ⟨rfl, rfl, (after_zero s).symm⟩ ok hc raws range len.symm) ?_
  simp only [vput_vput, vget_vput_same _ _ hc, scalesRead]
  rfl

/-- READ_SCALES along a row of values that is followed by an error. -/
theorem readScalesOp_stop (hc : c < 8) (sel : h = (vget s.chF c).scalefactorHuffman.toNat) (ok : BookReadable s h)
    (raws : RawsAt s h 0 vs q) (range : ∀ i, i ∈ indicesOf h 0 vs → IndexInRange h i)
    (short : vs.length < (scaleSlots s c).length) {stop : Stop} {b : BitCursor}
    (fails : ∀ (u : State) (x : Nat × Nat), Behind s u q →
      readSlot c h x (vs.foldl (nextIndex h) 0) u = .error stop { u with bc := b }) :
    ∃ ys, readScalesOp c s
      = .error stop { s with bc := b, chS := vput s.chS c (scalesRead s c ys (indicesOf h 0 vs)) } := by
  subst sel
  obtain ⟨ys, run⟩ := Behind.readSlots_stop (s := s) (xs := scaleSlots s c)
    (t := { s with chS := vput s.chS c (clearScales (actOf s c) (vget s.chS c)) })
    ⟨rfl, rfl, (after_zero s).symm⟩ ok hc raws range short fails
  refine ⟨ys, ?_⟩
  rw [readScalesOp_eq hc]
  refine op_stop run ?_
  simp only [vput_vput, vget_vput_same _ _ hc, scalesRead]

theorem slotValue_scalesRead_other {xs : List (Nat × Nat)} {idx : List Int} {y : Nat × Nat}
    (slots : ∀ x, x ∈ xs → IsSlot x) (hy : IsSlot y) (absent : y ∉ xs) :
    slotValue (scalesRead s c xs idx) y = if y.1 < actOf s c then 0#64 else slotValue (vget s.chS c) y := by
  rw [scalesRead, slotValue_storeScales_other slots hy absent, slotValue_clearScales hy]

end Channel

/-- Settles O40: the slots in stream order along the values, and the three ways that the row of values can end early. -/
theorem readScalesStoresFactors : Obligations.ReadScalesStoresFactors := by
  intro s c h book slots corrupt act wf
  have stopped : ∀ {used : Nat} {l : Label} {ys : List (Nat × Nat)} {idx : List Int},
      readScalesOp c.val s = .error (.raise .corruptStream l)
        { s with bc := after s used, chS := vput s.chS c.val (scalesRead s c.val ys idx) } → corrupt used :=
    fun run => ⟨_, _, (exec_readScales c s).trans (answer_raise run), scalesRead_frame s c.val _ _, rfl⟩
  refine ⟨fun idx used at0 => ?_, fun coded es short mem codes range => ?_, fun seven some => ?_⟩
  · obtain ⟨vs, raws, len, rfl, range⟩ : ∃ vs, RawsAt s h 0 vs used ∧ vs.length = slots.length
        ∧ idx = indicesOf h 0 vs ∧ ∀ i, i ∈ idx → IndexInRange h i := by
      obtain at0 | ⟨_, none, rfl, rfl⟩ := at0
      · exact rawsAt_of_scalesAt at0
      · exact ⟨[], rfl, by rw [none]; rfl, rfl, by simp⟩
    have isSlot : ∀ x, x ∈ slots → IsSlot x := fun x hx =>
      ⟨Nat.lt_of_lt_of_le (mem_scaleSlots hx).1 act, (mem_scaleSlots hx).2⟩
    have absent : ∀ {y : Nat × Nat}, y.1 < 32 → y.2 ≤ 1 → y ∉ slots → _ := fun low two no =>
      slotValue_scalesRead_other (s := s) (c := c.val) (idx := indicesOf h 0 vs) isSlot ⟨low, two⟩ no
    refine ⟨_, _, (exec_readScales c s).trans (answer_ok (readScalesOp_ok c.isLt rfl wf raws range len)), rfl, scalesRead_frame s c.val _ _,
      fun sb hsb => ⟨fun out => ⟨?_, ?_⟩, fun inside no => ?_, fun inside no => ?_⟩, fun k sb slot i hx hi => ?_⟩
    · have kept := absent (y := (sb, 0)) hsb (Nat.zero_le 1) fun m => Nat.not_lt.2 out (mem_scaleSlots m).1
      rw [if_neg (Nat.not_lt.2 out)] at kept
      exact kept
    · have kept := absent (y := (sb, 1)) hsb (Nat.le_refl 1) fun m => Nat.not_lt.2 out (mem_scaleSlots m).1
      rw [if_neg (Nat.not_lt.2 out)] at kept
      exact kept
    · have zero := absent (y := (sb, 0)) hsb (Nat.zero_le 1) no
      rw [if_pos inside] at zero
      exact zero
    · have zero := absent (y := (sb, 1)) hsb (Nat.le_refl 1) no
      rw [if_pos inside] at zero
      exact zero
    · exact slotValue_storeScales isSlot (nodup_scaleSlots s c.val) hx hi
  · have raws := rawsAt_codes coded mem codes
    rw [Nat.zero_add] at raws
    have inRange : ∀ i, i ∈ indicesOf h 0 (es.map CodeEntry.value) → IndexInRange h i := fun i hi => by
      rw [IndexInRange, if_neg (by omega)]
      exact range i (runningSums_eq coded es 0 ▸ hi)
    have sum := foldl_nextIndex coded (es.map CodeEntry.value) 0
    rw [Int.zero_add] at sum
    have short' : (es.map CodeEntry.value).length < slots.length := by rw [List.length_map]; exact short
    refine ⟨fun e he next out => ?_, fun noCode => ?_⟩
    · have raw : RawAt s h (codesLength es) e.value e.len := .inl ⟨coded, e, he, next, rfl, rfl⟩
      have bad : ¬ IndexInRange h (nextIndex h (es.map CodeEntry.value).sum e.value) := by
        rw [IndexInRange, nextIndex, if_pos coded, if_neg (by omega)]
        omega
      obtain ⟨ys, run⟩ := readScalesOp_stop c.isLt rfl wf raws inRange short'
        fun u x bh => bh.readSlot_raises wf raw (sum ▸ bad) x
      exact stopped run
    · obtain ⟨ys, run⟩ := readScalesOp_stop c.isLt rfl wf raws inRange short'
        fun u x bh => readSlot_stops (bh.jointScaleOp_fails wf coded noCode) x
      exact stopped run
  · obtain ⟨ys, run⟩ := readScalesOp_stop (s := s) (h := h) (vs := []) (b := after s 0) c.isLt rfl wf rfl (by simp [indicesOf])
      (List.length_pos_of_ne_nil some) fun u x bh => readSlot_stops (by rw [seven, jointScaleOp_seven, ← bh.bc_eq]) x
    exact stopped run

end Sys2Proof.Proofs
end

section
/-! PROOFS. The sub-block body (43_subframe.md R155): a legal group of each of the four families read at its place
(44_sample_decode.md R162 to R166), the loops over subbands and channels, and SS.BODY (O45). -/

namespace Sys2Proof.Proofs

open Sys2Proof.Machine Sys2Proof.Safety Sys2Proof.Laws

-- As in the tests: elaborating these declarations side by side needs more threads than the checker's memory limit allows.
set_option Elab.async false

/-! ### A legal group -/

theorem codesLength_nil : codesLength [] = 0 := rfl

theorem codesLength_cons (e : CodeEntry) (es : List CodeEntry) : codesLength (e :: es) = e.len + codesLength es := rfl

section Group

variable {s t : State} {p : Nat}

/-- 44_sample_decode.md R164: several codes in a row. -/
theorem Behind.collect_huff {book : Codebook} {es : List CodeEntry} (bh : Behind s t p) (wf : bookWellFormed book = true)
    (mem : ∀ e, e ∈ es → e ∈ book) (codes : CodesAt (restBit s.mem s.bc) p es) :
    collect es.length (Machine.huffOp book) t
      = .ok (es.map CodeEntry.value) { t with bc := after s (p + codesLength es) } := by
  induction es generalizing t p with
  | nil =>
    rw [codesLength_nil, Nat.add_zero, ← bh.bc_eq]
    rfl
  | cons e es ih =>
    obtain ⟨first, rest⟩ := codes
    have tail := ih (t := { t with bc := after s (p + e.len) }) ⟨bh.1, bh.rom_eq, rfl⟩ (fun d hd => mem d (by simp [hd])) rest
    rw [Nat.add_assoc, ← codesLength_cons] at tail
    exact op_run (bh.huffOp wf (mem e (by simp)) first) (op_run tail rfl)

/-- 30_encoding.md R84, 44_sample_decode.md R165: several signed fields in a row. -/
theorem Behind.collect_signed {n : Nat} (bh : Behind s t p) (h1 : 1 ≤ n) (h2 : n ≤ 32) (k : Nat) :
    collect k (getSignedBits n) t
      = .ok ((List.range k).map fun i => (BitVec.ofNat n (peek s (p + i * n) n)).toInt) { t with bc := after s (p + k * n) } := by
  rw [Laws.collect_signed h1 h2, bh.after_eq]
  congr 1
  exact List.map_congr_left fun i _ => by rw [bh.peek_eq, sext_eq_toInt h1 (peek_lt s _ n)]

theorem vtab_congr {α : Type} {n : Nat} {f g : Nat → α} (h : ∀ i, i < n → f i = g i) : vtab n f = vtab n g := by
  unfold vtab
  congr 1
  funext i
  exact h i i.isLt

theorem ints8Of_map_range (f : Nat → Int) : ints8Of ((List.range 8).map f) = vtab 8 f :=
  vtab_congr fun i hi => by simp [List.getD_eq_getElem?_getD, hi]

/-- 30_encoding.md R83: the widths of the block codewords can be read at once. -/
theorem blockSize_bounds {a : Nat} (h1 : 1 ≤ a) (h2 : a ≤ 7) : 1 ≤ blockSize a ∧ blockSize a ≤ 32 := by
  interval_cases a <;> decide

/-- R167: a codeword in range. -/
theorem blkDecodeOp_ok {code levels : Nat} (h : code < levels ^ 4) (s : State) : blkDecodeOp code levels s
    = .ok (vtab 4 fun i => ((code / levels ^ i % levels : Nat) : Int) - ((levels - 1) / 2 : Nat)) s := by
  unfold blkDecodeOp blkDecode
  rw [if_neg (Nat.not_le.2 h)]
  rfl

/-- R166: two block codewords in range. -/
theorem Behind.qxBlockOp {a : Nat} (bh : Behind s t p) (h1 : 1 ≤ a) (h2 : a ≤ 7)
    (first : peek s p (blockSize a) < blockLevels a ^ 4)
    (second : peek s (p + blockSize a) (blockSize a) < blockLevels a ^ 4) :
    qxBlockOp a t = .ok (vtab 8 fun m =>
        ((peek s (if m < 4 then p else p + blockSize a) (blockSize a) / blockLevels a ^ (m % 4) % blockLevels a : Nat) : Int)
          - ((blockLevels a - 1) / 2 : Nat))
      { t with bc := after s (p + 2 * blockSize a) } := by
  obtain ⟨w1, w2⟩ := blockSize_bounds h1 h2
  have next : Behind s { t with bc := after s (p + blockSize a) } (p + blockSize a) := ⟨bh.1, bh.rom_eq, rfl⟩
  have read := next.getBits w1 w2
  rw [Nat.add_assoc, ← Nat.two_mul] at read
  refine op_run (bh.getBits w1 w2) (op_run read ?_)
  refine op_run (blkDecodeOp_ok first _) (op_run (blkDecodeOp_ok second _) ?_)
  refine congrArg (fun v => EStateM.Result.ok v _) (vtab_congr fun m hm => ?_)
  by_cases low : m < 4
  · rw [if_pos low, if_pos low, vget_vtab _ low, Nat.mod_eq_of_lt low]
  · rw [if_neg low, if_neg low, vget_vtab _ (by omega), show m % 4 = m - 4 by omega]

/-- R162 to R166: QX on a legal group. -/
theorem Behind.qxOp {a sel n : Nat} {q : Vector Int 8} (bh : Behind s t p) (group : GroupAt s (a, sel) p q n) :
    qxOp a sel t = .ok q { t with bc := after s (p + n) } := by
  have book_eq : 1 ≤ a → qidxBookOf t.rom a sel = groupBook s.rom a sel := fun pos => by
    rw [qidxBookOf, groupBook, bh.rom_eq]
    by_cases small : a ≤ 10
    · rw [if_neg (by omega), if_pos small]
    · rw [if_pos (by omega), if_neg small]
  unfold Machine.qxOp
  refine op_get_run ?_
  obtain ⟨zero, rfl, rfl⟩ | ⟨pos, book, es, found, wf, len, mem, codes, rfl, rfl⟩ | ⟨low, high, none, rfl, rfl⟩
    | ⟨pos, high, none, first, second, rfl, rfl⟩ := group
  · obtain rfl : a = 0 := zero
    rw [if_pos rfl, Nat.add_zero, ← bh.bc_eq]
    rfl
  · rw [if_neg (Nat.ne_of_gt pos), book_eq pos, found]
    have run := bh.collect_huff wf mem codes
    rw [len] at run
    exact op_run run rfl
  · simp only at low high none ⊢
    rw [if_neg (by omega), book_eq (by omega), none]
    dsimp only
    rw [if_neg (by omega)]
    have run := bh.collect_signed (n := a - 3) (by omega) (by omega) 8
    exact op_run run (by rw [ints8Of_map_range]; rfl)
  · simp only at pos high none first second ⊢
    rw [if_neg (by omega), book_eq pos, none]
    dsimp only
    rw [if_pos high]
    exact bh.qxBlockOp pos high first second

end Group

/-! ### Loops over a range -/

/-- A loop over `a .. a + n − 1`, its invariant indexed by the number reached. -/
theorem forEach_range' {f : Nat → Op Unit} {inv : Nat → State → Prop} {a n : Nat}
    (turn : ∀ i, a ≤ i → i < a + n → ∀ s, inv i s → ∃ t, f i s = .ok () t ∧ inv (i + 1) t) {s : State} (start : inv a s) :
    ∃ t, forEach (List.range' a n) f s = .ok () t ∧ inv (a + n) t := by
  obtain ⟨t, run, last⟩ := forEach_ok (List.range' a n) f (fun i => inv (a + i)) (fun i x hx s hs => by
    obtain ⟨hi, rfl⟩ := List.getElem?_eq_some_iff.1 hx
    rw [List.length_range'] at hi
    rw [List.getElem_range', Nat.one_mul]
    exact turn (a + i) (by omega) (by omega) s hs) s start
  rw [List.length_range'] at last
  exact ⟨t, run, last⟩

theorem forEach_range {f : Nat → Op Unit} {inv : Nat → State → Prop} {n : Nat}
    (turn : ∀ i, i < n → ∀ s, inv i s → ∃ t, f i s = .ok () t ∧ inv (i + 1) t) {s : State} (start : inv 0 s) :
    ∃ t, forEach (List.range n) f s = .ok () t ∧ inv n t := by
  rw [List.range_eq_range']
  have loop := forEach_range' (a := 0) (n := n) (fun i _ hi => turn i (by omega)) start
  rwa [Nat.zero_add] at loop

theorem below_zero (f : Nat → Nat) : below 0 f = 0 := rfl

theorem below_succ (c : Nat) (f : Nat → Nat) : below (c + 1) f = below c f + f c := by
  rw [below, List.range_succ, List.map_append, List.sum_append]
  rfl

/-! ### O45: SS.BODY -/

/-- 10_state.md R24: `SUBSAMP` with one subband rewritten. -/
def putSubband (x : Vector (Vector (Vector Num 8) 32) 8) (c sb : Nat) (v : Vector Num 8) :
    Vector (Vector (Vector Num 8) 32) 8 := vput x c (vput (vget x c) sb v)

theorem vget_putSubband {x : Vector (Vector (Vector Num 8) 32) 8} {c sb : Nat} (hc : c < 8) (hsb : sb < 32)
    (v : Vector Num 8) (c' sb' : Nat) :
    vget (vget (putSubband x c sb v) c') sb' = if c' = c ∧ sb' = sb then v else vget (vget x c') sb' := by
  unfold putSubband
  rw [vget_vput]
  by_cases here : c = c'
  · subst here
    rw [if_pos ⟨rfl, hc⟩, vget_vput]
    simp only [hsb, and_true, true_and, eq_comm]
  · rw [if_neg (fun h => here h.1), if_neg (fun h => here h.1.symm)]

theorem putSubband_putSubband (x : Vector (Vector (Vector Num 8) 32) 8) {c : Nat} (hc : c < 8) (sb : Nat)
    (v w : Vector Num 8) : putSubband (putSubband x c sb v) c sb w = putSubband x c sb w := by
  unfold putSubband
  rw [vput_vput, vget_vput_same _ _ hc, vput_vput]

/-- 45_reconstruct.md R184: the samples `x` of a subband after RECON.ADPCM. -/
def predicted (s : State) (c sb : Nat) (x : Vector Num 8) : Vector Num 8 :=
  adpcmRun s.rom.sampleKind (s.sh.predictorHistory == 1#1)
    (fun j => tget s.rom.adpcm ((vget (vget s.chS c).predictionVq sb).toNat, j)) (vget (vget s.ph c) sb) x

theorem reconAdpcm_eq (s : State) (c sb : Nat) : reconAdpcm s c sb
    = { s with subsamp := putSubband s.subsamp c sb (predicted s c sb (vget (vget s.subsamp c) sb)) } := rfl

theorem reconAdpcm_put (t : State) (x : Vector (Vector (Vector Num 8) 32) 8) {c sb : Nat} (hc : c < 8) (hsb : sb < 32)
    (v : Vector Num 8) : reconAdpcm { t with subsamp := putSubband x c sb v } c sb
      = { t with subsamp := putSubband x c sb (predicted t c sb v) } := by
  rw [reconAdpcm_eq]
  dsimp only
  rw [putSubband_putSubband x hc, vget_putSubband hc hsb, if_pos ⟨rfl, rfl⟩]
  rfl

/-- R155: what a subband holds after the body. -/
def bodyValue (s : State) (ssf : Nat) (q : Nat → Nat → Vector Int 8) (c sb : Nat) : Vector Num 8 :=
  if sb < vqOf s c then
    let x := reconScale s c sb ssf (q c sb)
    if vget (vget s.chS c).predictionMode sb = 1#1 then predicted s c sb x else x
  else hfvqLookup s c sb ssf

/-- A state of the body: `p` bits are read, and the subbands of which `done` holds are filled with `val`. -/
def BodyDone (s : State) (val : Nat → Nat → Vector Num 8) (p : Nat) (done : Nat → Nat → Prop) (t : State) : Prop :=
  ∃ x, t = { s with bc := after s p, subsamp := x }
    ∧ ∀ c sb, c < 8 → sb < 32 → (done c sb → vget (vget x c) sb = val c sb)
      ∧ (¬ done c sb → vget (vget x c) sb = subsampAt s c sb)

section Body

variable {s t : State} {ssf p : Nat} {q : Nat → Nat → Vector Int 8} {n : Nat → Nat → Nat}
variable {val : Nat → Nat → Vector Num 8} {done done' : Nat → Nat → Prop}

theorem BodyDone.congr (h : BodyDone s val p done t) (same : ∀ c sb, done c sb ↔ done' c sb) : BodyDone s val p done' t := by
  obtain ⟨x, rfl, values⟩ := h
  refine ⟨x, rfl, fun c sb hc hsb => ?_⟩
  rw [← same]
  exact values c sb hc hsb

/-- One more subband filled. -/
theorem bodyDone_put {x : Vector (Vector (Vector Num 8) 32) 8} {c sb p' : Nat} (hc : c < 8) (hsb : sb < 32)
    (values : ∀ c sb, c < 8 → sb < 32 → (done c sb → vget (vget x c) sb = val c sb)
      ∧ (¬ done c sb → vget (vget x c) sb = subsampAt s c sb)) :
    BodyDone s val p' (fun c' sb' => done c' sb' ∨ c' = c ∧ sb' = sb)
      { s with bc := after s p', subsamp := putSubband x c sb (val c sb) } := by
  refine ⟨_, rfl, fun c' sb' hc' hsb' => ?_⟩
  obtain ⟨old, new⟩ := values c' sb' hc' hsb'
  rw [vget_putSubband hc hsb]
  by_cases here : c' = c ∧ sb' = sb
  · rw [if_pos here]
    obtain ⟨rfl, rfl⟩ := here
    exact ⟨fun _ => rfl, fun no => absurd (.inr ⟨rfl, rfl⟩) no⟩
  · rw [if_neg here]
    exact ⟨fun h => old (h.resolve_right here), fun h => new fun d => h (.inl d)⟩

/-- R155: one subband below the VQ start. -/
theorem bodyScalar_done {c sb : Nat} (hc : c < 8) (hsb : sb < 32) (low : sb < vqOf s c)
    (group : GroupAt s (groupOf s c sb) p (q c sb) (n c sb)) (h : BodyDone s (bodyValue s ssf q) p done t) :
    ∃ u, bodyScalar c ssf sb t = .ok () u
      ∧ BodyDone s (bodyValue s ssf q) (p + n c sb) (fun c' sb' => done c' sb' ∨ c' = c ∧ sb' = sb) u := by
  obtain ⟨x, rfl, values⟩ := h
  refine ⟨_, ?_, bodyDone_put hc hsb values⟩
  have read := Behind.qxOp (s := s) (t := { s with bc := after s p, subsamp := x }) ⟨rfl, rfl, rfl⟩ group
  have value : bodyValue s ssf q c sb = if vget (vget s.chS c).predictionMode sb = 1#1
      then predicted s c sb (reconScale s c sb ssf (q c sb)) else reconScale s c sb ssf (q c sb) := if_pos low
  rw [value]
  refine op_get_run (op_run read (op_get_run (op_run rfl ?_)))
  by_cases mode : vget (vget s.chS c).predictionMode sb = 1#1
  · rw [if_pos mode, if_pos mode]
    exact congrArg (EStateM.Result.ok ()) (reconAdpcm_put { s with bc := after s (p + n c sb) } x hc hsb _)
  · rw [if_neg mode, if_neg mode]
    rfl

/-- R155: one subband from the VQ start on. -/
theorem bodyVq_done {c sb : Nat} (hc : c < 8) (hsb : sb < 32) (high : vqOf s c ≤ sb)
    (h : BodyDone s (bodyValue s ssf q) p done t) : ∃ u, bodyVq c ssf sb t = .ok () u
      ∧ BodyDone s (bodyValue s ssf q) p (fun c' sb' => done c' sb' ∨ c' = c ∧ sb' = sb) u := by
  obtain ⟨x, rfl, values⟩ := h
  refine ⟨_, ?_, bodyDone_put hc hsb values⟩
  have value : bodyValue s ssf q c sb = hfvqLookup s c sb ssf := if_neg (Nat.not_lt.2 high)
  rw [value]
  rfl

/-- R155: the subbands of the channels below `c`, and those of `c` below `sb`. -/
def Before (s : State) (c sb c' sb' : Nat) : Prop := c' < c ∧ sb' < actOf s c' ∨ c' = c ∧ sb' < sb

/-- R155: the subbands of one channel. -/
theorem bodyChannel_done {c : Nat} (hc : c < 8) (vq : vqOf s c ≤ actOf s c) (act : actOf s c ≤ 32)
    (groups : ∀ sb, sb < vqOf s c → GroupAt s (groupOf s c sb) (groupOffset s n c sb) (q c sb) (n c sb))
    (h : BodyDone s (bodyValue s ssf q) (groupOffset s n c 0) (Before s c 0) t) : ∃ u, bodyChannel ssf c t = .ok () u
      ∧ BodyDone s (bodyValue s ssf q) (groupOffset s n (c + 1) 0) (Before s (c + 1) 0) u := by
  have vq_eq : vqOf t c = vqOf s c ∧ actOf t c = actOf s c := by
    obtain ⟨x, rfl, _⟩ := h
    exact ⟨rfl, rfl⟩
  have step : ∀ i, (fun c' sb' => Before s c i c' sb' ∨ c' = c ∧ sb' = i) = Before s c (i + 1) := by
    intro i
    funext c' sb'
    unfold Before
    exact propext (by omega)
  obtain ⟨u, scalar, hu⟩ := forEach_range (f := bodyScalar c ssf) (n := vqOf s c)
    (inv := fun i => BodyDone s (bodyValue s ssf q) (groupOffset s n c i) (Before s c i)) (fun i hi t ht => by
      have turn := bodyScalar_done hc (by omega) hi (groups i hi) ht
      rw [step, groupOffset, Nat.add_assoc, ← below_succ, ← groupOffset] at turn
      exact turn) h
  obtain ⟨w, vector, hw⟩ := forEach_range' (f := bodyVq c ssf) (a := vqOf s c) (n := actOf s c - vqOf s c)
    (inv := fun i => BodyDone s (bodyValue s ssf q) (groupOffset s n c (vqOf s c)) (Before s c i)) (fun i low hi t ht => by
      have turn := bodyVq_done hc (by omega) low ht
      rw [step] at turn
      exact turn) hu
  refine ⟨w, op_get_run ?_, ?_⟩
  · rw [vq_eq.1, vq_eq.2]
    exact op_run scalar vector
  · have total : groupOffset s n (c + 1) 0 = groupOffset s n c (vqOf s c) := by
      rw [groupOffset, groupOffset, below_succ, below_zero, Nat.add_zero]
    rw [total]
    rw [Nat.add_sub_cancel' vq] at hw
    refine hw.congr fun c' sb' => ?_
    unfold Before
    constructor
    · rintro (⟨lt, inside⟩ | ⟨rfl, inside⟩)
      · exact .inl ⟨by omega, inside⟩
      · exact .inl ⟨by omega, inside⟩
    · rintro (⟨lt, inside⟩ | ⟨_, no⟩)
      · by_cases here : c' = c
        · subst here
          exact .inr ⟨rfl, inside⟩
        · exact .inl ⟨by omega, inside⟩
      · omega

/-- R155: the body, whatever the number of the sub-block. -/
theorem ssBodyOp_done (body : BodyAt s q n) : ∃ t, ssBodyOp ssf s = .ok () t
    ∧ BodyDone s (bodyValue s ssf q) (groupOffset s n (primCount s) 0) (Before s (primCount s) 0) t := by
  obtain ⟨count, channels⟩ := body
  have start : BodyDone s (bodyValue s ssf q) (groupOffset s n 0 0) (Before s 0 0) s := by
    refine ⟨s.subsamp, ?_, fun c sb _ _ => ⟨fun no => ?_, fun _ => rfl⟩⟩
    · rw [groupOffset, below_zero, below_zero, after_zero]
    · unfold Before at no
      omega
  obtain ⟨t, run, done⟩ := forEach_range (f := bodyChannel ssf)
    (inv := fun c => BodyDone s (bodyValue s ssf q) (groupOffset s n c 0) (Before s c 0)) (fun c hc t ht => by
      obtain ⟨vq, act, groups⟩ := channels c hc
      exact bodyChannel_done (by omega) vq act groups ht) start
  exact ⟨t, op_get_run run, done⟩

end Body

/-- Settles O45: what `ssBodyOp_done` says of each subband. -/
theorem ssBodyCompletes : Obligations.SsBodyCompletes := by
  intro s ssf q n body
  obtain ⟨t, run, x, rfl, values⟩ := ssBodyOp_done (ssf := ssf.val) body
  refine ⟨_, (exec_ssBody ssf s).trans (answer_ok run), rfl, fun c sb hc hsb => ⟨fun channel low => ?_, fun channel high inside => ?_, fun out => ?_⟩⟩
  all_goals obtain ⟨filled, kept⟩ := values c sb hc hsb
  · have inside : Before s (primCount s) 0 c sb := .inl ⟨channel, Nat.lt_of_lt_of_le low (body.2 c channel).1⟩
    refine (filled inside).trans ((if_pos low).trans ?_)
    dsimp only
    split_ifs with mode
    · have run := reconAdpcm_put s s.subsamp hc hsb (reconScale s c sb ssf.val (q c sb))
      unfold putSubband at run
      rw [run]
      have value := vget_putSubband (x := s.subsamp) hc hsb (predicted s c sb (reconScale s c sb ssf.val (q c sb))) c sb
      rw [if_pos ⟨rfl, rfl⟩] at value
      exact value.symm
    · rfl
  · exact (filled (.inl ⟨channel, inside⟩)).trans (if_neg (Nat.not_lt.2 high))
  · refine kept fun done => ?_
    unfold Before at done
    omega

end Sys2Proof.Proofs
end

section
/-! PROOFS. SF.HEADER with the forms that no stream can make fail (43_subframe.md R138, O43): each row of the header is a pass over
the channels, and the state between two passes is `headerAt`. -/

namespace Sys2Proof.Proofs

open Sys2Proof.Machine Sys2Proof.Safety Sys2Proof.Laws

-- As in the tests: elaborating these declarations side by side needs more threads than the checker's memory limit allows.
set_option Elab.async false

/-! ### Arrays filled in order -/

section Fill

variable {α : Type} [Inhabited α] {n : Nat}

/-- The array `v` with `f sb` wherever `p sb`. -/
@[irreducible] def fill (v : Vector α n) (p : Nat → Prop) [DecidablePred p] (f : Nat → α) : Vector α n :=
  vtab n fun sb => if p sb then f sb else vget v sb

variable {v : Vector α n} {p p' : Nat → Prop} [DecidablePred p] [DecidablePred p'] {f : Nat → α}

theorem fill_eq : fill v p f = vtab n fun sb => if p sb then f sb else vget v sb := by unfold fill; rfl

theorem vget_fill {sb : Nat} (h : sb < n) : vget (fill v p f) sb = if p sb then f sb else vget v sb := by
  rw [fill_eq, vget_vtab _ h]

theorem fill_congr (same : ∀ sb, p sb ↔ p' sb) : fill v p f = fill v p' f := by
  unfold fill
  simp only [same]

theorem fill_none (none : ∀ sb, ¬ p sb) : fill v p f = v :=
  vector_ext fun sb h => by rw [vget_fill h, if_neg (none sb)]

theorem vput_fill {i : Nat} {a : α} (value : a = f i) (grown : ∀ sb, p' sb ↔ p sb ∨ sb = i) :
    vput (fill v p f) i a = fill v p' f := by
  refine vector_ext fun sb h => ?_
  rw [vget_vput, vget_fill h, vget_fill h]
  by_cases here : i = sb
  · subst here
    rw [if_pos ⟨rfl, h⟩, if_pos ((grown i).2 (.inr rfl)), value]
  · rw [if_neg (fun k => here k.1)]
    simp only [grown, Ne.symm here, or_false]

/-- One more element, where only the elements with `q` are filled. -/
theorem vput_fill_present {q : Nat → Prop} [DecidablePred q] {i : Nat} (present : q i) :
    vput (fill v (fun sb => sb < i ∧ q sb) f) i (f i) = fill v (fun sb => sb < i + 1 ∧ q sb) f :=
  vput_fill rfl fun sb => by
    by_cases here : sb = i
    · subst here
      simp [present]
    · rw [or_iff_left here, show sb < i + 1 ↔ sb < i by omega]

theorem fill_absent {q : Nat → Prop} [DecidablePred q] {i : Nat} (absent : ¬ q i) :
    fill v (fun sb => sb < i ∧ q sb) f = fill v (fun sb => sb < i + 1 ∧ q sb) f :=
  fill_congr fun sb => by
    by_cases here : sb = i
    · subst here
      simp [absent]
    · rw [show sb < i + 1 ↔ sb < i by omega]

end Fill

/-! ### The state between two passes -/

/-- A state in mid-header: the cursor `p` bits on, the channel registers of the frame's channels `e`. -/
def headerAt (s : State) (sf : SubframeRegs) (p : Nat) (e : Nat → ChannelSub) : State :=
  { s with bc := after s p, sf := sf, chS := vtab 8 fun c => if c < primCount s then e c else vget s.chS c }

section Passes

variable {s : State} {sf : SubframeRegs} {p : Nat} {e e' : Nat → ChannelSub}

theorem headerAt_start (s : State) : headerAt s s.sf 0 (vget s.chS) = s := by
  have same : (vtab 8 fun c => if c < primCount s then vget s.chS c else vget s.chS c) = s.chS :=
    vector_ext fun c hc => by rw [vget_vtab _ hc, ite_self]
  rw [headerAt, same, after_zero]

theorem headerAt_congr (same : ∀ c, c < primCount s → e c = e' c) : headerAt s sf p e = headerAt s sf p e' := by
  have chS : (vtab 8 fun c => if c < primCount s then e c else vget s.chS c)
      = vtab 8 fun c => if c < primCount s then e' c else vget s.chS c := vtab_congr fun c _ => by
    by_cases h : c < primCount s
    · rw [if_pos h, if_pos h, same c h]
    · rw [if_neg h, if_neg h]
  rw [headerAt, headerAt, chS]

theorem vget_headerAt {c : Nat} (h8 : primCount s ≤ 8) (hc : c < primCount s) : vget (headerAt s sf p e).chS c = e c := by
  rw [headerAt, vget_vtab _ (by omega), if_pos hc]

theorem vqOf_headerAt (c : Nat) : vqOf (headerAt s sf p e) c = vqOf s c := rfl

theorem getBits_headerAt {n : Nat} (h1 : 1 ≤ n := by decide) (h2 : n ≤ 32 := by decide) :
    getBits n (headerAt s sf p e) = .ok (peek s p n) (headerAt s sf (p + n) e) :=
  Behind.getBits (s := s) ⟨rfl, rfl, rfl⟩ h1 h2

theorem setSf_headerAt (g : SubframeRegs → SubframeRegs) :
    setSf g (headerAt s sf p e) = .ok () (headerAt s (g sf) p e) := rfl

theorem setChS_headerAt {c : Nat} (h8 : primCount s ≤ 8) (hc : c < primCount s) (g : ChannelSub → ChannelSub) :
    setChS c g (headerAt s sf p e) = .ok () (headerAt s sf p (Function.update e c (g (e c)))) := by
  have chS : vput (headerAt s sf p e).chS c (g (vget (headerAt s sf p e).chS c))
      = vtab 8 fun x => if x < primCount s then Function.update e c (g (e c)) x else vget s.chS x := by
    rw [vget_headerAt h8 hc]
    refine vector_ext fun x hx => ?_
    rw [vget_vput, vget_vtab _ hx]
    by_cases here : c = x
    · subst here
      rw [if_pos ⟨rfl, hx⟩, if_pos hc, Function.update_self]
    · rw [if_neg (fun k => here k.1), headerAt, vget_vtab _ hx, Function.update_of_ne (Ne.symm here)]
  show EStateM.Result.ok () { headerAt s sf p e with
    chS := vput (headerAt s sf p e).chS c (g (vget (headerAt s sf p e).chS c)) } = _
  rw [chS]
  rfl

theorem setChS_headerAt_update {c : Nat} {m : Nat → ChannelSub} {r : ChannelSub} (h8 : primCount s ≤ 8)
    (hc : c < primCount s) (g : ChannelSub → ChannelSub) :
    setChS c g (headerAt s sf p (Function.update m c r)) = .ok () (headerAt s sf p (Function.update m c (g r))) := by
  rw [setChS_headerAt h8 hc, Function.update_self, Function.update_idem]

/-- A loop that takes each state of a row to the next one. -/
theorem forEach_states {f : Nat → Op Unit} {a n : Nat} (st : Nat → State)
    (turn : ∀ i, a ≤ i → i < a + n → f i (st i) = .ok () (st (i + 1))) :
    forEach (List.range' a n) f (st a) = .ok () (st (a + n)) := by
  obtain ⟨t, run, rfl⟩ := forEach_range' (f := f) (inv := fun i t => t = st i) (a := a) (n := n)
    (fun i low high t ht => ⟨_, ht ▸ turn i low high, rfl⟩) rfl
  exact run

theorem forEach_idle {ι : Type} {xs : List ι} {f : ι → Op Unit} {t : State} (idle : ∀ x, x ∈ xs → f x t = .ok () t) :
    forEach xs f t = .ok () t := by
  induction xs with
  | nil => rfl
  | cons x xs ih =>
    rw [forEach_cons, idle x (by simp)]
    exact ih fun y hy => idle y (by simp [hy])

/-- A pass over the channels: the turn for channel `c` takes its registers from `e c` to `e' c`. -/
theorem channelPass {f : Nat → Op Unit} (off : Nat → Nat)
    (turn : ∀ c, c < primCount s → ∀ m : Nat → ChannelSub, m c = e c →
      f c (headerAt s sf (off c) m) = .ok () (headerAt s sf (off (c + 1)) (Function.update m c (e' c)))) :
    forEach (List.range (primCount s)) f (headerAt s sf (off 0) e)
      = .ok () (headerAt s sf (off (primCount s)) e') := by
  have mixed : ∀ c, Function.update (fun x => if x < c then e' x else e x) c (e' c)
      = fun x => if x < c + 1 then e' x else e x := by
    intro c
    funext x
    by_cases here : x = c
    · subst here
      rw [Function.update_self, if_pos (Nat.lt_succ_self x)]
    · rw [Function.update_of_ne here]
      simp only [show x < c + 1 ↔ x < c by omega]
  have loop := forEach_states (f := f) (a := 0) (n := primCount s)
    (fun c => headerAt s sf (off c) fun x => if x < c then e' x else e x) fun c _ hc => by
      have run := turn c (by omega) (fun x => if x < c then e' x else e x) (if_neg (Nat.lt_irrefl c))
      rwa [mixed] at run
  simp only [Nat.zero_add, Nat.not_lt_zero, if_false] at loop
  rw [List.range_eq_range', loop]
  exact congrArg (EStateM.Result.ok ()) (headerAt_congr fun c hc => if_pos hc)

/-- A pass over subbands `a c .. a c + n c − 1` of each channel, whose registers go through `d c`. -/
theorem subbandPass {g : Nat → Op Unit} {f : Nat → Nat → Op Unit} (a n : Nat → Nat) (off : Nat → Nat → Nat)
    (d : Nat → Nat → ChannelSub)
    (loop : ∀ c p m, g c (headerAt s sf p m) = forEach (List.range' (a c) (n c)) (f c) (headerAt s sf p m))
    (first : ∀ c, c < primCount s → d c (a c) = e c) (last : ∀ c, c < primCount s → d c (a c + n c) = e' c)
    (joined : ∀ c, c < primCount s → off (c + 1) (a (c + 1)) = off c (a c + n c))
    (turn : ∀ c i m, c < primCount s → a c ≤ i → i < a c + n c →
      f c i (headerAt s sf (off c i) (Function.update m c (d c i)))
        = .ok () (headerAt s sf (off c (i + 1)) (Function.update m c (d c (i + 1))))) :
    forEach (List.range (primCount s)) g (headerAt s sf (off 0 (a 0)) e)
      = .ok () (headerAt s sf (off (primCount s) (a (primCount s))) e') := by
  refine channelPass (fun c => off c (a c)) fun c hc m start => ?_
  have run := forEach_states (f := f c) (a := a c) (n := n c)
    (fun i => headerAt s sf (off c i) (Function.update m c (d c i))) fun i low high => turn c i m hc low high
  rw [first c hc, last c hc, ← start, Function.update_eq_self] at run
  rw [loop, run, joined c hc]

end Passes

/-! ### What a channel holds after each pass -/

/-- R138: after PMODE of the subbands below `i`. -/
def afterPmode (s : State) (c i : Nat) : ChannelSub :=
  { vget s.chS c with
    predictionMode := fill (vget s.chS c).predictionMode (fun sb => sb < i) fun sb => BitVec.ofNat 1 (hdPmode s c sb) }

/-- After PVQ of the subbands below `i`. -/
def afterPvq (s : State) (c i : Nat) : ChannelSub :=
  { afterPmode s c (actOf s c) with
    predictionVq := fill (vget s.chS c).predictionVq (fun sb => sb < i ∧ hdPmode s c sb = 1)
      fun sb => BitVec.ofNat 12 (hdPvq s c sb) }

/-- After BITALLOC of the subbands below `i`. -/
def afterAlloc (s : State) (c i : Nat) : ChannelSub :=
  { afterPvq s c (actOf s c) with
    bitalloc := fill (vget s.chS c).bitalloc (fun sb => sb < i) fun sb => BitVec.ofNat 5 (hdAlloc s c sb) }

/-- After TMODE of the subbands below `i`. -/
def afterTmode (s : State) (c i : Nat) : ChannelSub :=
  { afterAlloc s c (vqOf s c) with
    transitionMode := fill (vget s.chS c).transitionMode (fun sb => sb < i) fun _ => 0#2 }

/-- After SCALE of the subbands below `i`. -/
def afterScale (s : State) (c i : Nat) : ChannelSub :=
  { afterTmode s c (actOf s c) with
    scale0 := fill (fill (vget s.chS c).scale0 (fun sb => sb < actOf s c) fun _ => 0#64)
      (fun sb => sb < i ∧ hdScalePresent s c sb = true) (hdScale s c)
    scale1 := fill (vget s.chS c).scale1 (fun sb => sb < actOf s c) fun _ => 0#64 }

/-- After DMXCOEF. -/
def afterDmx (s : State) (c : Nat) : ChannelSub :=
  { afterScale s c (actOf s c) with
    dmx0 := if hdDmxPresent s then BitVec.ofNat 7 (peek s (hdDmxStart s + 14 * c) 7) else (vget s.chS c).dmx0
    dmx1 := if hdDmxPresent s then BitVec.ofNat 7 (peek s (hdDmxStart s + 14 * c + 7) 7) else (vget s.chS c).dmx1 }

/-- After HFVQ of the subbands below `i`. -/
def afterHfvq (s : State) (c i : Nat) : ChannelSub :=
  { afterDmx s c with
    highFreqVq := fill (vget s.chS c).highFreqVq (fun sb => vqOf s c ≤ sb ∧ sb < i) fun sb => BitVec.ofNat 10 (hdHfvq s c sb) }

section Records

variable (s : State) (c i : Nat)

theorem afterPmode_zero : afterPmode s c 0 = vget s.chS c :=
  congrArg (fun v => ({ vget s.chS c with predictionMode := v } : ChannelSub)) (fill_none (by simp))

theorem afterPmode_succ : { afterPmode s c i with
    predictionMode := vput (afterPmode s c i).predictionMode i (BitVec.ofNat 1 (hdPmode s c i)) } = afterPmode s c (i + 1) :=
  congrArg (fun v => ({ vget s.chS c with predictionMode := v } : ChannelSub)) (vput_fill rfl (by omega))

theorem afterPvq_zero : afterPvq s c 0 = afterPmode s c (actOf s c) :=
  congrArg (fun v => ({ afterPmode s c (actOf s c) with predictionVq := v } : ChannelSub)) (fill_none (by simp))

theorem afterPvq_succ (present : hdPmode s c i = 1) : { afterPvq s c i with
    predictionVq := vput (afterPvq s c i).predictionVq i (BitVec.ofNat 12 (hdPvq s c i)) } = afterPvq s c (i + 1) :=
  congrArg (fun v => ({ afterPmode s c (actOf s c) with predictionVq := v } : ChannelSub))
    (vput_fill_present present)

theorem afterPvq_skip (absent : hdPmode s c i ≠ 1) : afterPvq s c i = afterPvq s c (i + 1) :=
  congrArg (fun v => ({ afterPmode s c (actOf s c) with predictionVq := v } : ChannelSub))
    (fill_absent absent)

theorem afterAlloc_zero : afterAlloc s c 0 = afterPvq s c (actOf s c) :=
  congrArg (fun v => ({ afterPvq s c (actOf s c) with bitalloc := v } : ChannelSub)) (fill_none (by simp))

theorem afterAlloc_succ : { afterAlloc s c i with
    bitalloc := vput (afterAlloc s c i).bitalloc i (BitVec.ofNat 5 (hdAlloc s c i)) } = afterAlloc s c (i + 1) :=
  congrArg (fun v => ({ afterPvq s c (actOf s c) with bitalloc := v } : ChannelSub)) (vput_fill rfl (by omega))

theorem afterTmode_zero : afterTmode s c 0 = afterAlloc s c (vqOf s c) :=
  congrArg (fun v => ({ afterAlloc s c (vqOf s c) with transitionMode := v } : ChannelSub)) (fill_none (by simp))

theorem afterTmode_succ : { afterTmode s c i with
    transitionMode := vput (afterTmode s c i).transitionMode i 0#2 } = afterTmode s c (i + 1) :=
  congrArg (fun v => ({ afterAlloc s c (vqOf s c) with transitionMode := v } : ChannelSub)) (vput_fill rfl (by omega))

theorem clearScales_eq (act : Nat) (r : ChannelSub) : clearScales act r = { r with
    scale0 := fill r.scale0 (fun sb => sb < act) fun _ => 0#64
    scale1 := fill r.scale1 (fun sb => sb < act) fun _ => 0#64 } := by
  rw [clearScales, fill_eq, fill_eq]

theorem afterScale_zero : clearScales (actOf s c) (afterTmode s c (actOf s c)) = afterScale s c 0 := by
  rw [clearScales_eq]
  exact congrArg (fun v => ({ afterTmode s c (actOf s c) with
    scale0 := v
    scale1 := fill (vget s.chS c).scale1 (fun sb => sb < actOf s c) fun _ => 0#64 } : ChannelSub)) (fill_none (by simp)).symm

theorem afterScale_succ (present : hdScalePresent s c i = true) : { afterScale s c i with
    scale0 := vput (afterScale s c i).scale0 i (hdScale s c i) } = afterScale s c (i + 1) :=
  congrArg (fun v => ({ afterTmode s c (actOf s c) with
    scale0 := v
    scale1 := fill (vget s.chS c).scale1 (fun sb => sb < actOf s c) fun _ => 0#64 } : ChannelSub))
    (vput_fill_present present)

theorem afterScale_skip (absent : hdScalePresent s c i = false) : afterScale s c i = afterScale s c (i + 1) :=
  congrArg (fun v => ({ afterTmode s c (actOf s c) with
    scale0 := v
    scale1 := fill (vget s.chS c).scale1 (fun sb => sb < actOf s c) fun _ => 0#64 } : ChannelSub))
    (fill_absent (Bool.eq_false_iff.1 absent))

theorem afterHfvq_start : afterHfvq s c (vqOf s c) = afterDmx s c :=
  congrArg (fun v => ({ afterDmx s c with highFreqVq := v } : ChannelSub)) (fill_none (by omega))

theorem afterHfvq_succ (low : vqOf s c ≤ i) : { afterHfvq s c i with
    highFreqVq := vput (afterHfvq s c i).highFreqVq i (BitVec.ofNat 10 (hdHfvq s c i)) } = afterHfvq s c (i + 1) :=
  congrArg (fun v => ({ afterDmx s c with highFreqVq := v } : ChannelSub)) (vput_fill rfl (by omega))

/-- After the last pass the channel is what R138 says. -/
theorem afterHfvq_last : afterHfvq s c (actOf s c) = hdChannel s c := by
  have scale : fill (fill (vget s.chS c).scale0 (fun sb => sb < actOf s c) fun _ => 0#64)
      (fun sb => sb < actOf s c ∧ hdScalePresent s c sb = true) (hdScale s c)
      = vtab 32 fun sb => if sb < actOf s c then (if hdScalePresent s c sb then hdScale s c sb else 0#64)
        else vget (vget s.chS c).scale0 sb := vector_ext fun sb hsb => by
    rw [vget_fill hsb, vget_fill hsb, vget_vtab _ hsb]
    by_cases inside : sb < actOf s c <;> by_cases present : hdScalePresent s c sb <;> simp [inside, present]
  unfold afterHfvq afterDmx afterScale afterTmode afterAlloc afterPvq afterPmode hdChannel
  rw [scale]
  simp only [fill_eq]

end Records

/-! ### The passes -/

theorem countP_range_succ (p : Nat → Bool) (i : Nat) :
    (List.range (i + 1)).countP p = (List.range i).countP p + if p i then 1 else 0 := by
  rw [List.range_succ, List.countP_append, List.countP_singleton]

section Header

variable {s : State} {sf : SubframeRegs}

/-- R138: PMODE. -/
theorem pmodePass (plain : HeaderPlain s) :
    passActive (List.range (primCount s)) readPmode (headerAt s sf 5 (vget s.chS))
      = .ok () (headerAt s sf (hdPvqStart s) fun c => afterPmode s c (actOf s c)) := by
  obtain ⟨_, h8, _, _⟩ := plain
  refine subbandPass (fun _ => 0) (actOf s) (fun c i => 5 + below c (actOf s) + i) (afterPmode s)
    (fun c p m => op_get_run (by rw [List.range_eq_range']; rfl)) (fun c _ => afterPmode_zero s c)
    (fun c _ => by rw [Nat.zero_add]) (fun c _ => by rw [below_succ]; omega) fun c i m hc _ _ => ?_
  refine op_run getBits_headerAt ((setChS_headerAt_update h8 hc _).trans ?_)
  exact congrArg (fun r => EStateM.Result.ok () (headerAt s sf _ (Function.update m c r))) (afterPmode_succ s c i)

theorem hdPvqBelow_succ (s : State) (c i : Nat) :
    hdPvqBelow s c (i + 1) = hdPvqBelow s c i + if hdPmode s c i = 1 then 1 else 0 := by
  rw [hdPvqBelow, countP_range_succ]
  simp only [beq_iff_eq]
  rfl

theorem afterPvq_mode {c i : Nat} (act : actOf s c ≤ 32) (hi : i < actOf s c) (k : Nat) :
    vget (afterPvq s c k).predictionMode i = 1#1 ↔ hdPmode s c i = 1 := by
  have mode : vget (afterPvq s c k).predictionMode i = BitVec.ofNat 1 (hdPmode s c i) :=
    (vget_fill (by omega)).trans (if_pos hi)
  have bit : hdPmode s c i < 2 := peek_lt s _ 1
  rw [mode]
  obtain zero | one : hdPmode s c i = 0 ∨ hdPmode s c i = 1 := by omega
  · rw [zero]; decide
  · rw [one]; decide

/-- R138: PVQ. -/
theorem pvqPass (plain : HeaderPlain s) : passActive (List.range (primCount s)) readPvq
    (headerAt s sf (hdPvqStart s) fun c => afterPmode s c (actOf s c))
      = .ok () (headerAt s sf (hdAllocStart s) fun c => afterPvq s c (actOf s c)) := by
  obtain ⟨_, h8, _, channels⟩ := plain
  refine subbandPass (fun _ => 0) (actOf s)
    (fun c i => hdPvqStart s + 12 * (below c (fun x => hdPvqBelow s x (actOf s x)) + hdPvqBelow s c i)) (afterPvq s)
    (fun c p m => op_get_run (by rw [List.range_eq_range']; rfl)) (fun c _ => afterPvq_zero s c)
    (fun c _ => by rw [Nat.zero_add]) (fun c _ => ?_) fun c i m hc _ hi => ?_
  · rw [below_succ, Nat.zero_add]
    rfl
  obtain ⟨_, act, _⟩ := channels c hc
  have mode := afterPvq_mode act (by omega : i < actOf s c) i
  rw [hdPvqBelow_succ]
  refine op_get_run ?_
  rw [vget_headerAt h8 hc, Function.update_self]
  by_cases present : hdPmode s c i = 1
  · rw [if_pos (mode.2 present), if_pos present]
    refine op_run getBits_headerAt ((setChS_headerAt_update h8 hc _).trans ?_)
    exact congrArg (fun r => EStateM.Result.ok () (headerAt s sf _ (Function.update m c r))) (afterPvq_succ s c i present)
  · rw [if_neg (fun h => present (mode.1 h)), if_neg present, ← afterPvq_skip s c i present]
    rfl

theorem readBitalloc_headerAt {c p : Nat} {e : Nat → ChannelSub} (four : (vget s.chF c).bitallocHuffman = 5#3) :
    readBitallocOp c (headerAt s sf p e) = .ok (peek s p 4) (headerAt s sf (p + 4) e) := by
  have small := peek_lt s p 4
  refine readBitallocOp_ok (op_get_run ?_) (by omega)
  rw [show (vget (headerAt s sf p e).chF c).bitallocHuffman = 5#3 from four, if_neg (by decide), if_pos (by decide)]
  exact op_run getBits_headerAt rfl

/-- R138: BITALLOC. -/
theorem allocPass (plain : HeaderPlain s) :
    forEach (List.range (primCount s)) (fun c => do
        let s ← get
        forEach (List.range (vqOf s c)) (readAlloc c))
      (headerAt s sf (hdAllocStart s) fun c => afterPvq s c (actOf s c))
      = .ok () (headerAt s sf (hdScaleStart s) fun c => afterAlloc s c (vqOf s c)) := by
  obtain ⟨_, h8, _, channels⟩ := plain
  refine subbandPass (fun _ => 0) (vqOf s) (fun c i => hdAllocStart s + 4 * (below c (vqOf s) + i)) (afterAlloc s)
    (fun c p m => op_get_run (by rw [List.range_eq_range']; rfl)) (fun c _ => afterAlloc_zero s c)
    (fun c _ => by rw [Nat.zero_add]) (fun c _ => by rw [below_succ]; omega) fun c i m hc _ _ => ?_
  obtain ⟨_, _, four, _⟩ := channels c hc
  refine op_run (readBitalloc_headerAt four) ((setChS_headerAt_update h8 hc _).trans ?_)
  exact congrArg (fun r => EStateM.Result.ok () (headerAt s sf _ (Function.update m c r))) (afterAlloc_succ s c i)

/-- R138, R144: TMODE; a subframe of one sub-block has none. -/
theorem tmodePass (plain : HeaderPlain s) (one : sf.subsubframes = 1#3) :
    passActive (List.range (primCount s)) readTransition
      (headerAt s sf (hdScaleStart s) fun c => afterAlloc s c (vqOf s c))
      = .ok () (headerAt s sf (hdScaleStart s) fun c => afterTmode s c (actOf s c)) := by
  obtain ⟨_, h8, _, _⟩ := plain
  refine subbandPass (fun _ => 0) (actOf s) (fun _ _ => hdScaleStart s) (afterTmode s)
    (fun c p m => op_get_run (by rw [List.range_eq_range']; rfl)) (fun c _ => afterTmode_zero s c)
    (fun c _ => by rw [Nat.zero_add]) (fun _ _ => rfl) fun c i m hc _ _ => ?_
  refine op_run (setChS_headerAt_update h8 hc _) (op_get_run ?_)
  rw [if_neg (fun h => ?_)]
  · exact congrArg (fun r => EStateM.Result.ok () (headerAt s sf _ (Function.update m c r))) (afterTmode_succ s c i)
  · have more : sf.subsubframes.toNat > 1 := h.1
    rw [one] at more
    exact absurd more (by decide)

/-- R146: a scale factor of a selector that reads it as it stands. -/
theorem readScale_headerAt {c p : Nat} {e : Nat → ChannelSub}
    (raw : (vget s.chF c).scalefactorHuffman = 5#3 ∨ (vget s.chF c).scalefactorHuffman = 6#3) (sum : Int) :
    ∃ v, readScaleOp (vget s.chF c).scalefactorHuffman.toNat sum (headerAt s sf p e)
      = .ok (v, if hdScaleWidth s c = 7 then tget s.rom.scale7 (peek s p (hdScaleWidth s c))
          else tget s.rom.scale6 (peek s p (hdScaleWidth s c))) (headerAt s sf (p + hdScaleWidth s c) e) := by
  have small := peek_lt s p (hdScaleWidth s c)
  refine ⟨(peek s p (hdScaleWidth s c) : Int), ?_⟩
  unfold hdScaleWidth at *
  obtain five | six := raw
  · rw [five] at small ⊢
    rw [if_neg (by decide), if_neg (by decide)] at *
    exact op_run (op_get_run (op_run getBits_headerAt rfl)) (op_run (scaleLookupOp_ok (by unfold IndexInRange; simp; omega) _) rfl)
  · rw [six] at small ⊢
    rw [if_pos rfl, if_pos rfl] at *
    exact op_run (op_get_run (op_run getBits_headerAt rfl)) (op_run (scaleLookupOp_ok (by unfold IndexInRange; simp; omega) _) rfl)

/-- Where the scale factor of channel `c`, subband `i` stands. -/
def scaleOffset (s : State) (c i : Nat) : Nat :=
  hdScaleStart s + hdScaleBits s c + hdScaleWidth s c * hdScalesBelow s c i

theorem scaleOffset_succ (s : State) (c i : Nat) :
    scaleOffset s c (i + 1) = scaleOffset s c i + if hdScalePresent s c i = true then hdScaleWidth s c else 0 := by
  rw [scaleOffset, scaleOffset, hdScalesBelow, countP_range_succ, Nat.mul_add, ← Nat.add_assoc]
  split_ifs <;> simp [hdScalesBelow]

theorem scaleOffset_joined (s : State) (c : Nat) : scaleOffset s (c + 1) 0 = scaleOffset s c (actOf s c) := by
  have none : hdScalesBelow s (c + 1) 0 = 0 := rfl
  unfold scaleOffset hdScaleBits
  rw [none, below_succ, Nat.mul_zero, Nat.add_zero, Nat.add_assoc]

/-- R146: what tells whether slot 0 is transmitted. -/
theorem afterScale_present {c i : Nat} (act : actOf s c ≤ 32) (hi : i < actOf s c) (k : Nat) :
    (i ≥ vqOf s c ∨ vget (afterScale s c k).bitalloc i ≠ 0#5) ↔ hdScalePresent s c i = true := by
  rw [hdScalePresent, Bool.or_eq_true, decide_eq_true_iff, bne_iff_ne]
  by_cases high : vqOf s c ≤ i
  · exact iff_of_true (.inl high) (.inl high)
  · have alloc : vget (afterScale s c k).bitalloc i = BitVec.ofNat 5 (hdAlloc s c i) :=
      (vget_fill (by omega)).trans (if_pos (by omega))
    have small : hdAlloc s c i < 16 := peek_lt s _ 4
    refine or_congr Iff.rfl (not_congr ?_)
    rw [alloc, ← BitVec.toNat_inj, BitVec.toNat_ofNat, Nat.mod_eq_of_lt (by omega)]
    rfl

theorem readSlot0_headerAt (h8 : primCount s ≤ 8) {c i : Nat} {m : Nat → ChannelSub} (hc : c < primCount s)
    (act : actOf s c ≤ 32) (hi : i < actOf s c)
    (raw : (vget s.chF c).scalefactorHuffman = 5#3 ∨ (vget s.chF c).scalefactorHuffman = 6#3) (sum : Int) :
    ∃ v, readSlot0 c (vget s.chF c).scalefactorHuffman.toNat i sum
        (headerAt s sf (scaleOffset s c i) (Function.update m c (afterScale s c i)))
      = .ok v (headerAt s sf (scaleOffset s c (i + 1)) (Function.update m c (afterScale s c (i + 1)))) := by
  have present_iff := afterScale_present act hi i
  have channel : vget (headerAt s sf (scaleOffset s c i) (Function.update m c (afterScale s c i))).chS c
      = afterScale s c i := by rw [vget_headerAt h8 hc, Function.update_self]
  rw [scaleOffset_succ]
  by_cases present : hdScalePresent s c i = true
  · obtain ⟨v, read⟩ := readScale_headerAt (sf := sf) (p := scaleOffset s c i)
      (e := Function.update m c (afterScale s c i)) raw sum
    refine ⟨v, op_get_run ?_⟩
    rw [channel, vqOf_headerAt, if_pos (present_iff.2 present), if_pos present]
    refine op_run read (op_run (setChS_headerAt_update h8 hc _) ?_)
    exact congrArg (fun r => EStateM.Result.ok v (headerAt s sf _ (Function.update m c r))) (afterScale_succ s c i present)
  · refine ⟨sum, op_get_run ?_⟩
    rw [channel, vqOf_headerAt, if_neg (fun h => present (present_iff.1 h)), if_neg present,
      ← afterScale_skip s c i (Bool.eq_false_iff.2 present)]
    rfl

/-- R144, R146: no transition is flagged, so no slot 1 is transmitted. -/
theorem readSlot1_headerAt (h8 : primCount s ≤ 8) {c i k p : Nat} {m : Nat → ChannelSub} (hc : c < primCount s)
    (act : actOf s c ≤ 32) (hi : i < actOf s c) (h : Nat) (sum : Int) :
    readSlot1 c h i sum (headerAt s sf p (Function.update m c (afterScale s c k)))
      = .ok sum (headerAt s sf p (Function.update m c (afterScale s c k))) := by
  have none : vget (afterScale s c k).transitionMode i = 0#2 := (vget_fill (by omega)).trans (if_pos hi)
  refine op_get_run ?_
  rw [vget_headerAt h8 hc, Function.update_self, if_neg (fun flagged => flagged.2 none)]
  rfl

/-- R146: the subbands of one channel. -/
theorem readScaleLoop_headerAt (h8 : primCount s ≤ 8) {c n : Nat} {m : Nat → ChannelSub} (hc : c < primCount s)
    (act : actOf s c ≤ 32) (raw : (vget s.chF c).scalefactorHuffman = 5#3 ∨ (vget s.chF c).scalefactorHuffman = 6#3)
    (i : Nat) (count : i + n = actOf s c) (sum : Int) :
    readScaleLoop c (vget s.chF c).scalefactorHuffman.toNat (List.range' i n) sum
        (headerAt s sf (scaleOffset s c i) (Function.update m c (afterScale s c i)))
      = .ok () (headerAt s sf (scaleOffset s c (actOf s c)) (Function.update m c (afterScale s c (actOf s c)))) := by
  induction n generalizing i sum with
  | zero => rw [← count]; rfl
  | succ n ih =>
    obtain ⟨v, first⟩ := readSlot0_headerAt (sf := sf) (m := m) h8 hc act (show i < actOf s c by omega) raw sum
    exact op_run first (op_run (readSlot1_headerAt h8 hc act (by omega) _ v) (ih (i + 1) (by omega) v))

/-- R138: SCALE. -/
theorem scalePass (plain : HeaderPlain s) :
    forEach (List.range (primCount s)) readScalesOp
      (headerAt s sf (hdScaleStart s) fun c => afterTmode s c (actOf s c))
      = .ok () (headerAt s sf (hdDmxStart s) fun c => afterScale s c (actOf s c)) := by
  obtain ⟨_, h8, _, channels⟩ := plain
  refine channelPass (fun c => scaleOffset s c 0) fun c hc m start => ?_
  obtain ⟨_, act, _, _, raw⟩ := channels c hc
  refine op_get_run (op_run (setChS_headerAt h8 hc (clearScales (actOf s c))) ?_)
  rw [start, afterScale_zero, scaleOffset_joined, List.range_eq_range']
  exact readScaleLoop_headerAt h8 hc act raw 0 (Nat.zero_add _) 0

/-- R138, R153: DMXCOEF, where it is transmitted. -/
theorem dmxPass (h8 : primCount s ≤ 8) (present : hdDmxPresent s = true) :
    forEach (List.range (primCount s)) readDmxCoef
      (headerAt s sf (hdDmxStart s) fun c => afterScale s c (actOf s c))
      = .ok () (headerAt s sf (hdDrcStart s) (afterDmx s)) := by
  have pass := channelPass (s := s) (sf := sf) (f := readDmxCoef) (e := fun c => afterScale s c (actOf s c))
    (e' := afterDmx s) (fun c => hdDmxStart s + 14 * c) fun c hc m start => by
      refine op_run getBits_headerAt (op_run (setChS_headerAt h8 hc _) ?_)
      refine op_run getBits_headerAt ((setChS_headerAt_update h8 hc _).trans ?_)
      rw [start, afterDmx, if_pos present, if_pos present]
      rfl
  rw [hdDrcStart, if_pos present]
  exact pass

theorem afterDmx_absent (absent : ¬ hdDmxPresent s = true) (c : Nat) : afterScale s c (actOf s c) = afterDmx s c := by
  rw [afterDmx, if_neg absent, if_neg absent]
  rfl

/-- R138: HFVQ. -/
theorem hfvqPass (plain : HeaderPlain s) :
    forEach (List.range (primCount s)) (fun c => do
        let s ← get
        forEach (span (vqOf s c) (actOf s c)) (readHfvq c))
      (headerAt s sf (hdHfvqStart s) (afterDmx s)) = .ok () (headerAt s sf (hdLength s) (hdChannel s)) := by
  obtain ⟨_, h8, _, channels⟩ := plain
  have pass := subbandPass (s := s) (sf := sf) (e := afterDmx s) (e' := hdChannel s) (f := readHfvq)
    (g := fun c => do
      let s ← get
      forEach (span (vqOf s c) (actOf s c)) (readHfvq c))
    (vqOf s) (hdHfvqCount s) (fun c i => hdHfvqStart s + 10 * (below c (hdHfvqCount s) + (i - vqOf s c))) (afterHfvq s)
    (fun c p m => op_get_run rfl) (fun c _ => afterHfvq_start s c)
    (fun c hc => by
      rw [hdHfvqCount, Nat.add_sub_cancel' (channels c hc).1]
      exact afterHfvq_last s c)
    (fun c _ => by rw [below_succ]; omega)
    fun c i m hc low _ => by
      refine op_run getBits_headerAt ((setChS_headerAt_update h8 hc _).trans ?_)
      rw [show hdHfvqStart s + 10 * (below c (hdHfvqCount s) + (i - vqOf s c)) + 10
        = hdHfvqStart s + 10 * (below c (hdHfvqCount s) + (i + 1 - vqOf s c)) by omega]
      exact congrArg (fun r => EStateM.Result.ok () (headerAt s sf _ (Function.update m c r))) (afterHfvq_succ s c i low)
  simp only [Nat.sub_self, Nat.add_zero] at pass
  exact pass

/-! ### O43: the whole header -/

/-- R138: the subframe registers after the counts of a plain header. -/
def plainCounts (s : State) : SubframeRegs :=
  { s.sf with subsubframes := 1#3, partialSamples := BitVec.ofNat 3 (peek s 2 3) }

/-- R138: rows 1 to 6. -/
theorem sfHeaderAlloc_plain (plain : HeaderPlain s) : sfHeaderAlloc (List.range (primCount s)) s
    = .ok () (headerAt s (plainCounts s) (hdScaleStart s) fun c => afterTmode s c (actOf s c)) := by
  have counts : getBits 2 s = .ok 0 (headerAt s s.sf 2 (vget s.chS)) := by
    have read := getBits_headerAt (s := s) (sf := s.sf) (p := 0) (e := vget s.chS) (n := 2)
    rw [plain.1, headerAt_start] at read
    exact read
  refine op_run counts (op_run (setSf_headerAt _) (op_run getBits_headerAt (op_run (setSf_headerAt _) ?_)))
  exact op_run (pmodePass plain) (op_run (pvqPass plain) (op_run (allocPass plain) (tmodePass plain rfl)))

theorem hdDmxPresent_iff (s : State) : hdDmxPresent s = true ↔ primCount s > 2 ∧ s.sh.downmix = 1#1 := by
  rw [hdDmxPresent, Bool.and_eq_true, decide_eq_true_iff, beq_iff_eq]

/-- R138: rows 10 and 11, the coefficient of the dynamic range and the CRC, and what follows. -/
theorem drcAndCrc_plain {k : Op Unit} {e : Nat → ChannelSub} {r : EStateM.Result Stop State Unit}
    (rest : k (headerAt s
      { sf with dynrangeCoef := if s.sh.dynrange = 1#1 then BitVec.ofNat 8 (peek s (hdDrcStart s) 8) else sf.dynrangeCoef }
      (hdHfvqStart s) e) = r) :
    (if s.sh.dynrange = 1#1 then do
        let v ← getBits 8
        setSf fun r => { r with dynrangeCoef := BitVec.ofNat 8 v }
        if s.sh.crcPresent = 1#1 then do
          skipBits 16
          k
        else k
      else if s.sh.crcPresent = 1#1 then do
        skipBits 16
        k
      else k) (headerAt s sf (hdDrcStart s) e) = r := by
  have crc : ∀ {sf p}, k (headerAt s sf (p + if s.sh.crcPresent = 1#1 then 16 else 0) e) = r →
      (if s.sh.crcPresent = 1#1 then do
        skipBits 16
        k
      else k) (headerAt s sf p e) = r := fun {sf p} rest =>
    op_optional _ (fun yes => ⟨(), by rw [if_pos yes]; exact Behind.skipBits (s := s) ⟨rfl, rfl, rfl⟩⟩)
      (fun no => by rw [if_neg no, Nat.add_zero]) rest
  unfold hdHfvqStart at rest
  by_cases range : s.sh.dynrange = 1#1
  · rw [if_pos range, if_pos range] at rest
    rw [if_pos range]
    exact op_run getBits_headerAt (op_run (setSf_headerAt _) (crc rest))
  · rw [if_neg range, if_neg range, Nat.add_zero] at rest
    rw [if_neg range]
    exact crc rest

/-- R138: rows 7 to 13. -/
theorem sfHeaderScales_plain (plain : HeaderPlain s) : sfHeaderScales (List.range (primCount s))
      (headerAt s sf (hdScaleStart s) fun c => afterTmode s c (actOf s c))
    = .ok () (headerAt s
        { sf with dynrangeCoef := if s.sh.dynrange = 1#1 then BitVec.ofNat 8 (peek s (hdDrcStart s) 8) else sf.dynrangeCoef }
        (hdLength s) (hdChannel s)) := by
  have ⟨_, h8, _, channels⟩ := plain
  have noJoint : ∀ c, c ∈ List.range (primCount s) → (vget s.chF c).jointIntensity = 0#3 := fun c hc => by
    obtain ⟨_, _, _, none, _⟩ := channels c (List.mem_range.1 hc)
    exact none
  refine op_run (scalePass plain) (op_run (forEach_idle fun c hc => ?_) (op_run (forEach_idle fun c hc => ?_) ?_))
  · exact op_get_run (congrFun (if_neg (not_not.2 (noJoint c hc))) _)
  · exact op_get_run (congrFun (if_neg (not_not.2 (noJoint c hc))) _)
  refine op_get_run (op_optional (headerAt s sf (hdDrcStart s) (afterDmx s)) (fun yes => ?_) (fun no => ?_) ?_)
  · exact ⟨(), dmxPass h8 ((hdDmxPresent_iff s).2 yes)⟩
  · have absent : ¬ hdDmxPresent s = true := fun h => no ((hdDmxPresent_iff s).1 h)
    rw [hdDrcStart, if_neg absent, Nat.add_zero]
    exact headerAt_congr fun c _ => afterDmx_absent absent c
  · exact drcAndCrc_plain (s := s) (sf := sf) (hfvqPass plain)

/-- R138: the whole of a plain header. -/
theorem sfHeaderOp_plain (plain : HeaderPlain s) : sfHeaderOp s = .ok () (plainHeader s) := by
  have ⟨_, _, noLfe, _⟩ := plain
  refine op_get_run (op_run (sfHeaderAlloc_plain plain) (op_run (sfHeaderScales_plain plain) ?_))
  rw [if_neg (not_not.2 noLfe)]
  rfl

end Header

/-- Settles O43: the header run alone. -/
theorem sfHeaderPlainCompletes : Obligations.SfHeaderPlainCompletes :=
  fun s plain => (exec_sfHeader s).trans (answer_ok (sfHeaderOp_plain plain))

end Sys2Proof.Proofs
end

section
/-! PROOFS. How the reading of a block can end (43_subframe.md R135, R138, R155): a condition on the state is followed through both
ends of an operation, its result and its error, and every error is CorruptStream. With it the bounds of O44. -/

namespace Sys2Proof.Proofs

open Sys2Proof.Machine Sys2Proof.Safety Sys2Proof.Laws

-- As in the tests: elaborating these declarations side by side needs more threads than the checker's memory limit allows.
set_option Elab.async false

/-! ### Both ends of an operation -/

section Leads

variable {α β : Type} {P P' E : State → Prop} {x : Op α}

/-- From a state with `P`, an operation that ends with a result establishes `Q`; one that raises, raises CorruptStream and
establishes `E`; nothing is said where it is refused. -/
def Leads (P : State → Prop) (x : Op α) (Q : α → State → Prop) (E : State → Prop) : Prop :=
  ∀ s, P s → (∀ a t, x s = .ok a t → Q a t) ∧ ∀ c l t, x s = .error (.raise c l) t → c = .corruptStream ∧ E t

/-- However the operation ends, `P` holds as before. -/
def Sound (P : State → Prop) (x : Op α) : Prop := Leads P x (fun _ => P) P

theorem leads_bind {Q : α → State → Prop} {R : β → State → Prop} {f : α → Op β} (hx : Leads P x Q E)
    (hf : ∀ a, Leads (Q a) (f a) R E) : Leads P (x >>= f) R E := by
  intro s hs
  obtain ⟨result, raised⟩ := hx s hs
  rw [op_bind]
  cases e : x s with
  | ok a t => exact hf a t (result a t e)
  | error r t =>
    refine ⟨fun _ _ no => ?_, fun c l u h => ?_⟩
    · cases no
    · cases h
      exact raised c l t e

theorem leads_pre {Q : α → State → Prop} (h : Leads P x Q E) (imp : ∀ s, P' s → P s) : Leads P' x Q E :=
  fun s hs => h s (imp s hs)

theorem leads_post_error {Q : α → State → Prop} {E' : State → Prop} (h : Leads P x Q E') (imp : ∀ s, E' s → E s) :
    Leads P x Q E := by
  intro s hs
  obtain ⟨result, raised⟩ := h s hs
  refine ⟨result, fun c l t e => ?_⟩
  obtain ⟨code, post⟩ := raised c l t e
  exact ⟨code, imp t post⟩

/-- An operation that reads the stream or writes registers and cannot stop. -/
theorem leads_runs {Q : α → State → Prop} (h : ∀ s, P s → ∃ a t, x s = .ok a t ∧ Q a t) : Leads P x Q E := by
  intro s hs
  obtain ⟨a, t, run, post⟩ := h s hs
  refine ⟨fun b u e => ?_, fun c l u e => ?_⟩
  · rw [run] at e
    cases e
    exact post
  · rw [run] at e
    cases e

theorem leads_raise {Q : α → State → Prop} (l : Label) (imp : ∀ s, P s → E s) :
    Leads P (raiseOp .corruptStream l : Op α) Q E := by
  refine fun s hs => ⟨fun _ _ no => ?_, fun c k t h => ?_⟩
  · cases no
  · cases h
    exact ⟨rfl, imp s hs⟩

theorem leads_ite {Q : α → State → Prop} {p : Prop} [Decidable p] {y : Op α} (hx : p → Leads P x Q E)
    (hy : ¬ p → Leads P y Q E) : Leads P (if p then x else y) Q E := by
  split
  · exact hx ‹_›
  · exact hy ‹_›

theorem leads_check {Q : α → State → Prop} {p : Prop} [Decidable p] {l : Label} (imp : p → ∀ s, P s → E s)
    (h : ¬ p → Leads P x Q E) : Leads P (if p then (raiseOp .corruptStream l : Op Unit) >>= fun _ => x else x) Q E :=
  leads_ite (fun hp => leads_bind (Q := fun _ _ => False) (leads_raise l (imp hp)) fun _ _ no => no.elim) h

theorem leads_get {Q : β → State → Prop} {f : State → Op β} (h : ∀ s, P s → Leads (fun t => t = s) (f s) Q E) :
    Leads P (get >>= f) Q E := fun s hs => h s hs s rfl

theorem sound_pure (a : α) : Sound P (pure a : Op α) := leads_runs fun s hs => ⟨a, s, rfl, hs⟩

theorem sound_get : Sound P (get : Op State) := leads_runs fun s hs => ⟨s, s, rfl, hs⟩

theorem sound_modify {f : State → State} (h : ∀ s, P (f s) = P s) : Sound P (modify f) :=
  leads_runs fun s hs => ⟨(), f s, rfl, (h s).mpr hs⟩

theorem sound_raise (l : Label) : Sound P (raiseOp .corruptStream l : Op α) := leads_raise l fun _ h => h

theorem sound_bind {f : α → Op β} (hx : Sound P x) (hf : ∀ a, Sound P (f a)) : Sound P (x >>= f) := leads_bind hx hf

theorem sound_ite {p : Prop} [Decidable p] {y : Op α} (hx : Sound P x) (hy : Sound P y) : Sound P (if p then x else y) :=
  leads_ite (fun _ => hx) fun _ => hy

theorem sound_check {p : Prop} [Decidable p] {l : Label} (hx : Sound P x) :
    Sound P (if p then (raiseOp .corruptStream l : Op Unit) >>= fun _ => x else x) :=
  leads_check (fun _ _ h => h) fun _ => hx

theorem sound_forEach {ι : Type} {f : ι → Op Unit} (h : ∀ i, Sound P (f i)) (xs : List ι) : Sound P (forEach xs f) := by
  induction xs with
  | nil => exact sound_pure ()
  | cons i xs ih => exact sound_bind (h i) fun _ => ih

theorem sound_collect (h : Sound P x) (n : Nat) : Sound P (collect n x) := by
  induction n with
  | zero => exact sound_pure []
  | succ n ih => exact sound_bind h fun _ => sound_bind ih fun _ => sound_pure _

/-- 40_bitreader.md R93; a width that `get` does not take is refused, of which `Leads` says nothing. -/
theorem sound_getBits (hb : SeesNoBc P) (n : Nat) : Sound P (getBits n) := by
  intro s hs
  by_cases w : 1 ≤ n ∧ n ≤ 32
  · exact leads_runs (P := P) (fun t ht => ⟨_, _, getBits_ok w.1 w.2 t, (hb t _).mpr ht⟩) s hs
  · rw [getBits_refused w]
    refine ⟨fun _ _ no => ?_, fun _ _ _ no => ?_⟩ <;> cases no

theorem sound_skipBits (hb : SeesNoBc P) (n : Nat) : Sound P (skipBits n) :=
  sound_bind (sound_getBits hb n) fun _ => sound_pure ()

theorem sound_getSignedBits (hb : SeesNoBc P) (n : Nat) : Sound P (getSignedBits n) :=
  sound_bind (sound_getBits hb n) fun _ => sound_pure _

theorem sound_setChS (hs : SeesNoChS P) (c : Nat) (g : ChannelSub → ChannelSub) : Sound P (setChS c g) :=
  sound_modify fun s => hs s _

end Leads

/-! ### The readers of the subframe header -/

/-- A condition that sees of the subframe registers the number of sub-blocks alone. -/
def SeesCountOnly (P : State → Prop) : Prop :=
  ∀ s (f : SubframeRegs), f.subsubframes = s.sf.subsubframes → P { s with sf := f } = P s

/-- A condition that does not see the upper half of `LFE_DATA` (10_state.md R27). -/
def SeesNoCurrentLfe (P : State → Prop) : Prop :=
  ∀ s (x : Vector Num 32), (∀ i, i < 32 → i < lfeSpan s ∨ 2 * lfeSpan s ≤ i → vget x i = vget s.lfe i) →
    P { s with lfe := x } = P s

section Readers

variable {P : State → Prop}

theorem sound_setSf (hf : SeesCountOnly P) {g : SubframeRegs → SubframeRegs} (hg : ∀ f, (g f).subsubframes = f.subsubframes) :
    Sound P (setSf g) := sound_modify fun s => hf s _ (hg s.sf)

theorem sound_huff (hb : SeesNoBc P) (book : Codebook) : Sound P (huffOp book) := by
  have main : ∀ n len code, Sound P (huffLoop book n len code) := by
    intro n
    induction n with
    | zero => exact fun _ _ => sound_raise _
    | succ n ih =>
      intro len code
      unfold huffLoop
      refine sound_bind (sound_getBits hb 1) fun b => ?_
      split
      · exact sound_pure _
      · exact ih _ _
  exact main _ 0 0

theorem sound_readBitalloc (hb : SeesNoBc P) (c : Nat) : Sound P (readBitallocOp c) := by
  refine sound_bind (sound_bind sound_get fun s => ?_) fun v => sound_check (sound_pure _)
  refine sound_ite (sound_bind (sound_getBits hb 5) fun _ => sound_pure _) ?_
  exact sound_ite (sound_bind (sound_getBits hb 4) fun _ => sound_pure _) (sound_huff hb _)

theorem sound_jointScale (hb : SeesNoBc P) (h : Nat) : Sound P (jointScaleOp h) := by
  refine sound_bind sound_get fun s => sound_ite (sound_huff hb _) ?_
  refine sound_ite (sound_bind (sound_getBits hb 6) fun _ => sound_pure _) ?_
  exact sound_ite (sound_bind (sound_getBits hb 7) fun _ => sound_pure _) (sound_raise _)

theorem sound_readScale (hb : SeesNoBc P) (h : Nat) (sum : Int) : Sound P (readScaleOp h sum) := by
  have next : Sound P (nextScaleOp h sum) := by
    have same : nextScaleOp h sum = jointScaleOp h >>= fun v => pure (nextIndex h sum v) := funext (nextScaleOp_eq h sum)
    rw [same]
    exact sound_bind (sound_jointScale hb h) fun _ => sound_pure _
  refine sound_bind next fun i => sound_bind ?_ fun _ => sound_pure _
  exact sound_bind sound_get fun s => sound_ite (sound_check (sound_pure _)) (sound_check (sound_pure _))

theorem sound_readScales (hb : SeesNoBc P) (hs : SeesNoChS P) (c : Nat) : Sound P (readScalesOp c) := by
  refine sound_bind sound_get fun s => sound_bind (sound_setChS hs c _) fun _ => ?_
  have loop : ∀ h sbs sum, Sound P (readScaleLoop c h sbs sum) := by
    intro h sbs
    induction sbs with
    | nil => exact fun _ => sound_pure ()
    | cons sb sbs ih =>
      refine fun sum => sound_bind ?_ fun _ => sound_bind ?_ fun _ => ih _
      all_goals
        refine sound_bind sound_get fun s => sound_ite ?_ (sound_pure _)
        exact sound_bind (sound_readScale hb h _) fun _ => sound_bind (sound_setChS hs c _) fun _ => sound_pure _
  exact loop _ _ _

theorem sound_readJoint (hb : SeesNoBc P) (hs : SeesNoChS P) (hw : ∀ s x, P { s with warnJoint := x } = P s) (c : Nat) :
    Sound P (readJointOp c) := by
  refine sound_bind sound_get fun s => sound_check (sound_bind (sound_forEach (fun sb => ?_) _) fun _ => ?_)
  · exact sound_bind (sound_jointScale hb _) fun _ => sound_setChS hs c _
  · exact sound_modify fun s => hw s true

theorem sound_readTransition (hb : SeesNoBc P) (hs : SeesNoChS P) (c sb : Nat) : Sound P (readTransition c sb) :=
  sound_bind (sound_setChS hs c _) fun _ => sound_bind sound_get fun _ =>
    sound_ite (sound_bind (sound_huff hb _) fun _ => sound_setChS hs c _) (sound_pure _)

theorem sound_passActive {f : Nat → Nat → Op Unit} (h : ∀ c sb, Sound P (f c sb)) (cs : List Nat) :
    Sound P (passActive cs f) :=
  sound_forEach (fun c => sound_bind sound_get fun _ => sound_forEach (h c) _) cs

/-- R138: a field read into a channel's register. -/
theorem sound_channelField (hb : SeesNoBc P) (hs : SeesNoChS P) (n c : Nat) (g : Nat → ChannelSub → ChannelSub) :
    Sound P (do let v ← getBits n; setChS c (g v)) :=
  sound_bind (sound_getBits hb n) fun v => sound_setChS hs c (g v)

theorem sound_sfHeaderScales (hb : SeesNoBc P) (hs : SeesNoChS P) (hf : SeesCountOnly P)
    (hw : ∀ s x, P { s with warnJoint := x } = P s) (cs : List Nat) : Sound P (sfHeaderScales cs) := by
  have hfvq : Sound P (forEach cs fun c => do
      let s ← get
      forEach (span (vqOf s c) (actOf s c)) (readHfvq c)) :=
    sound_forEach (fun c => sound_bind sound_get fun _ => sound_forEach (fun sb => sound_channelField hb hs 10 c _) _) cs
  refine sound_bind (sound_forEach (sound_readScales hb hs) cs) fun _ => sound_bind (sound_forEach (fun c => ?_) cs) fun _ =>
    sound_bind (sound_forEach (fun c => ?_) cs) fun _ => sound_bind sound_get fun s => ?_
  · exact sound_bind sound_get fun _ => sound_ite (sound_channelField hb hs 3 c _) (sound_pure _)
  · exact sound_bind sound_get fun _ => sound_ite (sound_readJoint hb hs hw c) (sound_pure _)
  refine sound_ite (sound_bind (sound_forEach (fun c => ?_) cs) fun _ => ?_) ?_
  · exact sound_bind (sound_getBits hb 7) fun _ => sound_bind (sound_setChS hs c _) fun _ => sound_channelField hb hs 7 c _
  all_goals
    refine sound_ite (sound_bind (sound_getBits hb 8) fun _ => sound_bind (sound_setSf hf fun _ => rfl) fun _ => ?_) ?_
  all_goals exact sound_ite (sound_bind (sound_skipBits hb 16) fun _ => hfvq) hfvq

/-- R154: READ_LFE writes the upper half of `LFE_DATA`, once its index is accepted. -/
theorem sound_readLfe (hb : SeesNoBc P) (hf : SeesCountOnly P) (hl : SeesNoCurrentLfe P) : Sound P readLfeOp := by
  refine leads_get fun s hs => ?_
  dsimp only
  refine leads_pre (P := fun t => P t ∧ lfeSpan t = lfeSpan s) ?_ fun t ht => by subst ht; exact ⟨hs, rfl⟩
  have hb' : SeesNoBc fun t => P t ∧ lfeSpan t = lfeSpan s := fun t c => congrArg₂ And (hb t c) rfl
  refine leads_bind (leads_post_error (sound_collect (sound_getSignedBits hb' 8) _) fun t ht => ht.1) fun raw => ?_
  refine leads_bind (leads_post_error (sound_getBits hb' 8) fun t ht => ht.1) fun i => ?_
  refine leads_check (fun _ t ht => ht.1) fun _ => ?_
  refine leads_bind (Q := fun _ t => P t ∧ lfeSpan t = lfeSpan s)
    (leads_runs fun t ht => ⟨(), _, rfl, (hf t { t.sf with lfeScaleFactor := tget s.rom.scale7 i } rfl).mpr ht.1, ht.2⟩) fun _ => ?_
  refine leads_runs fun t ⟨ht, span⟩ => ⟨(), _, rfl, (hl t _ fun i hi out => ?_).mpr ht⟩
  rw [vget_vtab _ hi, if_neg (by omega)]

/-- R138: a subframe header; its sub-block count is its first field. -/
theorem leads_sfHeader {P₀ : State → Prop} (hb : SeesNoBc P) (hs : SeesNoChS P) (hf : SeesCountOnly P)
    (hl : SeesNoCurrentLfe P) (hw : ∀ s x, P { s with warnJoint := x } = P s)
    (count : ∀ s, P₀ s → P { s with
      bc := after s 2, sf := { s.sf with subsubframes := BitVec.ofNat 3 (peek s 0 2 + 1) } }) :
    Leads P₀ sfHeaderOp (fun _ => P) P := by
  have alloc : ∀ cs, Leads P₀ (sfHeaderAlloc cs) (fun _ => P) P := by
    intro cs
    refine leads_bind (Q := fun v t => P { t with sf := { t.sf with subsubframes := BitVec.ofNat 3 (v + 1) } })
      (leads_runs fun s hs => ⟨_, _, getBits_ok (by decide) (by decide) s, count s hs⟩) fun v => ?_
    refine leads_bind (Q := fun _ => P) (leads_runs fun s hs => ⟨(), _, rfl, hs⟩) fun _ => ?_
    refine sound_bind (sound_getBits hb 3) fun _ => sound_bind (sound_setSf hf fun _ => rfl) fun _ => ?_
    refine sound_bind (sound_passActive (fun c sb => sound_channelField hb hs 1 c _) cs) fun _ => ?_
    refine sound_bind (sound_passActive (fun c sb => ?_) cs) fun _ => ?_
    · exact sound_bind sound_get fun _ => sound_ite (sound_channelField hb hs 12 c _) (sound_pure _)
    refine sound_bind (sound_forEach (fun c => sound_bind sound_get fun _ => sound_forEach (fun sb => ?_) _) cs) fun _ => ?_
    · exact sound_bind (sound_readBitalloc hb c) fun _ => sound_setChS hs c _
    exact sound_passActive (sound_readTransition hb hs) cs
  refine leads_get fun s hs₀ => leads_pre (P := P₀) ?_ fun t ht => ht ▸ hs₀
  exact leads_bind (alloc _) fun _ => sound_bind (sound_sfHeaderScales hb hs hf hw _) fun _ =>
    sound_ite (sound_readLfe hb hf hl) (sound_pure _)

theorem sound_qx (hb : SeesNoBc P) (a sel : Nat) : Sound P (qxOp a sel) := by
  have block : ∀ code levels, Sound P (blkDecodeOp code levels) := by
    intro code levels
    unfold blkDecodeOp
    split
    · exact sound_pure _
    · exact sound_raise _
  unfold qxOp
  refine sound_bind sound_get fun s => sound_ite (sound_pure _) ?_
  split
  · exact sound_bind (sound_collect (sound_huff hb _) 8) fun _ => sound_pure _
  · refine sound_ite (sound_bind (sound_getBits hb _) fun _ => sound_bind (sound_getBits hb _) fun _ => ?_) ?_
    · exact sound_bind (block _ _) fun _ => sound_bind (block _ _) fun _ => sound_pure _
    · exact sound_bind (sound_collect (sound_getSignedBits hb _) 8) fun _ => sound_pure _

/-- R155: a sub-block body. -/
theorem sound_ssBody (hb : SeesNoBc P) (hx : SeesNoSubsamp P) (ssf : Nat) : Sound P (ssBodyOp ssf) := by
  have store : ∀ c sb x, Sound P (setSubsamp c sb x) := fun c sb x => sound_modify fun s => hx s _
  refine sound_bind sound_get fun s => sound_forEach (fun c => ?_) _
  refine sound_bind sound_get fun s => sound_bind (sound_forEach (fun sb => ?_) _) fun _ => sound_forEach (fun sb => ?_) _
  · refine sound_bind sound_get fun s => sound_bind (sound_qx hb _ _) fun q => sound_bind sound_get fun s => ?_
    exact sound_bind (store c sb _) fun _ => sound_ite (sound_modify fun t => hx t _) (sound_pure _)
  · exact sound_bind sound_get fun s => store c sb _

end Readers

/-! ### O44: the bounds of the subframe header -/

theorem vget_outside {α : Type} [Inhabited α] {n i : Nat} (v : Vector α n) (h : n ≤ i) : vget v i = default := by
  simp [vget, h]

/-- R142, with no bound on the VQ start: an allocation index past the end of its array reads as 0. -/
theorem readAlloc_bounded {P : State → Prop} (hb : SeesNoBc P) (hs : SeesNoChS P) {c : Nat} (hc : c < 8) (sb : Nat) :
    Ends P (readAlloc c sb) fun _ t => P t ∧ IndexSound c sb t := by
  by_cases inside : sb < 32
  · exact readAlloc_sound hb hs hc inside
  · refine ends_post (ends_keeps (keeps_bind (keeps_readBitalloc hb c) fun _ => keeps_setChS hs c _)) fun _ t ht => ⟨ht, ?_⟩
    unfold IndexSound
    rw [vget_outside _ (by omega)]
    decide

theorem readAllocs_bounded {P : State → Prop} (hb : SeesNoBc P) (hs : SeesNoChS P) {c : Nat} (hc : c < 8) :
    Ends P (do let s ← get; forEach (List.range (vqOf s c)) (readAlloc c)) fun _ t => P t ∧ IndicesSound c t := by
  refine ends_get fun s hp => ?_
  have turns : Ends (fun t => P t ∧ vqOf t c = vqOf s c) (forEach (List.range (vqOf s c)) (readAlloc c))
      fun _ t => (P t ∧ vqOf t c = vqOf s c) ∧ ∀ sb, sb ∈ List.range (vqOf s c) → IndexSound c sb t :=
    ends_forEach (fun sb _ => readAlloc_bounded (fun t x => congrArg₂ And (hb t x) rfl)
      (fun t x => congrArg₂ And (hs t x) rfl) hc sb) fun sb j hj => readAlloc_other hj
  refine ends_post (ends_pre turns fun t ht => by subst ht; exact ⟨hp, rfl⟩) fun _ t ⟨⟨keep, count⟩, sound⟩ =>
    ⟨keep, fun sb below => sound sb (List.mem_range.2 (count ▸ below))⟩

/-- R139: the sub-block count of the header, one to four. -/
theorem subCountSound_read (s : State) :
    SubCountSound { s with bc := after s 2, sf := { s.sf with subsubframes := BitVec.ofNat 3 (peek s 0 2 + 1) } } := by
  have small : peek s 0 2 < 2 ^ 2 := peek_lt s 0 2
  simp only [SubCountSound, BitVec.toNat_ofNat]
  omega

/-- R139: the sub-block count is one to four whether the header is read to its end or raises. -/
theorem leads_sfHeader_count : Leads (fun _ => True) sfHeaderOp (fun _ => SubCountSound) SubCountSound :=
  leads_sfHeader (fun _ _ => rfl) (fun _ _ => rfl) (fun s f same => by simp only [SubCountSound, same]) (fun _ _ _ => rfl)
    (fun _ _ => rfl) fun s _ => subCountSound_read s

/-- R142: what is read up to the transition modes leaves the allocation indices of up to eight channels bounded. -/
theorem sfHeaderAlloc_bounded {n : Nat} (hn : n ≤ 8) : Ends (fun _ => True) (sfHeaderAlloc (List.range n)) fun _ => GridRead n := by
  unfold sfHeaderAlloc
  refine ends_getBits (fun _ _ => rfl) fun v hv => ?_
  refine ends_bind (Q := fun _ => SubCountSound) (ends_modify fun s _ => ?_) fun _ => ?_
  · simp only [SubCountSound, BitVec.toNat_ofNat]
    omega
  refine ends_past (keeps_getBits (fun _ _ => rfl) 3) fun u => ends_past (fun _ => rfl) fun _ => ?_
  refine ends_past (keeps_passActive (fun c sb => ?_) _) fun _ => ?_
  · exact keeps_bind (keeps_getBits (fun _ _ => rfl) 1) fun _ => keeps_setChS (fun _ _ => rfl) c _
  refine ends_past (keeps_passActive (fun c sb => ?_) _) fun _ => ?_
  · exact keeps_bind (keeps_get _) fun s =>
      keeps_ite (keeps_bind (keeps_getBits (fun _ _ => rfl) 12) fun _ => keeps_setChS (fun _ _ => rfl) c _) (keeps_pure _ _)
  refine ends_bind (ends_forEach (R := IndicesSound) (fun c hc => ?_) fun c j hj => ?_) fun _ => ?_
  · exact readAllocs_bounded (fun _ _ => rfl) (fun _ _ => rfl) (Nat.lt_of_lt_of_le (List.mem_range.1 hc) hn)
  · exact keeps_bind (keeps_get _) fun s => keeps_forEach (fun sb => keeps_bind (keeps_readBitalloc (fun _ _ => rfl) c)
      fun v => indicesSound_setChS_other hj _) _
  refine ends_pre (P := GridRead n) (ends_keeps (keeps_passActive (keeps_readTransition n) _)) fun t ht => ?_
  exact ⟨ht.1, fun c hc => ht.2 c (List.mem_range.2 hc)⟩

theorem sfHeader_bounded {n : Nat} (hn : n ≤ 8) : Ends (fun s => primCount s = n) sfHeaderOp fun _ => GridRead n := by
  refine ends_get fun s channels => ?_
  subst channels
  refine ends_pre (P := fun _ => True) ?_ fun _ _ => trivial
  refine ends_bind (sfHeaderAlloc_bounded hn) fun _ => ends_past (gridRead_sfHeaderScales _) fun _ => ends_keeps ?_
  exact keeps_ite gridRead_readLfe (keeps_pure _ _)

/-- The registers that a subframe header leaves alone (R138), as one value. -/
def headerFrame (s : State) :=
  (s.sh, s.fr, s.chF, s.ph, s.hist, s.stage, s.out, s.subsamp, s.code, s.seq)

theorem keeps_headerFrame : Keeps headerFrame sfHeaderOp :=
  keeps_sfHeader (fun _ _ => rfl) (fun _ _ => rfl) (fun _ _ => rfl) (fun _ _ => rfl) (fun _ _ => rfl)

theorem headerFrame_eq {s t : State} (h : headerFrame t = headerFrame s) :
    t.sh = s.sh ∧ t.fr = s.fr ∧ t.chF = s.chF ∧ t.ph = s.ph ∧ t.hist = s.hist ∧ t.stage = s.stage ∧ t.out = s.out
      ∧ t.subsamp = s.subsamp ∧ t.code = s.code ∧ t.seq = s.seq := by
  simpa only [headerFrame, Prod.mk.injEq] using h

/-- Settles O44: the two ends of the header are followed through all its readers. -/
theorem sfHeaderBitallocBounded : Obligations.SfHeaderBitallocBounded := by
  intro s t step
  rw [exec_sfHeader] at step
  obtain ⟨a, u, run, rfl⟩ | ⟨c, l, u, run, rfl⟩ := answer_cases step
  · obtain ⟨sh, fr, chF, ph, hist, stage, out, subsamp, code, seq⟩ := headerFrame_eq (keeps_headerFrame.ok run)
    obtain ⟨one, four⟩ : SubCountSound t := (leads_sfHeader_count s trivial).1 a t run
    refine ⟨⟨sh, fr, chF, ph, hist, stage, out, subsamp⟩, .inr ⟨code, seq, one, four, fun c sb hc hn hsb _ => ?_⟩⟩
    have grid : GridRead (primCount s) t := sfHeader_bounded hn s rfl a t run
    have vq : vqOf t c = vqOf s c := congrArg (fun f => (vget f c).vqStartSubband.toNat) chF
    exact grid.2 c hc sb (vq ▸ hsb)
  · obtain ⟨sh, fr, chF, ph, hist, stage, out, subsamp, code, seq⟩ := headerFrame_eq (keeps_headerFrame.error run)
    obtain ⟨rfl, -⟩ := (leads_sfHeader_count s trivial).2 c l u run
    exact ⟨⟨sh, fr, chF, ph, hist, stage, out, subsamp⟩, .inl ⟨rfl, congrArg (fun q => { q with frame := .aborted }) seq⟩⟩

end Sys2Proof.Proofs
end

section
/-! PROOFS. DECODE_BLOCK (43_subframe.md R135): every error is in the reading of the samples, what follows is rendering, the
marker and the move of the position. It is its micro-operations in order (O46), completes on legal groups (O47), and leaves the
frame as it was when it fails (O48). -/

namespace Sys2Proof.Proofs

open Sys2Proof.Machine Sys2Proof.Safety Sys2Proof.Laws

-- As in the tests: elaborating these declarations side by side needs more threads than the checker's memory limit allows.
set_option Elab.async false

/-! ### The block after its samples -/

section Block

variable {s t u v w : State}

theorem decodeBlockCmd_active (ready : s.life = .ready) (active : s.seq.frame = .active) (run : decodeBlockOp s = .ok () u) :
    decodeBlockCmd s = .next (setCode .ok u) := by
  unfold decodeBlockCmd
  rw [if_neg (by rw [ready]; decide), if_neg (not_not.2 active), run]

/-- R277: a block on an active frame that answers another code than OK has raised. -/
theorem decodeBlockCmd_raised (ready : s.life = .ready) (active : s.seq.frame = .active)
    (step : decodeBlockCmd s = .next t) (failed : t.code ≠ .ok) :
    ∃ c l u, decodeBlockOp s = .error (.raise c l) u ∧ t = forgetBlock (takeError c u) := by
  unfold decodeBlockCmd at step
  rw [if_neg (by rw [ready]; decide), if_neg (not_not.2 active)] at step
  split at step
  · cases step
    exact absurd rfl failed
  · next c l u e =>
    cases step
    exact ⟨c, l, u, e, rfl⟩
  · cases step

/-- R135: the lines of a block in order. -/
theorem decodeBlockOp_run (samples : decodeSamples s.seq.currentSubsubframe.toNat s = .ok () u)
    (marker : dsyncCheckOp s.seq.currentSubsubframe.toNat (renderBlock s.seq.currentSubsubframe.toNat u) = .ok () v)
    (move : advanceOp v = .ok () w) : decodeBlockOp s = .ok () (finishBlock w) :=
  op_get_run (op_run samples (op_run rfl (op_run marker (op_run move rfl))))

/-- R135: once the samples are read nothing can stop. -/
theorem decodeBlockOp_after (samples : decodeSamples s.seq.currentSubsubframe.toNat s = .ok () u) :
    ∃ ph hist stage out warn bc lfe, decodeBlockOp s = .ok () (finishBlock { u with
      ph := ph, hist := hist, stage := stage, out := out, warnDsync := warn,
      seq := nextPosition u.sf.subsubframes.toNat u.seq, bc := bc, lfe := lfe }) := by
  obtain ⟨ph, hist, stage, out, rendered⟩ := renderBlock_eq s.seq.currentSubsubframe.toNat u
  obtain ⟨bc', warn, marker⟩ := dsyncCheckOp_ok s.seq.currentSubsubframe.toNat (renderBlock s.seq.currentSubsubframe.toNat u)
  obtain ⟨bc, lfe, move⟩ := advanceOp_ok
    { renderBlock s.seq.currentSubsubframe.toNat u with bc := bc', warnDsync := warn }
  refine ⟨ph, hist, stage, out, warn, bc, lfe, (decodeBlockOp_run samples marker move).trans ?_⟩
  rw [rendered]

/-- R135: every error of a block is one of the reading of its samples. -/
theorem decodeBlockOp_error {e : Stop} (h : decodeBlockOp s = .error e t) :
    decodeSamples s.seq.currentSubsubframe.toNat s = .error e t := by
  cases samples : decodeSamples s.seq.currentSubsubframe.toNat s with
  | ok _ u =>
    obtain ⟨_, _, _, _, _, _, _, run⟩ := decodeBlockOp_after samples
    rw [run] at h
    cases h
  | error e' t' =>
    have run : decodeBlockOp s = .error e' t' := op_get_run (op_stop samples rfl)
    rw [run] at h
    exact h

/-- R135: the samples of a block inside the frame, at the first sub-block of a subframe behind its header. -/
theorem decodeSamples_run {ssf : Nat} (inside : s.seq.currentSubframe.toNat < s.sh.subframes.toNat)
    (first : ssf = 0 → sfHeaderOp s = .ok () t) (later : ssf ≠ 0 → s = t) (body : ssBodyOp ssf t = .ok () u) :
    decodeSamples ssf s = .ok () u := by
  refine op_get_run ?_
  rw [if_neg (Nat.not_le.2 inside)]
  exact op_optional t (fun yes => ⟨(), first yes⟩) later body

/-- What the reading of the samples leaves alone of the frame. -/
def blockFrame (s : State) :=
  (s.sh, s.fr, s.chF, s.ph, s.hist, s.stage, s.out, s.res, s.args, s.mem, s.rom, s.unit)

theorem keeps_blockFrame (ssf : Nat) : Keeps blockFrame (decodeSamples ssf) :=
  keeps_decodeSamples (fun _ _ => rfl) (fun _ _ => rfl) (fun _ _ => rfl) (fun _ _ => rfl) (fun _ _ => rfl) (fun _ _ => rfl) ssf

theorem blockFrame_eq (h : blockFrame t = blockFrame s) :
    t.sh = s.sh ∧ t.fr = s.fr ∧ t.chF = s.chF ∧ t.ph = s.ph ∧ t.hist = s.hist ∧ t.stage = s.stage ∧ t.out = s.out
      ∧ t.res = s.res ∧ t.args = s.args ∧ t.mem = s.mem ∧ t.rom = s.rom ∧ t.unit = s.unit := by
  simpa only [blockFrame, Prod.mk.injEq] using h

/-- 10_state.md R41: the number of valid slots, as the obligations write it. -/
theorem outChannels_eq (s : State) : outChannels s = min 6 (nchOf s.rom s.fr.output + s.fr.outputLfe.toNat) := by
  unfold outChannels
  cases s.fr.outputLfe <;> rfl

/-- R41: the valid slots are what the block left in them. -/
theorem vget_finishBlock_out {ch : Nat} (h : ch < outChannels s) : vget (finishBlock s).out ch = vget s.out ch := by
  have six : outChannels s ≤ 6 := outChannels_le s
  unfold finishBlock forgetSlots
  dsimp only
  rw [vget_vtab _ (by omega)]
  exact if_pos h

/-! ### O47: a block of legal groups -/

/-- Settles O47: its samples by the header and the body that complete, the rest by `decodeBlockOp_after`. -/
theorem decodeBlockCompletes : Obligations.DecodeBlockCompletes := by
  intro s q n ready active inside first h plain body
  have zero : s.seq.currentSubsubframe.toNat = 0 ↔ first := BitVec.toNat_inj (x := s.seq.currentSubsubframe) (y := 0#3)
  have atFirst : first → h = plainHeader s := fun yes => if_pos yes
  have atLater : ¬ first → h = s := fun no => if_neg no
  clear_value h
  have shape : ∃ bc sf chS, h = { s with bc := bc, sf := sf, chS := chS } := by
    by_cases yes : first
    · exact ⟨_, _, _, atFirst yes⟩
    · exact ⟨s.bc, s.sf, s.chS, atLater yes⟩
  obtain ⟨u, bodyRun, x, rfl, -⟩ := ssBodyOp_done (ssf := s.seq.currentSubsubframe.toNat) body
  have samples := decodeSamples_run inside
    (fun yes => (sfHeaderOp_plain (plain (zero.1 yes))).trans (by rw [atFirst (zero.1 yes)]))
    (fun no => (atLater fun yes => no (zero.2 yes)).symm) bodyRun
  obtain ⟨ph, hist, stage, out, warn, bc, lfe, run⟩ := decodeBlockOp_after samples
  obtain ⟨_, sf, chS, rfl⟩ := shape
  refine ⟨_, (exec_decodeBlock s).trans (decodeBlockCmd_active ready active run), rfl, ?_, rfl, ?_, rfl, rfl, rfl, rfl, rfl, rfl,
    rfl, rfl, rfl, rfl, rfl, rfl⟩
  · exact (nextPosition_frame _ _).trans active
  · rw [← outChannels_eq]
    rfl

/-! ### O48: a block that fails -/

/-- `l` is the LFE span, and outside its upper half `LFE_DATA` is that of `s`. -/
def LfeKept (s : State) (l : Nat) (u : State) : Prop :=
  lfeSpan u = l ∧ ∀ i, i < 32 → i < l ∨ 2 * l ≤ i → vget u.lfe i = vget s.lfe i

/-- The LFE span that the reading of a block leaves: the header of a subframe sets it (R139). -/
def blockSpan (s : State) : Nat :=
  if s.seq.currentSubsubframe = 0#3 ∧ s.seq.currentSubframe.toNat < s.sh.subframes.toNat then
    2 * s.sh.lfe.toNat * (peek s 0 2 + 1)
  else lfeSpan s

theorem lfeKept_seesCountOnly (l : Nat) : SeesCountOnly (LfeKept s l) := by
  intro u f same
  simp only [LfeKept, lfeSpan, same]

theorem lfeKept_seesNoCurrentLfe (l : Nat) : SeesNoCurrentLfe (LfeKept s l) := by
  intro u x same
  have span : lfeSpan { u with lfe := x } = lfeSpan u := rfl
  unfold LfeKept
  rw [span]
  refine propext (and_congr_right fun at_l => forall_congr' fun i => forall_congr' fun hi => forall_congr' fun out => ?_)
  dsimp only
  rw [same i hi (at_l ▸ out)]

/-- The header of a subframe sets the span of its LFE data (10_state.md R27). -/
theorem leads_sfHeader_lfe (s : State) : Leads (fun t => t = s) sfHeaderOp
    (fun _ => LfeKept s (2 * s.sh.lfe.toNat * (peek s 0 2 + 1))) (LfeKept s (2 * s.sh.lfe.toNat * (peek s 0 2 + 1))) := by
  refine leads_sfHeader (fun _ _ => rfl) (fun _ _ => rfl) (lfeKept_seesCountOnly _) (lfeKept_seesNoCurrentLfe _)
    (fun _ _ => rfl) fun t same => ?_
  subst same
  refine ⟨?_, fun _ _ _ => rfl⟩
  have small : peek t 0 2 < 2 ^ 2 := peek_lt t 0 2
  have count : (BitVec.ofNat 3 (peek t 0 2 + 1)).toNat = peek t 0 2 + 1 := by
    rw [BitVec.toNat_ofNat]
    omega
  exact congrArg (2 * t.sh.lfe.toNat * ·) count

theorem leads_decodeSamples_lfe (s : State) : Leads (fun t => t = s) (decodeSamples s.seq.currentSubsubframe.toNat)
    (fun _ => LfeKept s (blockSpan s)) (LfeKept s (blockSpan s)) := by
  have zero : s.seq.currentSubsubframe.toNat = 0 ↔ s.seq.currentSubsubframe = 0#3 := BitVec.toNat_inj (y := 0#3)
  have body : ∀ l, Sound (LfeKept s l) (ssBodyOp s.seq.currentSubsubframe.toNat) := fun l =>
    sound_ssBody (fun _ _ => rfl) (fun _ _ => rfl) _
  refine leads_get fun t same => ?_
  subst same
  refine leads_check (fun beyond u same => ?_) fun inside => leads_ite (fun first => ?_) fun later => ?_
  · subst same
    exact ⟨(if_neg fun both => Nat.not_le.2 both.2 beyond).symm, fun _ _ _ => rfl⟩
  · have span : blockSpan t = 2 * t.sh.lfe.toNat * (peek t 0 2 + 1) := if_pos ⟨zero.1 first, Nat.not_le.1 inside⟩
    rw [span]
    exact leads_bind (leads_sfHeader_lfe t) fun _ => body _
  · have span : blockSpan t = lfeSpan t := if_neg fun both => later (zero.2 both.1)
    rw [span]
    refine leads_pre (body _) fun u same => ?_
    subst same
    exact ⟨rfl, fun _ _ _ => rfl⟩

/-- Settles O48: the error is one of `decodeSamples`, which keeps the frame and `LFE_DATA` up to its upper half. -/
theorem decodeBlockFailureKeeps : Obligations.DecodeBlockFailureKeeps := by
  intro s t ready step failed
  rw [exec_decodeBlock] at step
  by_cases active : s.seq.frame = .active
  · obtain ⟨c, l, u, run, rfl⟩ := decodeBlockCmd_raised ready active step failed
    have samples := decodeBlockOp_error run
    obtain ⟨rfl, span, lfe⟩ := (leads_decodeSamples_lfe s s rfl).2 c l u samples
    obtain ⟨sh, fr, chF, ph, hist, stage, out, res, args, mem, -, -⟩ := blockFrame_eq ((keeps_blockFrame _).error samples)
    refine ⟨rfl, ph, hist, stage, out, res, fr, sh, chF, args, mem, fun i hi outside => ?_, fun _ => rfl,
      fun no => absurd active no⟩
    exact (vget_forgetBlock_lfe _ hi (span ▸ outside)).trans (lfe i hi outside)
  · have idle : decodeBlockCmd s = .next (setCode .corruptStream s) := by
      unfold decodeBlockCmd
      rw [if_neg (by rw [ready]; decide), if_pos active]
    cases idle.symm.trans step
    exact ⟨rfl, rfl, rfl, rfl, rfl, rfl, rfl, rfl, rfl, rfl, rfl, fun _ _ _ => rfl, fun yes => absurd yes active, fun _ => rfl⟩

/-! ### O46: the script of a block -/

theorem runAll_append (s : State) (xs ys : List Instr) :
    runAll s (xs ++ ys) = (runAll s xs).bind fun t => runAll t ys := by
  induction xs generalizing s with
  | nil => rfl
  | cons i xs ih =>
    simp only [List.cons_append, runAll]
    split
    · exact ih _
    · rfl

theorem runAll_cons {i : Instr} {is : List Instr} (h : runAll s (i :: is) = some u) :
    ∃ t, exec i s = .next t ∧ runAll t is = some u := by
  simp only [runAll] at h
  split at h
  · next t e => exact ⟨t, e, h⟩
  · cases h

theorem runAll_next {i : Instr} (is : List Instr) (h : exec i s = .next t) : runAll s (i :: is) = runAll t is := by
  simp only [runAll, h]

/-- A part of the script that runs on its own. -/
theorem runAll_append_some {xs ys : List Instr} (h : runAll s (xs ++ ys) = some u) :
    ∃ t, runAll s xs = some t ∧ runAll t ys = some u := by
  rw [runAll_append] at h
  exact Option.bind_eq_some_iff.1 h

theorem runAll_synQmf32 (cs : List (Fin 8)) (s : State) :
    runAll s (cs.map .synQmf32) = some ((cs.map Fin.val).foldl synQmf32 s) := by
  induction cs generalizing s with
  | nil => rfl
  | cons c cs ih => exact (runAll_next _ (exec_synQmf32 c s)).trans (ih _)

/-- The channel operands below a channel count, as the channels that SYN.QMF32 runs on. -/
theorem channels_below {n : Nat} (h : n ≤ 8) :
    ((List.finRange 8).filter fun c => c.val < n).map Fin.val = List.range n := by
  interval_cases n <;> decide

/-- A micro-operation that leaves the frame active had an active frame, and did not raise. -/
theorem answerUnit_active {op : Op Unit} (keep : Keeps (fun s => s.seq.frame) op) (h : answerUnit op s = .next t)
    (active : t.seq.frame = .active) : op s = .ok () t ∧ s.seq.frame = .active := by
  obtain ⟨_, u, run, rfl⟩ | ⟨c, l, u, run, rfl⟩ := answer_cases h
  · exact ⟨run, (keep.ok run).symm.trans active⟩
  · cases active

theorem synQmf32_fold_fr (cs : List Nat) (s : State) : (cs.foldl synQmf32 s).fr = s.fr := by
  induction cs generalizing s with
  | nil => rfl
  | cons c cs ih => exact ih _

/-- The rendering part of the script is `renderBlock`, on a state with the channel count and the LFE output of `s`. -/
theorem runAll_render {ssf : Fin 4} (few : primCount s ≤ 8) (sh : t.sh = s.sh) (fr : t.fr = s.fr)
    (rest : List Instr) :
    runAll t (.phUpdate :: (((List.finRange 8).filter fun c => c.val < primCount s).map .synQmf32
      ++ .dmxApply :: ((if s.fr.outputLfe then [.lfeInterp ssf] else []) ++ rest))) = runAll (renderBlock ssf.val t) rest := by
  have count : primCount (phUpdate t) = primCount s := congrArg (fun h => h.primChannels.toNat) sh
  have output : (dmxApply (synthesizeAll (phUpdate t))).fr = s.fr :=
    (dmxApply_fr _).trans ((synQmf32_fold_fr _ _).trans fr)
  rw [runAll_next _ (exec_phUpdate t), runAll_append, runAll_synQmf32, channels_below few, Option.bind_some,
    runAll_next _ (exec_dmxApply _), runAll_append, ← count]
  have rendered : renderBlock ssf.val t = if s.fr.outputLfe then lfeInterp (dmxApply (synthesizeAll (phUpdate t))) ssf.val
      else dmxApply (synthesizeAll (phUpdate t)) := by
    rw [← output]
    rfl
  rw [rendered]
  by_cases lfe : s.fr.outputLfe
  · rw [if_pos lfe, if_pos lfe, runAll_next _ (exec_lfeInterp ssf _)]
    rfl
  · rw [if_neg lfe, if_neg lfe]
    rfl

/-- The block script, as its header, its body, its rendering and its end. -/
theorem blockScript_eq (s : State) (ssf : Fin 4) :
    blockScript s ssf = (if ssf = 0 then [.sfHeader] else []) ++ .ssBody ssf :: .phUpdate ::
      (((List.finRange 8).filter fun c => c.val < primCount s).map .synQmf32 ++ .dmxApply ::
        ((if s.fr.outputLfe then [.lfeInterp ssf] else []) ++ [.dsyncCheck ssf, .advance])) := by
  simp only [blockScript, List.append_assoc, List.cons_append, List.nil_append]

/-- The header and the frame registers behind a micro-operation that does not write them, whether it raised or not. -/
theorem answerUnit_headers {op : Op Unit} (keep : Keeps (fun s => (s.sh, s.fr)) op) (h : answerUnit op s = .next t) :
    t.sh = s.sh ∧ t.fr = s.fr := by
  have same : (t.sh, t.fr) = (s.sh, s.fr) := by
    obtain ⟨_, u, run, rfl⟩ | ⟨c, l, u, run, rfl⟩ := answer_cases h
    · exact keep.ok run
    · exact (keep.error run : (u.sh, u.fr) = (s.sh, s.fr))
  exact Prod.mk.inj same

/-- The header and the body of the script are `decodeSamples`, when the frame is still active behind them. -/
theorem decodeSamples_of_script {ssf : Fin 4} {is : List Instr} (inside : s.seq.currentSubframe.toNat < s.sh.subframes.toNat)
    (run : runAll s ((if ssf = 0 then [.sfHeader] else []) ++ .ssBody ssf :: is) = some u)
    (last : ∀ t, t.sh = s.sh → t.fr = s.fr → runAll t is = some u → t.seq.frame = .active) :
    ∃ t, decodeSamples ssf.val s = .ok () t ∧ runAll t is = some u := by
  obtain ⟨h, header, behindHeader⟩ := runAll_append_some run
  obtain ⟨b, body, rest⟩ := runAll_cons behindHeader
  rw [exec_ssBody] at body
  obtain ⟨sh, fr⟩ := answerUnit_headers (keeps_ssBody (fun _ _ => rfl) (fun _ _ => rfl) _) body
  have behind : h.sh = s.sh → h.fr = s.fr → ssBodyOp ssf.val h = .ok () b ∧ h.seq.frame = .active := fun sh' fr' =>
    answerUnit_active (keeps_ssBody (fun _ _ => rfl) (fun _ _ => rfl) _) body (last b (sh.trans sh') (fr.trans fr') rest)
  by_cases first : ssf = 0
  · rw [if_pos first] at header
    obtain ⟨h', header, same⟩ := runAll_cons header
    cases same
    rw [exec_sfHeader] at header
    obtain ⟨sh', fr'⟩ := answerUnit_headers (keeps_sfHeader (fun _ _ => rfl) (fun _ _ => rfl) (fun _ _ => rfl)
      (fun _ _ => rfl) (fun _ _ => rfl)) header
    obtain ⟨body, active⟩ := behind sh' fr'
    obtain ⟨header, -⟩ := answerUnit_active (keeps_sfHeader (fun _ _ => rfl) (fun _ _ => rfl) (fun _ _ => rfl)
      (fun _ _ => rfl) (fun _ _ => rfl)) header active
    exact ⟨b, decodeSamples_run inside (fun _ => header) (fun later => absurd (congrArg Fin.val first) later) body, rest⟩
  · rw [if_neg first] at header
    cases header
    exact ⟨b, decodeSamples_run inside (fun zero => absurd (Fin.ext zero) first) (fun _ => rfl) (behind rfl rfl).1, rest⟩

/-- The marker and the move at the end of the script, which cannot raise. -/
theorem blockEnd_of_script {ssf : Fin 4} (run : runAll s [.dsyncCheck ssf, .advance] = some u) :
    ∃ v, dsyncCheckOp ssf.val s = .ok () v ∧ advanceOp v = .ok () u := by
  obtain ⟨v, marker, run⟩ := runAll_cons run
  obtain ⟨w, move, run⟩ := runAll_cons run
  cases run
  obtain ⟨bc, warn, marked⟩ := dsyncCheckOp_ok ssf.val s
  obtain ⟨bc', lfe, moved⟩ := advanceOp_ok v
  rw [exec_dsyncCheck, answerUnit, answer_ok marked] at marker
  rw [exec_advance, answerUnit, answer_ok moved] at move
  cases move
  cases marker
  exact ⟨_, marked, moved⟩

/-- What the end of the script leaves alone. -/
theorem blockEnd_kept {ssf : Fin 4} (run : runAll s [.dsyncCheck ssf, .advance] = some u) :
    u.seq.frame = s.seq.frame ∧ u.fr = s.fr ∧ u.res = s.res ∧ u.rom = s.rom ∧ u.unit = s.unit := by
  obtain ⟨v, marker, move⟩ := blockEnd_of_script run
  obtain ⟨bc, warn, marked⟩ := dsyncCheckOp_ok ssf.val s
  obtain ⟨bc', lfe, moved⟩ := advanceOp_ok v
  cases marked.symm.trans marker
  cases moved.symm.trans move
  exact ⟨nextPosition_frame _ _, rfl, rfl, rfl, rfl⟩

/-- Settles O46: the script is followed to `decodeSamples`, `renderBlock` and the end, which `decodeBlockOp_run` puts together. -/
theorem decodeBlockIsItsScript : Obligations.DecodeBlockIsItsScript := by
  intro s u ssf ready active inside position few run last n
  rw [blockScript_eq] at run
  have rendered : ∀ {t : State}, t.sh = s.sh → t.fr = s.fr → _ := fun sh fr =>
    runAll_render (ssf := ssf) few sh fr [.dsyncCheck ssf, .advance]
  obtain ⟨b, samples, run⟩ := decodeSamples_of_script inside run fun t sh fr run => by
    rw [rendered sh fr] at run
    obtain ⟨ph, hist, stage, out, e⟩ := renderBlock_eq ssf.val t
    rw [e] at run
    exact (blockEnd_kept run).1.symm.trans last
  obtain ⟨sh, fr, -, -, -, -, -, res, -, -, rom, unit⟩ := blockFrame_eq ((keeps_blockFrame _).ok samples)
  rw [rendered sh fr] at run
  obtain ⟨v, marker, move⟩ := blockEnd_of_script run
  have block : exec .decodeBlock s = .next (setCode .ok (finishBlock u)) := by
    rw [exec_decodeBlock]
    rw [← position] at samples marker
    exact decodeBlockCmd_active ready active (decodeBlockOp_run samples marker move)
  obtain ⟨ph, hist, stage, out, e⟩ := renderBlock_eq ssf.val b
  rw [e] at run
  obtain ⟨-, fr', res', rom', unit'⟩ := blockEnd_kept run
  have slots : outChannels u = n := by rw [outChannels_eq, fr', rom', fr, rom]
  refine ⟨_, block, ?_, unit'.trans unit, fun ch below => ?_⟩
  · rw [← slots, ← fr'.trans fr, ← res'.trans res]
    rfl
  · exact vget_finishBlock_out (slots ▸ below)

end Block

end Sys2Proof.Proofs
end

section
/-! PROOFS. The sample decoder on its own (44_sample_decode.md): the digits of a block codeword and BLK.DECODE (O51), which
family QX runs, and what each family answers (O50). -/

namespace Sys2Proof.Proofs

open Sys2Proof.Machine Sys2Proof.Safety Sys2Proof.Laws

-- As in the tests: elaborating these declarations side by side needs more threads than the checker's memory limit allows.
set_option Elab.async false

/-! ### The digits of a number -/

/-- One digit taken off, the digits above it left. -/
theorem digit_add_rest (c l i : Nat) : c / l ^ i % l + l * (c / l ^ (i + 1)) = c / l ^ i := by
  rw [Nat.pow_succ, ← Nat.div_div_eq_div_mul]
  exact Nat.mod_add_div (c / l ^ i) l

/-- A number below `l^4` from its four digits, the least significant one first. -/
theorem four_digits_sum {c l : Nat} (h : c < l ^ 4) :
    c / l ^ 0 % l + l * (c / l ^ 1 % l + l * (c / l ^ 2 % l + l * (c / l ^ 3 % l))) = c := by
  have top : c / l ^ 3 % l = c / l ^ 3 := Nat.mod_eq_of_lt (Nat.div_lt_of_lt_mul h)
  rw [top, digit_add_rest c l 2, digit_add_rest c l 1, digit_add_rest c l 0, Nat.pow_zero, Nat.div_one]

/-- All digits of `l^n − 1` are the greatest one. -/
theorem digit_of_pow_sub_one {l i n : Nat} (pos : 0 < l) (h : i < n) : (l ^ n - 1) / l ^ i % l = l - 1 := by
  have split : l ^ n = l ^ i * l ^ (n - i) := by rw [← Nat.pow_add, Nat.add_sub_cancel' h.le]
  have split' : l ^ (n - i) = l * l ^ (n - i - 1) := (mul_pow_sub_one (by omega) l).symm
  have above : (l ^ n - 1) / l ^ i = l ^ (n - i) - 1 := by
    rw [split, Nat.mul_sub_div 0 _ _ (split ▸ Nat.pow_pos pos), Nat.zero_div]
  rw [above, split', Nat.mul_sub_mod (split' ▸ Nat.pow_pos pos), Nat.zero_mod]

/-! ### O51: BLK.DECODE -/

/-- 44_sample_decode.md R167, R168: a digit less the offset; the number of levels is odd. -/
def blockDigit (code levels i : Nat) : Int := ((code / levels ^ i % levels : Nat) : Int) - ((levels - 1) / 2 : Nat)

theorem blkDecodeOp_blockDigit {code levels : Nat} (h : code < levels ^ 4) (s : State) :
    blkDecodeOp code levels s = .ok (vtab 4 (blockDigit code levels)) s := blkDecodeOp_ok h s

/-- R167: a codeword past the last one. -/
theorem blkDecodeOp_raises {code levels : Nat} (h : levels ^ 4 ≤ code) (s : State) :
    blkDecodeOp code levels s = .error (.raise .corruptStream .blockCode) s := by
  rw [blkDecodeOp, blkDecode, if_pos h]
  rfl

theorem exec_blkDecode (code levels : Nat) (s : State) :
    exec (.blkDecode code levels) s = answerValue (blkDecodeOp code levels) UnitResult.ints4 s := rfl

section BlockDigit

variable {code levels : Nat}

theorem blockDigit_bounds (odd : levels % 2 = 1) (i : Nat) :
    -(((levels - 1) / 2 : Nat) : Int) ≤ blockDigit code levels i
      ∧ blockDigit code levels i ≤ (((levels - 1) / 2 : Nat) : Int) := by
  have digit : code / levels ^ i % levels < levels := Nat.mod_lt _ (by omega)
  unfold blockDigit
  omega

theorem blockDigit_add_offset (i : Nat) :
    blockDigit code levels i + ((levels - 1) / 2 : Nat) = ((code / levels ^ i % levels : Nat) : Int) :=
  Int.sub_add_cancel _ _

theorem blockDigit_zero (i : Nat) : blockDigit 0 levels i = -(((levels - 1) / 2 : Nat) : Int) := by
  rw [blockDigit, Nat.zero_div, Nat.zero_mod]
  exact Int.zero_sub _

theorem blockDigit_last (odd : levels % 2 = 1) {i : Nat} (h : i < 4) :
    blockDigit (levels ^ 4 - 1) levels i = (((levels - 1) / 2 : Nat) : Int) := by
  rw [blockDigit, digit_of_pow_sub_one (by omega) h]
  omega

end BlockDigit

/-- Settles O51: the codeword is the sum of its digits, which lie within the offset on both sides as `levels` is odd. -/
theorem blkDecodeDigits : Obligations.BlkDecodeDigits := by
  intro s code levels tabulated off
  have odd : levels % 2 = 1 := (by decide : ∀ l ∈ [3, 5, 7, 9, 13, 17, 25], l % 2 = 1) levels tabulated
  have digit : ∀ i, i < 4 → vget (vtab 4 (blockDigit code levels)) i = blockDigit code levels i := fun i => vget_vtab _
  refine ⟨fun legal => ⟨vtab 4 (blockDigit code levels), answer_ok (blkDecodeOp_blockDigit legal s), ?_, ?_, ?_, ?_⟩,
    fun past => answer_raise (blkDecodeOp_raises past s)⟩
  · intro i hi
    rw [digit i hi]
    exact blockDigit_bounds odd i
  · rw [digit 0 (by decide), digit 1 (by decide), digit 2 (by decide), digit 3 (by decide)]
    simp only [off, blockDigit_add_offset]
    exact_mod_cast four_digits_sum legal
  · rintro rfl i hi
    rw [digit i hi, blockDigit_zero]
  · rintro rfl i hi
    rw [digit i hi, blockDigit_last odd hi]

/-! ### The family that QX runs -/

theorem exec_qx (a : Fin 27) (sel : BitVec 3) (s : State) :
    exec (.qx a sel) s = answerValue (qxOp a.val sel.toNat) UnitResult.ints8 s := rfl
theorem exec_qxNone (s : State) : exec .qxNone s = .next { s with unit := .ints8 qxNoneVal } := rfl
theorem exec_qxHuff (book : Codebook) (s : State) :
    exec (.qxHuff book) s = answerValue (qxHuffOp book) UnitResult.ints8 s := rfl
theorem exec_qxRaw (a : Fin 27) (s : State) : exec (.qxRaw a) s = answerValue (qxRawOp a.val) UnitResult.ints8 s := rfl
theorem exec_qxBlock (a : Fin 27) (s : State) :
    exec (.qxBlock a) s = answerValue (qxBlockOp a.val) UnitResult.ints8 s := rfl

/-- An answer depends on how the operation runs from the state at hand, and on nothing else of it. -/
theorem answerValue_congr {α : Type} {x y : Op α} {s : State} (h : x s = y s) (kind : α → UnitResult) :
    answerValue x kind s = answerValue y kind s := by
  unfold answerValue answer
  rw [h]

/-- 44_sample_decode.md R161: for an allocation index that is not 0 the codebook is the one of `(a, sel)`. -/
theorem qidxBookOf_eq_groupBook {a : Nat} (pos : 1 ≤ a) (r : Rom) (sel : Nat) :
    qidxBookOf r a sel = groupBook r a sel := by
  rw [qidxBookOf, groupBook]
  by_cases small : a ≤ 10
  · rw [if_neg (by omega), if_pos small]
  · rw [if_pos (by omega), if_neg small]

/-! 44_sample_decode.md R162: the four families. -/

section Family

variable {s : State} {a sel : Nat}

theorem qxOp_none (sel : Nat) (s : State) : qxOp 0 sel s = .ok qxNoneVal s := rfl

theorem qxOp_huff {book : Codebook} (pos : 1 ≤ a) (found : groupBook s.rom a sel = some book) :
    qxOp a sel s = qxHuffOp book s := by
  unfold qxOp
  refine op_get_run ?_
  rw [if_neg (Nat.ne_of_gt pos), qidxBookOf_eq_groupBook pos, found]

/-- No codebook: a block code up to allocation index 7, raw fields behind it. -/
theorem qxOp_bookless (pos : 1 ≤ a) (missing : groupBook s.rom a sel = none) :
    qxOp a sel s = (if a ≤ 7 then qxBlockOp a else qxRawOp a) s := by
  unfold qxOp
  refine op_get_run ?_
  rw [if_neg (Nat.ne_of_gt pos), qidxBookOf_eq_groupBook pos, missing]

theorem qxOp_block (pos : 1 ≤ a) (high : a ≤ 7) (missing : groupBook s.rom a sel = none) :
    qxOp a sel s = qxBlockOp a s := by
  rw [qxOp_bookless pos missing, if_pos high]

theorem qxOp_raw (low : 8 ≤ a) (missing : groupBook s.rom a sel = none) : qxOp a sel s = qxRawOp a s := by
  rw [qxOp_bookless (by omega) missing, if_neg (by omega)]

end Family

/-! ### What each family answers -/

section Answers

variable {s : State} {a : Nat}

/-- R164. -/
theorem qxHuffOp_ok {book : Codebook} {es : List CodeEntry} (wf : bookWellFormed book = true) (eight : es.length = 8)
    (mem : ∀ e, e ∈ es → e ∈ book) (codes : CodesAt (restBit s.mem s.bc) 0 es) :
    qxHuffOp book s = .ok (ints8Of (es.map CodeEntry.value)) { s with bc := after s (codesLength es) } := by
  have read := (behind_zero s).collect_huff wf mem codes
  rw [eight, Nat.zero_add] at read
  exact op_run read rfl

/-- R165: signed fields of `a − 3` bits. -/
theorem qxRawOp_ok (low : 8 ≤ a) (high : a ≤ 26) : qxRawOp a s
    = .ok (vtab 8 fun m => (BitVec.ofNat (a - 3) (peek s (m * (a - 3)) (a - 3))).toInt)
      { s with bc := after s (8 * (a - 3)) } := by
  have read := (behind_zero s).collect_signed (n := a - 3) (by omega) (by omega) 8
  simp only [Nat.zero_add] at read
  exact op_run read (by rw [ints8Of_map_range]; rfl)

/-- R166: both codewords are in range. -/
theorem qxBlockOp_ok (pos : 1 ≤ a) (high : a ≤ 7) (first : peek s 0 (blockSize a) < blockLevels a ^ 4)
    (second : peek s (blockSize a) (blockSize a) < blockLevels a ^ 4) : qxBlockOp a s
      = .ok (vtab 8 fun m => if m < 4 then blockDigit (peek s 0 (blockSize a)) (blockLevels a) m
          else blockDigit (peek s (blockSize a) (blockSize a)) (blockLevels a) (m - 4))
        { s with bc := after s (2 * blockSize a) } := by
  have run := (behind_zero s).qxBlockOp pos high first (by rwa [Nat.zero_add])
  simp only [Nat.zero_add] at run
  rw [run]
  refine congrArg (fun v => EStateM.Result.ok v _) (vtab_congr fun m hm => ?_)
  by_cases low : m < 4
  · rw [if_pos low, if_pos low, Nat.mod_eq_of_lt low]
    rfl
  · rw [if_neg low, if_neg low, show m % 4 = m - 4 by omega]
    rfl

/-- R166: a codeword is past the last one; both are read before the first is decoded. -/
theorem qxBlockOp_raises (pos : 1 ≤ a) (high : a ≤ 7) (past : blockLevels a ^ 4 ≤ peek s 0 (blockSize a)
      ∨ blockLevels a ^ 4 ≤ peek s (blockSize a) (blockSize a)) :
    qxBlockOp a s = .error (.raise .corruptStream .blockCode) { s with bc := after s (2 * blockSize a) } := by
  obtain ⟨w1, w2⟩ := blockSize_bounds pos high
  have next : Behind s { s with bc := after s (blockSize a) } (blockSize a) := ⟨rfl, rfl, rfl⟩
  have read := next.getBits w1 w2
  rw [← Nat.two_mul] at read
  refine op_run (getBits_ok w1 w2 s) (op_run read ?_)
  by_cases legal : peek s 0 (blockSize a) < blockLevels a ^ 4
  · have second := past.resolve_left (Nat.not_le.2 legal)
    exact op_run (blkDecodeOp_ok legal _) (op_bind_error (blkDecodeOp_raises second _))
  · exact op_bind_error (blkDecodeOp_raises (Nat.not_lt.1 legal) _)

end Answers

/-! ### O50: QX and its families -/

/-- Settles O50: the family that the operands select, and the answer of each family. -/
theorem qxFamiliesDecode : Obligations.QxFamiliesDecode := by
  intro s a sel done
  refine ⟨fun zero => ⟨?_, ?_⟩, fun book es found nonzero wf eight mem codes => ⟨?_, ?_⟩,
    fun low => ⟨?_, fun missing => ?_⟩, fun pos high => ⟨fun first second => ?_, fun past => ?_, fun missing => ?_⟩⟩
  · rw [exec_qxNone]
    simp only [done, after_zero]
    rfl
  · rw [exec_qx, exec_qxNone, zero]
    exact answer_ok (qxOp_none _ s)
  · exact answer_ok (qxHuffOp_ok wf eight mem codes)
  · rw [exec_qx, exec_qxHuff]
    exact answerValue_congr (qxOp_huff (Nat.pos_of_ne_zero nonzero) found) _
  · exact answer_ok (qxRawOp_ok low (Nat.le_of_lt_succ a.isLt))
  · rw [exec_qx, exec_qxRaw]
    exact answerValue_congr (qxOp_raw low missing) _
  · exact answer_ok (qxBlockOp_ok pos high first second)
  · exact answer_raise (qxBlockOp_raises pos high past)
  · rw [exec_qx, exec_qxBlock]
    exact answerValue_congr (qxOp_block pos high missing) _

end Sys2Proof.Proofs
end

section
/-! PROOFS. The reconstructor's products (45_reconstruct.md R181 to R183, 44_sample_decode.md R170): the three factors of the
scale and the samples that RECON.SCALE and HFVQ.LOOKUP answer (O52). -/

namespace Sys2Proof.Proofs

open Sys2Proof.Machine Sys2Proof.Safety Sys2Proof.Laws

-- As in the tests: elaborating these declarations side by side needs more threads than the checker's memory limit allows.
set_option Elab.async false

/-! ### The three factors of a scale -/

/-- R182: slot 1 from the transition on, where there is one. -/
theorem scaleSlot_eq_one_iff {t ssf : Nat} : scaleSlot t ssf = 1 ↔ 0 < t ∧ t ≤ ssf := by
  unfold scaleSlot
  split
  · next later => exact iff_of_true rfl later
  · next never => exact iff_of_false Nat.zero_ne_one never

/-- R181: the table that the bit rate selects, at a finite entry. -/
theorem qstepOf_of_finite {s : State} {a : Nat} {step : Num}
    (tabulated : step = if s.sh.bitRate.toNat = 31 then tget s.rom.qstepLossless a else tget s.rom.qstepLossy a)
    (finite : s.rom.sampleKind = .float → step.extractLsb' 52 11 ≠ 0x7FF#11) : qstepOf s a = step := by
  have lossless : s.sh.bitRate = 31#5 ↔ s.sh.bitRate.toNat = 31 := BitVec.toNat_inj.symm
  simp only [qstepOf, lossless]
  rw [← tabulated, numFinite_of_finite finite]

/-- R183: a selector always has an entry of `sf_adj`; of the allocation indices, those up to 10. -/
theorem adjOf_eq (s : State) (c a : Nat) (sel : BitVec 3) :
    adjOf s c a sel.toNat = match s.rom.adjIndex with
      | .sel => vget (vget s.chF c).sfAdj sel.toNat
      | .abits => if a ≤ 10 then vget (vget s.chF c).sfAdj a else numOfInt s.rom.sampleKind 1 := by
  have small : sel.toNat ≤ 10 := by have := sel.isLt; omega
  unfold adjOf
  cases s.rom.adjIndex with
  | sel => exact if_pos small
  | abits => rfl

/-! ### The answers -/

theorem exec_reconScale (c : Fin 8) (sb : Fin 32) (ssf : Fin 4) (q : Vector Int 8) (s : State) :
    exec (.reconScale c sb ssf q) s = .next { s with unit := .nums8 (reconScale s c.val sb.val ssf.val q) } := rfl

theorem exec_hfvqLookup (c : Fin 8) (sb : Fin 32) (ssf : Fin 4) (s : State) :
    exec (.hfvqLookup c sb ssf) s = .next { s with unit := .nums8 (hfvqLookup s c.val sb.val ssf.val) } := rfl

section Samples

variable {s : State} {c sb ssf m : Nat} {q : Vector Int 8}

/-- R182, R190: an index 0 gives +0, whatever the scale. -/
theorem vget_reconScale_of_zero (low : m < 8) (zero : vget q m = 0) : vget (reconScale s c sb ssf q) m = 0#64 := by
  rw [vget_reconScale s c sb ssf q low, if_pos zero]

theorem vget_reconScale_of_ne_zero (low : m < 8) (nonzero : vget q m ≠ 0) : vget (reconScale s c sb ssf q) m
    = numMul s.rom.sampleKind (numOfInt s.rom.sampleKind (vget q m)) (rscaleOf s c sb ssf) := by
  rw [vget_reconScale s c sb ssf q low, if_neg nonzero]

/-- 44_sample_decode.md R170: slot 0 of the scale factor, in every sub-sub-frame. -/
theorem vget_hfvqLookup (low : m < 8) : vget (hfvqLookup s c sb ssf) m
    = numDiv s.rom.sampleKind
      (numMul s.rom.sampleKind (tget s.rom.hfvq ((vget (vget s.chS c).highFreqVq sb).toNat, 8 * ssf + m))
        (vget (vget s.chS c).scale0 sb))
      (numOfInt s.rom.sampleKind 16) :=
  vget_vtab _ low

end Samples

/-! ### O52: RECON.SCALE and HFVQ.LOOKUP -/

/-- Settles O52: the scale is the product of its three factors, each found as the registers say; an index 0 does not meet it. -/
theorem samplesScaled : Obligations.SamplesScaled := by
  intro s c sb ssf q k h a sel t step f adj i
  refine ⟨_, _, exec_reconScale c sb ssf q s, exec_hfvqLookup c sb ssf s, fun m low =>
    ⟨vget_reconScale_of_zero low, fun nonzero finite => ?_, vget_hfvqLookup low⟩⟩
  have scale : rscaleOf s c.val sb.val ssf.val = numMul k (numMul k step f) adj := by
    have stepSize : qstepOf s a = step := qstepOf_of_finite rfl finite
    have slot : (if scaleSlot t ssf.val = 1 then vget h.scale1 sb.val else vget h.scale0 sb.val) = f := by
      simp only [scaleSlot_eq_one_iff, f]
    have adjustment : adjOf s c.val a sel = adj := adjOf_eq s c.val a _
    rw [← stepSize, ← slot, ← adjustment]
    rfl
  rw [vget_reconScale_of_ne_zero low nonzero, scale]

end Sys2Proof.Proofs
end

section
/-! PROOFS. The synthesis filterbank (46_synthesis.md R215 to R221): one position as a step of what the filterbank carries for
its channel, the positions in order as the fold of that step, and SYN.QMF32 as that fold over all eight (O56). -/

namespace Sys2Proof.Proofs

open Sys2Proof.Machine Sys2Proof.Safety Sys2Proof.Laws

-- As in the tests: elaborating these declarations side by side needs more threads than the checker's memory limit allows.
set_option Elab.async false

/-! ### What the filterbank carries for a channel -/

/-- The history, the staging buffer and the output row of channel `c`. -/
def runOf (s : State) (c : Nat) : SynRun := { hist := vget s.hist c, stage := vget s.stage c, row := vget s.out c }

/-- The state with `r` as the history, the staging buffer and the output row of channel `c`, and with the latch `w`. -/
def withRun (s : State) (c : Nat) (r : SynRun) (w : UnitResult) : State :=
  { s with hist := vput s.hist c r.hist, stage := vput s.stage c r.stage, out := vput s.out c r.row, unit := w }

theorem withRun_runOf (s : State) (c : Nat) : withRun s c (runOf s c) s.unit = s := by
  simp only [withRun, runOf, vput_vget]

theorem withRun_unit (s : State) (c : Nat) (r : SynRun) (w : UnitResult) : (withRun s c r w).unit = w := rfl

theorem runOf_withRun (s : State) {c : Nat} (r : SynRun) (w : UnitResult) (hc : c < 8) : runOf (withRun s c r w) c = r := by
  have slot : c < 9 := by omega
  simp only [withRun, runOf, vget_vput_same _ _ hc, vget_vput_same _ _ slot]

theorem runOf_withRun_ne (s : State) {c d : Nat} (r : SynRun) (w : UnitResult) (other : d ≠ c) :
    runOf (withRun s c r w) d = runOf s d := by
  simp only [withRun, runOf, vget_vput_ne _ _ other.symm]

/-- R217: SYN.QMF32 puts the run of its eight positions in the place of its channel. -/
theorem synQmf32_eq_withRun (s : State) (c : Nat) : synQmf32 s c = withRun s c (synRun s c) s.unit := rfl

/-! ### The micro-operations of one position, on the run of their channel -/

section Steps

variable (s : State) (c : Fin 8) (r : SynRun) (w : UnitResult)

theorem hist_withRun : vget (withRun s c.val r w).hist c.val = r.hist := congrArg SynRun.hist (runOf_withRun s r w c.isLt)
theorem stage_withRun : vget (withRun s c.val r w).stage c.val = r.stage := congrArg SynRun.stage (runOf_withRun s r w c.isLt)
theorem out_withRun : vget (withRun s c.val r w).out c.val = r.row := congrArg SynRun.row (runOf_withRun s r w c.isLt)

theorem exec_modulate_withRun (x : Vector Num 32) : exec (.modulate x) (withRun s c.val r w)
    = .next (withRun s c.val r
        (.pair16 (modulateVal s.rom.sampleKind s.syn x).1 (modulateVal s.rom.sampleKind s.syn x).2)) := rfl

theorem exec_butterfly_withRun (a b : Vector Num 16) : exec (.butterfly a b) (withRun s c.val r w)
    = .next (withRun s c.val r
        (.pair16 (butterflyVal s.rom.sampleKind a b).1 (butterflyVal s.rom.sampleKind a b).2)) := rfl

theorem exec_fold_withRun (sum diff : Vector Num 16) : exec (.fold c sum diff) (withRun s c.val r w)
    = .next (withRun s c.val { r with hist := foldVal s.rom.sampleKind s.syn sum diff r.hist } w) := by
  show execFold c sum diff _ = _
  rw [execFold, hist_withRun]
  simp only [withRun, vput_vput]

theorem exec_accumulate_withRun : exec (.accumulate c) (withRun s c.val r w)
    = .next (withRun s c.val { r with stage := accumulateVal s.rom.sampleKind (firOf s) r.hist r.stage } w) := by
  show execAccumulate c _ = _
  rw [execAccumulate, hist_withRun, stage_withRun]
  simp only [withRun, vput_vput]
  rfl

theorem exec_shift_withRun : exec (.shift c) (withRun s c.val r w)
    = .next (withRun s c.val { r with hist := shiftHist r.hist, stage := shiftStage r.stage } w) := by
  show execShift c _ = _
  rw [execShift, hist_withRun, stage_withRun]
  simp only [withRun, vput_vput]

theorem runAll_fold_accumulate_withRun (sum diff : Vector Num 16) :
    runAll (withRun s c.val r w) [.fold c sum diff, .accumulate c]
      = some (withRun s c.val { r with
          hist := foldVal s.rom.sampleKind s.syn sum diff r.hist
          stage := accumulateVal s.rom.sampleKind (firOf s) (foldVal s.rom.sampleKind s.syn sum diff r.hist) r.stage } w) :=
  (runAll_next _ (exec_fold_withRun s c r w sum diff)).trans (runAll_next [] (exec_accumulate_withRun s c _ w))

/-- R221: the output line writes the row of the channel, and SHIFT keeps it. -/
theorem runAll_shift_after_row (row : Vector Word32 256) :
    runAll { withRun s c.val r w with out := vput (withRun s c.val r w).out c.val row } [.shift c]
      = some (withRun s c.val { hist := shiftHist r.hist, stage := shiftStage r.stage, row := row } w) := by
  have written : ({ withRun s c.val r w with out := vput (withRun s c.val r w).out c.val row } : State)
      = withRun s c.val { r with row := row } w := by
    simp only [withRun, vput_vput]
  rw [written]
  exact runAll_next [] (exec_shift_withRun s c _ w)

end Steps

/-! ### One position, and the positions in order -/

/-- R217: what one position does to the run of a channel, on the input vectors `x` and with the tables of `s`. -/
def positionOf (s : State) (x : Nat → Vector Num 32) : SynRun → Nat → SynRun :=
  synPosition s.rom.sampleKind s.syn (firOf s) x

/-- R216: a position reads its own input vector and no other. -/
theorem positionOf_congr {s : State} {x y : Nat → Vector Num 32} {p : Nat} (r : SynRun) (same : x p = y p) :
    positionOf s x r p = positionOf s y r p := by
  simp only [positionOf, synPosition, same]

/-- R217: what BUTTERFLY answers on what MODULATE answers, the latch that a position leaves (log entry 6). -/
def sumDiffOf (s : State) (x : Vector Num 32) : Vector Num 16 × Vector Num 16 :=
  butterflyVal s.rom.sampleKind (modulateVal s.rom.sampleKind s.syn x).1 (modulateVal s.rom.sampleKind s.syn x).2

theorem positionRun_withRun (s : State) (c : Fin 8) (r : SynRun) (v : UnitResult) (x : Nat → Vector Num 32) (p : Nat) :
    positionRun c (x p) (withRun s c.val r v) p
      = some (withRun s c.val (positionOf s x r p) (.pair16 (sumDiffOf s (x p)).1 (sumDiffOf s (x p)).2)) := by
  simp only [positionRun, exec_modulate_withRun, withRun_unit, exec_butterfly_withRun,
    runAll_fold_accumulate_withRun, stage_withRun, out_withRun]
  exact runAll_shift_after_row s c _ _ _

theorem positionsRun_cons {c : Fin 8} {x : Nat → Vector Num 32} {s t : State} {p : Nat} (ps : List Nat)
    (first : positionRun c (x p) s p = some t) : positionsRun c x s (p :: ps) = positionsRun c x t ps := by
  simp only [positionsRun, first]

/-- R217: each position starts from the run that the one before left behind. -/
theorem positionsRun_withRun (s : State) (c : Fin 8) (x : Nat → Vector Num 32) (ps : List Nat) (r : SynRun)
    (v : UnitResult) :
    ∃ w, positionsRun c x (withRun s c.val r v) ps = some (withRun s c.val (ps.foldl (positionOf s x) r) w) := by
  induction ps generalizing r v with
  | nil => exact ⟨v, rfl⟩
  | cons p ps ih =>
    have first := positionRun_withRun s c r v x p
    obtain ⟨w, rest⟩ := ih (positionOf s x r p) _
    rw [List.foldl_cons]
    exact ⟨w, (positionsRun_cons ps first).trans rest⟩

/-! ### O56: SYN.QMF32 -/

/-- R216: input vectors of the active subbands' samples and zeros are those that SYN.QMF32 builds. -/
theorem synRun_eq_foldl {s : State} {c : Nat} {x : Nat → Vector Num 32}
    (input : ∀ p sb, p < 8 → sb < 32 → vget (x p) sb = if sb < actOf s c then vget (subsampAt s c sb) p else 0#64) :
    synRun s c = (List.range 8).foldl (positionOf s x) (runOf s c) := by
  have same : ∀ p, p < 8 → synInput s c p = x p := fun p hp =>
    vector_ext fun sb hsb => (vget_vtab _ hsb).trans (input p sb hp hsb).symm
  exact List.foldl_ext _ _ _ fun r p hp => positionOf_congr r (same p (List.mem_range.mp hp))

/-- Settles O56: the eight positions in order leave the run of SYN.QMF32 in the place of the channel, and a latch. -/
theorem synQmf32IsItsPositions : Obligations.SynQmf32IsItsPositions := by
  intro s c x input
  obtain ⟨w, run⟩ := positionsRun_withRun s c x (List.range 8) (runOf s c.val) s.unit
  rw [withRun_runOf, ← synRun_eq_foldl input] at run
  refine ⟨synQmf32 s c.val, withRun s c.val (synRun s c.val) w, run, exec_synQmf32 c s, rfl, rfl, fun d other => ?_⟩
  have untouched : runOf (synQmf32 s c.val) d = runOf s d := by
    rw [synQmf32_eq_withRun, runOf_withRun_ne s _ _ other]
  exact ⟨congrArg SynRun.hist untouched, congrArg SynRun.stage untouched, congrArg SynRun.row untouched⟩

end Sys2Proof.Proofs
end

section
/-! PROOFS. The LFE FIR upsampler (47_lfe.md R230, R234): LFE.INTERP as one row put in the slot after the last output channel, and
what that row holds (O57). -/

namespace Sys2Proof.Proofs

open Sys2Proof.Machine Sys2Proof.Laws

-- As in the tests: elaborating these declarations side by side needs more threads than the checker's memory limit allows.
set_option Elab.async false

/-! ### The slot of LFE.INTERP -/

/-- R41, R234: with six output channels at most, the slot after the last of them is one of the nine. -/
theorem nchOf_lt_slots (r : Rom) (a : Arrangement) : nchOf r a < 9 := by
  obtain ⟨_, six, _⟩ := nchOf_bounds r a
  omega

/-- R234: the row that LFE.INTERP leaves in the slot after the last output channel. -/
def lfeRow (s : State) (ssf : Nat) : Vector Word32 256 := vget (lfeInterp s ssf).out (nchOf s.rom s.fr.output)

/-- R234: LFE.INTERP writes the slot after the last output channel and nothing else. -/
theorem lfeInterp_eq_vput (s : State) (ssf : Nat) :
    lfeInterp s ssf = { s with out := vput s.out (nchOf s.rom s.fr.output) (lfeRow s ssf) } := by
  simp only [lfeRow, lfeInterp, vget_vput_same _ _ (nchOf_lt_slots s.rom s.fr.output)]

/-! ### The words of the row -/

/-- R230: with one of the two interpolation factors, 128 and 64, the decimated samples of a block fill the row. -/
theorem lfeFactor_fills {l : BitVec 2} (present : l = 1#2 ∨ l = 2#2) : 2 * l.toNat * (256 / (2 * l.toNat)) = 256 := by
  obtain rfl | rfl := present <;> rfl

/-- R230: in a row of `d` runs of `f` words, word `j` of run `i` is among the first `d * f`, and quotient and remainder give `i`
and `j` back. -/
theorem runIndex_split {d f i j : Nat} (run : i < d) (phase : j < f) :
    i * f + j < d * f ∧ (i * f + j) / f = i ∧ (i * f + j) % f = j := by
  have bound : (i + 1) * f ≤ d * f := Nat.mul_le_mul_right f run
  have succ : (i + 1) * f = i * f + f := Nat.succ_mul i f
  have word : j + f * i = i * f + j := by rw [Nat.add_comm, Nat.mul_comm]
  exact ⟨by omega, (Nat.div_mod_unique (Nat.zero_lt_of_lt phase)).2 ⟨word, phase⟩⟩

/-- R230: phase `j` of decimated sample `i` is the FIR sample of that position and phase. -/
theorem vget_lfeRow {s : State} (ssf : Nat) {i j : Nat} (present : s.sh.lfe = 1#2 ∨ s.sh.lfe = 2#2)
    (sample : i < 2 * s.sh.lfe.toNat) (phase : j < 256 / (2 * s.sh.lfe.toNat)) :
    vget (lfeRow s ssf) (i * (256 / (2 * s.sh.lfe.toNat)) + j)
      = lfeSample s (256 / (2 * s.sh.lfe.toNat)) (512 / (256 / (2 * s.sh.lfe.toNat)))
          (lfeSpan s + 2 * s.sh.lfe.toNat * ssf + i) j := by
  obtain ⟨inside, quotient, remainder⟩ := runIndex_split sample phase
  have inRow := inside.trans_eq (lfeFactor_fills present)
  rw [lfeRow, lfeInterp, vget_vput_same _ _ (nchOf_lt_slots s.rom s.fr.output), vget_vtab _ inRow, if_pos inside, quotient,
    remainder]

/-! ### O57: LFE.INTERP -/

/-- Settles O57: the row of LFE.INTERP, whose words are the FIR samples `lfeSample` spells out. -/
theorem lfeInterpFillsSlot : Obligations.LfeInterpFillsSlot := by
  intro s ssf present
  have written : exec (.lfeInterp ssf) s
      = .next { s with out := vput s.out (nchOf s.rom s.fr.output) (lfeRow s ssf.val) } := by
    rw [exec_lfeInterp, ← lfeInterp_eq_vput]
  exact ⟨lfeRow s ssf.val, written, nchOf_lt_slots _ _, fun _ _ sample phase => vget_lfeRow ssf.val present sample phase⟩

end Sys2Proof.Proofs
end

section
/-! PROOFS. The interface of the block: code words and the instructions they stand for (O1, O2), the step that runs them (O4, O9,
O15), the OutputBuffer window (O6), and the host commands that read no stream (O11 to O14, O16). -/

namespace Sys2Proof.Proofs

open Sys2Proof.Machine Sys2Proof.Safety Sys2Proof.Laws

-- As in the tests: elaborating these declarations side by side needs more threads than the checker's memory limit allows.
set_option Elab.async false

/-! ### O2: decoding and encoding -/

/-- The code word that the encoder writes for a well-formed instruction decodes to it again: one law for each instruction. -/
theorem encodeLaw : (i : Instr) → EncodeLaw.Statement i
  | .init => EncodeLaw.init
  | .probe => EncodeLaw.probe
  | .beginFrame => EncodeLaw.beginFrame
  | .blocksRemaining => EncodeLaw.blocksRemaining
  | .decodeBlock => EncodeLaw.decodeBlock
  | .setDrcHook => EncodeLaw.setDrcHook
  | .teardown => EncodeLaw.teardown
  | .illegal w => EncodeLaw.illegal w
  | .fsMatch14le w => EncodeLaw.fsMatch14le w
  | .fsMatch14be w => EncodeLaw.fsMatch14be w
  | .fsMatch16le w => EncodeLaw.fsMatch16le w
  | .fsMatch16be w => EncodeLaw.fsMatch16be w
  | .brInit base len p => EncodeLaw.brInit base len p
  | .brGet n => EncodeLaw.brGet n
  | .getSigned n => EncodeLaw.getSigned n
  | .fsHeader base len p => EncodeLaw.fsHeader base len p
  | .fdHeader => EncodeLaw.fdHeader
  | .fdPrimhdr => EncodeLaw.fdPrimhdr
  | .drcHook => EncodeLaw.drcHook
  | .dmxSelect primary flags level clev slev => EncodeLaw.dmxSelect primary flags level clev slev
  | .advance => EncodeLaw.advance
  | .sfHeader => EncodeLaw.sfHeader
  | .readBitalloc c => EncodeLaw.readBitalloc c
  | .readScales c => EncodeLaw.readScales c
  | .readJoint c => EncodeLaw.readJoint c
  | .readLfe => EncodeLaw.readLfe
  | .ssBody ssf => EncodeLaw.ssBody ssf
  | .dsyncCheck ssf => EncodeLaw.dsyncCheck ssf
  | .sfFooter => EncodeLaw.sfFooter
  | .lfeRotate => EncodeLaw.lfeRotate
  | .huffDec book => EncodeLaw.huffDec book
  | .qx a sel => EncodeLaw.qx a sel
  | .qxNone => EncodeLaw.qxNone
  | .qxHuff book => EncodeLaw.qxHuff book
  | .qxRaw a => EncodeLaw.qxRaw a
  | .qxBlock a => EncodeLaw.qxBlock a
  | .blkDecode code levels => EncodeLaw.blkDecode code levels
  | .hfvqLookup c s ssf => EncodeLaw.hfvqLookup c s ssf
  | .reconScale c s ssf q => EncodeLaw.reconScale c s ssf q
  | .reconAdpcm c s => EncodeLaw.reconAdpcm c s
  | .phUpdate => EncodeLaw.phUpdate
  | .synQmf32 c => EncodeLaw.synQmf32 c
  | .modulate x => EncodeLaw.modulate x
  | .butterfly a b => EncodeLaw.butterfly a b
  | .fold c sum diff => EncodeLaw.fold c sum diff
  | .accumulate c => EncodeLaw.accumulate c
  | .shift c => EncodeLaw.shift c
  | .lfeInterp ssf => EncodeLaw.lfeInterp ssf
  | .dmxApply => EncodeLaw.dmxApply
  | .resync buf len => EncodeLaw.resync buf len
  | .decodeFrame buf len flags level bias => EncodeLaw.decodeFrame buf len flags level bias

/-- What the encoder and the operand check say of an instruction that `cw` stands for. -/
def StandsFor (cw : CodeWord) (i : Instr) : Prop := encode i = some cw ∧ i.wellFormed = true

/-- 30_encoding.md R65: every word written to `CMD` stands for an instruction, a word that no command has for ILLEGAL. -/
theorem decodeCmd_standsFor (w : Word32) : StandsFor (.cmd w) (decodeCmd w) := by
  cases command : isCommandWord w with
  | true =>
    simp only [isCommandWord, Bool.and_eq_true, decide_eq_true_eq] at command
    obtain ⟨n, low, high, rfl⟩ : ∃ n, 1 ≤ n ∧ n ≤ 7 ∧ w = BitVec.ofNat 32 n :=
      ⟨w.toNat, command.1, command.2, by simp⟩
    interval_cases n <;> exact ⟨rfl, rfl⟩
  | false =>
    rw [decodeCmd_illegal command]
    exact ⟨rfl, by rw [Instr.wellFormed, command]; rfl⟩

/-- R66: a window that a pattern matches stands for that pattern's instruction. -/
theorem decodeWindow_standsFor {b : BitVec 48} {i : Instr} (h : decodeWindow b = .ok i) : StandsFor (.window b) i := by
  unfold decodeWindow at h
  split_ifs at h with le14 be14 le16 be16
  · cases h; exact ⟨rfl, le14⟩
  · cases h; exact ⟨rfl, be14⟩
  · cases h; exact ⟨rfl, le16⟩
  · cases h; exact ⟨rfl, be16⟩

theorem decode_standsFor {cw : CodeWord} {i : Instr} (h : decode cw = .ok i) : StandsFor cw i := by
  cases cw with
  | cmd w => cases h; exact decodeCmd_standsFor w
  | window b => exact decodeWindow_standsFor h

/-- Settles O2: what decodes stands for its instruction, and what stands for an instruction decodes to it. -/
theorem decodeEncodeAgree : Obligations.DecodeEncodeAgree := fun cw i =>
  ⟨decode_standsFor, fun ⟨word, wf⟩ => encodeLaw i wf cw word⟩

/-- Settles O1: seven words by the law of their instruction, and a window in which no pattern matches. -/
theorem wordsDecode : Obligations.WordsDecode :=
  ⟨encodeLaw .init rfl _ rfl, encodeLaw .decodeBlock rfl _ rfl, encodeLaw (.illegal _) (by decide) _ rfl,
    decode_14le (by decide), decode_14be (by decide), decode_16le (by decide), decode_16be (by decide), by decide⟩

/-! ### O4, O9: the step -/

theorem runCodeWord_of_decode {cw : CodeWord} {i : Instr} (h : decode cw = .ok i) (s : State) :
    runCodeWord cw s = exec i s := by
  rw [runCodeWord, h]

/-- 10_state.md R13: a write to `CMD` is a command. -/
theorem access_command (w : Word32) (s : State) :
    access (.writeReg 0x00 w) s = runCodeWord (.cmd w) { s with cmd := w } := rfl

/-- 60_exceptions.md R275. -/
theorem step_idle {s : State} (idle : s.host = []) : step s = .next s := by
  rw [step, idle]

/-- Settles O4: the oldest access, and the word that it presents decoded. -/
theorem stepRunsDecoded : Obligations.StepRunsDecoded := by
  refine ⟨fun s w i rest queue word => ⟨(decode_standsFor word).2, ?_⟩,
    fun s b i rest queue word => ⟨(decode_standsFor word).2, ?_⟩, fun s w i rest queue word => ?_, fun s => step_idle⟩
  · rw [step_access queue, access_command, runCodeWord_of_decode word]
  · rw [step_access queue]
    exact runCodeWord_of_decode word _
  · have at_base := (access_at_register (s := { s with host := rest }) (o := 0x00) (by decide) w).1
    rw [step_access queue]
    exact at_base.trans ((access_command w _).trans (runCodeWord_of_decode word _))

/-- Settles O9: no memory, no frame, and no access pending. -/
theorem resetIsSafe : Obligations.ResetIsSafe :=
  ⟨⟨rfl, frameAccepted_of_not_active (fun _ => Nat.zero_le _) nofun⟩, State.reset, step_idle rfl⟩

/-! ### O6: the OutputBuffer window -/

/-- 20_memory.md R56: word `i` of the window, where it is a stored sample. -/
theorem hostReadOut_sample {s : State} {i : Nat} {p : Nat × Nat} (inside : i < 9 * 256)
    (sample : outPosition s.rom.outLayout s.res.outCh.toNat i = some p) :
    hostReadOut (4 * i) s = .next { s with bus := vget (vget s.out p.1) p.2 } := by
  have legal : ¬ (4 * i % 4 ≠ 0 ∨ windowBytes ≤ 4 * i) := by unfold windowBytes; omega
  rw [hostReadOut, if_neg legal, Nat.mul_div_cancel_left i (by decide), sample]

/-- R56: the samples of `count` slots, interleaved. -/
theorem outPosition_interleaved {count ch n : Nat} (sample : n < 256) (slot : ch < count) (slots : count ≤ 9) :
    n * count + ch < 9 * 256 ∧ outPosition .interleaved count (n * count + ch) = some (ch, n) := by
  obtain ⟨inside, quotient, remainder⟩ := runIndex_split sample slot
  refine ⟨by omega, ?_⟩
  simp only [outPosition, quotient, remainder]
  exact if_pos ⟨inside, by omega⟩

/-- R56: the samples slot after slot. -/
theorem outPosition_planar (count : Nat) {ch n : Nat} (sample : n < 256) (slot : ch < 9) :
    ch * 256 + n < 9 * 256 ∧ outPosition .planar count (ch * 256 + n) = some (ch, n) := by
  obtain ⟨inside, quotient, remainder⟩ := runIndex_split slot sample
  exact ⟨inside, by simp only [outPosition, quotient, remainder]⟩

/-- R58: an address of neither range is none of the block's. -/
theorem placeOf_outside {r : Rom} {a : Nat} (registers : ¬ (r.regBase ≤ a ∧ a < r.regBase + registerBytes))
    (window : ¬ (r.outBase ≤ a ∧ a < r.outBase + windowBytes)) : placeOf r a = none := by
  rw [placeOf, if_neg registers, if_neg window]

/-- R51, R58: an access at an address of the window. -/
theorem access_at_window {s : State} {a : Nat} (registers : ¬ (s.rom.regBase ≤ a ∧ a < s.rom.regBase + registerBytes))
    (window : s.rom.outBase ≤ a ∧ a < s.rom.outBase + windowBytes) (v : Word32) :
    access (.readAddress a) s = access (.readOut (a - s.rom.outBase)) s
      ∧ access (.writeAddress a v) s = .fault .windowNotWritable := by
  have place : placeOf s.rom a = some (.window (a - s.rom.outBase)) :=
    placeOf_eq_window.2 ⟨by omega, by omega, registers⟩
  simp only [access, readAt, writeAt, place, and_self]

/-- R58: an access at an address outside both ranges. -/
theorem access_outside {s : State} {a : Nat} (registers : ¬ (s.rom.regBase ≤ a ∧ a < s.rom.regBase + registerBytes))
    (window : ¬ (s.rom.outBase ≤ a ∧ a < s.rom.outBase + windowBytes)) (v : Word32) :
    access (.readAddress a) s = .fault .noSuchAddress ∧ access (.writeAddress a v) s = .fault .noSuchAddress := by
  simp only [access, readAt, writeAt, placeOf_outside registers window, and_self]

/-- Settles O6: the sample at its word in either layout, and the place of an address. -/
theorem outputWindowPosition : Obligations.OutputWindowPosition := by
  refine ⟨fun s ch n rest sample => ⟨fun layout slot slots queue => ?_, fun layout slot queue => ?_⟩,
    fun s address v rest => ⟨fun registers window => ?_, fun registers window => ?_⟩⟩
  · obtain ⟨inside, position⟩ := outPosition_interleaved sample slot slots
    rw [step_access queue]
    exact hostReadOut_sample (s := { s with host := rest }) inside (by rw [layout]; exact position)
  · obtain ⟨inside, position⟩ := outPosition_planar s.res.outCh.toNat sample slot
    rw [step_access queue]
    exact hostReadOut_sample (s := { s with host := rest }) inside (by rw [layout]; exact position)
  · rw [step_access rfl, step_access rfl, step_access rfl]
    exact access_at_window (s := { s with host := rest }) registers window v
  · rw [step_access rfl, step_access rfl]
    exact access_outside (s := { s with host := rest }) registers window v

/-! ### O11 to O14: the host commands -/

theorem exec_init (s : State) : exec .init s = execInit s := rfl
theorem exec_blocksRemaining (s : State) : exec .blocksRemaining s = .next (blocksRemainingCmd s) := rfl
theorem exec_beginFrame (s : State) : exec .beginFrame s = beginFrameCmd s := rfl
theorem exec_setDrcHook (s : State) : exec .setDrcHook s = execSetDrcHook s := rfl
theorem exec_teardown (s : State) : exec .teardown s = execTeardown s := rfl
theorem exec_illegal (w : Word32) (s : State) : exec (.illegal w) s = .next (setCode .illegalCommand s) := rfl

theorem not_uninit_of_ready {s : State} (ready : s.life = .ready) : ¬ s.life = .uninit := by
  rw [ready]
  nofun

/-- 10_state.md R14: `STATUS` without an error and without a warning. -/
theorem statusWord_clear {s : State} (code : s.code = .ok) (joint : s.warnJoint = false) (dsync : s.warnDsync = false) :
    statusWord s = 0#32 := by
  rw [statusWord, code, joint, dsync]
  rfl

/-- Settles O11: the reset values of each array are those of a table with one entry. -/
theorem initGivesResetValues : Obligations.InitGivesResetValues := by
  intro s
  refine ⟨_, exec_init s, rfl, statusWord_clear rfl rfl rfl, rfl, rfl, rfl, rfl, rfl, fun c hc => ?_, fun c sb i hc hsb hi => ?_,
    fun c i hc hi => ?_, fun c i hc hi => ?_, fun i hi => ?_, rfl, rfl, rfl, rfl, rfl, rfl, rfl, rfl, rfl, rfl⟩
  · simp only [Decoder.reset, vget_vtab _ hc, and_self]
  · simp only [Decoder.reset, vget_vtab _ hc, vget_vtab _ hsb, vget_vtab _ hi]
  · simp only [Decoder.reset, vget_vtab _ hc, vget_vtab _ hi]
  · simp only [Decoder.reset, vget_vtab _ hc, vget_vtab _ hi]
  · simp only [Decoder.reset, vget_vtab _ hi]

/-- 49_host_commands.md R254, in `LIFE = READY`. -/
theorem blocksRemainingCmd_ready {s : State} (ready : s.life = .ready) :
    blocksRemainingCmd s = { s with res := { s.res with blocks := BitVec.ofNat 32 (blocksLeft s) }, code := .ok } := by
  rw [blocksRemainingCmd, if_neg (not_uninit_of_ready ready)]

/-- Settles O12: the count of an active frame, and 0 otherwise. -/
theorem blocksRemainingCounts : Obligations.BlocksRemainingCounts := by
  intro s ready
  rw [exec_blocksRemaining, blocksRemainingCmd_ready ready, blocksLeft, apply_ite (BitVec.ofNat 32)]

/-- Settles O13: the second branch of the command. -/
theorem setDrcHookInstalls : Obligations.SetDrcHookInstalls := by
  intro s ready
  rw [exec_setDrcHook, execSetDrcHook, if_neg (not_uninit_of_ready ready)]

/-- R257: in `LIFE = UNINIT` every command but `INIT` answers NotReady. -/
theorem exec_uninit {s : State} (dead : s.life = .uninit) :
    ∀ i, i ∈ [Instr.probe, .beginFrame, .blocksRemaining, .decodeBlock, .setDrcHook, .teardown] →
      exec i s = .next { s with code := .notReady } := by
  have count : blocksRemainingCmd s = setCode .notReady s := if_pos dead
  intro i hi
  simp only [List.mem_cons, List.not_mem_nil, or_false] at hi
  obtain rfl | rfl | rfl | rfl | rfl | rfl := hi
  · exact if_pos dead
  · exact if_pos dead
  · rw [exec_blocksRemaining, count]; rfl
  · exact if_pos dead
  · exact if_pos dead
  · exact if_pos dead

/-- Settles O14: the free values of R256 leave `LIFE` and the code, and `exec_uninit` says the rest. -/
theorem teardownEndsLife : Obligations.TeardownEndsLife := by
  intro s ready
  exact ⟨_, (exec_teardown s).trans (if_neg (not_uninit_of_ready ready)), rfl, rfl, rfl, exec_uninit rfl⟩

/-! ### O15, O16: answers that write the code alone -/

/-- Settles O15: the word decodes to ILLEGAL. -/
theorem illegalWordSetsCodeOnly : Obligations.IllegalWordSetsCodeOnly := by
  refine fun s w rest no_command => ⟨exec_illegal w s, fun queue => ?_⟩
  have outside : isCommandWord w = false := by
    simp only [isCommandWord, Bool.and_eq_false_iff, decide_eq_false_iff_not]
    omega
  have word : decode (.cmd w) = .ok (.illegal w) := congrArg Except.ok (decodeCmd_illegal outside)
  rw [step_access queue, access_command, runCodeWord_of_decode word, exec_illegal]
  rfl

/-- 60_exceptions.md R271. -/
theorem badView_of_null {s : State} (h : s.args.bufAddr = 0#32 ∨ s.args.bufLen = 0#32) : badView s = true := by
  rw [badView, Bool.or_eq_true, beq_iff_eq, beq_iff_eq]
  exact h

/-- Settles O16: the first line of each command, and the second one of the two that take a buffer. -/
theorem preconditionsSetCodeOnly : Obligations.PreconditionsSetCodeOnly := by
  refine fun s => ⟨exec_uninit, fun ready null i hi => ?_⟩
  have life := not_uninit_of_ready ready
  have view := badView_of_null null
  simp only [List.mem_cons, List.not_mem_nil, or_false] at hi
  obtain rfl | rfl := hi
  · rw [exec_probe, probeCmd, if_neg life, if_pos view]; rfl
  · rw [exec_beginFrame, beginFrameCmd, if_neg life, if_pos view]; rfl

end Sys2Proof.Proofs
end

section
/-! PROOFS. Two micro-operations of the subframe (43_subframe.md) that read fields of a fixed width: DSYNC.CHECK (O38) and READ_LFE
(O42). -/

namespace Sys2Proof.Proofs

open Sys2Proof.Machine Sys2Proof.Safety Sys2Proof.Laws

-- As in the tests: elaborating these declarations side by side needs more threads than the checker's memory limit allows.
set_option Elab.async false

/-! ### O38: DSYNC.CHECK -/

/-- R156: a marker is due. -/
theorem dsyncCheckOp_due {ssf : Nat} {s : State} (due : s.sh.aspf = 1#1 ∨ ssf + 1 = s.sf.subsubframes.toNat) :
    dsyncCheckOp ssf s
      = .ok () { s with bc := after s 16, warnDsync := s.warnDsync || peek s 0 16 != 0xFFFF } := by
  unfold dsyncCheckOp
  refine op_get_run ?_
  rw [if_pos due]
  refine op_run (getBits_ok (by decide) (by decide) s) ?_
  by_cases marker : peek s 0 16 = 0xFFFF
  · rw [if_neg (not_not.2 marker), bne_eq_false_iff_eq.2 marker, Bool.or_false]
    rfl
  · rw [if_pos marker, bne_iff_ne.2 marker, Bool.or_true]
    rfl

/-- R156: no marker is due. -/
theorem dsyncCheckOp_idle {ssf : Nat} {s : State} (idle : ¬ (s.sh.aspf = 1#1 ∨ ssf + 1 = s.sf.subsubframes.toNat)) :
    dsyncCheckOp ssf s = .ok () s := by
  unfold dsyncCheckOp
  refine op_get_run ?_
  rw [if_neg idle]
  rfl

/-- Settles O38: a marker is due, or it is not. -/
theorem dsyncCheckWarns : Obligations.DsyncCheckWarns := by
  refine fun s ssf => ⟨fun due => ?_, fun aspf inside => ?_⟩
  · rw [exec_dsyncCheck]
    exact answer_ok (dsyncCheckOp_due due)
  · have idle : ¬ (s.sh.aspf = 1#1 ∨ ssf.val + 1 = s.sf.subsubframes.toNat) := by
      rw [aspf]
      exact fun due => due.elim nofun inside
    rw [exec_dsyncCheck]
    exact answer_ok (dsyncCheckOp_idle idle)

/-! ### O42: READ_LFE -/

section Lfe

variable {s : State}

theorem exec_readLfe (s : State) : exec .readLfe s = answerUnit readLfeOp s := rfl

/-- R154: the scale index behind the LFE samples. -/
def lfeIndex (s : State) : Nat := peek s (8 * lfeSpan s) 8

/-- R154: the LFE samples as signed bytes. -/
def lfeBytes (s : State) : List Int := (List.range (lfeSpan s)).map fun i => (BitVec.ofNat 8 (peek s (8 * i) 8)).toInt

/-- 10_state.md R27, R154: `LFE_DATA` with its current half filled at scale `f`. -/
def lfeFilled (s : State) (f : Num) : Vector Num 32 :=
  vtab 32 fun j =>
    if lfeSpan s ≤ j ∧ j < 2 * lfeSpan s then lfeValue s.rom f ((lfeBytes s).getD (j - lfeSpan s) 0) else vget s.lfe j

/-- R154: the samples and the index read. -/
theorem readLfe_fields {β : Type} {k : List Int → Nat → Op β} {r : EStateM.Result Stop State β}
    (rest : k (lfeBytes s) (lfeIndex s) { s with bc := after s (8 * lfeSpan s + 8) } = r) :
    (do let raw ← collect (lfeSpan s) (getSignedBits 8); let i ← getBits 8; k raw i) s = r := by
  have bytes := (behind_zero s).collect_signed (n := 8) (by decide) (by decide) (lfeSpan s)
  simp only [Nat.zero_add, Nat.mul_comm _ 8] at bytes
  exact op_run bytes (op_run (Behind.getBits (s := s) ⟨rfl, rfl, rfl⟩) rest)

/-- R154: an index of the table. -/
theorem readLfeOp_ok (range : lfeIndex s ≤ 127) :
    readLfeOp s = .ok () { s with
      bc := after s (8 * lfeSpan s + 8), sf := { s.sf with lfeScaleFactor := tget s.rom.scale7 (lfeIndex s) }
      lfe := lfeFilled s (tget s.rom.scale7 (lfeIndex s)) } := by
  unfold readLfeOp
  refine op_get_run (readLfe_fields ?_)
  rw [if_neg (Nat.not_lt.2 range)]
  rfl

/-- R154, R147: an index past the table. -/
theorem readLfeOp_raises (range : 127 < lfeIndex s) :
    readLfeOp s = .error (.raise .corruptStream .scaleIndex) { s with bc := after s (8 * lfeSpan s + 8) } := by
  unfold readLfeOp
  refine op_get_run (readLfe_fields ?_)
  rw [if_pos range]
  rfl

theorem vget_lfeFilled_current (f : Num) {j : Nat} (inside : j < 32) (low : lfeSpan s ≤ j) (high : j < 2 * lfeSpan s) :
    vget (lfeFilled s f) j = lfeValue s.rom f (BitVec.ofNat 8 (peek s (8 * (j - lfeSpan s)) 8)).toInt := by
  have sample : j - lfeSpan s < lfeSpan s := by omega
  rw [lfeFilled, vget_vtab _ inside, if_pos ⟨low, high⟩, lfeBytes]
  simp [List.getD_eq_getElem?_getD, sample]

theorem vget_lfeFilled_other (f : Num) {j : Nat} (inside : j < 32) (other : j < lfeSpan s ∨ 2 * lfeSpan s ≤ j) :
    vget (lfeFilled s f) j = vget s.lfe j := by
  rw [lfeFilled, vget_vtab _ inside, if_neg (by omega)]

end Lfe

/-- Settles O42: the fields are read, and the index is in its table or not. -/
theorem readLfeFillsCurrentHalf : Obligations.ReadLfeFillsCurrentHalf := by
  refine fun s _ => ⟨fun range => ⟨lfeFilled s (tget s.rom.scale7 (lfeIndex s)), ?_, fun j inside =>
    ⟨vget_lfeFilled_current _ inside, vget_lfeFilled_other _ inside⟩⟩, fun range => ?_⟩
  · rw [exec_readLfe]
    exact answer_ok (readLfeOp_ok range)
  · rw [exec_readLfe]
    exact answer_raise (readLfeOp_raises range)

end Sys2Proof.Proofs
end

section
/-! PROOFS. The sample memories: RECON.ADPCM (O53) and PH.UPDATE (O54) of the reconstructor (45_reconstruct.md), the five
micro-operations of the filterbank (O55, 46_synthesis.md), and DMX.APPLY (O58, 48_downmix.md). -/

namespace Sys2Proof.Proofs

open Sys2Proof.Machine Sys2Proof.Safety Sys2Proof.Laws

-- As in the tests: elaborating these declarations side by side needs more threads than the checker's memory limit allows.
set_option Elab.async false

/-! ### O53: RECON.ADPCM -/

section Adpcm

variable {k : SampleKind} {useHist : Bool} {coef : Nat → Num} {h : Vector Num 4} {x : Vector Num 8}

/-- R184: the sub-block when its first `m` samples are predicted. -/
def adpcmFirst (k : SampleKind) (useHist : Bool) (coef : Nat → Num) (h : Vector Num 4) (x : Vector Num 8) (m : Nat) :
    Vector Num 8 :=
  (List.range m).foldl (adpcmSample k useHist coef h) x

/-- R184: sample `m` from its own start value and the samples `y` before it. -/
def adpcmValue (k : SampleKind) (useHist : Bool) (coef : Nat → Num) (h : Vector Num 4) (y : Vector Num 8) (m : Nat)
    (start : Num) : Num :=
  [1, 2, 3, 4].foldl (fun acc n => adpcmTap k useHist coef h m y n acc) start

theorem adpcmFirst_succ (m : Nat) : adpcmFirst k useHist coef h x (m + 1)
    = vput (adpcmFirst k useHist coef h x m) m (adpcmValue k useHist coef h (adpcmFirst k useHist coef h x m) m
      (vget (adpcmFirst k useHist coef h x m) m)) := by
  unfold adpcmFirst
  rw [List.range_succ, List.foldl_append]
  rfl

/-- R185: a sample that is not yet predicted is as it was. -/
theorem vget_adpcmFirst_later {m i : Nat} (later : m ≤ i) : vget (adpcmFirst k useHist coef h x m) i = vget x i := by
  induction m with
  | zero => rfl
  | succ m ih => rw [adpcmFirst_succ, vget_vput_ne _ _ (by omega), ih (by omega)]

/-- R185: a predicted sample stays as it is. -/
theorem vget_adpcmFirst_earlier {m m' i : Nat} (earlier : i < m) (le : m ≤ m') :
    vget (adpcmFirst k useHist coef h x m') i = vget (adpcmFirst k useHist coef h x m) i := by
  induction m', le using Nat.le_induction with
  | base => rfl
  | succ m' le ih => rw [adpcmFirst_succ, vget_vput_ne _ _ (by omega), ih]

/-- R184: a tap looks at samples before its own alone. -/
theorem adpcmTap_congr {m n : Nat} {y z : Vector Num 8} (same : ∀ i, i < m → vget y i = vget z i) (pos : 1 ≤ n) (acc : Num) :
    adpcmTap k useHist coef h m y n acc = adpcmTap k useHist coef h m z n acc := by
  unfold adpcmTap
  by_cases inside : n ≤ m
  · rw [if_pos inside, if_pos inside, same (m - n) (by omega)]
  · rw [if_neg inside, if_neg inside]

theorem adpcmValue_congr {m : Nat} {y z : Vector Num 8} (same : ∀ i, i < m → vget y i = vget z i) (start : Num) :
    adpcmValue k useHist coef h y m start = adpcmValue k useHist coef h z m start := by
  refine List.foldl_ext _ _ _ fun acc n hn => adpcmTap_congr same ?_ acc
  simp only [List.mem_cons, List.not_mem_nil, or_false] at hn
  omega

/-- R184, R185: each sample from those before it, as already predicted. -/
theorem vget_adpcmRun {m : Nat} (hm : m < 8) : vget (adpcmRun k useHist coef h x) m
    = adpcmValue k useHist coef h (adpcmRun k useHist coef h x) m (vget x m) := by
  have before : ∀ i, i < m → vget (adpcmFirst k useHist coef h x m) i = vget (adpcmRun k useHist coef h x) i :=
    fun i hi => (vget_adpcmFirst_earlier hi hm.le).symm
  calc vget (adpcmRun k useHist coef h x) m
      = vget (adpcmFirst k useHist coef h x (m + 1)) m := vget_adpcmFirst_earlier (Nat.lt_succ_self m) hm
    _ = adpcmValue k useHist coef h (adpcmFirst k useHist coef h x m) m (vget x m) := by
        rw [adpcmFirst_succ, vget_vput_same _ _ hm, vget_adpcmFirst_later (Nat.le_refl m)]
    _ = adpcmValue k useHist coef h (adpcmRun k useHist coef h x) m (vget x m) := adpcmValue_congr before _

end Adpcm

theorem exec_reconAdpcm (c : Fin 8) (sb : Fin 32) (s : State) :
    exec (.reconAdpcm c sb) s = .next (reconAdpcm s c.val sb.val) := rfl

/-- Settles O53: the recursion that `vget_adpcmRun` gives, with the history's switch as the header has it. -/
theorem reconAdpcmRecurrence : Obligations.ReconAdpcmRecurrence := by
  refine fun s c sb => ⟨_, exec_reconAdpcm c sb s, fun m hm => ?_⟩
  refine (vget_adpcmRun hm).trans ?_
  simp only [adpcmValue, adpcmTap, List.foldl_cons, List.foldl_nil, beq_iff_eq]

/-! ### O54: PH.UPDATE -/

/-- R186: the history of one subband after PH.UPDATE. -/
theorem vget_phUpdate {s : State} {c sb i : Nat} (hc : c < 8) (hsb : sb < 32) (hi : i < 4) :
    vget (vget (vget (phUpdate s).ph c) sb) i =
      if c < primCount s ∧ sb < max (actOf s c) (vqOf s c) then vget (subsampAt s c sb) (4 + i)
      else vget (vget (vget s.ph c) sb) i := by
  rw [phUpdate, vget_vtab _ hc]
  by_cases channel : c < primCount s
  · rw [if_pos channel, vget_vtab _ hsb]
    by_cases subband : sb < max (actOf s c) (vqOf s c)
    · rw [if_pos subband, if_pos ⟨channel, subband⟩, vget_vtab _ hi]
    · rw [if_neg subband, if_neg fun both => subband both.2]
  · rw [if_neg channel, if_neg fun both => channel both.1]

/-- Settles O54: the histories that `vget_phUpdate` gives. -/
theorem phUpdateKeepsLastFour : Obligations.PhUpdateKeepsLastFour := fun s =>
  ⟨(phUpdate s).ph, exec_phUpdate s, fun _ _ _ hc hsb hi => vget_phUpdate hc hsb hi⟩

/-! ### O55: the filterbank -/

section Filterbank

variable {k : SampleKind} {t : SynTables}

/-- R218: the sum `A[row]`. -/
theorem vget_modulateVal_fst (x : Vector Num 32) {row : Nat} (hr : row < 16) :
    vget (modulateVal k t x).1 row = (List.range 16).foldl (modulateTermA k t x row) 0#64 := by
  rw [modulateVal, vget_vtab _ hr]

/-- R218: the sum `B[row]`, whose first term has one sample. -/
theorem vget_modulateVal_snd (x : Vector Num 32) {row : Nat} (hr : row < 16) :
    vget (modulateVal k t x).2 row = (List.range' 1 15).foldl
      (fun acc i => numAdd k acc (numMul k (numAdd k (vget x (2 * i)) (vget x (2 * i - 1))) (vget (vget t.cosB row) i)))
      (numAdd k 0#64 (numMul k (vget x 0) (vget (vget t.cosB row) 0))) := by
  rw [modulateVal, vget_vtab _ hr, show List.range 16 = 0 :: List.range' 1 15 from rfl, List.foldl_cons]
  refine List.foldl_ext _ _ _ fun acc i hi => if_pos ?_
  exact (List.mem_range'_1.1 hi).1

/-- R219. -/
theorem vget_butterflyVal (a b : Vector Num 16) {i : Nat} (hi : i < 16) :
    vget (butterflyVal k a b).1 i = numAdd k (vget a i) (vget b i)
      ∧ vget (butterflyVal k a b).2 i = numSub k (vget a i) (vget b i) := by
  rw [butterflyVal, vget_vtab _ hi, vget_vtab _ hi]
  exact ⟨rfl, rfl⟩

/-- R219: the first 32 words of the history, the second half of them in falling order. -/
theorem vget_foldVal_window (sum diff : Vector Num 16) (h : Vector Num 512) {i : Nat} (hi : i < 16) :
    vget (foldVal k t sum diff h) i = numMul k (vget t.winF i) (vget sum i)
      ∧ vget (foldVal k t sum diff h) (31 - i) = numMul k (vget t.winA i) (vget diff i) := by
  rw [foldVal, vget_vtab _ (by omega), vget_vtab _ (by omega), if_pos hi, if_neg (by omega), if_pos (by omega),
    show 31 - (31 - i) = i by omega]
  exact ⟨rfl, rfl⟩

theorem vget_foldVal_rest (sum diff : Vector Num 16) (h : Vector Num 512) {i : Nat} (low : 32 ≤ i) (high : i < 512) :
    vget (foldVal k t sum diff h) i = vget h i := by
  rw [foldVal, vget_vtab _ high, if_neg (by omega), if_neg (by omega)]

/-- R220: the two lines. -/
theorem vget_accumulateVal (fir : Table Nat Num) (h : Vector Num 512) (st : Vector Num 64) {i : Nat} (hi : i < 32) :
    vget (accumulateVal k fir h st) i = firOffsets.foldl (accumulateLow k fir h i) (vget st i)
      ∧ vget (accumulateVal k fir h st) (32 + i) = firOffsets.foldl (accumulateHigh k fir h i) (vget st (32 + i)) := by
  rw [accumulateVal, vget_vtab _ (by omega), vget_vtab _ (by omega), if_pos hi, if_neg (by omega), Nat.add_sub_cancel_left]
  exact ⟨rfl, rfl⟩

/-- R221. -/
theorem vget_shiftStage (st : Vector Num 64) {i : Nat} (hi : i < 32) :
    vget (shiftStage st) i = vget st (32 + i) ∧ vget (shiftStage st) (32 + i) = 0#64 := by
  rw [shiftStage, vget_vtab _ (by omega), vget_vtab _ (by omega), if_pos hi, if_neg (by omega)]
  exact ⟨rfl, rfl⟩

theorem vget_shiftHist_low (h : Vector Num 512) {i : Nat} (low : i < 32) : vget (shiftHist h) i = vget h i := by
  rw [shiftHist, vget_vtab _ (by omega), if_pos low]

theorem vget_shiftHist_high (h : Vector Num 512) {i : Nat} (low : 32 ≤ i) (high : i < 512) :
    vget (shiftHist h) i = vget h (i - 32) := by
  rw [shiftHist, vget_vtab _ high, if_neg (by omega)]

end Filterbank

/-- Settles O55: the elements that the lemmas above give, one micro-operation after the other. -/
theorem filterbankSteps : Obligations.FilterbankSteps := by
  refine fun s c x p q => ⟨⟨_, _, rfl, fun row hr => ⟨?_, ?_⟩⟩, ⟨_, _, rfl, fun i hi => vget_butterflyVal p q hi⟩,
    ⟨_, rfl, fun i hi => vget_foldVal_window p q _ hi, fun i low high => vget_foldVal_rest p q _ low high⟩,
    ⟨_, rfl, fun i hi => vget_accumulateVal (firOf s) _ _ hi⟩, _, _, rfl, fun i hi => ?_, fun i low high => ?_⟩
  · exact vget_modulateVal_fst x hr
  · exact vget_modulateVal_snd x hr
  · obtain ⟨moved, cleared⟩ := vget_shiftStage (vget s.stage c.val) hi
    exact ⟨vget_shiftHist_low _ hi, moved, cleared⟩
  · exact vget_shiftHist_high _ low high

/-! ### O58: DMX.APPLY -/

section Downmix

variable {s : State} {a : Arrangement} {ch n : Nat}

theorem vget_outMap (count : Nat) (f : Nat → Nat → Word32) (low : ch < count) (slot : ch < 9) (sample : n < 256) :
    vget (vget (outMap s count f).out ch) n = f ch n := by
  rw [outMap, vget_vtab _ slot, if_pos low, vget_vtab _ sample]

theorem vget_outMap_past (count : Nat) (f : Nat → Nat → Word32) (high : count ≤ ch) (slot : ch < 9) :
    vget (outMap s count f).out ch = vget s.out ch := by
  rw [outMap, vget_vtab _ slot, if_neg (Nat.not_lt.2 high)]

/-- R240, R242: fewer output channels. -/
theorem dmxApply_down (fewer : nchOf s.rom s.fr.output < primCount s) : dmxApply s
    = outMap s (nchOf s.rom s.fr.output) fun o n => downSample s (downList (mixProgram s) (primCount s) o) n := by
  rw [dmxApply, if_pos fewer]

/-- R245: more output channels. -/
theorem dmxApply_up (more : primCount s < nchOf s.rom s.fr.output) : dmxApply s
    = outMap s (nchOf s.rom s.fr.output) fun o n => upSample s (upSource (mixProgram s) (primCount s) o) n := by
  rw [dmxApply, if_neg (by omega), if_pos more]

/-- R246: as many output channels. -/
theorem dmxApply_same (same : primCount s = nchOf s.rom s.fr.output) :
    dmxApply s = outMap s (nchOf s.rom s.fr.output) (biasSample s) := by
  rw [dmxApply, if_neg (by omega), if_neg (by omega), same]

/-- R240: in each case the slots below the output count are rewritten, and no other one. -/
theorem dmxApply_outMap (s : State) : ∃ f, dmxApply s = outMap s (nchOf s.rom s.fr.output) f := by
  obtain fewer | same | more := Nat.lt_trichotomy (nchOf s.rom s.fr.output) (primCount s)
  · exact ⟨_, dmxApply_down fewer⟩
  · exact ⟨_, dmxApply_same same.symm⟩
  · exact ⟨_, dmxApply_up more⟩

theorem dmxApply_eq (s : State) : dmxApply s = { s with out := (dmxApply s).out } := by
  obtain ⟨f, map⟩ := dmxApply_outMap s
  rw [map]
  rfl

theorem mixProgram_of_arrangement (arrangement : arrangementOf s.sh.amode.toNat = some a) :
    mixProgram s = dmxMixOf s.rom a s.fr.output s.fr.clev s.fr.slev := by
  rw [mixProgram, arrangement]

/-- R242: a list of slots is not empty, ascends, and stays below the channel count. -/
theorem downList_ascends (p : MixProgram) {count : Nat} (pos : 1 ≤ count) (o : Nat) :
    ∃ c cs, downList p count o = c :: cs ∧ c < count ∧ (c :: cs).Pairwise (· < ·) ∧ ∀ x, x ∈ cs → x < count := by
  refine ⟨_, _, rfl, Nat.mod_lt _ pos, List.pairwise_cons.2 ⟨fun x hx => ?_, List.pairwise_lt_range.filter _⟩, fun x hx => ?_⟩
  · simp only [List.mem_filter, Bool.and_eq_true, decide_eq_true_eq] at hx
    exact hx.2.1
  · exact List.mem_range.1 (List.mem_filter.1 hx).1

end Downmix

/-- Settles O58: the three cases of the channel counts. -/
theorem dmxApplyMixes : Obligations.DmxApplyMixes := by
  intro s a arrangement pos _
  have mix := mixProgram_of_arrangement arrangement
  refine ⟨(dmxApply s).out, by rw [exec_dmxApply, ← dmxApply_eq], fun ch high slot => ?_, fun o n low sample => ?_⟩
  · obtain ⟨f, map⟩ := dmxApply_outMap s
    rw [map, vget_outMap_past _ _ high slot]
  · have slot : o < 9 := low.trans (nchOf_lt_slots s.rom s.fr.output)
    refine ⟨fun fewer => ?_, fun more => ?_, fun same => ?_⟩
    · obtain ⟨c, cs, list, first, ascends, rest⟩ := downList_ascends (mixProgram s) pos o
      refine ⟨c, cs, mix ▸ list, first, ascends, rest, ?_⟩
      rw [dmxApply_down fewer, vget_outMap _ _ low slot sample, list]
      rfl
    · rw [dmxApply_up more, vget_outMap _ _ low slot sample]
      dsimp only
      rw [← mix]
      cases upSource (mixProgram s) (primCount s) o <;> rfl
    · rw [dmxApply_same same, vget_outMap _ _ low slot sample]
      rfl

end Sys2Proof.Proofs
end

section
/-! PROOFS. The FrameDecoder (42_framedecoder.md): DRC.HOOK (O31), DMX.SELECT (O32, 48_downmix.md), and the fixed header, field by
field: what FD.HEADER stores when it accepts, and that it rejects everything else (O29). -/

namespace Sys2Proof.Proofs

open Sys2Proof.Machine Sys2Proof.Safety Sys2Proof.Laws

-- As in the tests: elaborating these declarations side by side needs more threads than the checker's memory limit allows.
set_option Elab.async false

/-! ### O31: DRC.HOOK -/

theorem exec_drcHook (s : State) : exec .drcHook s = answerUnit drcHookOp s := rfl

/-- R125: without a hook, or without dynamic range. -/
theorem drcHookOp_idle {s : State} (idle : s.hook = 0#32 ∨ s.sh.dynrange = 0#1) : drcHookOp s = .ok () s := by
  have unhooked : ¬ (s.hook ≠ 0#32 ∧ s.sh.dynrange = 1#1) := fun ⟨hook, dynrange⟩ =>
    idle.elim hook fun zero => by cases zero.symm.trans dynrange
  refine op_get_run ?_
  rw [if_neg unhooked]
  rfl

theorem drcHookOp_hooked {s : State} (hook : s.hook ≠ 0#32) (dynrange : s.sh.dynrange = 1#1) :
    drcHookOp s = .error (.refuse .drcHook) s := by
  refine op_get_run ?_
  rw [if_pos ⟨hook, dynrange⟩]
  rfl

/-- Settles O31: the two branches of the operation. -/
theorem drcHookIdle : Obligations.DrcHookIdle := fun _ =>
  ⟨fun idle => answer_ok (drcHookOp_idle idle), fun hook dynrange => answer_refuse (drcHookOp_hooked hook dynrange)⟩

/-! ### O32: DMX.SELECT -/

section Select

variable {r : Rom} {n : Nat} {p out : Arrangement} {flags : Word32} {level clev slev lvl : Num}

/-- 30_encoding.md R86: no two codes have one arrangement. -/
theorem arrangementCode_of_arrangementOf (h : arrangementOf n = some p) : arrangementCode p = n := by
  unfold arrangementOf at h
  split at h <;> cases h <;> rfl

theorem arrangementOf_eq_f3_iff (h : arrangementOf n = some p) : n = 5 ↔ p = .f3 := by
  constructor
  · rintro rfl
    exact (Option.some.inj h).symm
  · rintro rfl
    exact (arrangementCode_of_arrangementOf h).symm

/-- 48_downmix.md R238, by the arrangement of the primary code. -/
theorem collapseDolby_eq (h : arrangementOf n = some p) : collapseDolby r n out clev
    = if out = .stereo ∧ p = .f3 ∧ clev = level3dB r.sampleKind then .dolby else out := by
  simp only [collapseDolby, arrangementOf_eq_f3_iff h]

/-- R236, R237, R239, by the arrangement of the primary code. -/
theorem adjustLevel_eq (h : arrangementOf n = some p) :
    adjustLevel r n out flags level clev slev = adjustedLevel r p out flags level clev slev := by
  unfold adjustLevel adjustedLevel dmxAdjustOf flagsAdjust
  simp only [h]
  cases flags.getLsbD 8 with
  | false => rw [if_neg (by decide), if_pos (.inl rfl)]
  | true =>
    rw [if_pos rfl]
    by_cases itself : p = out
    · rw [if_pos itself, if_pos (.inr itself)]
    have other : ¬ (true = false ∨ p = out) := by simpa using itself
    rw [if_neg itself, if_neg other]
    by_cases mono : p = .f3 ∧ out = .mono
    · rw [if_pos mono, if_pos mono]
    · rw [if_neg mono, if_neg mono]
      cases tget r.dmxAdjust { primary := p, output := out, clev := clev, slev := slev } <;> rfl

/-- R236: DMX.SELECT is the look-up of the table, and what is made of its entry. -/
theorem dmxSelect_eq (r : Rom) (n : Nat) (flags : Word32) (level clev slev : Num) :
    dmxSelect r n flags level clev slev = (selectedOf r (flagsArr flags) n).map fun out0 =>
      (collapseDolby r n out0 clev, adjustLevel r n (collapseDolby r n out0 clev) flags level clev slev) := by
  unfold dmxSelect selectedOf dmxSelectOf
  dsimp only
  by_cases unsupported : flagsArr flags > 10 ∨ n > 9
  · rw [if_pos unsupported, if_pos unsupported]
    rfl
  · rw [if_neg unsupported, if_neg unsupported]
    split
    · next none => rw [none]; rfl
    · next out0 chosen => rw [chosen]; rfl

theorem dmxSelect_some {out0 : Arrangement} (h : arrangementOf n = some p) (chosen : selectedOf r (flagsArr flags) n = some out0)
    (collapsed : out = if out0 = .stereo ∧ p = .f3 ∧ clev = level3dB r.sampleKind then .dolby else out0) :
    dmxSelect r n flags level clev slev = some (out, adjustedLevel r p out flags level clev slev) := by
  rw [dmxSelect_eq, chosen, Option.map_some, collapseDolby_eq h, ← collapsed, adjustLevel_eq h]

theorem dmxSelect_none (chosen : selectedOf r (flagsArr flags) n = none) : dmxSelect r n flags level clev slev = none := by
  rw [dmxSelect_eq, chosen, Option.map_none]

/-- R237: an arrangement requesting itself. -/
theorem selectedOf_self (low : n ≤ 9) : selectedOf r n n = arrangementOf n := by
  rw [selectedOf, if_neg (by omega), if_pos rfl]

theorem adjustedLevel_self : adjustedLevel r p p flags level clev slev = level := by
  rw [adjustedLevel, if_pos (.inr rfl)]

theorem dmxSelectOp_some {s : State} (found : dmxSelect s.rom n flags level clev slev = some (out, lvl)) :
    dmxSelectOp n flags level clev slev s = .ok (out, lvl) s := by
  refine op_get_run ?_
  rw [found]
  rfl

theorem dmxSelectOp_none {s : State} (found : dmxSelect s.rom n flags level clev slev = none) :
    dmxSelectOp n flags level clev slev s = .error (.raise .unsupportedChannelArrangement .arrangement) s := by
  refine op_get_run ?_
  rw [found]
  rfl

theorem exec_dmxSelect (primary : BitVec 6) (s : State) : exec (.dmxSelect primary flags level clev slev) s
    = answerValue (dmxSelectOp primary.toNat flags level clev slev) (fun x => .select x.1 x.2) s := rfl

theorem exec_dmxSelect_some {s : State} {primary : BitVec 6}
    (found : dmxSelect s.rom primary.toNat flags level clev slev = some (out, lvl)) :
    exec (.dmxSelect primary flags level clev slev) s = .next { s with unit := .select out lvl } := by
  rw [exec_dmxSelect]
  exact answer_ok (dmxSelectOp_some found)

end Select

/-- Settles O32: what the table holds, the request of the primary itself, and a pair without an arrangement. -/
theorem dmxSelectAnswers : Obligations.DmxSelectAnswers := by
  refine fun s primary flags level clev slev => ⟨fun p out0 out arrangement chosen collapsed => ?_,
    fun x low arrangement itself => ?_, fun chosen => ?_⟩
  · exact exec_dmxSelect_some (dmxSelect_some arrangement chosen collapsed)
  · have chosen : selectedOf s.rom (flagsArr flags) primary.toNat = some x := by rw [itself, selectedOf_self low, arrangement]
    have kept : x = if x = .stereo ∧ x = .f3 ∧ clev = level3dB s.rom.sampleKind then .dolby else x := by
      rw [if_neg]
      rintro ⟨rfl, three, _⟩
      cases three
    have found := dmxSelect_some (level := level) (slev := slev) arrangement chosen kept
    rw [adjustedLevel_self] at found
    exact exec_dmxSelect_some found
  · rw [exec_dmxSelect]
    exact answer_raise (dmxSelectOp_none (dmxSelect_none chosen))

/-! ### FD.HEADER on the stream -/

section FixedHeader

variable {α : Type} {s : State} {h : StreamHeader} {p n w : Nat}

/-- A state in the middle of the fixed header: `SH` is `h`, and the cursor `p` bits on. -/
def fixedAt (s : State) (h : StreamHeader) (p : Nat) : State := { s with sh := h, bc := after s p }

theorem fixedAt_zero (s : State) : fixedAt s s.sh 0 = s := by
  rw [fixedAt, after_zero]

theorem getBits_fixedAt (n : Nat) (h1 : 1 ≤ n := by decide) (h2 : n ≤ 32 := by decide) :
    getBits n (fixedAt s h p) = .ok (peek s p n) (fixedAt s h (p + n)) :=
  Behind.getBits (s := s) ⟨rfl, rfl, rfl⟩ h1 h2

theorem getField_fixedAt (n w : Nat) (h1 : 1 ≤ n := by decide) (h2 : n ≤ 32 := by decide) :
    getField n w (fixedAt s h p) = .ok (BitVec.ofNat w (peek s p n)) (fixedAt s h (p + n)) :=
  op_run (getBits_fixedAt n h1 h2) rfl

theorem skipBits_fixedAt (n : Nat) (h1 : 1 ≤ n := by decide) (h2 : n ≤ 32 := by decide) :
    skipBits n s = .ok () (fixedAt s s.sh n) := skipBits_ok h1 h2 s

/-- `SH` after one more field; a name of its own keeps the states of a long row of fields small. -/
def withField (g : StreamHeader → StreamHeader) (h : StreamHeader) : StreamHeader := g h

/-- R114: a field read and stored. -/
theorem storeField {x : Op α} {v : α} {g : α → StreamHeader → StreamHeader} {k : α → Op Unit}
    (read : x (fixedAt s h p) = .ok v (fixedAt s h (p + n))) :
    (do let v ← x; setSh (g v); k v) (fixedAt s h p) = k v (fixedAt s (withField (g v) h) (p + n)) :=
  op_run read (op_run rfl rfl)

/-- The last field of an operation. -/
theorem storeField_last {x : Op α} {v : α} {g : α → StreamHeader → StreamHeader}
    (read : x (fixedAt s h p) = .ok v (fixedAt s h (p + n))) :
    (do let v ← x; setSh (g v)) (fixedAt s h p) = .ok () (fixedAt s (withField (g v) h) (p + n)) :=
  op_run read rfl

/-- A check that passes. -/
theorem check_passes {q : Prop} [Decidable q] {c : Code} {l : Label} {k : Op Unit} {t : State} (passes : ¬ q) :
    (if q then (raiseOp c l : Op Unit) >>= fun _ => k else k) t = k t := by
  rw [if_neg passes]

theorem check_passes_last {q : Prop} [Decidable q] {c : Code} {l : Label} {t : State} (passes : ¬ q) :
    (if q then (raiseOp c l : Op Unit) else pure ()) t = .ok () t := by
  rw [if_neg passes]
  rfl

/-- The fields up to RATE (30_encoding.md R67). -/
def checkedHeader (b : Nat → Nat → Nat) (old : StreamHeader) : StreamHeader :=
  { old with
    frameType := BitVec.ofNat 1 (b 32 1), samplesDeficit := BitVec.ofNat 5 (b 33 5), crcPresent := BitVec.ofNat 1 (b 38 1)
    sampleBlocks := BitVec.ofNat 8 (b 39 7 + 1), frameSize := BitVec.ofNat 15 (b 46 14 + 1)
    amode := BitVec.ofNat 6 (b 60 6), sampleRate := BitVec.ofNat 4 (b 66 4), bitRate := BitVec.ofNat 5 (b 70 5) }

theorem toNat_ofNat_peek {w : Nat} (s : State) (off : Nat) : (BitVec.ofNat w (peek s off w)).toNat = peek s off w :=
  (BitVec.toNat_ofNat _ _).trans (Nat.mod_eq_of_lt (peek_lt s off w))

theorem ofNat_peek_eq_iff {s : State} {off : Nat} (v : BitVec w) : BitVec.ofNat w (peek s off w) = v ↔ peek s off w = v.toNat := by
  rw [← BitVec.toNat_inj, toNat_ofNat_peek]

/-- R115: the checked part accepts a header in range. -/
theorem fdHeaderChecked_ok (inRange : HeaderInRange s.rom (peek s)) :
    fdHeaderChecked s = .ok () (fixedAt s (checkedHeader (peek s) s.sh) 75) := by
  obtain ⟨blocks, size, rate, bits⟩ := inRange
  have blocksOk : ¬ (peek s 39 7 + 1) * 32 < 192 := by omega
  have sizeOk : ¬ peek s 46 14 + 1 < 96 := by omega
  rw [← toNat_ofNat_peek] at rate bits
  unfold fdHeaderChecked
  refine op_run (skipBits_fixedAt 32) ?_
  refine (storeField (getField_fixedAt 1 1)).trans ?_
  refine (storeField (getField_fixedAt 5 5)).trans ?_
  refine (storeField (getField_fixedAt 1 1)).trans ?_
  refine (storeField (getBits_fixedAt 7)).trans ((check_passes blocksOk).trans ?_)
  refine (storeField (getBits_fixedAt 14)).trans ((check_passes sizeOk).trans ?_)
  refine (storeField (getField_fixedAt 6 6)).trans ?_
  refine (storeField (getField_fixedAt 4 4)).trans (op_get_run ((check_passes rate).trans ?_))
  refine (storeField (getField_fixedAt 5 5)).trans ((check_passes_last bits).trans ?_)
  rfl

end FixedHeader

/-! ### O29: FD.HEADER on any other header -/

section Rejects

variable {α : Type} {s : State} {h : StreamHeader} {p n w : Nat} {k : Op Unit}

/-- R115, R116: the operation raises MalformedHeader. -/
def Rejects (x : Op Unit) (s : State) : Prop := ∃ l t, x s = .error (.raise .malformedHeader l) t

theorem rejects_of_eq {x y : Op Unit} {t : State} (same : x s = y t) (rejects : Rejects y t) : Rejects x s := by
  obtain ⟨l, u, raised⟩ := rejects
  exact ⟨l, u, same.trans raised⟩

theorem rejects_first {x : Op α} {f : α → Op Unit} {l : Label} {t : State}
    (raised : x s = .error (.raise .malformedHeader l) t) : Rejects (x >>= f) s := ⟨l, t, op_bind_error raised⟩

/-- A check: it raises, or what follows it does. -/
theorem rejects_check {q : Prop} [Decidable q] {l : Label} (rest : ¬ q → Rejects k s) :
    Rejects (if q then (raiseOp .malformedHeader l : Op Unit) >>= fun _ => k else k) s := by
  by_cases fails : q
  · rw [if_pos fails]
    exact rejects_first (raiseOp_apply _ _ s)
  · rw [if_neg fails]
    exact rest fails

theorem rejects_check_last {q : Prop} [Decidable q] {l : Label} (fails : q) :
    Rejects (if q then (raiseOp .malformedHeader l : Op Unit) else pure ()) s := by
  rw [if_pos fails]
  exact ⟨l, s, rfl⟩

/-- R115: a header out of range. -/
theorem fdHeaderChecked_rejects (outOfRange : ¬ HeaderInRange s.rom (peek s)) : Rejects fdHeaderChecked s := by
  unfold fdHeaderChecked
  refine rejects_of_eq (op_bind_ok (skipBits_fixedAt 32)) ?_
  refine rejects_of_eq (storeField (getField_fixedAt 1 1)) ?_
  refine rejects_of_eq (storeField (getField_fixedAt 5 5)) ?_
  refine rejects_of_eq (storeField (getField_fixedAt 1 1)) ?_
  refine rejects_of_eq (storeField (getBits_fixedAt 7)) (rejects_check fun blocks => ?_)
  refine rejects_of_eq (storeField (getBits_fixedAt 14)) (rejects_check fun size => ?_)
  refine rejects_of_eq (storeField (getField_fixedAt 6 6)) ?_
  refine rejects_of_eq (storeField (getField_fixedAt 4 4)) (rejects_of_eq (op_bind_ok (op_get _)) ?_)
  refine rejects_check fun rate => rejects_of_eq (storeField (getField_fixedAt 5 5)) (rejects_check_last ?_)
  rw [toNat_ofNat_peek] at rate ⊢
  change ¬ (peek s 39 7 + 1) * 32 < 192 at blocks
  change ¬ peek s 46 14 + 1 < 96 at size
  by_contra bits
  exact outOfRange ⟨by omega, by omega, rate, bits⟩

/-- R116: an LFE field of 3. -/
theorem fdHeaderFlags_rejects (lfe : peek s 85 2 = 3) : Rejects fdHeaderFlags (fixedAt s h 75) := by
  unfold fdHeaderFlags
  iterate 5 refine rejects_of_eq (storeField (getField_fixedAt 1 1)) ?_
  refine rejects_of_eq (storeField (getField_fixedAt 3 3)) ?_
  iterate 2 refine rejects_of_eq (storeField (getField_fixedAt 1 1)) ?_
  exact rejects_of_eq (storeField (getField_fixedAt 2 2)) (rejects_check fun no => absurd ((ofNat_peek_eq_iff 3#2).2 lfe) no)

theorem fdHeaderOp_rejects (bad : ¬ (HeaderInRange s.rom (peek s) ∧ peek s 85 2 ≠ 3)) : Rejects fdHeaderOp s := by
  by_cases inRange : HeaderInRange s.rom (peek s)
  · have lfe : peek s 85 2 = 3 := not_not.1 fun ne => bad ⟨inRange, ne⟩
    obtain ⟨l, t, raised⟩ := fdHeaderFlags_rejects (h := checkedHeader (peek s) s.sh) lfe
    exact rejects_of_eq (op_bind_ok (fdHeaderChecked_ok inRange)) (rejects_first raised)
  · obtain ⟨l, t, raised⟩ := fdHeaderChecked_rejects inRange
    exact rejects_first raised

/-- All of the state but `SH` and `BC`. -/
def withoutHeader (s : State) : State := { s with sh := zeroHeader, bc := zeroCursor }

/-- R114: FD.HEADER writes `SH` and `BC` alone, however it ends. -/
theorem fdHeader_frame {t : State} (kept : withoutHeader t = withoutHeader s) : t = { s with sh := t.sh, bc := t.bc } :=
  congrArg (fun x : State => { x with sh := t.sh, bc := t.bc }) kept

end Rejects

theorem exec_fdHeader (s : State) : exec .fdHeader s = answerUnit fdHeaderOp s := rfl

/-- Settles O29: the operation raises, and the error is taken on a state that differs in `SH` and `BC`. -/
theorem fdHeaderRejects : Obligations.FdHeaderRejects := by
  intro s bad
  obtain ⟨l, u, raised⟩ := fdHeaderOp_rejects bad
  have kept : Keeps withoutHeader fdHeaderOp := keeps_fdHeader (fun _ _ => rfl) (fun _ _ => rfl)
  refine ⟨takeError .malformedHeader u, (exec_fdHeader s).trans (answer_raise raised), ?_⟩
  have frame := fdHeader_frame (kept.error raised)
  exact congrArg (takeError .malformedHeader) frame

end Sys2Proof.Proofs
end

section
/-! PROOFS. The pseudo-command RESYNC (30_encoding.md R91): its turns, and where it stops (O59). -/

namespace Sys2Proof.Proofs

open Sys2Proof.Machine Sys2Proof.Safety Sys2Proof.Laws

-- As in the tests: elaborating these declarations side by side needs more threads than the checker's memory limit allows.
set_option Elab.async false

section Resync

variable {s t u : State} {buf len : Word32} {off : Nat}

/-- R106: all that PROBE lines leave different in a state, besides the unit's answer. -/
def Probed (s t : State) : Prop :=
  t = { s with args := { s.args with bufAddr := t.args.bufAddr, bufLen := t.args.bufLen }
               res := { t.res with blocks := s.res.blocks, outCh := s.res.outCh }, code := t.code, free := t.free }

theorem probed_refl (s : State) : Probed s s := rfl

theorem Probed.mem_eq (h : Probed s t) : t.mem = s.mem :=
  (congrArg State.mem h).trans rfl

theorem Probed.rom_eq (h : Probed s t) : t.rom = s.rom :=
  (congrArg State.rom h).trans rfl

theorem Probed.life_eq (h : Probed s t) : t.life = s.life :=
  (congrArg State.life h).trans rfl

/-- The state of the PROBE line at offset `off` of the view (R91). -/
def atOffset (buf len : Word32) (off : Nat) (t : State) : State :=
  { t with args := { t.args with bufAddr := buf + BitVec.ofNat 32 off, bufLen := len - BitVec.ofNat 32 off } }

theorem probeArgs_eq_atOffset (short : off ≤ len.toNat) (t : State) :
    probeArgs (buf.toNat + off) (len.toNat - off) t = atOffset buf len off t := by
  have address : BitVec.ofNat 32 (buf.toNat + off) = buf + BitVec.ofNat 32 off := by
    rw [BitVec.ofNat_add, BitVec.ofNat_toNat, BitVec.setWidth_eq]
  have length : BitVec.ofNat 32 (len.toNat - off) = len - BitVec.ofNat 32 off := by
    bv_omega
  rw [probeArgs, address, length, atOffset]

/-- The view at an offset with room for a header is not one that PROBE turns away (60_exceptions.md R271). -/
theorem view_ne_zero (nonnull : buf ≠ 0#32) (fits : buf.toNat + len.toNat < 2 ^ 32) (room : off + 14 ≤ len.toNat) :
    buf + BitVec.ofNat 32 off ≠ 0#32 ∧ len - BitVec.ofNat 32 off ≠ 0#32 := by
  constructor <;> bv_omega

theorem Probed.probe (h : Probed s t) (run : exec .probe (atOffset buf len off t) = .next u) :
    Probed s u ∧ u.args.bufAddr = buf + BitVec.ofNat 32 off ∧ u.args.bufLen = len - BitVec.ofNat 32 off := by
  have only := probeNonMutating _ _ run
  have args : u.args = (atOffset buf len off t).args :=
    (congrArg State.args only).trans rfl
  have addr : u.args.bufAddr = buf + BitVec.ofNat 32 off := congrArg ArgRegs.bufAddr args
  have length : u.args.bufLen = len - BitVec.ofNat 32 off := congrArg ArgRegs.bufLen args
  refine ⟨?_, addr, length⟩
  rw [Probed, addr, length]
  refine only.trans ?_
  rw [h]
  rfl

/-- R100, R105: the results of a PROBE that finds a frame; their frame length fits its register and is not 0. -/
theorem probe_results {p : Packing} (ready : s.life = .ready) (addr : s.args.bufAddr ≠ 0#32) (length : s.args.bufLen ≠ 0#32)
    (found : fsMatch s.mem s.args.bufAddr s.args.bufLen = some p) (admitted : viewAdmitted s.args.bufAddr p = true)
    (inRange : HeaderInRange s.rom (bitsFrom (payloadBit s.mem s.args.bufAddr s.args.bufLen p))) :
    let header := probeAt s.rom p.wordMode (bitsFrom (payloadBit s.mem s.args.bufAddr s.args.bufLen p))
    ∃ u, exec .probe s = .next u ∧ u.res.frameLen ≠ 0#32 ∧ u.code = .ok ∧ u.res.flags = header.flags
      ∧ u.res.sampleRate = header.sampleRate ∧ u.res.bitRate = header.bitRate ∧ u.res.frameLen.toNat = header.frameBytes := by
  obtain ⟨least, bound, _⟩ := lengthAt_bounds inRange.2.1 (bitsFrom_lt _ 46 14) p.wordMode
  have bytes : (BitVec.ofNat 32 (lengthAt p.wordMode (bitsFrom (payloadBit s.mem s.args.bufAddr s.args.bufLen p)))).toNat
      = lengthAt p.wordMode (bitsFrom (payloadBit s.mem s.args.bufAddr s.args.bufLen p)) :=
    (BitVec.toNat_ofNat _ _).trans (Nat.mod_eq_of_lt bound)
  refine ⟨_, probeFindsFrame s p ready addr length found admitted inRange, fun zero => ?_, rfl, rfl, rfl, rfl, bytes⟩
  have none := bytes.symm.trans (congrArg BitVec.toNat zero)
  rw [none] at least
  exact absurd least (by decide)

/-- R91: one turn of the loop. -/
theorem resyncLoop_succ {b l left : Nat} (run : probeCmd (probeArgs (b + off) (l - off) t) = .next u) :
    resyncLoop b l (left + 1) off t
      = if u.res.frameLen ≠ 0#32 then .next { u with unit := .offset (some off) } else resyncLoop b l left (off + 1) u := by
  rw [resyncLoop, run]

variable (ready : s.life = .ready) (nonnull : buf ≠ 0#32) (fits : buf.toNat + len.toNat < 2 ^ 32)

include ready nonnull fits

/-- A turn at an offset without a frame goes on, with the answer of a PROBE that found nothing. -/
theorem resyncLoop_skip (h : Probed s t) (room : off + 14 ≤ len.toNat)
    (nothing : NoFrameAt s (buf + BitVec.ofNat 32 off) (len - BitVec.ofNat 32 off)) (left : Nat) :
    ∃ u, resyncLoop buf.toNat len.toNat (left + 1) off t = resyncLoop buf.toNat len.toNat left (off + 1) u ∧ Probed s u
      ∧ u.args.bufAddr = buf + BitVec.ofNat 32 off ∧ u.args.bufLen = len - BitVec.ofNat 32 off
      ∧ u.code = .syncNotFound ∧ u.res.frameLen = 0#32 := by
  obtain ⟨address, length⟩ := view_ne_zero nonnull fits room
  rw [NoFrameAt, ← h.mem_eq, ← h.rom_eq] at nothing
  obtain ⟨u, run, code, zero, _⟩ :=
    probeFindsNothing (atOffset buf len off t) (h.life_eq.trans ready) address length nothing
  obtain ⟨probed, addr, rest⟩ := h.probe run
  rw [exec_probe, ← probeArgs_eq_atOffset (by omega)] at run
  refine ⟨u, ?_, probed, addr, rest, code, zero⟩
  rw [resyncLoop_succ run, if_neg (not_not.2 zero)]

/-- The loop goes past any row of offsets without a frame. -/
theorem resyncLoop_skips (left : Nat) : ∀ (n off : Nat) (t : State), Probed s t → off + n + 13 ≤ len.toNat →
    (∀ o, off ≤ o → o < off + n → NoFrameAt s (buf + BitVec.ofNat 32 o) (len - BitVec.ofNat 32 o)) →
    ∃ u, resyncLoop buf.toNat len.toNat (n + left) off t = resyncLoop buf.toNat len.toNat left (off + n) u ∧ Probed s u := by
  intro n
  induction n with
  | zero => exact fun off t h _ _ => ⟨t, by rw [Nat.zero_add, Nat.add_zero], h⟩
  | succ n ih =>
    intro off t h room nothing
    obtain ⟨u, turn, probed, _⟩ :=
      resyncLoop_skip ready nonnull fits h (by omega) (nothing off (by omega) (by omega)) (n + left)
    obtain ⟨v, rest, last⟩ := ih (off + 1) u probed (by omega) fun o low high => nothing o (by omega) (by omega)
    refine ⟨v, ?_, last⟩
    rw [Nat.add_right_comm, turn, rest, Nat.add_right_comm, Nat.add_assoc off]

/-- A turn at an offset with a frame ends the loop. -/
theorem resyncLoop_found {p : Packing} (h : Probed s t) (room : off + 14 ≤ len.toNat)
    (found : fsMatch s.mem (buf + BitVec.ofNat 32 off) (len - BitVec.ofNat 32 off) = some p)
    (admitted : viewAdmitted (buf + BitVec.ofNat 32 off) p = true)
    (inRange : HeaderInRange s.rom
      (bitsFrom (payloadBit s.mem (buf + BitVec.ofNat 32 off) (len - BitVec.ofNat 32 off) p))) (left : Nat) :
    ∃ u, resyncLoop buf.toNat len.toNat (left + 1) off t = .next { u with unit := .offset (some off) } ∧ Probed s u
      ∧ u.args.bufAddr = buf + BitVec.ofNat 32 off ∧ u.args.bufLen = len - BitVec.ofNat 32 off ∧ u.code = .ok
      ∧ let header := probeAt s.rom p.wordMode
          (bitsFrom (payloadBit s.mem (buf + BitVec.ofNat 32 off) (len - BitVec.ofNat 32 off) p))
        u.res.flags = header.flags ∧ u.res.sampleRate = header.sampleRate ∧ u.res.bitRate = header.bitRate
          ∧ u.res.frameLen.toNat = header.frameBytes := by
  obtain ⟨address, length⟩ := view_ne_zero nonnull fits room
  rw [← h.mem_eq] at found
  rw [← h.mem_eq, ← h.rom_eq] at inRange
  obtain ⟨u, run, nonzero, results⟩ :=
    probe_results (s := atOffset buf len off t) (h.life_eq.trans ready) address length found admitted inRange
  obtain ⟨probed, addr, rest⟩ := h.probe run
  rw [exec_probe, ← probeArgs_eq_atOffset (by omega)] at run
  rw [← h.mem_eq, ← h.rom_eq]
  exact ⟨u, (resyncLoop_succ run).trans (if_pos nonzero), probed, addr, rest, results⟩

end Resync

theorem exec_resync (buf len : Word32) (s : State) :
    exec (.resync buf len) s = resyncLoop buf.toNat len.toNat (len.toNat + 1 - 14) 0 s := rfl

/-- The state in which RESYNC ends, with its answer. -/
theorem Probed.answer {s t : State} {addr len : Word32} (h : Probed s t) (first : t.args.bufAddr = addr)
    (second : t.args.bufLen = len) (x : UnitResult) :
    ({ t with unit := x } : State) = { s with
      args := { s.args with bufAddr := addr, bufLen := len }
      res := { t.res with blocks := s.res.blocks, outCh := s.res.outCh }, code := t.code, unit := x, free := t.free } := by
  subst first second
  exact congrArg (fun z : State => { z with unit := x }) h

/-- Settles O59: the loop goes past the offsets without a frame; at the next one it stops, or it has come to the end. -/
theorem resyncStopsAtFirst : Obligations.ResyncStopsAtFirst := by
  intro s buf len ready nonnull fits view
  constructor
  · intro k p room nothing found admitted inRange header
    obtain ⟨m, turns⟩ : ∃ m, len.toNat + 1 - 14 = k + (m + 1) := ⟨len.toNat - 14 - k, by omega⟩
    obtain ⟨t, skipped, before⟩ := resyncLoop_skips ready nonnull fits (m + 1) k 0 s (probed_refl s) (by omega)
      fun o _ below => nothing o (by omega)
    rw [Nat.zero_add] at skipped
    obtain ⟨u, stop, after, addr, length, code, flags, rate, bits, bytes⟩ :=
      resyncLoop_found ready nonnull fits before room found admitted inRange m
    refine ⟨{ u with unit := .offset (some k) }, ?_, rfl, code, flags, rate, bits, bytes, addr, length,
      after.answer addr length _⟩
    rw [exec_resync, turns, skipped, stop]
  · intro nothing
    refine ⟨fun short => ?_, fun last room => ?_⟩
    · have none : len.toNat + 1 - 14 = 0 := by omega
      rw [exec_resync, none]
      rfl
    · have turns : len.toNat + 1 - 14 = last + (0 + 1) := by omega
      obtain ⟨t, skipped, before⟩ := resyncLoop_skips ready nonnull fits (0 + 1) last 0 s (probed_refl s) (by omega)
        fun o _ below => nothing o (by omega)
      rw [Nat.zero_add last] at skipped
      obtain ⟨u, turn, after, addr, length, code, zero⟩ :=
        resyncLoop_skip ready nonnull fits before (by omega) (nothing last (by omega)) 0
      refine ⟨{ u with unit := .offset none }, ?_, rfl, code, zero, after.answer addr length _⟩
      rw [exec_resync, turns, skipped, turn]
      rfl

end Sys2Proof.Proofs
end

section
/-! PROOFS. What an operation stops with: the readers of a block stop with CorruptStream and nothing else (43_subframe.md R135),
and are never refused; BEGIN_FRAME (42_framedecoder.md R113) raises no OK. -/

namespace Sys2Proof.Proofs

open Sys2Proof.Machine Sys2Proof.Safety Sys2Proof.Laws

-- As in the tests: elaborating these declarations side by side needs more threads than the checker's memory limit allows.
set_option Elab.async false

section Stops

variable {α β : Type} {E : Stop → Prop} {x : Op α}

/-- However the operation stops, from whatever state, `E` holds of the stop. -/
def StopsIn (E : Stop → Prop) (x : Op α) : Prop := ∀ s e t, x s = .error e t → E e

theorem stopsIn_pure (a : α) : StopsIn E (pure a) := fun _ _ _ h => by cases h

theorem stopsIn_get : StopsIn E (get : Op State) := fun _ _ _ h => by cases h

theorem stopsIn_modify (f : State → State) : StopsIn E (modify f : Op Unit) := fun _ _ _ h => by cases h

theorem stopsIn_raise {c : Code} {l : Label} (h : E (.raise c l)) : StopsIn E (raiseOp c l : Op α) := fun _ _ _ e => by
  cases e
  exact h

theorem stopsIn_refuse {r : Refusal} (h : E (.refuse r)) : StopsIn E (refuseOp r : Op α) := fun _ _ _ e => by
  cases e
  exact h

theorem stopsIn_bind {f : α → Op β} (hx : StopsIn E x) (hf : ∀ a, StopsIn E (f a)) : StopsIn E (x >>= f) := by
  intro s e u h
  rw [op_bind] at h
  cases run : x s with
  | ok a t =>
    rw [run] at h
    exact hf a t e u h
  | error r t =>
    rw [run] at h
    cases h
    exact hx s e u run

theorem stopsIn_ite {p : Prop} [Decidable p] {y : Op α} (hx : p → StopsIn E x) (hy : ¬ p → StopsIn E y) :
    StopsIn E (if p then x else y) := by
  by_cases h : p
  · rw [if_pos h]
    exact hx h
  · rw [if_neg h]
    exact hy h

/-- A step that is taken under a condition. -/
theorem stopsIn_when {p : Prop} [Decidable p] {y : Op Unit} (hy : StopsIn E y) (hx : StopsIn E x) :
    StopsIn E (if p then y >>= fun _ => x else x) := stopsIn_ite (fun _ => stopsIn_bind hy fun _ => hx) fun _ => hx

/-- A step under a condition at the end of an operation. -/
theorem stopsIn_when_last {p : Prop} [Decidable p] {y : Op Unit} (hy : StopsIn E y) : StopsIn E (if p then y else pure ()) :=
  stopsIn_ite (fun _ => hy) fun _ => stopsIn_pure ()

theorem stopsIn_forEach {ι : Type} {f : ι → Op Unit} (h : ∀ i, StopsIn E (f i)) (xs : List ι) : StopsIn E (forEach xs f) := by
  induction xs with
  | nil => exact stopsIn_pure ()
  | cons i xs ih => exact stopsIn_bind (h i) fun _ => ih

theorem stopsIn_collect (h : StopsIn E x) (n : Nat) : StopsIn E (collect n x) := by
  induction n with
  | zero => exact stopsIn_pure []
  | succ n ih => exact stopsIn_bind h fun _ => stopsIn_bind ih fun _ => stopsIn_pure _

/-- 40_bitreader.md R93: a width that `get` takes does not stop. -/
theorem stopsIn_getBits {n : Nat} (h1 : 1 ≤ n := by decide) (h2 : n ≤ 32 := by decide) : StopsIn E (getBits n) :=
  fun s _ _ h => by
    rw [getBits_ok h1 h2] at h
    cases h

theorem stopsIn_skipBits {n : Nat} (h1 : 1 ≤ n := by decide) (h2 : n ≤ 32 := by decide) : StopsIn E (skipBits n) :=
  stopsIn_bind (stopsIn_getBits h1 h2) fun _ => stopsIn_pure ()

theorem stopsIn_getSignedBits {n : Nat} (h1 : 1 ≤ n := by decide) (h2 : n ≤ 32 := by decide) : StopsIn E (getSignedBits n) :=
  stopsIn_bind (stopsIn_getBits h1 h2) fun _ => stopsIn_pure _

/-- A field read into a register. -/
theorem stopsIn_store {n : Nat} (g : Nat → State → State) (h1 : 1 ≤ n := by decide) (h2 : n ≤ 32 := by decide) :
    StopsIn E (do let v ← getBits n; modify (g v)) := stopsIn_bind (stopsIn_getBits h1 h2) fun v => stopsIn_modify (g v)

end Stops

/-! ### The readers of a block -/

section Readers

variable {E : Stop → Prop} (corrupt : ∀ l, E (.raise .corruptStream l))

include corrupt

theorem stopsIn_huff (book : Codebook) : StopsIn E (huffOp book) := by
  have main : ∀ n len code, StopsIn E (huffLoop book n len code) := by
    intro n
    induction n with
    | zero => exact fun _ _ => stopsIn_raise (corrupt _)
    | succ n ih =>
      intro len code
      unfold huffLoop
      refine stopsIn_bind stopsIn_getBits fun b => ?_
      split
      · exact stopsIn_pure _
      · exact ih _ _
  exact main _ 0 0

theorem stopsIn_readAlloc (c sb : Nat) : StopsIn E (readAlloc c sb) := by
  refine stopsIn_bind (stopsIn_bind (stopsIn_bind stopsIn_get fun s => ?_) fun v => ?_) fun _ => stopsIn_modify _
  · refine stopsIn_ite (fun _ => stopsIn_bind stopsIn_getBits fun _ => stopsIn_pure _) fun _ => ?_
    exact stopsIn_ite (fun _ => stopsIn_bind stopsIn_getBits fun _ => stopsIn_pure _) fun _ => stopsIn_huff corrupt _
  · exact stopsIn_when (stopsIn_raise (corrupt _)) (stopsIn_pure _)

theorem stopsIn_jointScale (h : Nat) : StopsIn E (jointScaleOp h) := by
  refine stopsIn_bind stopsIn_get fun s => stopsIn_ite (fun _ => stopsIn_huff corrupt _) fun _ => ?_
  refine stopsIn_ite (fun _ => stopsIn_bind stopsIn_getBits fun _ => stopsIn_pure _) fun _ => ?_
  exact stopsIn_ite (fun _ => stopsIn_bind stopsIn_getBits fun _ => stopsIn_pure _) fun _ => stopsIn_raise (corrupt _)

theorem stopsIn_readScale (h : Nat) (sum : Int) : StopsIn E (readScaleOp h sum) := by
  have next : StopsIn E (nextScaleOp h sum) := by
    have same : nextScaleOp h sum = jointScaleOp h >>= fun v => pure (nextIndex h sum v) := funext (nextScaleOp_eq h sum)
    rw [same]
    exact stopsIn_bind (stopsIn_jointScale corrupt h) fun _ => stopsIn_pure _
  refine stopsIn_bind next fun i => stopsIn_bind (stopsIn_bind stopsIn_get fun s => ?_) fun _ => stopsIn_pure _
  exact stopsIn_ite (fun _ => stopsIn_when (stopsIn_raise (corrupt _)) (stopsIn_pure _))
    fun _ => stopsIn_when (stopsIn_raise (corrupt _)) (stopsIn_pure _)

theorem stopsIn_readScales (c : Nat) : StopsIn E (readScalesOp c) := by
  refine stopsIn_bind stopsIn_get fun s => stopsIn_bind (stopsIn_modify _) fun _ => ?_
  have loop : ∀ h sbs sum, StopsIn E (readScaleLoop c h sbs sum) := by
    intro h sbs
    induction sbs with
    | nil => exact fun _ => stopsIn_pure ()
    | cons sb sbs ih =>
      refine fun sum => stopsIn_bind ?_ fun _ => stopsIn_bind ?_ fun _ => ih _
      all_goals
        refine stopsIn_bind stopsIn_get fun s => stopsIn_ite (fun _ => ?_) fun _ => stopsIn_pure _
        exact stopsIn_bind (stopsIn_readScale corrupt h _) fun _ => stopsIn_bind (stopsIn_modify _) fun _ => stopsIn_pure _
  exact loop _ _ _

theorem stopsIn_readJoint (c : Nat) : StopsIn E (readJointOp c) := by
  refine stopsIn_bind stopsIn_get fun s => stopsIn_when (stopsIn_raise (corrupt _)) ?_
  refine stopsIn_bind (stopsIn_forEach (fun sb => ?_) _) fun _ => stopsIn_modify _
  exact stopsIn_bind (stopsIn_jointScale corrupt _) fun _ => stopsIn_modify _

theorem stopsIn_readTransition (c sb : Nat) : StopsIn E (readTransition c sb) :=
  stopsIn_bind (stopsIn_modify _) fun _ => stopsIn_bind stopsIn_get fun _ =>
    stopsIn_when_last (stopsIn_bind (stopsIn_huff corrupt _) fun _ => stopsIn_modify _)

omit corrupt in
theorem stopsIn_passActive {f : Nat → Nat → Op Unit} (h : ∀ c sb, StopsIn E (f c sb)) (cs : List Nat) :
    StopsIn E (passActive cs f) :=
  stopsIn_forEach (fun c => stopsIn_bind stopsIn_get fun _ => stopsIn_forEach (h c) _) cs

theorem stopsIn_sfHeaderAlloc (cs : List Nat) : StopsIn E (sfHeaderAlloc cs) := by
  refine stopsIn_bind stopsIn_getBits fun _ => stopsIn_bind (stopsIn_modify _) fun _ => ?_
  refine stopsIn_bind stopsIn_getBits fun _ => stopsIn_bind (stopsIn_modify _) fun _ => ?_
  refine stopsIn_bind (stopsIn_passActive (fun c sb => stopsIn_store _) cs) fun _ => ?_
  refine stopsIn_bind (stopsIn_passActive (fun c sb => ?_) cs) fun _ => ?_
  · exact stopsIn_bind stopsIn_get fun _ => stopsIn_when_last (stopsIn_store _)
  refine stopsIn_bind (stopsIn_forEach (fun c => ?_) cs) fun _ => stopsIn_passActive (stopsIn_readTransition corrupt) cs
  exact stopsIn_bind stopsIn_get fun _ => stopsIn_forEach (stopsIn_readAlloc corrupt c) _

theorem stopsIn_sfHeaderScales (cs : List Nat) : StopsIn E (sfHeaderScales cs) := by
  have hfvq : StopsIn E (forEach cs fun c => do
      let s ← get
      forEach (span (vqOf s c) (actOf s c)) (readHfvq c)) :=
    stopsIn_forEach (fun c => stopsIn_bind stopsIn_get fun _ => stopsIn_forEach (fun sb => stopsIn_store _) _) cs
  refine stopsIn_bind (stopsIn_forEach (stopsIn_readScales corrupt) cs) fun _ => ?_
  refine stopsIn_bind (stopsIn_forEach (fun c => ?_) cs) fun _ => ?_
  · exact stopsIn_bind stopsIn_get fun _ => stopsIn_when_last (stopsIn_store _)
  refine stopsIn_bind (stopsIn_forEach (fun c => ?_) cs) fun _ => stopsIn_bind stopsIn_get fun s => ?_
  · exact stopsIn_bind stopsIn_get fun _ => stopsIn_when_last (stopsIn_readJoint corrupt c)
  have tail : StopsIn E (do
      if s.sh.dynrange = 1#1 then
        let v ← getBits 8
        setSf fun r => { r with dynrangeCoef := BitVec.ofNat 8 v }
      if s.sh.crcPresent = 1#1 then skipBits 16
      forEach cs fun c => do
        let s ← get
        forEach (span (vqOf s c) (actOf s c)) (readHfvq c)) :=
    stopsIn_ite (fun _ => stopsIn_bind stopsIn_getBits fun _ => stopsIn_bind (stopsIn_modify _) fun _ =>
      stopsIn_when stopsIn_skipBits hfvq) fun _ => stopsIn_when stopsIn_skipBits hfvq
  refine stopsIn_when (stopsIn_forEach (fun c => ?_) cs) tail
  exact stopsIn_bind stopsIn_getBits fun _ => stopsIn_bind (stopsIn_modify _) fun _ => stopsIn_store _

theorem stopsIn_readLfe : StopsIn E readLfeOp := by
  refine stopsIn_bind stopsIn_get fun s => stopsIn_bind (stopsIn_collect stopsIn_getSignedBits _) fun raw => ?_
  refine stopsIn_bind stopsIn_getBits fun i => stopsIn_when (stopsIn_raise (corrupt _)) ?_
  exact stopsIn_bind (stopsIn_modify _) fun _ => stopsIn_modify _

theorem stopsIn_sfHeader : StopsIn E sfHeaderOp :=
  stopsIn_bind stopsIn_get fun _ => stopsIn_bind (stopsIn_sfHeaderAlloc corrupt _) fun _ =>
    stopsIn_bind (stopsIn_sfHeaderScales corrupt _) fun _ => stopsIn_when_last (stopsIn_readLfe corrupt)

/-- 44_sample_decode.md R162: an abits value of 5 bits has widths that `get` takes (R165, R166). -/
theorem stopsIn_qx {a : Nat} (small : a < 32) (sel : Nat) : StopsIn E (qxOp a sel) := by
  have digits : ∀ code levels, StopsIn E (blkDecodeOp code levels) := by
    intro code levels
    unfold blkDecodeOp
    split
    · exact stopsIn_pure _
    · exact stopsIn_raise (corrupt _)
  unfold qxOp
  refine stopsIn_bind stopsIn_get fun s => stopsIn_ite (fun _ => stopsIn_pure _) fun nonzero => ?_
  split
  · exact stopsIn_bind (stopsIn_collect (stopsIn_huff corrupt _) 8) fun _ => stopsIn_pure _
  · refine stopsIn_ite (fun low => ?_) fun high => ?_
    · obtain ⟨one, thirtyTwo⟩ := blockSize_bounds (show 1 ≤ a by omega) low
      refine stopsIn_bind (stopsIn_getBits one thirtyTwo) fun _ => stopsIn_bind (stopsIn_getBits one thirtyTwo) fun _ => ?_
      exact stopsIn_bind (digits _ _) fun _ => stopsIn_bind (digits _ _) fun _ => stopsIn_pure _
    · exact stopsIn_bind (stopsIn_collect (stopsIn_getSignedBits (by omega) (by omega)) 8) fun _ => stopsIn_pure _

theorem stopsIn_ssBody (ssf : Nat) : StopsIn E (ssBodyOp ssf) := by
  refine stopsIn_bind stopsIn_get fun s => stopsIn_forEach (fun c => stopsIn_bind stopsIn_get fun s => ?_) _
  refine stopsIn_bind (stopsIn_forEach (fun sb => ?_) _) fun _ => stopsIn_forEach (fun sb => ?_) _
  · refine stopsIn_bind stopsIn_get fun s => stopsIn_bind (stopsIn_qx corrupt (BitVec.isLt _) _) fun q => ?_
    exact stopsIn_bind stopsIn_get fun s => stopsIn_bind (stopsIn_modify _) fun _ => stopsIn_when_last (stopsIn_modify _)
  · exact stopsIn_bind stopsIn_get fun s => stopsIn_modify _

/-- 43_subframe.md R135: the samples of a block. -/
theorem stopsIn_decodeSamples (ssf : Nat) : StopsIn E (decodeSamples ssf) :=
  stopsIn_bind stopsIn_get fun _ => stopsIn_when (stopsIn_raise (corrupt _)) <|
    stopsIn_when (stopsIn_sfHeader corrupt) (stopsIn_ssBody corrupt ssf)

end Readers

/-! ### BEGIN_FRAME -/

section Opening

variable {E : Stop → Prop} (malformed : ∀ l, E (.raise .malformedHeader l))

include malformed

omit malformed in
theorem stopsIn_getField {n w : Nat} (h1 : 1 ≤ n := by decide) (h2 : n ≤ 32 := by decide) : StopsIn E (getField n w) :=
  stopsIn_bind (stopsIn_getBits h1 h2) fun _ => stopsIn_pure _

omit malformed in
/-- One field of the fixed header read and stored (R114). -/
theorem stopsIn_field {n w : Nat} {g : BitVec w → StreamHeader → StreamHeader} {k : BitVec w → Op Unit}
    (hk : ∀ v, StopsIn E (k v)) (h1 : 1 ≤ n := by decide) (h2 : n ≤ 32 := by decide) :
    StopsIn E (do let v ← getField n w; setSh (g v); k v) :=
  stopsIn_bind (stopsIn_getField h1 h2) fun v => stopsIn_bind (stopsIn_modify _) fun _ => hk v

omit malformed in
theorem stopsIn_field_last {n w : Nat} {g : BitVec w → StreamHeader → StreamHeader} (h1 : 1 ≤ n := by decide)
    (h2 : n ≤ 32 := by decide) : StopsIn E (do let v ← getField n w; setSh (g v)) :=
  stopsIn_bind (stopsIn_getField h1 h2) fun _ => stopsIn_modify _

theorem stopsIn_fdHeaderChecked : StopsIn E fdHeaderChecked := by
  unfold fdHeaderChecked
  refine stopsIn_bind stopsIn_skipBits fun _ => stopsIn_field fun _ => stopsIn_field fun _ => stopsIn_field fun _ => ?_
  refine stopsIn_bind stopsIn_getBits fun v => stopsIn_bind (stopsIn_modify _) fun _ => ?_
  refine stopsIn_when (stopsIn_raise (malformed _)) (stopsIn_bind stopsIn_getBits fun v => ?_)
  refine stopsIn_bind (stopsIn_modify _) fun _ => stopsIn_when (stopsIn_raise (malformed _)) ?_
  refine stopsIn_field fun _ => stopsIn_field fun _ => stopsIn_bind stopsIn_get fun s => ?_
  exact stopsIn_when (stopsIn_raise (malformed _)) (stopsIn_field fun _ => stopsIn_when_last (stopsIn_raise (malformed _)))

theorem stopsIn_fdHeaderFlags : StopsIn E fdHeaderFlags := by
  unfold fdHeaderFlags
  iterate 9 refine stopsIn_field fun _ => ?_
  exact stopsIn_when (stopsIn_raise (malformed _)) stopsIn_field_last

omit malformed in
theorem stopsIn_fdHeaderTail : StopsIn E fdHeaderTail := by
  refine stopsIn_bind stopsIn_get fun s => stopsIn_ite (fun _ => stopsIn_field fun _ => ?_) fun _ => ?_
  all_goals
    iterate 6 refine stopsIn_field fun _ => ?_
    exact stopsIn_field_last

theorem stopsIn_fdHeader : StopsIn E fdHeaderOp :=
  stopsIn_bind (stopsIn_fdHeaderChecked malformed) fun _ => stopsIn_bind (stopsIn_fdHeaderFlags malformed) fun _ =>
    stopsIn_fdHeaderTail

omit malformed in
theorem stopsIn_primhdrSelectors (cs : List Nat) : StopsIn E (primhdrSelectors cs) := by
  have sel : ∀ n, 1 ≤ n ∧ n ≤ 32 → ∀ a c, StopsIn E (selField n a c) := fun n width a c =>
    stopsIn_bind (stopsIn_getField width.1 width.2) fun _ => stopsIn_modify _
  have first : ∀ c, StopsIn E (do selZero 0 c; selField 1 1 c) := fun c =>
    stopsIn_bind (stopsIn_modify _) fun _ => sel 1 (by decide) 1 c
  refine stopsIn_bind (stopsIn_forEach first cs) fun _ => ?_
  refine stopsIn_bind (stopsIn_forEach (fun a => stopsIn_forEach (sel 2 (by decide) a) cs) _) fun _ => ?_
  refine stopsIn_bind (stopsIn_forEach (fun a => stopsIn_forEach (sel 3 (by decide) a) cs) _) fun _ => ?_
  exact stopsIn_forEach (fun a => stopsIn_forEach (fun c => stopsIn_modify _) cs) _

omit malformed in
theorem stopsIn_primhdrAdjust (cs : List Nat) : StopsIn E (primhdrAdjust cs) := by
  have adj : ∀ bound a c, StopsIn E (adjField bound a c) := fun bound a c =>
    stopsIn_bind stopsIn_get fun _ => stopsIn_when_last (stopsIn_store _)
  refine stopsIn_bind stopsIn_get fun s => ?_
  refine stopsIn_bind (stopsIn_forEach (fun a => stopsIn_forEach (fun c => stopsIn_modify _) cs) _) fun _ => ?_
  refine stopsIn_bind (stopsIn_forEach (adj 1 1) cs) fun _ => ?_
  exact stopsIn_bind (stopsIn_forEach (fun a => stopsIn_forEach (adj 3 a) cs) _) fun _ =>
    stopsIn_forEach (fun a => stopsIn_forEach (adj 7 a) cs) _

variable (corrupt : ∀ l, E (.raise .corruptStream l))

include corrupt

theorem stopsIn_primhdrCounts : StopsIn E primhdrCounts := by
  have field : ∀ n, 1 ≤ n ∧ n ≤ 32 → ∀ (g : BitVec n → ChannelFrame → ChannelFrame) (c : Nat),
      StopsIn E (do let v ← getField n n; setChF c (g v)) := fun n width _ _ =>
    stopsIn_bind (stopsIn_getField width.1 width.2) fun _ => stopsIn_modify _
  unfold primhdrCounts
  refine stopsIn_bind stopsIn_getBits fun _ => stopsIn_bind (stopsIn_modify _) fun _ => ?_
  refine stopsIn_bind stopsIn_getBits fun _ => stopsIn_bind (stopsIn_modify _) fun _ => stopsIn_bind stopsIn_get fun s => ?_
  refine stopsIn_bind (stopsIn_forEach (fun c => stopsIn_store _) _) fun _ => ?_
  refine stopsIn_bind (stopsIn_forEach (fun c => ?_) _) fun _ => ?_
  · refine stopsIn_bind stopsIn_getBits fun _ => stopsIn_bind (stopsIn_modify _) fun _ => stopsIn_bind stopsIn_get fun s => ?_
    exact stopsIn_when_last (stopsIn_raise (corrupt _))
  refine stopsIn_bind (stopsIn_forEach (field 3 (by decide) _) _) fun _ => ?_
  refine stopsIn_bind (stopsIn_forEach (field 2 (by decide) _) _) fun _ => ?_
  refine stopsIn_bind (stopsIn_forEach (field 3 (by decide) _) _) fun _ => stopsIn_forEach (fun c => ?_) _
  refine stopsIn_bind stopsIn_getField fun _ => stopsIn_bind (stopsIn_modify _) fun _ => ?_
  exact stopsIn_when_last (stopsIn_raise (malformed _))

theorem stopsIn_fdPrimhdr : StopsIn E fdPrimhdrOp :=
  stopsIn_bind (stopsIn_primhdrCounts malformed corrupt) fun _ => stopsIn_bind stopsIn_get fun _ =>
    stopsIn_bind (stopsIn_primhdrSelectors _) fun _ => stopsIn_bind (stopsIn_primhdrAdjust _) fun _ =>
      stopsIn_when_last stopsIn_skipBits

end Opening

/-- A stop that does not leave the code at OK. -/
def NotOk (e : Stop) : Prop := ∀ l, e ≠ .raise .ok l

theorem notOk_raise {c : Code} (h : c ≠ .ok) (l : Label) : NotOk (.raise c l) := fun _ same => by
  cases same
  exact h rfl

theorem notOk_refuse (r : Refusal) : NotOk (.refuse r) := fun _ same => by cases same

theorem beginFrame_stopsIn_notOk : StopsIn NotOk beginFrameOp := by
  have malformed := notOk_raise (c := .malformedHeader) (by decide)
  have corrupt := notOk_raise (c := .corruptStream) (by decide)
  have tail : StopsIn NotOk (do fdHeaderOp; selectOutput; drcHookOp; fdPrimhdrOp; startFrame) := by
    refine stopsIn_bind (stopsIn_fdHeader malformed) fun _ => stopsIn_bind ?_ fun _ => stopsIn_bind ?_ fun _ =>
      stopsIn_bind (stopsIn_fdPrimhdr malformed corrupt) fun _ => ?_
    · refine stopsIn_bind stopsIn_get fun s => stopsIn_bind (stopsIn_bind stopsIn_get fun s => ?_) fun _ =>
        stopsIn_bind (stopsIn_modify _) fun _ => stopsIn_modify _
      split
      · exact stopsIn_pure _
      · exact stopsIn_raise (notOk_raise (by decide) _)
    · exact stopsIn_bind stopsIn_get fun _ => stopsIn_when_last (stopsIn_refuse (notOk_refuse _))
    · have start : ∀ g q, StopsIn NotOk (do setFr g; setSeq q) := fun g q =>
        stopsIn_bind (stopsIn_modify _) fun _ => stopsIn_modify _
      refine stopsIn_bind stopsIn_get fun s => ?_
      dsimp only
      split
      · exact stopsIn_bind (stopsIn_raise (malformed _)) fun _ => start _ _
      · exact stopsIn_when (stopsIn_raise (malformed _)) (start _ _)
  refine stopsIn_bind (stopsIn_modify _) fun _ => stopsIn_bind stopsIn_get fun s => ?_
  dsimp only
  split
  · exact stopsIn_bind (stopsIn_raise (notOk_raise (by decide) _)) fun _ => tail
  · refine stopsIn_bind (stopsIn_bind ?_ fun _ => stopsIn_modify _) fun _ => tail
    exact stopsIn_ite (fun _ => stopsIn_pure ()) fun _ => stopsIn_refuse (notOk_refuse _)

end Sys2Proof.Proofs
end

section
/-! PROOFS. BEGIN_FRAME (42_framedecoder.md R113) on a frame that opens: FD.HEADER, DMX.SELECT and its write-back, DRC.HOOK,
FD.PRIMHDR and the start of the frame each come to their end. -/

namespace Sys2Proof.Proofs

open Sys2Proof.Machine Sys2Proof.Safety Sys2Proof.Laws

-- As in the tests: elaborating these declarations side by side needs more threads than the checker's memory limit allows.
set_option Elab.async false

/-! ### FD.HEADER -/

section FixedHeader

variable {s : State} {h : StreamHeader}

/-- The flags up to PREDHIST. -/
def flaggedHeader (b : Nat → Nat → Nat) (old : StreamHeader) : StreamHeader :=
  { old with
    downmix := BitVec.ofNat 1 (b 75 1), dynrange := BitVec.ofNat 1 (b 76 1), timestamp := BitVec.ofNat 1 (b 77 1)
    auxData := BitVec.ofNat 1 (b 78 1), hdcd := BitVec.ofNat 1 (b 79 1), extDescr := BitVec.ofNat 3 (b 80 3)
    extCoding := BitVec.ofNat 1 (b 83 1), aspf := BitVec.ofNat 1 (b 84 1), lfe := BitVec.ofNat 2 (b 85 2)
    predictorHistory := BitVec.ofNat 1 (b 87 1) }

/-- The fields from MULTIRATE on, the first of them at offset `x`. -/
def tailHeader (b : Nat → Nat → Nat) (x : Nat) (old : StreamHeader) : StreamHeader :=
  { old with
    multirateInter := BitVec.ofNat 1 (b x 1), version := BitVec.ofNat 4 (b (x + 1) 4)
    copyHistory := BitVec.ofNat 2 (b (x + 5) 2), sourcePcmRes := BitVec.ofNat 3 (b (x + 7) 3)
    frontSum := BitVec.ofNat 1 (b (x + 10) 1), surroundSum := BitVec.ofNat 1 (b (x + 11) 1)
    dialogNorm := BitVec.ofNat 4 (b (x + 12) 4) }

/-- R116: the flags, with an LFE field that is not 3. -/
theorem fdHeaderFlags_ok (lfe : peek s 85 2 ≠ 3) :
    fdHeaderFlags (fixedAt s h 75) = .ok () (fixedAt s (flaggedHeader (peek s) h) 88) := by
  have lfeOk : ¬ BitVec.ofNat 2 (peek s 85 2) = 3#2 := fun three => lfe ((ofNat_peek_eq_iff _).1 three)
  unfold fdHeaderFlags
  iterate 5 refine (storeField (getField_fixedAt 1 1)).trans ?_
  refine (storeField (getField_fixedAt 3 3)).trans ?_
  iterate 2 refine (storeField (getField_fixedAt 1 1)).trans ?_
  refine (storeField (getField_fixedAt 2 2)).trans ((check_passes lfeOk).trans ?_)
  refine (storeField_last (getField_fixedAt 1 1)).trans ?_
  simp only [withField, flaggedHeader, Nat.reduceAdd]

/-- R114: HCRC, where the header has it, and the tail. -/
theorem fdHeaderTail_ok : fdHeaderTail (fixedAt s h 88) = .ok () (if h.crcPresent = 1#1 then
      fixedAt s (tailHeader (peek s) 104 { h with headerCrc := BitVec.ofNat 16 (peek s 88 16) }) 120
    else fixedAt s (tailHeader (peek s) 88 h) 104) := by
  unfold fdHeaderTail
  refine op_get_run ?_
  have crc : (fixedAt s h 88).sh.crcPresent = h.crcPresent := rfl
  rw [crc]
  split_ifs
  refine (storeField (getField_fixedAt 16 16)).trans ?_
  all_goals
    refine (storeField (getField_fixedAt 1 1)).trans ?_
    refine (storeField (getField_fixedAt 4 4)).trans ?_
    refine (storeField (getField_fixedAt 2 2)).trans ?_
    refine (storeField (getField_fixedAt 3 3)).trans ?_
    iterate 2 refine (storeField (getField_fixedAt 1 1)).trans ?_
    refine (storeField_last (getField_fixedAt 4 4)).trans ?_
    simp only [withField, tailHeader, Nat.reduceAdd]

/-- R114, 30_encoding.md R67: FD.HEADER on a header that it accepts. -/
theorem fdHeaderOp_ok (inRange : HeaderInRange s.rom (peek s)) (lfe : peek s 85 2 ≠ 3) :
    fdHeaderOp s = .ok () (fixedAt s (Safety.headerAt (peek s) s.sh) (headerLength (peek s))) := by
  refine op_run (fdHeaderChecked_ok inRange) (op_run (fdHeaderFlags_ok lfe) (fdHeaderTail_ok.trans ?_))
  have bit : peek s 38 1 < 2 ^ 1 := peek_lt s 38 1
  have present : (flaggedHeader (peek s) (checkedHeader (peek s) s.sh)).crcPresent = 1#1 ↔ peek s 38 1 = 1 :=
    ofNat_peek_eq_iff 1#1
  rw [if_congr present rfl rfl]
  by_cases one : peek s 38 1 = 1
  · have next : 88 + 16 * peek s 38 1 = 104 := by omega
    have length : 104 + 16 * peek s 38 1 = 120 := by omega
    rw [if_pos one, headerLength, length]
    simp only [Safety.headerAt, next, if_pos one, tailHeader, flaggedHeader, checkedHeader]
  · have next : 88 + 16 * peek s 38 1 = 88 := by omega
    have length : 104 + 16 * peek s 38 1 = 104 := by omega
    rw [if_neg one, headerLength, length]
    simp only [Safety.headerAt, next, if_neg one, tailHeader, flaggedHeader, checkedHeader]

end FixedHeader

/-! ### FD.PRIMHDR -/

section PrimaryHeader

variable {s t : State} {h : StreamHeader} {n p w : Nat} {P : Nat → State → Prop}

/-- FD.PRIMHDR on its way: `p` bits behind the state `s` that it began in, and `SH` is `h`. -/
def Loading (s : State) (h : StreamHeader) (p : Nat) (t : State) : Prop := Behind s t p ∧ t.sh = h

/-- The first `n` channels have the activity counts of the header (30_encoding.md R77). -/
def ActivitiesLoaded (s : State) (n : Nat) (t : State) : Prop := ∀ d, d < n → actOf t d = phActivity (peek s) d

/-- A field of `w` bits read into a channel's register. -/
theorem Loading.field (load : Loading s h p t) (c : Nat) (g : Nat → ChannelFrame → ChannelFrame) (h1 : 1 ≤ w := by decide)
    (h2 : w ≤ 32 := by decide) : ∃ u, (do let v ← getBits w; setChF c (g v)) t = .ok () u
      ∧ (∀ k : Op Unit, (do let v ← getBits w; setChF c (g v); k) t = k u) ∧ Loading s h (p + w) u ∧ u.chF = vput t.chF c (g (peek s p w) (vget t.chF c)) := by
  obtain ⟨behind, sh⟩ := load
  exact ⟨_, op_run (behind.getBits h1 h2) rfl, fun k => op_run (behind.getBits h1 h2) (op_run rfl rfl), ⟨⟨behind.1, behind.2.1, rfl⟩, sh⟩, rfl⟩

/-- R118: one row of the header, a field of `w` bits for each of `n` channels. -/
theorem Loading.row {f : Nat → Op Unit} {Q : Nat → State → Prop} (load : Loading s h p t) (start : Q 0 t)
    (turn : ∀ c, c < n → ∀ t, Loading s h (p + w * c) t → Q c t →
      ∃ u, f c t = .ok () u ∧ Loading s h (p + w * c + w) u ∧ Q (c + 1) u) :
    ∃ u, forEach (List.range n) f t = .ok () u ∧ Loading s h (p + w * n) u ∧ Q n u :=
  forEach_range (inv := fun c t => Loading s h (p + w * c) t ∧ Q c t)
    (fun c hc t ⟨loading, q⟩ => by
      obtain ⟨u, run, next, q'⟩ := turn c hc t loading q
      rw [Nat.add_assoc] at next
      exact ⟨u, run, next, q'⟩) ⟨load, start⟩

/-- A row of fields that are stored and nothing else. -/
theorem Loading.plainRow (load : Loading s h p t) (g : BitVec w → ChannelFrame → ChannelFrame) (h1 : 1 ≤ w := by decide)
    (h2 : w ≤ 32 := by decide) :
    ∃ u, forEach (List.range n) (fun c => do let v ← getField w w; setChF c (g v)) t = .ok () u ∧ Loading s h (p + w * n) u := by
  obtain ⟨u, run, loaded, -⟩ := load.row (n := n) (w := w) (f := fun c => do let v ← getField w w; setChF c (g v))
    (Q := fun _ _ => True) trivial fun c _ t ⟨behind, sh⟩ _ =>
    ⟨{ t with bc := after s (p + w * c + w), chF := _ }, op_run (op_run (behind.getBits h1 h2) rfl) rfl,
      ⟨⟨behind.1, behind.2.1, rfl⟩, sh⟩, trivial⟩
  exact ⟨u, run, loaded⟩

theorem toNat_ofNat_of_lt {v : Nat} (fits : v < 2 ^ w) : (BitVec.ofNat w v).toNat = v :=
  (BitVec.toNat_ofNat v w).trans (Nat.mod_eq_of_lt fits)

/-- R118, R119: the row of the subband activities. -/
theorem activityRow (load : Loading s h 7 t) (few : n ≤ 8) :
    ∃ u, forEach (List.range n) (fun c => do
        let v ← getBits 5
        setChF c fun f => { f with subbandActivity := BitVec.ofNat 6 (min (v + 2) 32) }) t = .ok () u
      ∧ Loading s h (7 + 5 * n) u ∧ ActivitiesLoaded s n u := by
  refine load.row (Q := ActivitiesLoaded s) (fun d none => absurd none (Nat.not_lt_zero d)) fun c hc t loading before => ?_
  obtain ⟨u, run, -, next, chF⟩ :=
    loading.field (w := 5) c fun v (f : ChannelFrame) => { f with subbandActivity := BitVec.ofNat 6 (min (v + 2) 32) }
  refine ⟨u, run, next, fun d hd => ?_⟩
  rw [actOf, chF]
  obtain rfl | other := Nat.lt_succ_iff_lt_or_eq.1 hd |>.symm
  · rw [vget_vput_same _ _ (by omega)]
    exact toNat_ofNat_of_lt (Nat.lt_of_le_of_lt (Nat.min_le_right _ _) (by decide))
  · rw [vget_vput_ne _ _ (by omega)]
    exact before d other

/-- R118, R129: the row of the VQ starts, none of them past its channel's activity. -/
theorem vqStartRow (load : Loading s h (7 + 5 * n) t) (few : n ≤ 8) (activities : ActivitiesLoaded s n t)
    (count : phCount (peek s) = n) (starts : ∀ c, c < n → phVqStart (peek s) c ≤ phActivity (peek s) c) :
    ∃ u, forEach (List.range n) vqStartField t = .ok () u ∧ Loading s h (7 + 5 * n + 5 * n) u := by
  obtain ⟨u, run, loaded, -⟩ := load.row (n := n) (w := 5) (f := vqStartField) (Q := fun _ => ActivitiesLoaded s n) activities
    fun c hc t loading acts => by
      obtain ⟨u, -, run, next, chF⟩ :=
        loading.field (w := 5) c fun v (f : ChannelFrame) => { f with vqStartSubband := BitVec.ofNat 6 (min (v + 1) 32) }
      have acts' : ActivitiesLoaded s n u := fun d hd => by
        rw [← acts d hd, actOf, chF]
        exact congrArg BitVec.toNat (vget_update (V := ChannelFrame.subbandActivity)
          (g := fun f => { f with vqStartSubband := BitVec.ofNat 6 (min (peek s (7 + 5 * n + 5 * c) 5 + 1) 32) })
          (fun _ => rfl) t.chF c d)
      have start : vqOf u c = phVqStart (peek s) c := by
        rw [vqOf, chF, vget_vput_same _ _ (by omega), phVqStart, count]
        exact toNat_ofNat_of_lt (Nat.lt_of_le_of_lt (Nat.min_le_right _ _) (by decide))
      have inside : ¬ vqOf u c > actOf u c := by
        rw [start, acts' c hc]
        exact Nat.not_lt.2 (starts c hc)
      refine ⟨u, ?_, next, acts'⟩
      unfold vqStartField
      exact (run _).trans (op_get_run (check_passes_last inside))
  exact ⟨u, run, loaded⟩

/-- R118, R120: the row of the allocation selectors, none of them 7. -/
theorem bhuffRow (load : Loading s h (7 + 18 * n) t) (count : phCount (peek s) = n)
    (legal : ∀ c, c < n → phBhuff (peek s) c ≠ 7) :
    ∃ u, forEach (List.range n) bhuffField t = .ok () u ∧ Loading s h (7 + 18 * n + 3 * n) u := by
  obtain ⟨u, run, loaded, -⟩ := load.row (n := n) (w := 3) (f := bhuffField) (Q := fun _ _ => True) trivial fun c hc t loading _ => by
    have field : phBhuff (peek s) c = peek s (7 + 18 * n + 3 * c) 3 := by rw [phBhuff, count]
    have passes : ¬ BitVec.ofNat 3 (peek s (7 + 18 * n + 3 * c) 3) = 7#3 := fun seven =>
      legal c hc (field.trans ((ofNat_peek_eq_iff 7#3).1 seven))
    obtain ⟨behind, sh⟩ := loading
    exact ⟨{ t with bc := after s (7 + 18 * n + 3 * c + 3), chF := _ },
      op_run (op_run behind.getBits rfl) (op_run rfl (check_passes_last passes)),
      ⟨⟨behind.1, behind.2.1, rfl⟩, sh⟩, trivial⟩
  exact ⟨u, run, loaded⟩

/-- `SH` after the first two fields of the header (30_encoding.md R77). -/
def countedHeader (b : Nat → Nat → Nat) (old : StreamHeader) : StreamHeader :=
  { old with subframes := BitVec.ofNat 5 (b 0 4 + 1), totalChannels := BitVec.ofNat 4 (phCount b)
             primChannels := BitVec.ofNat 4 (min (phCount b) 8) }

/-- R118: the rows behind the channel count. -/
def primhdrRows (cs : List Nat) : Op Unit := do
  forEach cs fun c => do
    let v ← getBits 5
    setChF c fun f => { f with subbandActivity := BitVec.ofNat 6 (min (v + 2) 32) }
  forEach cs vqStartField
  forEach cs fun c => do
    let v ← getField 3 3
    setChF c fun f => { f with jointIntensity := v }
  forEach cs fun c => do
    let v ← getField 2 2
    setChF c fun f => { f with transientHuffman := v }
  forEach cs fun c => do
    let v ← getField 3 3
    setChF c fun f => { f with scalefactorHuffman := v }
  forEach cs bhuffField

/-- R118, R120, R129: the rows that are checked, of a header that is accepted. -/
theorem primhdrCounts_ok (accepted : PrimaryAccepted (peek s)) :
    ∃ t, primhdrCounts s = .ok () t ∧ t.sh = countedHeader (peek s) s.sh := by
  have few : phCount (peek s) ≤ 8 := by
    have small : peek s 4 3 < 2 ^ 3 := peek_lt s 4 3
    rw [phCount]
    omega
  have channels : (BitVec.ofNat 4 (min (phCount (peek s)) 8)).toNat = phCount (peek s) := by
    rw [toNat_ofNat_of_lt (by omega), Nat.min_eq_left few]
  generalize same : phCount (peek s) = n at few
  have start : Loading s (countedHeader (peek s) s.sh) 7 { s with bc := after s 7, sh := countedHeader (peek s) s.sh } :=
    ⟨⟨rfl, rfl, rfl⟩, rfl⟩
  obtain ⟨t1, run1, load1, acts⟩ := activityRow start few
  obtain ⟨t2, run2, load2⟩ := vqStartRow load1 few acts same fun c hc => (accepted c (same ▸ hc)).1
  obtain ⟨t3, run3, load3⟩ := load2.plainRow (n := n) (w := 3) fun v f => { f with jointIntensity := v }
  obtain ⟨t4, run4, load4⟩ := load3.plainRow (n := n) (w := 2) fun v f => { f with transientHuffman := v }
  obtain ⟨t5, run5, load5⟩ := load4.plainRow (n := n) (w := 3) fun v f => { f with scalefactorHuffman := v }
  have place : 7 + 5 * n + 5 * n + 3 * n + 2 * n + 3 * n = 7 + 18 * n := by omega
  rw [place] at load5
  obtain ⟨t6, run6, load6⟩ := bhuffRow load5 same fun c hc => (accepted c (same ▸ hc)).2
  have rows : primhdrRows (List.range n) { s with bc := after s 7, sh := countedHeader (peek s) s.sh } = .ok () t6 :=
    op_run run1 (op_run run2 (op_run run3 (op_run run4 (op_run run5 run6))))
  refine ⟨t6, ?_, load6.2⟩
  have first := (behind_zero s).getBits (n := 4)
  have behind : Behind s { s with bc := after s 4, sh := { s.sh with subframes := BitVec.ofNat 5 (peek s 0 4 + 1) } } 4 :=
    ⟨rfl, rfl, rfl⟩
  refine op_run first (op_run rfl (op_run (behind.getBits (n := 3)) (op_run rfl (op_get_run ?_))))
  exact (congrArg (fun k => primhdrRows (List.range k) _) (channels.trans same)).trans rows

/-- An operation that cannot stop runs to its end. -/
theorem runs_of_stopsIn_false {α : Type} {x : Op α} (h : StopsIn (fun _ => False) x) (s : State) : ∃ a t, x s = .ok a t := by
  cases run : x s with
  | ok a t => exact ⟨a, t, rfl⟩
  | error e t => exact (h s e t run).elim

/-- The stream header, of all registers. -/
def headerOf (s : State) : StreamHeader := s.sh

theorem keeps_header_primhdrSelectors (cs : List Nat) : Keeps headerOf (primhdrSelectors cs) := by
  have sel : ∀ n a c, Keeps headerOf (selField n a c) := fun n a c =>
    keeps_bind (keeps_getField (fun _ _ => rfl) n 3) fun _ => keeps_setChF (fun _ _ => rfl) c _
  have zero : ∀ a c, Keeps headerOf (selZero a c) := fun a c => keeps_setChF (fun _ _ => rfl) c _
  exact keeps_bind (keeps_forEach (fun c => keeps_bind (zero 0 c) fun _ => sel 1 1 c) cs) fun _ =>
    keeps_bind (keeps_forEach (fun a => keeps_forEach (sel 2 a) cs) _) fun _ =>
    keeps_bind (keeps_forEach (fun a => keeps_forEach (sel 3 a) cs) _) fun _ =>
    keeps_forEach (fun a => keeps_forEach (zero a) cs) _

theorem keeps_header_primhdrAdjust (cs : List Nat) : Keeps headerOf (primhdrAdjust cs) := by
  have adj : ∀ b a c, Keeps headerOf (adjField b a c) := fun b a c => keeps_bind (keeps_get _) fun s =>
    keeps_ite (keeps_bind (keeps_getBits (fun _ _ => rfl) 2) fun _ => keeps_setChF (fun _ _ => rfl) c _) (keeps_pure _ _)
  refine keeps_bind (keeps_get _) fun s => keeps_bind (keeps_forEach (fun a => keeps_forEach (fun c => ?_) cs) _) fun _ => ?_
  · exact keeps_setChF (fun _ _ => rfl) c _
  · exact keeps_bind (keeps_forEach (adj 1 1) cs) fun _ =>
      keeps_bind (keeps_forEach (fun a => keeps_forEach (adj 3 a) cs) _) fun _ =>
      keeps_forEach (fun a => keeps_forEach (adj 7 a) cs) _

/-- R118: what follows the checked rows cannot stop, and leaves `SH` alone. -/
theorem fdPrimhdrOp_ok (accepted : PrimaryAccepted (peek s)) :
    ∃ t, fdPrimhdrOp s = .ok () t ∧ t.sh = countedHeader (peek s) s.sh ∧ t.rom = s.rom := by
  obtain ⟨u, counts, sh⟩ := primhdrCounts_ok accepted
  have rest : StopsIn (fun _ => False) (do
      let s ← get
      let cs := List.range (primCount s)
      primhdrSelectors cs
      primhdrAdjust cs
      if s.sh.crcPresent = 1#1 then skipBits 16) :=
    stopsIn_bind stopsIn_get fun _ => stopsIn_bind (stopsIn_primhdrSelectors _) fun _ =>
      stopsIn_bind (stopsIn_primhdrAdjust _) fun _ => stopsIn_when_last stopsIn_skipBits
  have kept : Keeps headerOf (do
      let s ← get
      let cs := List.range (primCount s)
      primhdrSelectors cs
      primhdrAdjust cs
      if s.sh.crcPresent = 1#1 then skipBits 16) :=
    keeps_bind (keeps_get _) fun _ => keeps_bind (keeps_header_primhdrSelectors _) fun _ =>
      keeps_bind (keeps_header_primhdrAdjust _) fun _ => keeps_ite (keeps_skipBits (fun _ _ => rfl) 16) (keeps_pure _ _)
  obtain ⟨_, t, run⟩ := runs_of_stopsIn_false rest u
  have whole : fdPrimhdrOp s = .ok () t := op_run counts run
  have rom : Keeps State.rom fdPrimhdrOp := keeps_fdPrimhdr (fun _ _ => rfl) (fun _ _ => rfl) fun _ _ => rfl
  exact ⟨t, whole, (kept.ok run).trans sh, rom.ok whole⟩

end PrimaryHeader

/-! ### BEGIN_FRAME -/

section Opens

variable {s : State} {a out : Arrangement} {lvl : Num} {p : Packing}

/-- R117: the output arrangement of the frame, and its write-back. -/
theorem selectOutput_ok (chosen : dmxSelect s.rom s.sh.amode.toNat s.args.flags (numLoad s.rom.sampleKind s.args.level)
    s.rom.clev s.rom.slev = some (out, lvl)) : ∃ fr args, selectOutput s = .ok () { s with fr := fr, args := args } :=
  ⟨_, _, op_get_run (op_run (dmxSelectOp_some chosen) (op_run rfl rfl))⟩

/-- R121, R128: the start of a frame whose header has as many channels as its arrangement. -/
theorem startFrame_ok (arrangement : arrangementOf s.sh.amode.toNat = some a) (channels : primCount s = nchOf s.rom a) :
    ∃ t, startFrame s = .ok () t ∧ t.fr.blocksTotal = BitVec.ofNat 32 (s.sh.sampleBlocks.toNat / 8) := by
  have equal : ¬ primCount s ≠ nchOf s.rom a := not_not.2 channels
  unfold startFrame
  refine ⟨{ s with
    fr := { s.fr with blocksTotal := BitVec.ofNat 32 (s.sh.sampleBlocks.toNat / 8), blocksDone := 0#32 }
    seq := { frame := .active, currentSubframe := 0#5, currentSubsubframe := 0#3 } }, op_get_run ?_, rfl⟩
  rw [arrangement]
  exact (check_passes equal).trans rfl

/-- 30_encoding.md R77: the number of channels that FD.PRIMHDR counts. -/
theorem toNat_primChannels (b : Nat → Nat → Nat) (old : StreamHeader) (small : phCount b ≤ 8) :
    (countedHeader b old).primChannels.toNat = phCount b := by
  have fits : min (phCount b) 8 < 2 ^ 4 := by omega
  exact (toNat_ofNat_of_lt fits).trans (Nat.min_eq_left small)

/-- The bits of the primary header, behind the fixed one. -/
def behindHeader (s : State) (off n : Nat) : Nat := peek s (headerLength (peek s) + off) n

/-- R113: the operations of BEGIN_FRAME on a fresh cursor. -/
theorem openedFrame_ok (inRange : HeaderInRange s.rom (peek s)) (lfe : peek s 85 2 ≠ 3)
    (chosen : dmxSelect s.rom (peek s 60 6) s.args.flags (numLoad s.rom.sampleKind s.args.level) s.rom.clev s.rom.slev
      = some (out, lvl)) (idle : s.hook = 0#32 ∨ peek s 76 1 = 0) (accepted : PrimaryAccepted (behindHeader s))
    (arrangement : arrangementOf (peek s 60 6) = some a) (channels : phCount (behindHeader s) = nchOf s.rom a) :
    ∃ t, (do fdHeaderOp; selectOutput; drcHookOp; fdPrimhdrOp; startFrame) s = .ok () t
      ∧ t.fr.blocksTotal.toNat = (peek s 39 7 + 1) / 8 := by
  have amode : (BitVec.ofNat 6 (peek s 60 6)).toNat = peek s 60 6 := toNat_ofNat_peek s 60
  have dynrange : BitVec.ofNat 1 (peek s 76 1) = 0#1 ↔ peek s 76 1 = 0 := ofNat_peek_eq_iff 0#1
  have small : peek s 39 7 < 2 ^ 7 := peek_lt s 39 7
  have blocks : (BitVec.ofNat 8 (peek s 39 7 + 1)).toNat = peek s 39 7 + 1 := toNat_ofNat_of_lt (by omega)
  have few : phCount (behindHeader s) ≤ 8 := by
    have three : behindHeader s 4 3 < 2 ^ 3 := peek_lt s _ 3
    rw [phCount]
    omega
  obtain ⟨fr, args, select⟩ := selectOutput_ok (s := fixedAt s (Safety.headerAt (peek s) s.sh) (headerLength (peek s)))
    (out := out) (lvl := lvl) (Eq.trans (by rw [← amode]; rfl) chosen)
  generalize at3 : ({ fixedAt s (Safety.headerAt (peek s) s.sh) (headerLength (peek s)) with
    fr := fr, args := args } : State) = s3 at select
  have hook : s3.hook = s.hook := by subst at3; rfl
  have sh : s3.sh = Safety.headerAt (peek s) s.sh := by subst at3; rfl
  have rom : s3.rom = s.rom := by subst at3; rfl
  have bits : peek s3 = behindHeader s := by
    have behind : Behind s s3 (headerLength (peek s)) := by subst at3; exact ⟨rfl, rfl, rfl⟩
    funext off n
    exact behind.peek_eq off n
  rw [← bits] at accepted channels few
  have idle3 : s3.hook = 0#32 ∨ s3.sh.dynrange = 0#1 := by
    rw [hook, sh]
    exact idle.imp_right dynrange.2
  obtain ⟨s4, primary, sh4, rom4⟩ := fdPrimhdrOp_ok accepted
  rw [sh] at sh4
  have arrangement4 : arrangementOf s4.sh.amode.toNat = some a := by
    rw [sh4, ← arrangement, ← amode]
    rfl
  have channels4 : primCount s4 = nchOf s4.rom a := by
    rw [primCount, sh4, toNat_primChannels _ _ few, rom4, rom, channels]
  obtain ⟨t, start, total⟩ := startFrame_ok arrangement4 channels4
  refine ⟨t, op_run (fdHeaderOp_ok inRange lfe) (op_run select (op_run (drcHookOp_idle idle3) (op_run primary start))), ?_⟩
  have count : s4.sh.sampleBlocks.toNat = peek s 39 7 + 1 := by
    rw [sh4]
    exact blocks
  rw [total, count]
  exact toNat_ofNat_of_lt (by omega)

/-- R113: BEGIN_FRAME, behind its `require` lines, on a frame that opens. -/
theorem beginFrameOp_opens (opens : FrameOpens s p a out lvl) :
    ∃ t, beginFrameOp s = .ok () t ∧ t.fr.blocksTotal.toNat = (openBits s p 39 7 + 1) / 8 := by
  obtain ⟨-, -, found, admitted, inRange, lfe, chosen, idle, accepted, arrangement, channels⟩ := opens
  obtain ⟨t, run, total⟩ := openedFrame_ok (s := { s with
    seq := { s.seq with frame := .aborted }, bc := cursorInit s.args.bufAddr s.args.bufLen p })
    inRange lfe chosen idle accepted arrangement channels
  have init : brInitOp s.args.bufAddr s.args.bufLen p { s with seq := { s.seq with frame := .aborted } }
      = .ok () { s with seq := { s.seq with frame := .aborted }, bc := cursorInit s.args.bufAddr s.args.bufLen p } := by
    refine op_run (a := ()) (t := { s with seq := { s.seq with frame := .aborted } }) ?_ rfl
    rw [requireView, if_pos admitted]
    rfl
  refine ⟨t, op_run rfl (op_get_run ?_), total⟩
  dsimp only
  rw [found]
  exact op_run init run

end Opens

end Sys2Proof.Proofs
end

section
/-! PROOFS. The pseudo-command DECODE_FRAME (30_encoding.md R91): the blocks of its loop, and the BEGIN_FRAME before them
(O60). -/

namespace Sys2Proof.Proofs

open Sys2Proof.Machine Sys2Proof.Safety Sys2Proof.Laws

-- As in the tests: elaborating these declarations side by side needs more threads than the checker's memory limit allows.
set_option Elab.async false

/-! ### A block of an active frame -/

section Blocks

variable {s t u : State} {n k left : Nat} {done : List (List (Vector Word32 256))}

/-- A decoder that lives, with the host's memory and the parameters of `s`. -/
def LivesOn (s t : State) : Prop := t.life = .ready ∧ t.mem = s.mem ∧ t.rom = s.rom

theorem LivesOn.trans (first : LivesOn s t) (second : LivesOn t u) : LivesOn s u := by
  obtain ⟨_, mem, rom⟩ := first
  obtain ⟨ready, mem', rom'⟩ := second
  exact ⟨ready, mem'.trans mem, rom'.trans rom⟩

/-- What the reading of the samples leaves alone of the decoder's life and position. -/
def lifeAndPosition (s : State) := (s.life, s.seq)

theorem decodeSamples_keeps_life {ssf : Nat} : Keeps lifeAndPosition (decodeSamples ssf) :=
  keeps_decodeSamples (fun _ _ => rfl) (fun _ _ => rfl) (fun _ _ => rfl) (fun _ _ => rfl) (fun _ _ => rfl) (fun _ _ => rfl) ssf

/-- 43_subframe.md R135, 60_exceptions.md R277: a block on an active frame is one more block done, or it takes CorruptStream and
the frame is aborted. -/
theorem decodeBlockCmd_ends (ready : s.life = .ready) (active : s.seq.frame = .active) :
    ∃ t, decodeBlockCmd s = .next t ∧ LivesOn s t
      ∧ ((t.code = .ok ∧ t.seq.frame = .active ∧ t.fr = { s.fr with blocksDone := s.fr.blocksDone + 1#32 })
        ∨ (t.code = .corruptStream ∧ t.seq.frame = .aborted)) := by
  cases samples : decodeSamples s.seq.currentSubsubframe.toNat s with
  | ok _ u =>
    obtain ⟨ph, hist, stage, out, warn, bc, lfe, run⟩ := decodeBlockOp_after samples
    obtain ⟨life, seq⟩ := Prod.mk.inj (decodeSamples_keeps_life.ok samples)
    obtain ⟨-, fr, -, -, -, -, -, -, -, mem, rom, -⟩ := blockFrame_eq ((keeps_blockFrame _).ok samples)
    refine ⟨_, decodeBlockCmd_active ready active run, ⟨life.trans ready, mem, rom⟩, .inl ⟨rfl, ?_, ?_⟩⟩
    · exact (nextPosition_frame _ _).trans ((congrArg Sequencer.frame seq).trans active)
    · exact congrArg (fun f : FrameRegs => { f with blocksDone := f.blocksDone + 1#32 }) fr
  | error e u =>
    have run : decodeBlockOp s = .error e u := op_get_run (op_stop samples rfl)
    obtain ⟨l, rfl⟩ := stopsIn_decodeSamples (E := fun e => ∃ l, e = .raise .corruptStream l) (fun l => ⟨l, rfl⟩) _ _ _ _ samples
    obtain ⟨life, -⟩ := Prod.mk.inj (decodeSamples_keeps_life.error samples)
    obtain ⟨-, -, -, -, -, -, -, -, -, mem, rom, -⟩ := blockFrame_eq ((keeps_blockFrame _).error samples)
    refine ⟨forgetBlock (takeError .corruptStream u), ?_, ⟨life.trans ready, mem, rom⟩, .inr ⟨rfl, rfl⟩⟩
    unfold decodeBlockCmd
    rw [if_neg (not_uninit_of_ready ready), if_neg (not_not.2 active), run]

/-! ### The loop -/

/-- R91: an active frame of `n` blocks, `k` of them done, whose last command answered OK. -/
structure Running (n k : Nat) (s : State) : Prop where
  ready : s.life = .ready
  ok : s.code = .ok
  active : s.seq.frame = .active
  total : s.fr.blocksTotal.toNat = n
  done : s.fr.blocksDone.toNat = k

theorem Running.blocksLeft (h : Running n k s) : Machine.blocksLeft s = n - k := by
  rw [Machine.blocksLeft, if_pos h.active, h.total, h.done]

/-- BLOCKS_REMAINING answers OK and moves nothing of the frame. -/
theorem Running.blocksRemaining (h : Running n k s) : Running n k (blocksRemainingCmd s) ∧ LivesOn s (blocksRemainingCmd s) := by
  rw [blocksRemainingCmd_ready h.ready]
  exact ⟨⟨h.ready, rfl, h.active, h.total, h.done⟩, h.ready, rfl, rfl⟩

theorem Running.count (h : Running n k s) (more : k < n) : (blocksRemainingCmd s).res.blocks ≠ 0#32 := by
  have fits : n < 2 ^ 32 := h.total ▸ s.fr.blocksTotal.isLt
  rw [blocksRemainingCmd_ready h.ready, h.blocksLeft]
  intro zero
  have none := congrArg BitVec.toNat zero
  rw [toNat_ofNat_of_lt (by omega)] at none
  exact Nat.sub_ne_zero_of_lt more none

/-- A block on the frame after BLOCKS_REMAINING. -/
theorem Running.block (h : Running n k s) (more : k < n) : ∃ u, decodeBlockCmd (blocksRemainingCmd s) = .next u ∧ LivesOn s u
    ∧ (Running n (k + 1) u ∨ (u.code = .corruptStream ∧ u.seq.frame = .aborted)) := by
  obtain ⟨counted, lives⟩ := h.blocksRemaining
  obtain ⟨u, run, onward, ends⟩ := decodeBlockCmd_ends counted.ready counted.active
  refine ⟨u, run, lives.trans onward, ends.imp_left fun ⟨ok, active, fr⟩ => ⟨onward.1, ok, active, ?_, ?_⟩⟩
  · rw [fr]
    exact counted.total
  · have fits : n < 2 ^ 32 := h.total ▸ s.fr.blocksTotal.isLt
    have one : (1#32).toNat = 1 := rfl
    rw [fr]
    refine (BitVec.toNat_add _ _).trans ?_
    rw [counted.done, one, Nat.mod_eq_of_lt (by omega)]

theorem decodeFrameLoop_block (h : Running n k s) (more : k < n) (run : decodeBlockCmd (blocksRemainingCmd s) = .next u) :
    decodeFrameLoop (left + 1) done s = decodeFrameLoop left (if u.code = .ok then done ++ [validSlots u] else done) u := by
  rw [decodeFrameLoop, if_pos ⟨h.count more, h.ok⟩, run]

/-- The end of the loop: no block is left, or the last command failed. -/
theorem decodeFrameLoop_end (last : left = 0 ∨ s.code ≠ .ok) :
    decodeFrameLoop left done s = .next { blocksRemainingCmd s with unit := .pcm done } := by
  cases left with
  | zero => rfl
  | succ left =>
    have failed : s.code ≠ .ok := last.resolve_left (Nat.succ_ne_zero left)
    rw [decodeFrameLoop, if_neg fun both => failed both.2]

/-- R91: from an active frame on, the loop ends with all blocks or at the one that fails. -/
theorem decodeFrameLoop_completes : ∀ (left k : Nat) (s : State) (done : List (List (Vector Word32 256))), Running n k s →
    k + left = n → done.length = k → ∃ t blocks, decodeFrameLoop left done s = .next t ∧ t.unit = .pcm blocks ∧ t.code = .ok
      ∧ LivesOn s t ∧ ((blocks.length = n ∧ t.seq.frame = .active) ∨ (blocks.length < n ∧ t.seq.frame = .aborted)) := by
  intro left
  induction left with
  | zero =>
    intro k s done h all length
    obtain ⟨counted, lives⟩ := h.blocksRemaining
    exact ⟨_, done, decodeFrameLoop_end (.inl rfl), rfl, counted.ok, lives, .inl ⟨length.trans all, counted.active⟩⟩
  | succ left ih =>
    intro k s done h all length
    obtain ⟨u, run, lives, next | ⟨corrupt, aborted⟩⟩ := h.block (by omega)
    · have more : (done ++ [validSlots u]).length = k + 1 := by rw [List.length_append, length]; rfl
      obtain ⟨t, blocks, loop, unit, ok, onward, ends⟩ := ih (k + 1) u _ next (by omega) more
      refine ⟨t, blocks, ?_, unit, ok, lives.trans onward, ends⟩
      rw [decodeFrameLoop_block h (by omega) run, if_pos next.ok, loop]
    · have failed : u.code ≠ .ok := by rw [corrupt]; decide
      have counted := blocksRemainingCmd_ready lives.1
      refine ⟨{ blocksRemainingCmd u with unit := .pcm done }, done, ?_, rfl, ?_, ?_, .inr ⟨by omega, ?_⟩⟩
      · rw [decodeFrameLoop_block h (by omega) run, if_neg failed, decodeFrameLoop_end (.inr failed)]
      all_goals rw [counted]
      · exact lives
      · exact aborted

/-- R91: when every block answers OK the loop hands over each. -/
theorem decodeFrameLoop_script {us : Nat → State}
    (run : ∀ k, k < n → decodeBlockCmd (blocksRemainingCmd (us k)) = .next (us (k + 1)) ∧ (us (k + 1)).code = .ok) :
    ∀ left k, Running n k (us k) → k + left = n → decodeFrameLoop left ((List.range k).map fun j => validSlots (us (j + 1))) (us k)
      = .next { blocksRemainingCmd (us n) with unit := .pcm ((List.range n).map fun j => validSlots (us (j + 1))) } := by
  intro left
  induction left with
  | zero =>
    rintro k - rfl
    exact decodeFrameLoop_end (.inl rfl)
  | succ left ih =>
    intro k h all
    obtain ⟨step, ok⟩ := run k (by omega)
    obtain ⟨u, same, -, ends⟩ := h.block (by omega)
    obtain rfl : us (k + 1) = u := Host.Outcome.next.inj (step.symm.trans same)
    have next : Running n (k + 1) (us (k + 1)) := ends.resolve_right fun ⟨corrupt, _⟩ => by cases ok.symm.trans corrupt
    rw [decodeFrameLoop_block h (by omega) step, if_pos ok, ← ih (k + 1) next (by omega), List.range_succ, List.map_append]
    rfl

end Blocks

/-! ### BEGIN_FRAME that answers OK -/

section Begin

variable {s t : State}

/-- 42_framedecoder.md R113: a BEGIN_FRAME that answers OK has come to the end of its operation. -/
theorem beginFrameCmd_ok (ready : s.life = .ready) (h : beginFrameCmd s = .next t) (ok : t.code = .ok) :
    ∃ u, beginFrameOp s = .ok () u ∧ t = setCode .ok u := by
  unfold beginFrameCmd at h
  split_ifs at h
  · exact absurd ‹_› (not_uninit_of_ready ready)
  · cases h
    cases ok
  · split at h
    · next u run =>
      cases h
      exact ⟨u, run, rfl⟩
    · next c l u run =>
      cases h
      exact absurd (congrArg (Stop.raise · l) ok) (beginFrame_stopsIn_notOk _ _ _ run l)
    · cases h

/-- R113: no block is done. -/
theorem startFrame_none_done : Ends (fun _ => True) startFrame fun _ t => t.fr.blocksDone = 0#32 := by
  unfold startFrame
  have start : ∀ (s : State) (n : Word32), Ends (fun t => t = s) (do
      setFr fun f => { f with blocksTotal := n, blocksDone := 0#32 }
      setSeq fun _ => { frame := .active, currentSubframe := 0#5, currentSubsubframe := 0#3 })
      fun _ t => t.fr.blocksDone = 0#32 := fun _ _ =>
    ends_bind (Q := fun _ t => t.fr.blocksDone = 0#32) (ends_modify fun _ _ => rfl) fun _ => ends_modify fun _ none => none
  refine ends_get fun s _ => ?_
  dsimp only
  split
  · exact ends_bind (Q := fun _ _ => False) (ends_raise _ _) fun _ _ no => no.elim
  · exact ends_check fun _ => start _ _

theorem beginFrame_none_done : Ends (fun _ => True) beginFrameOp fun _ t => t.fr.blocksDone = 0#32 := by
  have tail : Ends (fun _ => True) (do fdHeaderOp; selectOutput; drcHookOp; fdPrimhdrOp; startFrame)
      fun _ t => t.fr.blocksDone = 0#32 :=
    ends_past keeps_true fun _ => ends_past keeps_true fun _ => ends_past keeps_true fun _ => ends_past keeps_true fun _ =>
      startFrame_none_done
  unfold beginFrameOp
  refine ends_past keeps_true fun _ => ends_past keeps_true fun s => ?_
  dsimp only
  split
  · exact ends_past keeps_true fun _ => tail
  · exact ends_past keeps_true fun _ => tail

/-- What BEGIN_FRAME leaves alone of the machine. -/
def machineFrame (s : State) := (s.life, s.mem, s.rom)

/-- R113: after a BEGIN_FRAME that answers OK the frame runs. -/
theorem running_of_beginFrame {n : Nat} {u : State} (ready : s.life = .ready) (run : beginFrameOp s = .ok () u)
    (total : u.fr.blocksTotal.toNat = n) : Running n 0 (setCode .ok u) ∧ LivesOn s (setCode .ok u) := by
  have kept : Keeps machineFrame beginFrameOp :=
    keeps_beginFrame (fun _ _ => rfl) (fun _ _ => rfl) (fun _ _ => rfl) (fun _ _ => rfl) (fun _ _ => rfl) (fun _ _ => rfl)
  obtain ⟨life, both⟩ := Prod.mk.inj (kept.ok run)
  obtain ⟨mem, rom⟩ := Prod.mk.inj both
  have start : AtStart u := (beginFrame_accepts s trivial () u run).2
  have none : u.fr.blocksDone = 0#32 := beginFrame_none_done s trivial () u run
  exact ⟨⟨life.trans ready, rfl, congrArg Sequencer.frame start, total, congrArg BitVec.toNat none⟩, life.trans ready, mem, rom⟩

end Begin

theorem exec_decodeFrame (buf len flags level bias : Word32) (s : State) :
    exec (.decodeFrame buf len flags level bias) s = execDecodeFrame buf len flags level bias s := rfl

/-- R91: DECODE_FRAME behind its BEGIN_FRAME. -/
theorem execDecodeFrame_begun {buf len flags level bias : Word32} {s t : State} {n : Nat}
    (run : beginFrameCmd (frameArgs buf len flags level bias s) = .next t) (running : Running n 0 t) :
    execDecodeFrame buf len flags level bias s = decodeFrameLoop n [] t := by
  rw [execDecodeFrame, run, ← Nat.sub_zero n, ← running.blocksLeft]

/-- R113: BEGIN_FRAME on a frame that opens. -/
theorem beginFrameCmd_opens {s : State} {p : Packing} {a out : Arrangement} {lvl : Num} (ready : s.life = .ready)
    (opens : FrameOpens s p a out lvl) :
    ∃ t, beginFrameCmd s = .next t ∧ Running ((openBits s p 39 7 + 1) / 8) 0 t ∧ LivesOn s t := by
  obtain ⟨u, run, total⟩ := beginFrameOp_opens opens
  have view : badView s = false := (badView_eq_false_iff s).2 ⟨opens.1, opens.2.1⟩
  refine ⟨setCode .ok u, ?_, running_of_beginFrame ready run total⟩
  unfold beginFrameCmd
  rw [if_neg (not_uninit_of_ready ready), view, if_neg Bool.false_ne_true, run]

/-- Settles O60: BEGIN_FRAME completes and leaves a running frame; then the loop, on any blocks and on blocks that answer OK. -/
theorem decodeFrameIsItsScript : Obligations.DecodeFrameIsItsScript := by
  intro s buf len flags level bias ready r
  constructor
  · intro p a out lvl opens
    obtain ⟨t, begun, running, lives⟩ := beginFrameCmd_opens (s := r) ready opens
    obtain ⟨u, blocks, loop, unit, ok, onward, ends⟩ :=
      decodeFrameLoop_completes _ 0 t [] running (Nat.zero_add _) rfl
    obtain ⟨alive, mem, rom⟩ := lives.trans onward
    exact ⟨u, blocks, (execDecodeFrame_begun begun running).trans loop, unit, ok, alive, mem, rom, ends⟩
  · intro us vs n begun ok total counted block
    have lines : ∀ k, k ≤ n → blocksRemainingCmd (us k) = vs k := fun k hk => Host.Outcome.next.inj (counted k hk)
    obtain ⟨u, run, begins⟩ := beginFrameCmd_ok (s := r) ready begun ok
    have running : Running n 0 (us 0) := by
      rw [begins] at total ⊢
      exact (running_of_beginFrame (s := r) ready run total).1
    have blocks : ∀ k, k < n → decodeBlockCmd (blocksRemainingCmd (us k)) = .next (us (k + 1)) ∧ (us (k + 1)).code = .ok := by
      intro k hk
      rw [lines k (Nat.le_of_lt hk)]
      exact block k hk
    have loop := decodeFrameLoop_script blocks n 0 running (Nat.zero_add n)
    rw [lines n (Nat.le_refl n)] at loop
    exact (execDecodeFrame_begun begun running).trans loop

end Sys2Proof.Proofs
end

section
/-! PROOFS. What BEGIN_FRAME (42_framedecoder.md R113) leaves alone, however it ends (O34), and FD.HEADER on a header that it
accepts (O28). -/

namespace Sys2Proof.Proofs

open Sys2Proof.Machine Sys2Proof.Safety Sys2Proof.Laws

-- As in the tests: elaborating these declarations side by side needs more threads than the checker's memory limit allows.
set_option Elab.async false

/-! ### O28: FD.HEADER on a header in range -/

/-- Settles O28: the operation comes to its end in the state of `fdHeaderOp_ok`. -/
theorem fdHeaderStoresFields : Obligations.FdHeaderStoresFields := fun s inRange lfe =>
  (exec_fdHeader s).trans (answer_ok (fdHeaderOp_ok inRange lfe))

/-! ### What BEGIN_FRAME leaves alone -/

/-- All of the state but what BEGIN_FRAME writes: the parse state, the frame registers, the sequencer position, `ARG_FLAGS`,
`ARG_LEVEL` and the code (42_framedecoder.md R113, R117), and the count of free values. -/
def withoutFrame (s : State) : State :=
  { s with bc := zeroCursor, sh := zeroHeader, chF := vtab 8 fun _ => zeroChannelFrame, fr := zeroFrame
           seq := { frame := .noframe, currentSubframe := 0#5, currentSubsubframe := 0#3 }
           args := { s.args with flags := 0#32, level := 0#32 }, code := .ok, free := 0 }

/-- R117: the write-back reaches no other argument register. -/
theorem keeps_selectOutput : Keeps withoutFrame selectOutput := by
  refine keeps_bind (keeps_get _) fun s => keeps_bind (keeps_bind (keeps_get _) fun s => ?_) fun x =>
    keeps_bind (keeps_setFr (fun _ _ => rfl) _) fun _ => keeps_modify fun _ => rfl
  split
  · exact keeps_pure _ _
  · exact keeps_raise _ _ _

/-- R128. -/
theorem keeps_startFrame : Keeps withoutFrame startFrame := by
  have start : ∀ g q, Keeps withoutFrame (do setFr g; setSeq q) := fun g q =>
    keeps_bind (keeps_setFr (fun _ _ => rfl) g) fun _ => keeps_setSeq (fun _ _ => rfl) q
  refine keeps_bind (keeps_get _) fun s => ?_
  dsimp only
  split
  · exact keeps_bind (keeps_raise _ _ _) fun _ => start _ _
  · exact keeps_ite (keeps_bind (keeps_raise _ _ _) fun _ => start _ _) (start _ _)

/-- R113: the operations of BEGIN_FRAME behind the placing of its cursor. -/
def openedOp : Op Unit := do
  fdHeaderOp
  selectOutput
  drcHookOp
  fdPrimhdrOp
  startFrame

/-- R125: DRC.HOOK writes nothing. -/
theorem keeps_drcHook {β : Type} (π : State → β) : Keeps π drcHookOp :=
  keeps_bind (keeps_get π) fun _ => keeps_ite (keeps_refuse π _) (keeps_pure π ())

theorem keeps_openedOp : Keeps withoutFrame openedOp :=
  keeps_bind (keeps_fdHeader (fun _ _ => rfl) fun _ _ => rfl) fun _ => keeps_bind keeps_selectOutput fun _ =>
    keeps_bind (keeps_drcHook _) fun _ =>
      keeps_bind (keeps_fdPrimhdr (fun _ _ => rfl) (fun _ _ => rfl) fun _ _ => rfl) fun _ => keeps_startFrame

theorem keeps_brInit (base len : Word32) (p : Packing) : Keeps withoutFrame (brInitOp base len p) :=
  keeps_bind (keeps_ite (keeps_pure _ _) (keeps_refuse _ _)) fun _ => keeps_modify fun _ => rfl

theorem keeps_beginFrameOp : Keeps withoutFrame beginFrameOp := by
  refine keeps_bind (keeps_setSeq (fun _ _ => rfl) _) fun _ => keeps_bind (keeps_get _) fun s => ?_
  dsimp only
  split
  · exact keeps_bind (keeps_raise _ _ _) fun _ => keeps_openedOp
  · exact keeps_bind (keeps_brInit _ _ _) fun _ => keeps_openedOp

/-- A state that agrees with `s` outside what BEGIN_FRAME writes is `s` but for that. -/
theorem eq_of_withoutFrame {s t : State} (kept : withoutFrame t = withoutFrame s) :
    t = { s with bc := t.bc, sh := t.sh, chF := t.chF, fr := t.fr, seq := t.seq
                 args := { s.args with flags := t.args.flags, level := t.args.level }, code := t.code, free := t.free } :=
  congrArg (fun x : State => { x with
    bc := t.bc, sh := t.sh, chF := t.chF, fr := t.fr, seq := t.seq
    args := { x.args with flags := t.args.flags, level := t.args.level }, code := t.code, free := t.free }) kept

/-- R113, R126: BEGIN_FRAME writes nothing else, whether it succeeds or fails. -/
theorem beginFrameCmd_frame {s t : State} (h : beginFrameCmd s = .next t) : withoutFrame t = withoutFrame s := by
  obtain ⟨c, rfl⟩ | ⟨u, run, rfl⟩ | ⟨c, l, u, run, rfl⟩ := beginFrameCmd_cases h
  · rfl
  · have kept : withoutFrame u = withoutFrame s := keeps_beginFrameOp.ok run
    exact kept
  · have kept : withoutFrame u = withoutFrame s := keeps_beginFrameOp.error run
    exact kept

/-- Settles O34: the frame of the command. -/
theorem beginFrameKeepsHistories : Obligations.BeginFrameKeepsHistories := by
  intro s t h
  rw [eq_of_withoutFrame (beginFrameCmd_frame h)]
  exact ⟨rfl, rfl, rfl, rfl, rfl, rfl, rfl, rfl, rfl, rfl, rfl, rfl⟩

end Sys2Proof.Proofs
end

section
/-! PROOFS. FD.PRIMHDR (42_framedecoder.md R118), field by field: each row of the primary header changes the frame halves of its
channels and nothing else, the adjustments follow in the order of 30_encoding.md R79, and the first field that breaks a rule
raises (O30). -/

namespace Sys2Proof.Proofs

open Sys2Proof.Machine Sys2Proof.Safety Sys2Proof.Laws

-- As in the tests: elaborating these declarations side by side needs more threads than the checker's memory limit allows.
set_option Elab.async false

/-! ### The frame halves of the first channels -/

section Channels

variable {v : Vector ChannelFrame 8} {c n : Nat} {G G' : Nat → ChannelFrame → ChannelFrame}

/-- The frame halves of the first `n` channels changed, each by its `G c`. -/
def mapChannels (n : Nat) (G : Nat → ChannelFrame → ChannelFrame) (v : Vector ChannelFrame 8) : Vector ChannelFrame 8 :=
  vtab 8 fun c => if c < n then G c (vget v c) else vget v c

theorem vget_mapChannels_below (inside : c < n) (hc : c < 8) : vget (mapChannels n G v) c = G c (vget v c) :=
  (vget_vtab _ hc).trans (if_pos inside)

theorem vget_mapChannels_from (past : n ≤ c) (hc : c < 8) : vget (mapChannels n G v) c = vget v c :=
  (vget_vtab _ hc).trans (if_neg (Nat.not_lt.2 past))

theorem mapChannels_zero : mapChannels 0 G v = v := vector_ext fun _ hc => vget_mapChannels_from (Nat.zero_le _) hc

theorem vput_mapChannels (few : n < 8) : vput (mapChannels n G v) n (G n (vget v n)) = mapChannels (n + 1) G v := by
  refine vector_ext fun c hc => ?_
  obtain below | rfl | past := Nat.lt_trichotomy c n
  · rw [vget_vput_ne _ _ (by omega), vget_mapChannels_below below hc, vget_mapChannels_below (by omega) hc]
  · rw [vget_vput_same _ _ hc, vget_mapChannels_below (by omega) hc]
  · rw [vget_vput_ne _ _ (by omega), vget_mapChannels_from (by omega) hc, vget_mapChannels_from (by omega) hc]

theorem mapChannels_mapChannels : mapChannels n G' (mapChannels n G v) = mapChannels n (fun c f => G' c (G c f)) v := by
  refine vector_ext fun c hc => ?_
  obtain below | past := Nat.lt_or_ge c n
  · rw [vget_mapChannels_below below hc, vget_mapChannels_below below hc, vget_mapChannels_below below hc]
  · rw [vget_mapChannels_from past hc, vget_mapChannels_from past hc, vget_mapChannels_from past hc]

end Channels

/-- Entries written one after the other, in no matter which order. -/
theorem foldl_vput {α : Type} [Inhabited α] {m : Nat} (F : Nat → α) (l : List Nat) (q : Vector α m) :
    l.foldl (fun q a => vput q a (F a)) q = vtab m fun a => if a ∈ l then F a else vget q a := by
  induction l generalizing q with
  | nil =>
    refine vector_ext fun a ha => ?_
    rw [vget_vtab _ ha, if_neg List.not_mem_nil]
    rfl
  | cons x l ih =>
    refine (ih _).trans (vector_ext fun a ha => ?_)
    rw [vget_vtab _ ha, vget_vtab _ ha, vget_vput]
    by_cases same : x = a
    · subst same
      simp [ha]
    · simp [same, Ne.symm same]

/-! ### Rows -/

section Rows

variable {s : State} {h : StreamHeader} {v : Vector ChannelFrame 8} {c n p w r : Nat} {f : Nat → Op Unit}
  {G : Nat → ChannelFrame → ChannelFrame}

/-- A state in the middle of the primary header: `SH` is `h`, the frame halves of the channels are `v`, and the cursor is `p`
bits on. -/
def primaryAt (s : State) (h : StreamHeader) (v : Vector ChannelFrame 8) (p : Nat) : State :=
  { s with sh := h, chF := v, bc := after s p }

theorem getBits_primaryAt (w : Nat) (h1 : 1 ≤ w := by decide) (h2 : w ≤ 32 := by decide) :
    getBits w (primaryAt s h v p) = .ok (peek s p w) (primaryAt s h v (p + w)) :=
  Behind.getBits (s := s) ⟨rfl, rfl, rfl⟩ h1 h2

theorem getField_primaryAt (w r : Nat) (h1 : 1 ≤ w := by decide) (h2 : w ≤ 32 := by decide) :
    getField w r (primaryAt s h v p) = .ok (BitVec.ofNat r (peek s p w)) (primaryAt s h v (p + w)) :=
  op_run (getBits_primaryAt w h1 h2) rfl

theorem setChF_primaryAt (c : Nat) (g : ChannelFrame → ChannelFrame) :
    setChF c g (primaryAt s h v p) = .ok () (primaryAt s h (vput v c (g (vget v c))) p) := rfl

/-- The turn of a row of `w`-bit fields for channel `c`, the row starting at bit `p` with the frame halves `v`: it reads its field
and changes its channel by `G c`. -/
def Turn (s : State) (h : StreamHeader) (v : Vector ChannelFrame 8) (p w : Nat) (f : Nat → Op Unit)
    (G : Nat → ChannelFrame → ChannelFrame) (c : Nat) : Prop :=
  ∀ u, vget u c = vget v c →
    f c (primaryAt s h u (p + w * c)) = .ok () (primaryAt s h (vput u c (G c (vget v c))) (p + w * (c + 1)))

/-- R118: one row of the primary header. -/
theorem row_runs (few : n ≤ 8) (turn : ∀ c, c < n → Turn s h v p w f G c) :
    forEach (List.range n) f (primaryAt s h v p) = .ok () (primaryAt s h (mapChannels n G v) (p + w * n)) := by
  induction n with
  | zero => rw [mapChannels_zero, Nat.mul_zero, Nat.add_zero]; rfl
  | succ n ih =>
    have before := ih (by omega) fun c hc => turn c (by omega)
    have last := turn n (by omega) (mapChannels n G v) (vget_mapChannels_from (Nat.le_refl n) (by omega))
    rw [vput_mapChannels (by omega)] at last
    rw [List.range_succ, forEach_append]
    exact op_run before (op_run last rfl)

/-- A row whose turn for channel `c` stops, the first to do so. -/
theorem row_stops {e : Stop} (few : n ≤ 8) (inside : c < n) (turn : ∀ d, d < c → Turn s h v p w f G d)
    (stops : ∀ u, vget u c = vget v c → f c (primaryAt s h u (p + w * c))
      = .error e (primaryAt s h (vput u c (G c (vget v c))) (p + w * (c + 1)))) :
    forEach (List.range n) f (primaryAt s h v p)
      = .error e (primaryAt s h (mapChannels (c + 1) G v) (p + w * (c + 1))) := by
  have before := row_runs (by omega) turn
  have here := stops (mapChannels c G v) (vget_mapChannels_from (Nat.le_refl c) (by omega))
  rw [vput_mapChannels (by omega)] at here
  obtain ⟨k, rfl⟩ : ∃ k, n = c + (k + 1) := ⟨n - c - 1, by omega⟩
  have split : List.range (c + (k + 1)) = List.range c ++ c :: List.range' (c + 1) k := by
    rw [List.range_eq_range', List.range_eq_range', ← List.range'_append_1, Nat.zero_add, List.range'_succ]
  rw [split, forEach_append]
  exact op_run before (op_bind_error here)

/-- A field that is stored and nothing else. -/
theorem turn_getBits (g : Nat → ChannelFrame → ChannelFrame) (h1 : 1 ≤ w := by decide) (h2 : w ≤ 32 := by decide) :
    Turn s h v p w (fun c => do let x ← getBits w; setChF c (g x)) (fun c => g (peek s (p + w * c) w)) c := fun u same => by
  rw [← same, Nat.mul_succ, ← Nat.add_assoc]
  exact op_run (getBits_primaryAt w h1 h2) rfl

theorem turn_getField (g : BitVec r → ChannelFrame → ChannelFrame) (h1 : 1 ≤ w := by decide) (h2 : w ≤ 32 := by decide) :
    Turn s h v p w (fun c => do let x ← getField w r; setChF c (g x))
      (fun c => g (BitVec.ofNat r (peek s (p + w * c) w))) c := fun u same => by
  rw [← same, Nat.mul_succ, ← Nat.add_assoc]
  exact op_run (getField_primaryAt w r h1 h2) rfl

/-- A write that reads no field. -/
theorem turn_setChF (g : ChannelFrame → ChannelFrame) : Turn s h v p 0 (fun c => setChF c g) (fun _ => g) c := fun u same => by
  rw [← same, Nat.zero_mul, Nat.zero_mul]
  rfl

/-- R118: rows for the abits values `a .. a + k − 1`. -/
theorem rows_run {f : Nat → Nat → Op Unit} {G : Nat → Nat → ChannelFrame → ChannelFrame} {a : Nat} (few : n ≤ 8) (k : Nat)
    (turn : ∀ i c, i < k → c < n → ∀ u, Turn s h u (p + w * n * i) w (f (a + i)) (G (a + i)) c) :
    forEach (List.range' a k) (fun a => forEach (List.range n) (f a)) (primaryAt s h v p)
      = .ok () (primaryAt s h (mapChannels n (fun c x => (List.range' a k).foldl (fun x a => G a c x) x) v)
          (p + w * n * k)) := by
  induction k with
  | zero =>
    have none : mapChannels n (fun c x => (List.range' a 0).foldl (fun x a => G a c x) x) v = v :=
      vector_ext fun c hc => (vget_vtab _ hc).trans (ite_self _)
    rw [none, Nat.mul_zero, Nat.add_zero]
    rfl
  | succ k ih =>
    have before := ih fun i c hi => turn i c (by omega)
    have last := row_runs few fun c hc => turn k c (Nat.lt_succ_self k) hc
      (mapChannels n (fun c x => (List.range' a k).foldl (fun x a => G a c x) x) v)
    rw [mapChannels_mapChannels, Nat.add_assoc, ← Nat.mul_succ] at last
    rw [List.range'_1_concat, forEach_append]
    refine op_run before (op_run last ?_)
    simp only [List.foldl_append, List.foldl_cons, List.foldl_nil]
    rfl

end Rows

/-! ### The rows of counts -/

section Counts

variable {s : State} {h : StreamHeader} {v : Vector ChannelFrame 8} {b : Nat → Nat → Nat} {c n p w : Nat}

/-- 30_encoding.md R77: the activity count of channel `c`. -/
def withActivity (b : Nat → Nat → Nat) (c : Nat) (f : ChannelFrame) : ChannelFrame :=
  { f with subbandActivity := BitVec.ofNat 6 (phActivity b c) }

/-- R77: the VQ start. -/
def withVqStart (b : Nat → Nat → Nat) (c : Nat) (f : ChannelFrame) : ChannelFrame :=
  { f with vqStartSubband := BitVec.ofNat 6 (phVqStart b c) }

/-- R77: the rows JOINX, THUFF and SHUFF. -/
def withModes (b : Nat → Nat → Nat) (c : Nat) (f : ChannelFrame) : ChannelFrame :=
  { f with
    jointIntensity := BitVec.ofNat 3 (b (7 + 10 * phCount b + 3 * c) 3)
    transientHuffman := BitVec.ofNat 2 (b (7 + 13 * phCount b + 2 * c) 2)
    scalefactorHuffman := BitVec.ofNat 3 (b (7 + 15 * phCount b + 3 * c) 3) }

/-- R77: the allocation selector. -/
def withBhuff (b : Nat → Nat → Nat) (c : Nat) (f : ChannelFrame) : ChannelFrame :=
  { f with bitallocHuffman := BitVec.ofNat 3 (phBhuff b c) }

theorem toNat_phActivity (b : Nat → Nat → Nat) (c : Nat) : (BitVec.ofNat 6 (phActivity b c)).toNat = phActivity b c :=
  toNat_ofNat_of_lt (Nat.lt_of_le_of_lt (Nat.min_le_right _ _) (by decide))

theorem toNat_phVqStart (b : Nat → Nat → Nat) (c : Nat) : (BitVec.ofNat 6 (phVqStart b c)).toNat = phVqStart b c :=
  toNat_ofNat_of_lt (Nat.lt_of_le_of_lt (Nat.min_le_right _ _) (by decide))

/-- R118, R129: the VQ start of one channel is read and stored, and then compared with the activity count. -/
theorem vqStartField_primaryAt {u : Vector ChannelFrame 8} (hc : c < 8)
    (activity : (vget u c).subbandActivity.toNat = phActivity (peek s) c) :
    vqStartField c (primaryAt s h u (7 + 5 * phCount (peek s) + 5 * c))
      = (if phActivity (peek s) c < phVqStart (peek s) c then raiseOp .corruptStream .vqStart else pure ())
        (primaryAt s h (vput u c (withVqStart (peek s) c (vget u c))) (7 + 5 * phCount (peek s) + 5 * (c + 1))) := by
  unfold vqStartField
  refine op_run (getBits_primaryAt 5) (op_run (setChF_primaryAt c _) (op_get_run ?_))
  rw [Nat.mul_succ, ← Nat.add_assoc]
  generalize 7 + 5 * phCount (peek s) + 5 * c + 5 = q
  have past : ∀ x : Vector ChannelFrame 8, vget x c = withVqStart (peek s) c (vget u c) →
      (vqOf (primaryAt s h x q) c > actOf (primaryAt s h x q) c ↔ phActivity (peek s) c < phVqStart (peek s) c) := by
    intro x channel
    have start : vqOf (primaryAt s h x q) c = phVqStart (peek s) c :=
      (congrArg (fun f => f.vqStartSubband.toNat) channel).trans (toNat_phVqStart _ _)
    have act : actOf (primaryAt s h x q) c = phActivity (peek s) c :=
      (congrArg (fun f => f.subbandActivity.toNat) channel).trans activity
    rw [start, act]
  exact congrFun (if_congr (past _ (vget_vput_same _ _ hc)) rfl rfl) _

/-- R118, R120: the allocation selector of one channel is read and stored, and then compared with 7. -/
theorem bhuffField_primaryAt (u : Vector ChannelFrame 8) (c : Nat) :
    bhuffField c (primaryAt s h u (7 + 18 * phCount (peek s) + 3 * c))
      = (if phBhuff (peek s) c = 7 then raiseOp .malformedHeader .bhuff else pure ())
        (primaryAt s h (vput u c (withBhuff (peek s) c (vget u c))) (7 + 18 * phCount (peek s) + 3 * (c + 1))) := by
  rw [Nat.mul_succ, ← Nat.add_assoc]
  refine op_run (getField_primaryAt 3 3) (op_run (setChF_primaryAt c _) ?_)
  exact congrFun (if_congr (ofNat_peek_eq_iff 7#3) rfl rfl) _

theorem phCount_peek_le (s : State) : phCount (peek s) ≤ 8 := by
  have small : peek s 4 3 < 2 ^ 3 := peek_lt s 4 3
  rw [phCount]
  omega

/-- R118: the rows of FD.PRIMHDR, from the counts of the header on. -/
theorem primhdrCounts_eq (s : State) :
    primhdrCounts s
      = primhdrRows (List.range (phCount (peek s))) (primaryAt s (countedHeader (peek s) s.sh) s.chF 7) := by
  have behind : Behind s { s with bc := after s 4, sh := { s.sh with subframes := BitVec.ofNat 5 (peek s 0 4 + 1) } } 4 :=
    ⟨rfl, rfl, rfl⟩
  refine op_run (behind_zero s).getBits (op_run rfl (op_run (behind.getBits (n := 3)) (op_run rfl (op_get_run ?_))))
  exact congrArg (fun k => primhdrRows (List.range k) _) (toNat_primChannels _ s.sh (phCount_peek_le s))

/-- The frame halves when the activity counts are read. -/
def activityChannels (s : State) : Vector ChannelFrame 8 := mapChannels (phCount (peek s)) (withActivity (peek s)) s.chF

/-- The frame halves when the VQ starts are read too. -/
def vqStartChannels (s : State) : Vector ChannelFrame 8 :=
  mapChannels (phCount (peek s)) (withVqStart (peek s)) (activityChannels s)

/-- The frame halves when every row in front of BHUFF is read. -/
def modeChannels (s : State) : Vector ChannelFrame 8 := mapChannels (phCount (peek s)) (withModes (peek s)) (vqStartChannels s)

theorem activities_run :
    forEach (List.range (phCount (peek s))) (fun c => do
        let v ← getBits 5
        setChF c fun f => { f with subbandActivity := BitVec.ofNat 6 (min (v + 2) 32) }) (primaryAt s h s.chF 7)
      = .ok () (primaryAt s h (activityChannels s) (7 + 5 * phCount (peek s))) :=
  row_runs (phCount_peek_le s) fun c _ =>
    turn_getBits fun v (f : ChannelFrame) => { f with subbandActivity := BitVec.ofNat 6 (min (v + 2) 32) }

theorem activity_of_same {u : Vector ChannelFrame 8} (inside : c < phCount (peek s))
    (same : vget u c = vget (activityChannels s) c) :
    (vget u c).subbandActivity.toNat = phActivity (peek s) c := by
  have few := phCount_peek_le s
  rw [same, activityChannels, vget_mapChannels_below inside (by omega)]
  exact toNat_phActivity _ _

theorem turn_vqStart (inside : c < phCount (peek s)) (start : phVqStart (peek s) c ≤ phActivity (peek s) c) :
    Turn s h (activityChannels s) (7 + 5 * phCount (peek s)) 5 vqStartField (withVqStart (peek s)) c := fun u same => by
  have few := phCount_peek_le s
  rw [vqStartField_primaryAt (by omega) (activity_of_same inside same), if_neg (Nat.not_lt.2 start), same]
  rfl

/-- R129: the row of the VQ starts, all of them in range. -/
theorem vqStarts_run (starts : ∀ c, c < phCount (peek s) → phVqStart (peek s) c ≤ phActivity (peek s) c) :
    forEach (List.range (phCount (peek s))) vqStartField (primaryAt s h (activityChannels s) (7 + 5 * phCount (peek s)))
      = .ok () (primaryAt s h (vqStartChannels s) (7 + 5 * phCount (peek s) + 5 * phCount (peek s))) :=
  row_runs (phCount_peek_le s) fun c hc => turn_vqStart hc (starts c hc)

/-- R129: a VQ start past the activity count raises, at the first channel that has one. -/
theorem vqStarts_stop (inside : c < phCount (peek s)) (past : phActivity (peek s) c < phVqStart (peek s) c)
    (starts : ∀ d, d < c → phVqStart (peek s) d ≤ phActivity (peek s) d) :
    forEach (List.range (phCount (peek s))) vqStartField (primaryAt s h (activityChannels s) (7 + 5 * phCount (peek s)))
      = .error (.raise .corruptStream .vqStart) (primaryAt s h (mapChannels (c + 1) (withVqStart (peek s)) (activityChannels s))
          (7 + 5 * phCount (peek s) + 5 * (c + 1))) := by
  have few := phCount_peek_le s
  refine row_stops few inside (fun d hd => turn_vqStart (by omega) (starts d hd)) fun u same => ?_
  rw [vqStartField_primaryAt (by omega) (activity_of_same inside same), if_pos past, same]
  rfl

/-- R118: the rows JOINX, THUFF and SHUFF. -/
theorem modes_run {k : Op Unit} {r : EStateM.Result Stop State Unit}
    (rest : k (primaryAt s h (modeChannels s) (7 + 18 * phCount (peek s))) = r) :
    (do
      forEach (List.range (phCount (peek s))) fun c => do
        let v ← getField 3 3
        setChF c fun f => { f with jointIntensity := v }
      forEach (List.range (phCount (peek s))) fun c => do
        let v ← getField 2 2
        setChF c fun f => { f with transientHuffman := v }
      forEach (List.range (phCount (peek s))) fun c => do
        let v ← getField 3 3
        setChF c fun f => { f with scalefactorHuffman := v }
      k) (primaryAt s h (vqStartChannels s) (7 + 5 * phCount (peek s) + 5 * phCount (peek s))) = r := by
  have few := phCount_peek_le s
  have at10 : 7 + 5 * phCount (peek s) + 5 * phCount (peek s) = 7 + 10 * phCount (peek s) := by omega
  have at13 : 7 + 10 * phCount (peek s) + 3 * phCount (peek s) = 7 + 13 * phCount (peek s) := by omega
  have at15 : 7 + 13 * phCount (peek s) + 2 * phCount (peek s) = 7 + 15 * phCount (peek s) := by omega
  have at18 : 7 + 15 * phCount (peek s) + 3 * phCount (peek s) = 7 + 18 * phCount (peek s) := by omega
  rw [at10]
  refine op_run (row_runs few fun c _ => turn_getField fun x f => { f with jointIntensity := x }) ?_
  rw [at13]
  refine op_run (row_runs few fun c _ => turn_getField fun x f => { f with transientHuffman := x }) ?_
  rw [at15]
  refine op_run (row_runs few fun c _ => turn_getField fun x f => { f with scalefactorHuffman := x }) ?_
  rw [at18, mapChannels_mapChannels, mapChannels_mapChannels]
  exact rest

theorem turn_bhuff {v : Vector ChannelFrame 8} (legal : phBhuff (peek s) c ≠ 7) :
    Turn s h v (7 + 18 * phCount (peek s)) 3 bhuffField (withBhuff (peek s)) c := fun u same => by
  rw [bhuffField_primaryAt, if_neg legal, same]
  rfl

/-- R120: a BHUFF of 7 raises, at the first channel that has one. -/
theorem bhuffs_stop (inside : c < phCount (peek s)) (seven : phBhuff (peek s) c = 7)
    (legal : ∀ d, d < c → phBhuff (peek s) d ≠ 7) :
    forEach (List.range (phCount (peek s))) bhuffField (primaryAt s h v (7 + 18 * phCount (peek s)))
      = .error (.raise .malformedHeader .bhuff) (primaryAt s h (mapChannels (c + 1) (withBhuff (peek s)) v)
          (7 + 18 * phCount (peek s) + 3 * (c + 1))) := by
  refine row_stops (phCount_peek_le s) inside (fun d hd => turn_bhuff (legal d hd)) fun u same => ?_
  rw [bhuffField_primaryAt, if_pos seven, same]
  rfl

/-- R77: what the checked rows store in channel `c`. -/
def withCounts (b : Nat → Nat → Nat) (c : Nat) (f : ChannelFrame) : ChannelFrame :=
  withBhuff b c (withModes b c (withVqStart b c (withActivity b c f)))

/-- R118: the checked rows of an accepted header. -/
theorem primhdrCounts_accepted (accepted : PrimaryAccepted (peek s)) :
    primhdrCounts s = .ok () (primaryAt s (countedHeader (peek s) s.sh)
      (mapChannels (phCount (peek s)) (withCounts (peek s)) s.chF) (7 + 21 * phCount (peek s))) := by
  rw [primhdrCounts_eq]
  refine op_run activities_run (op_run (vqStarts_run fun c hc => (accepted c hc).1) (modes_run ?_))
  refine (row_runs (phCount_peek_le s) fun c hc => turn_bhuff (accepted c hc).2).trans ?_
  have at21 : 7 + 18 * phCount (peek s) + 3 * phCount (peek s) = 7 + 21 * phCount (peek s) := by omega
  rw [at21, modeChannels, vqStartChannels, activityChannels, mapChannels_mapChannels, mapChannels_mapChannels,
    mapChannels_mapChannels]
  rfl

/-- R129, on the whole operation. -/
theorem fdPrimhdrOp_vqStart (inside : c < phCount (peek s)) (past : phActivity (peek s) c < phVqStart (peek s) c)
    (starts : ∀ d, d < c → phVqStart (peek s) d ≤ phActivity (peek s) d) :
    fdPrimhdrOp s = .error (.raise .corruptStream .vqStart) (primaryAt s (countedHeader (peek s) s.sh)
      (mapChannels (c + 1) (withVqStart (peek s)) (activityChannels s)) (7 + 5 * phCount (peek s) + 5 * (c + 1))) := by
  refine op_bind_error ?_
  rw [primhdrCounts_eq]
  exact op_run activities_run (op_bind_error (vqStarts_stop inside past starts))

/-- R120, on the whole operation. -/
theorem fdPrimhdrOp_bhuff (starts : ∀ d, d < phCount (peek s) → phVqStart (peek s) d ≤ phActivity (peek s) d)
    (inside : c < phCount (peek s)) (seven : phBhuff (peek s) c = 7) (legal : ∀ d, d < c → phBhuff (peek s) d ≠ 7) :
    fdPrimhdrOp s = .error (.raise .malformedHeader .bhuff) (primaryAt s (countedHeader (peek s) s.sh)
      (mapChannels (c + 1) (withBhuff (peek s)) (modeChannels s)) (7 + 18 * phCount (peek s) + 3 * (c + 1))) := by
  refine op_bind_error ?_
  rw [primhdrCounts_eq]
  exact op_run activities_run (op_run (vqStarts_run starts) (modes_run (bhuffs_stop inside seven legal)))

end Counts

/-! ### The codebook selectors -/

section Selectors

variable {s : State} {h : StreamHeader} {v : Vector ChannelFrame 8} {c n p : Nat}

/-- R78: the selector of abits value `a` stored in channel `c`. -/
def withSelector (b : Nat → Nat → Nat) (a c : Nat) (f : ChannelFrame) : ChannelFrame :=
  { f with quantSel := vput f.quantSel a (BitVec.ofNat 3 (phSelector b a c)) }

/-- R78: the selectors of channel `c`, 0 where none is transmitted. -/
def withSelectors (b : Nat → Nat → Nat) (c : Nat) (f : ChannelFrame) : ChannelFrame :=
  { f with quantSel := vtab 27 fun a => BitVec.ofNat 3 (phSelector b a c) }

theorem foldl_withSelector (b : Nat → Nat → Nat) (c : Nat) (l : List Nat) (f : ChannelFrame) :
    l.foldl (fun f a => withSelector b a c f) f
      = { f with quantSel := vtab 27 fun a => if a ∈ l then BitVec.ofNat 3 (phSelector b a c) else vget f.quantSel a } := by
  rw [← foldl_vput]
  induction l generalizing f with
  | nil => rfl
  | cons a l ih => exact ih (withSelector b a c f)

/-- The selectors of the abits values 0 to 26, in the order of their rows. -/
theorem foldl_withSelector_all (b : Nat → Nat → Nat) (c : Nat) (f : ChannelFrame) :
    ([0, 1] ++ List.range' 2 4 ++ List.range' 6 5 ++ List.range' 11 16).foldl (fun f a => withSelector b a c f) f
      = withSelectors b c f := by
  rw [foldl_withSelector, withSelectors]
  refine congrArg (fun q => ({ f with quantSel := q } : ChannelFrame)) (vector_ext fun a ha => ?_)
  have listed : a ∈ [0, 1] ++ List.range' 2 4 ++ List.range' 6 5 ++ List.range' 11 16 := by
    simp only [List.mem_append, List.mem_range'_1, List.mem_cons, List.not_mem_nil, or_false]
    omega
  rw [vget_vtab _ ha, vget_vtab _ ha, if_pos listed]

theorem phSelector_one (b : Nat → Nat → Nat) (c : Nat) : phSelector b 1 c = b (7 + 21 * phCount b + 1 * c) 1 := by
  rw [Nat.one_mul]
  rfl

theorem phSelector_two (b : Nat → Nat → Nat) {i : Nat} (low : i < 4) (c : Nat) :
    phSelector b (2 + i) c = b (7 + 22 * phCount b + 2 * phCount b * i + 2 * c) 2 := by
  rw [phSelector, if_neg (by omega), if_pos (by omega), Nat.add_sub_cancel_left]

theorem phSelector_three (b : Nat → Nat → Nat) {i : Nat} (low : i < 5) (c : Nat) :
    phSelector b (6 + i) c = b (7 + 30 * phCount b + 3 * phCount b * i + 3 * c) 3 := by
  rw [phSelector, if_neg (by omega), if_neg (by omega), if_pos (by omega), Nat.add_sub_cancel_left]

theorem phSelector_none (b : Nat → Nat → Nat) {a : Nat} (outside : a = 0 ∨ 11 ≤ a) (c : Nat) : phSelector b a c = 0 := by
  rw [phSelector, if_neg (by omega), if_neg (by omega), if_neg (by omega)]

theorem turn_selField {w a : Nat} (field : phSelector (peek s) a c = peek s (p + w * c) w) (h1 : 1 ≤ w := by decide)
    (h2 : w ≤ 32 := by decide) : Turn s h v p w (selField w a) (withSelector (peek s) a) c := by
  intro u same
  have read := turn_getField (s := s) (h := h) (p := p)
    (fun x (f : ChannelFrame) => { f with quantSel := vput f.quantSel a x }) h1 h2 u same
  rw [withSelector, field]
  exact read

theorem turn_selZero {a : Nat} (none : phSelector (peek s) a c = 0) :
    Turn s h v p 0 (selZero a) (withSelector (peek s) a) c := by
  intro u same
  rw [withSelector, none]
  exact turn_setChF _ u same

/-- R121: the row of abits value 1, with the selector of abits value 0, which is not transmitted. -/
theorem turn_firstSelectors (hc : c < 8) : Turn s h v (7 + 21 * phCount (peek s)) 1 (fun c => do selZero 0 c; selField 1 1 c)
    (fun c f => withSelector (peek s) 1 c (withSelector (peek s) 0 c f)) c := by
  intro u same
  refine op_run (setChF_primaryAt c _) ?_
  have second := turn_selField (h := h) (phSelector_one (peek s) c) (by decide) (by decide)
    (vput u c (withSelector (peek s) 0 c (vget v c))) rfl
  rw [vget_vput_same _ _ hc, vput_vput] at second
  rw [same]
  exact second

/-- R118, R121: the selectors of all channels. -/
theorem primhdrSelectors_run :
    primhdrSelectors (List.range (phCount (peek s))) (primaryAt s h v (7 + 21 * phCount (peek s)))
      = .ok () (primaryAt s h (mapChannels (phCount (peek s)) (withSelectors (peek s)) v)
          (7 + 45 * phCount (peek s))) := by
  have few := phCount_peek_le s
  have at22 : 7 + 21 * phCount (peek s) + 1 * phCount (peek s) = 7 + 22 * phCount (peek s) := by omega
  have at30 : 7 + 22 * phCount (peek s) + 2 * phCount (peek s) * 4 = 7 + 30 * phCount (peek s) := by omega
  have at45 : 7 + 30 * phCount (peek s) + 3 * phCount (peek s) * 5 = 7 + 45 * phCount (peek s) := by omega
  have still45 : 7 + 45 * phCount (peek s) + 0 * phCount (peek s) * 16 = 7 + 45 * phCount (peek s) := by omega
  have first := row_runs (s := s) (h := h) (v := v) few fun c hc => turn_firstSelectors (by omega)
  rw [at22] at first
  refine op_run first ?_
  refine op_run (rows_run (a := 2) (w := 2) (G := withSelector (peek s)) few 4 fun i c hi _ u =>
    turn_selField (phSelector_two _ hi c)) ?_
  rw [at30]
  refine op_run (rows_run (a := 6) (w := 3) (G := withSelector (peek s)) few 5 fun i c hi _ u =>
    turn_selField (phSelector_three _ hi c)) ?_
  rw [at45]
  refine (rows_run (a := 11) (w := 0) (G := withSelector (peek s)) few 16 fun i c _ _ u =>
    turn_selZero (phSelector_none _ (by omega) c)).trans ?_
  rw [still45, mapChannels_mapChannels, mapChannels_mapChannels, mapChannels_mapChannels]
  refine congrArg (fun g => EStateM.Result.ok () (primaryAt s h (mapChannels _ g v) _)) (funext fun c => funext fun f => ?_)
  rw [← foldl_withSelector_all, List.foldl_append, List.foldl_append, List.foldl_append]
  rfl

end Selectors

/-! ### The scale-factor adjustments -/

/-- A loop over pairs, the first component outermost. -/
theorem forEach_pairs {α β : Type} (as : List α) (cs : List β) (f : α → β → Op Unit) (s : State) :
    forEach (as.flatMap fun a => cs.map fun c => (a, c)) (fun x => f x.1 x.2) s
      = forEach as (fun a => forEach cs (f a)) s := by
  have inner : ∀ a, forEach (cs.map fun c => (a, c)) (fun x => f x.1 x.2) = forEach cs (f a) := fun a => by
    induction cs with
    | nil => rfl
    | cons c cs ih => exact congrArg (fun k => f a c >>= fun _ => k) ih
  induction as generalizing s with
  | nil => rfl
  | cons a as ih =>
    rw [List.flatMap_cons, forEach_append, inner, op_bind, forEach_cons]
    cases forEach cs (f a) s with
    | ok _ t => exact ih t
    | error e t => rfl

section Adjustments

variable {s : State} {h : StreamHeader} {v : Vector ChannelFrame 8} {b : Nat → Nat → Nat} {a c n p : Nat}

/-- 42_framedecoder.md R122: an adjustment is transmitted when the selector is below this bound. -/
def adjBound (a : Nat) : Nat := if a = 1 then 1 else if a ≤ 5 then 3 else 7

theorem phAdjPresent_eq_true_iff :
    phAdjPresent b a c = true ↔ (1 ≤ a ∧ a ≤ 10) ∧ phSelector b a c < adjBound a := by
  unfold phAdjPresent adjBound
  by_cases one : a = 1
  · simp [one]
  by_cases low : 2 ≤ a ∧ a ≤ 5
  · rw [if_neg one, if_pos low, if_neg one, if_pos low.2, decide_eq_true_iff]
    exact ⟨fun less => ⟨by omega, less⟩, fun both => both.2⟩
  by_cases high : 6 ≤ a ∧ a ≤ 10
  · rw [if_neg one, if_neg low, if_pos high, if_neg one, if_neg (by omega), decide_eq_true_iff]
    exact ⟨fun less => ⟨by omega, less⟩, fun both => both.2⟩
  · rw [if_neg one, if_neg low, if_neg high]
    exact ⟨fun no => absurd no Bool.false_ne_true, fun both => by omega⟩

theorem mem_phAdjOrder : (a, c) ∈ phAdjOrder b ↔ (1 ≤ a ∧ a ≤ 10) ∧ c < phCount b := by
  simp only [phAdjOrder, List.mem_flatMap, List.mem_range'_1, List.mem_map, List.mem_range, Prod.mk.injEq]
  constructor
  · rintro ⟨x, hx, y, hy, rfl, rfl⟩
    exact ⟨by omega, hy⟩
  · rintro ⟨ha, hc⟩
    exact ⟨a, by omega, c, hc, rfl, rfl⟩

theorem nodup_phAdjOrder (b : Nat → Nat → Nat) : (phAdjOrder b).Nodup := by
  show (List.range' 1 10 ×ˢ List.range (phCount b)).Nodup
  exact List.Nodup.product (List.nodup_range' ..) List.nodup_range

/-- 30_encoding.md R79: how many of the adjustments in `l` are transmitted. -/
def adjCount (b : Nat → Nat → Nat) (l : List (Nat × Nat)) : Nat := l.countP fun x => phAdjPresent b x.1 x.2

/-- R79: the rank of an adjustment counts those in front of it. -/
theorem phAdjRank_eq {x : Nat × Nat} {before behind : List (Nat × Nat)} (split : phAdjOrder b = before ++ x :: behind) :
    phAdjRank b x.1 x.2 = adjCount b before := by
  have nodup := nodup_phAdjOrder b
  rw [split] at nodup
  have absent : ∀ y ∈ before, (y != x) = true := fun y hy => bne_iff_ne.2 fun same =>
    (List.nodup_append.1 nodup).2.2 y hy x List.mem_cons_self same
  rw [phAdjRank, split, List.takeWhile_append_of_pos absent, List.takeWhile_cons_of_neg (by simp), List.append_nil, adjCount]

/-- R79: the bit at which the adjustment of `(a, c)` is transmitted. -/
def adjPlace (b : Nat → Nat → Nat) (a c : Nat) : Nat := 7 + 45 * phCount b + 2 * phAdjRank b a c

/-- The frame halves when the adjustments in `done` are read: those that are transmitted are stored. -/
def adjusted (r : Rom) (b : Nat → Nat → Nat) (done : List (Nat × Nat)) (v : Vector ChannelFrame 8) : Vector ChannelFrame 8 :=
  vtab 8 fun c => { vget v c with sfAdj := vtab 11 fun a =>
    if (a, c) ∈ done ∧ phAdjPresent b a c = true then tget r.adj (b (adjPlace b a c) 2) else vget (vget v c).sfAdj a }

theorem vget_adjusted {r : Rom} {done : List (Nat × Nat)} (hc : c < 8) : vget (adjusted r b done v) c
    = { vget v c with sfAdj := vtab 11 fun a =>
        if (a, c) ∈ done ∧ phAdjPresent b a c = true then tget r.adj (b (adjPlace b a c) 2) else vget (vget v c).sfAdj a } :=
  vget_vtab _ hc

theorem adjusted_absent {r : Rom} {done : List (Nat × Nat)} (absent : ¬ phAdjPresent b a c = true) :
    adjusted r b (done ++ [(a, c)]) v = adjusted r b done v := by
  have same : ∀ e d, (e, d) ∈ done ++ [(a, c)] ∧ phAdjPresent b e d = true ↔ (e, d) ∈ done ∧ phAdjPresent b e d = true := by
    intro e d
    refine and_congr_left fun present => ?_
    have other : (e, d) ≠ (a, c) := fun eq => absent (by cases eq; exact present)
    rw [List.mem_append, List.mem_singleton, or_iff_left other]
  simp only [adjusted, same]

theorem adjusted_present {r : Rom} {done : List (Nat × Nat)} (present : phAdjPresent b a c = true) (hc : c < 8) :
    adjusted r b (done ++ [(a, c)]) v = vput (adjusted r b done v) c
      { vget (adjusted r b done v) c with
        sfAdj := vput (vget (adjusted r b done v) c).sfAdj a (tget r.adj (b (adjPlace b a c) 2)) } := by
  refine vector_ext fun d hd => ?_
  by_cases same : c = d
  · subst same
    rw [vget_vput_same _ _ hc, vget_adjusted hc, vget_adjusted hc]
    refine congrArg (fun q => ({ vget v c with sfAdj := q } : ChannelFrame)) (vector_ext fun e he => ?_)
    rw [vget_vtab _ he, vget_vput]
    by_cases here : a = e
    · subst here
      rw [if_pos ⟨by simp, present⟩, if_pos ⟨rfl, he⟩]
    · have other : (e, c) ≠ (a, c) := fun eq => here (by cases eq; rfl)
      rw [if_neg (show ¬ (a = e ∧ a < 11) from fun both => here both.1), vget_vtab _ he]
      simp only [List.mem_append, List.mem_singleton, or_iff_left other]
  · rw [vget_vput_ne _ _ same, vget_adjusted hd, vget_adjusted hd]
    have other : ∀ e, (e, d) ≠ (a, c) := fun e eq => same (by cases eq; rfl)
    simp only [List.mem_append, List.mem_singleton, or_iff_left (other _)]

theorem adjusted_other {r : Rom} {done : List (Nat × Nat)} (hc : c < 8) (other : ∀ a, (a, c) ∉ done) :
    vget (adjusted r b done v) c = vget v c := by
  rw [vget_adjusted hc]
  refine congrArg (fun q => ({ vget v c with sfAdj := q } : ChannelFrame)) (vector_ext fun a ha => ?_)
  rw [vget_vtab _ ha, if_neg fun both => other a both.1]
  rfl

theorem adjusted_nil (r : Rom) (b : Nat → Nat → Nat) (v : Vector ChannelFrame 8) : adjusted r b [] v = v :=
  vector_ext fun _ hc => adjusted_other hc fun _ => List.not_mem_nil

theorem adjCount_concat (done : List (Nat × Nat)) :
    adjCount b (done ++ [(a, c)]) = adjCount b done + if phAdjPresent b a c = true then 1 else 0 := by
  rw [adjCount, List.countP_append, List.countP_singleton]
  rfl

/-- R122: one adjustment of the header. -/
theorem adjField_primaryAt {done behind : List (Nat × Nat)} (split : phAdjOrder (peek s) = done ++ (a, c) :: behind)
    (selector : (vget (vget v c).quantSel a).toNat = phSelector (peek s) a c) :
    adjField (adjBound a) a c
        (primaryAt s h (adjusted s.rom (peek s) done v) (7 + 45 * phCount (peek s) + 2 * adjCount (peek s) done))
      = .ok () (primaryAt s h (adjusted s.rom (peek s) (done ++ [(a, c)]) v)
          (7 + 45 * phCount (peek s) + 2 * adjCount (peek s) (done ++ [(a, c)]))) := by
  have few := phCount_peek_le s
  obtain ⟨transmitted, inside⟩ := mem_phAdjOrder.1 (show (a, c) ∈ phAdjOrder (peek s) by rw [split]; simp)
  have place : adjPlace (peek s) a c = 7 + 45 * phCount (peek s) + 2 * adjCount (peek s) done := by
    rw [adjPlace, phAdjRank_eq split]
  have below : (vget (vget (adjusted s.rom (peek s) done v) c).quantSel a).toNat < adjBound a
      ↔ phAdjPresent (peek s) a c = true := by
    rw [vget_adjusted (by omega), phAdjPresent_eq_true_iff, ← selector]
    exact ⟨fun less => ⟨transmitted, less⟩, fun both => both.2⟩
  refine op_get_run ?_
  rw [adjCount_concat]
  by_cases present : phAdjPresent (peek s) a c = true
  · refine (congrFun (if_pos (below.2 present)) _).trans ?_
    rw [if_pos present, adjusted_present present (by omega), ← place, Nat.mul_add, ← Nat.add_assoc, ← place]
    exact op_run (getBits_primaryAt 2) rfl
  · refine (congrFun (if_neg (mt below.1 present)) _).trans ?_
    rw [if_neg present, adjusted_absent present]
    rfl

/-- R122: the adjustments behind `done`, in the order of the header. -/
theorem adjustments_run (selectors : ∀ c, c < phCount (peek s) → ∀ a, a < 27 →
      (vget (vget v c).quantSel a).toNat = phSelector (peek s) a c) (behind done : List (Nat × Nat))
    (split : phAdjOrder (peek s) = done ++ behind) :
    forEach behind (fun x => adjField (adjBound x.1) x.1 x.2)
        (primaryAt s h (adjusted s.rom (peek s) done v) (7 + 45 * phCount (peek s) + 2 * adjCount (peek s) done))
      = .ok () (primaryAt s h (adjusted s.rom (peek s) (phAdjOrder (peek s)) v)
          (7 + 45 * phCount (peek s) + 2 * adjCount (peek s) (phAdjOrder (peek s)))) := by
  induction behind generalizing done with
  | nil =>
    rw [split, List.append_nil]
    rfl
  | cons x behind ih =>
    obtain ⟨a, c⟩ := x
    obtain ⟨transmitted, inside⟩ := mem_phAdjOrder.1 (show (a, c) ∈ phAdjOrder (peek s) by rw [split]; simp)
    exact op_run (adjField_primaryAt split (selectors c inside a (by omega)))
      (ih (done ++ [(a, c)]) (by rw [split, List.append_assoc]; rfl))

/-- R122: every adjustment at 1. -/
def withUnitAdjustments (one : Num) (f : ChannelFrame) : ChannelFrame := { f with sfAdj := vtab 11 fun _ => one }

theorem foldl_unitAdjustments (one : Num) (f : ChannelFrame) :
    (List.range' 0 11).foldl (fun f a => { f with sfAdj := vput f.sfAdj a one }) f = withUnitAdjustments one f := by
  have all : ∀ l : List Nat, l.foldl (fun f a => ({ f with sfAdj := vput f.sfAdj a one } : ChannelFrame)) f
      = { f with sfAdj := l.foldl (fun q a => vput q a one) f.sfAdj } := by
    intro l
    induction l generalizing f with
    | nil => rfl
    | cons a l ih => exact ih _
  rw [all, foldl_vput (fun _ => one), withUnitAdjustments]
  refine congrArg (fun q => ({ f with sfAdj := q } : ChannelFrame)) (vector_ext fun a ha => ?_)
  have listed : a ∈ List.range' 0 11 := by
    rw [List.mem_range'_1]
    omega
  rw [vget_vtab _ ha, vget_vtab _ ha, if_pos listed]

/-- The frame halves with the adjustments of the header: 1 where none is transmitted. -/
def adjustedChannels (s : State) (v : Vector ChannelFrame 8) : Vector ChannelFrame 8 :=
  adjusted s.rom (peek s) (phAdjOrder (peek s))
    (mapChannels (phCount (peek s)) (fun _ => withUnitAdjustments (numOfInt s.rom.sampleKind 1)) v)

/-- R118, R122: the adjustments of all channels. -/
theorem primhdrAdjust_run (selectors : ∀ c, c < phCount (peek s) → ∀ a, a < 27 →
      (vget (vget v c).quantSel a).toNat = phSelector (peek s) a c) :
    primhdrAdjust (List.range (phCount (peek s))) (primaryAt s h v (7 + 45 * phCount (peek s)))
      = .ok () (primaryAt s h (adjustedChannels s v) (phLength (peek s) 0)) := by
  have few := phCount_peek_le s
  have still : 7 + 45 * phCount (peek s) + 0 * phCount (peek s) * 11 = 7 + 45 * phCount (peek s) := by omega
  have ones := rows_run (s := s) (h := h) (v := v) (p := 7 + 45 * phCount (peek s)) (w := 0) (a := 0)
    (f := fun a c => setChF c fun f => { f with sfAdj := vput f.sfAdj a (numOfInt s.rom.sampleKind 1) })
    (G := fun a _ f => { f with sfAdj := vput f.sfAdj a (numOfInt s.rom.sampleKind 1) }) few 11 fun i c _ _ u =>
      turn_setChF fun f => { f with sfAdj := vput f.sfAdj (0 + i) (numOfInt s.rom.sampleKind 1) }
  rw [still] at ones
  simp only [foldl_unitAdjustments] at ones
  refine op_get_run (op_run ones ?_)
  have unit : ∀ c, c < phCount (peek s) → ∀ a, a < 27 → (vget (vget (mapChannels (phCount (peek s))
      (fun _ => withUnitAdjustments (numOfInt s.rom.sampleKind 1)) v) c).quantSel a).toNat = phSelector (peek s) a c := by
    intro c hc
    rw [vget_mapChannels_below hc (by omega)]
    exact selectors c hc
  have run := adjustments_run (h := h) unit (phAdjOrder (peek s)) [] rfl
  rw [adjusted_nil] at run
  have order : phAdjOrder (peek s)
      = (1 :: (List.range' 2 4 ++ List.range' 6 5)).flatMap fun a => (List.range (phCount (peek s))).map fun c => (a, c) := rfl
  rw [order, forEach_pairs _ _ fun a c => adjField (adjBound a) a c] at run
  have rest : ∀ f, forEach (List.range' 2 4 ++ List.range' 6 5) f
      = (forEach (List.range' 2 4) f >>= fun _ => forEach (List.range' 6 5) f) := fun f => funext (forEach_append _ _ f)
  rw [forEach, rest] at run
  exact run

end Adjustments

/-! ### O30: FD.PRIMHDR -/

section Primary

variable {s : State} {v : Vector ChannelFrame 8} {a c : Nat}

/-- The frame halves in front of the adjustments. -/
def selectorChannels (s : State) : Vector ChannelFrame 8 :=
  mapChannels (phCount (peek s)) (fun c f => withSelectors (peek s) c (withCounts (peek s) c f)) s.chF

/-- The frame halves that the primary header at the cursor leaves. -/
def primaryChannels (s : State) : Vector ChannelFrame 8 := adjustedChannels s (selectorChannels s)

theorem phSelector_lt (s : State) (a c : Nat) : phSelector (peek s) a c < 2 ^ 3 := by
  unfold phSelector
  dsimp only
  split_ifs
  · exact Nat.lt_trans (peek_lt s _ 1) (by decide)
  · exact Nat.lt_trans (peek_lt s _ 2) (by decide)
  · exact peek_lt s _ 3
  · decide

theorem vget_withSelectors {b : Nat → Nat → Nat} {f : ChannelFrame} (small : phSelector b a c < 2 ^ 3) (ha : a < 27) :
    (vget (withSelectors b c f).quantSel a).toNat = phSelector b a c := by
  rw [withSelectors, vget_vtab _ ha]
  exact toNat_ofNat_of_lt small

theorem skipBits_primaryAt {h : StreamHeader} {p : Nat} (n : Nat) (h1 : 1 ≤ n := by decide) (h2 : n ≤ 32 := by decide) :
    skipBits n (primaryAt s h v p) = .ok () (primaryAt s h v (p + n)) :=
  op_run (getBits_primaryAt n h1 h2) rfl

/-- 30_encoding.md R77: the audio-header CRC ends the header. -/
theorem phLength_add (b : Nat → Nat → Nat) (crc : Nat) : phLength b crc = phLength b 0 + crc := by
  simp only [phLength, Nat.add_zero]

/-- R118: the whole of an accepted primary header. -/
theorem fdPrimhdrOp_accepted (accepted : PrimaryAccepted (peek s)) :
    fdPrimhdrOp s = .ok () (primaryAt s (countedHeader (peek s) s.sh) (primaryChannels s)
      (phLength (peek s) (if s.sh.crcPresent = 1#1 then 16 else 0))) := by
  have few := phCount_peek_le s
  have selectors : ∀ c, c < phCount (peek s) → ∀ a, a < 27 →
      (vget (vget (selectorChannels s) c).quantSel a).toNat = phSelector (peek s) a c := by
    intro c hc a ha
    rw [selectorChannels, vget_mapChannels_below hc (by omega)]
    exact vget_withSelectors (phSelector_lt s a c) ha
  refine op_run (primhdrCounts_accepted accepted) (op_get_run ?_)
  have channels : primCount (primaryAt s (countedHeader (peek s) s.sh)
      (mapChannels (phCount (peek s)) (withCounts (peek s)) s.chF) (7 + 21 * phCount (peek s))) = phCount (peek s) :=
    toNat_primChannels _ s.sh few
  rw [channels]
  refine op_run primhdrSelectors_run ?_
  rw [mapChannels_mapChannels]
  refine op_run (primhdrAdjust_run selectors) ?_
  by_cases crc : s.sh.crcPresent = 1#1
  · rw [if_pos crc, phLength_add _ 16, ← skipBits_primaryAt 16]
    exact congrFun (if_pos crc) _
  · rw [if_neg crc]
    exact congrFun (if_neg crc) _

/-- 30_encoding.md R79: what an adjustment that is read, or is not, leaves. -/
theorem vget_sfAdj_primaryChannels (inside : c < phCount (peek s)) (ha : a < 11) :
    vget (vget (primaryChannels s) c).sfAdj a = phAdj s.rom (peek s) a c := by
  have few := phCount_peek_le s
  rw [primaryChannels, adjustedChannels, vget_adjusted (by omega), vget_mapChannels_below inside (by omega), phAdj]
  dsimp only
  rw [vget_vtab _ ha]
  by_cases present : phAdjPresent (peek s) a c = true
  · have listed : (a, c) ∈ phAdjOrder (peek s) := mem_phAdjOrder.2 ⟨(phAdjPresent_eq_true_iff.1 present).1, inside⟩
    rw [if_pos ⟨listed, present⟩, if_pos present, adjPlace]
  · rw [if_neg fun both => present both.2, if_neg present, withUnitAdjustments, vget_vtab _ ha]

/-- 30_encoding.md R77 to R80: the channels of an accepted primary header. -/
theorem channelsLoaded (s : State) : ChannelsLoaded s.rom (peek s) s.chF (primaryChannels s) := by
  intro c hc
  have few := phCount_peek_le s
  by_cases inside : c < phCount (peek s)
  · rw [if_pos inside]
    have channel : ∃ q, vget (primaryChannels s) c
        = { withSelectors (peek s) c (withCounts (peek s) c (vget s.chF c)) with sfAdj := q } := by
      rw [primaryChannels, adjustedChannels, vget_adjusted hc, vget_mapChannels_below inside hc, selectorChannels,
        vget_mapChannels_below inside hc]
      exact ⟨_, rfl⟩
    have adjustments : ∀ a, a < 11 → vget (vget (primaryChannels s) c).sfAdj a = phAdj s.rom (peek s) a c :=
      fun a ha => vget_sfAdj_primaryChannels inside ha
    have selectors : ∀ a, a < 27 → (vget (withSelectors (peek s) c (withCounts (peek s) c (vget s.chF c))).quantSel a).toNat
        = phSelector (peek s) a c := fun a ha => vget_withSelectors (phSelector_lt s a c) ha
    obtain ⟨q, eq⟩ := channel
    rw [eq] at adjustments ⊢
    exact ⟨toNat_phActivity _ _, toNat_phVqStart _ _, toNat_ofNat_peek s _, toNat_ofNat_peek s _, toNat_ofNat_peek s _,
      toNat_ofNat_peek s _, selectors, adjustments⟩
  · have past : phCount (peek s) ≤ c := Nat.le_of_not_lt inside
    rw [if_neg inside, primaryChannels, adjustedChannels, adjusted_other hc fun a listed => inside (mem_phAdjOrder.1 listed).2,
      vget_mapChannels_from past hc, selectorChannels, vget_mapChannels_from past hc]

/-- R77: there are at most 8 channels, so that the count is stored as it is. -/
theorem countedHeader_peek (s : State) (old : StreamHeader) : countedHeader (peek s) old
    = { old with subframes := BitVec.ofNat 5 (peek s 0 4 + 1), totalChannels := BitVec.ofNat 4 (phCount (peek s))
                 primChannels := BitVec.ofNat 4 (phCount (peek s)) } := by
  rw [countedHeader, Nat.min_eq_left (phCount_peek_le s)]

theorem exec_fdPrimhdr (s : State) : exec .fdPrimhdr s = answerUnit fdPrimhdrOp s := rfl

end Primary

/-- Settles O30: the operation on an accepted header, and its two ways to stop. -/
theorem fdPrimhdrParses : Obligations.FdPrimhdrParses := by
  intro s
  have few := phCount_peek_le s
  dsimp only
  rw [← countedHeader_peek, exec_fdPrimhdr]
  refine ⟨fun accepted => ?_, fun c inside past starts => ?_, fun c starts inside seven legal => ?_⟩
  · exact ⟨_, answer_ok (fdPrimhdrOp_accepted accepted), channelsLoaded s, rfl⟩
  · refine ⟨_, answer_raise (fdPrimhdrOp_vqStart inside past starts), fun d from_ hd => ?_, rfl⟩
    exact (vget_mapChannels_from (by omega) hd).trans (vget_mapChannels_from from_ hd)
  · refine ⟨_, answer_raise (fdPrimhdrOp_bhuff starts inside seven legal), fun d from_ hd => ?_, rfl⟩
    exact (vget_mapChannels_from (by omega) hd).trans ((vget_mapChannels_from from_ hd).trans
      ((vget_mapChannels_from from_ hd).trans (vget_mapChannels_from from_ hd)))

end Sys2Proof.Proofs
end

section
/-! PROOFS. BEGIN_FRAME (42_framedecoder.md R113): the next state of a frame that opens (O33), and each failure in the order of
60_exceptions.md R266 (O35). -/

namespace Sys2Proof.Proofs

open Sys2Proof.Machine Sys2Proof.Safety Sys2Proof.Laws

-- As in the tests: elaborating these declarations side by side needs more threads than the checker's memory limit allows.
set_option Elab.async false

/-! ### The operations behind the cursor -/

section Opened

variable {s t : State} {p : Packing} {a out : Arrangement} {lvl : Num}

/-- R117: the state in which the output arrangement of the frame is selected and written back. -/
def withOutput (s : State) (out : Arrangement) (lvl : Num) : State :=
  let k := s.rom.sampleKind
  let lfe := s.sh.lfe != 0#2 && flagsLfe s.args.flags
  { s with
    fr := { s.fr with output := out, outputLfe := lfe, level := lvl, bias := numLoad k s.args.bias, clev := s.rom.clev,
                      slev := s.rom.slev }
    args := { s.args with flags := flagsWord (arrangementCode out) lfe, level := numStore k lvl } }

theorem selectOutput_selects (chosen : dmxSelect s.rom s.sh.amode.toNat s.args.flags
    (numLoad s.rom.sampleKind s.args.level) s.rom.clev s.rom.slev = some (out, lvl)) :
    selectOutput s = .ok () (withOutput s out lvl) :=
  op_get_run (op_run (dmxSelectOp_some chosen) (op_run rfl rfl))

/-- 60_exceptions.md R265. -/
theorem selectOutput_raises (unsupported : dmxSelect s.rom s.sh.amode.toNat s.args.flags
    (numLoad s.rom.sampleKind s.args.level) s.rom.clev s.rom.slev = none) :
    selectOutput s = .error (.raise .unsupportedChannelArrangement .arrangement) s :=
  op_get_run (op_bind_error (dmxSelectOp_none unsupported))

/-- R113: the state in which the frame is active at its first sub-block. -/
def started (s : State) : State :=
  { s with
    fr := { s.fr with blocksTotal := BitVec.ofNat 32 (s.sh.sampleBlocks.toNat / 8), blocksDone := 0#32 }
    seq := { frame := .active, currentSubframe := 0#5, currentSubsubframe := 0#3 } }

theorem startFrame_starts (arrangement : arrangementOf s.sh.amode.toNat = some a) (channels : primCount s = nchOf s.rom a) :
    startFrame s = .ok () (started s) := by
  refine op_get_run ?_
  rw [arrangement]
  exact (check_passes (not_not.2 channels)).trans rfl

/-- R128: an arrangement that the header's channels do not make up. -/
theorem startFrame_raises (other : ∀ a, arrangementOf s.sh.amode.toNat = some a → primCount s ≠ nchOf s.rom a) :
    startFrame s = .error (.raise .malformedHeader .pchs) s := by
  refine op_get_run ?_
  cases arrangement : arrangementOf s.sh.amode.toNat with
  | none => exact op_bind_error (raiseOp_apply _ _ s)
  | some a => exact (congrFun (if_pos (other a arrangement)) s).trans (op_bind_error (raiseOp_apply _ _ s))

/-- R114: the state behind the fixed header. -/
def headerRead (s : State) : State := fixedAt s (Safety.headerAt (peek s) s.sh) (headerLength (peek s))

theorem headerRead_amode (s : State) : (headerRead s).sh.amode.toNat = peek s 60 6 := toNat_ofNat_peek s 60

theorem peek_headerRead (s : State) (out : Arrangement) (lvl : Num) :
    peek (withOutput (headerRead s) out lvl) = behindHeader s := by
  have behind : Behind s (withOutput (headerRead s) out lvl) (headerLength (peek s)) := ⟨rfl, rfl, rfl⟩
  funext off n
  exact behind.peek_eq off n

/-- R113, R266: an unsupported arrangement comes behind the fixed header. -/
theorem openedOp_unsupported (inRange : HeaderInRange s.rom (peek s)) (lfe : peek s 85 2 ≠ 3)
    (unsupported : selectedOf s.rom (flagsArr s.args.flags) (peek s 60 6) = none) :
    openedOp s = .error (.raise .unsupportedChannelArrangement .arrangement) (headerRead s) := by
  refine op_run (fdHeaderOp_ok inRange lfe) (op_bind_error (selectOutput_raises (s := headerRead s) ?_))
  rw [headerRead_amode]
  exact dmxSelect_none unsupported

/-- R113: with a supported arrangement DRC.HOOK comes next. -/
theorem openedOp_selected (inRange : HeaderInRange s.rom (peek s)) (lfe : peek s 85 2 ≠ 3)
    (chosen : dmxSelect s.rom (peek s 60 6) s.args.flags (numLoad s.rom.sampleKind s.args.level) s.rom.clev s.rom.slev
      = some (out, lvl)) :
    openedOp s = (do drcHookOp; fdPrimhdrOp; startFrame) (withOutput (headerRead s) out lvl) := by
  refine op_run (fdHeaderOp_ok inRange lfe) (op_bind_ok (selectOutput_selects (s := headerRead s) ?_))
  rw [headerRead_amode]
  exact chosen

theorem headerRead_dynrange (v : BitVec 1) (h : peek s 76 1 = v.toNat) : (headerRead s).sh.dynrange = v :=
  (ofNat_peek_eq_iff v).2 h

/-- 93_implementation_defined.md U6: hooked dynamic range is refused there. -/
theorem openedOp_hooked (inRange : HeaderInRange s.rom (peek s)) (lfe : peek s 85 2 ≠ 3)
    (chosen : dmxSelect s.rom (peek s 60 6) s.args.flags (numLoad s.rom.sampleKind s.args.level) s.rom.clev s.rom.slev
      = some (out, lvl)) (hook : s.hook ≠ 0#32) (dynrange : peek s 76 1 = 1) :
    openedOp s = .error (.refuse .drcHook) (withOutput (headerRead s) out lvl) :=
  (openedOp_selected inRange lfe chosen).trans
    (op_bind_error (drcHookOp_hooked (s := withOutput (headerRead s) out lvl) hook (headerRead_dynrange 1#1 dynrange)))

/-- R125: without hooked dynamic range the primary header comes next. -/
theorem openedOp_idle (inRange : HeaderInRange s.rom (peek s)) (lfe : peek s 85 2 ≠ 3)
    (chosen : dmxSelect s.rom (peek s 60 6) s.args.flags (numLoad s.rom.sampleKind s.args.level) s.rom.clev s.rom.slev
      = some (out, lvl)) (idle : s.hook = 0#32 ∨ peek s 76 1 = 0) :
    openedOp s = (do fdPrimhdrOp; startFrame) (withOutput (headerRead s) out lvl) :=
  (openedOp_selected inRange lfe chosen).trans (op_bind_ok (drcHookOp_idle (s := withOutput (headerRead s) out lvl)
    (idle.imp_right (headerRead_dynrange 0#1))))

/-- The state when the primary header of the frame is read. -/
def primaryRead (s : State) : State :=
  primaryAt s (countedHeader (peek s) s.sh) (primaryChannels s) (phLength (peek s) (if s.sh.crcPresent = 1#1 then 16 else 0))

theorem primCount_primaryRead (s : State) : primCount (primaryRead s) = phCount (peek s) :=
  toNat_primChannels (peek s) s.sh (phCount_peek_le s)

/-! ### The command -/

/-- R113: BEGIN_FRAME first aborts the frame before it. -/
def frameClosed (s : State) : State := { s with seq := { s.seq with frame := .aborted } }

/-- R113: the state in which the cursor of BEGIN_FRAME is placed. -/
def openedAt (s : State) (p : Packing) : State :=
  { frameClosed s with bc := cursorInit s.args.bufAddr s.args.bufLen p }

theorem peek_openedAt (s : State) (p : Packing) : peek (openedAt s p) = openBits s p := rfl

theorem behindHeader_openedAt (s : State) (p : Packing) : behindHeader (openedAt s p) = primaryBits s p := rfl

/-- R262: a view without a sync pattern. -/
theorem beginFrameOp_unmatched (unmatched : fsMatch s.mem s.args.bufAddr s.args.bufLen = none) :
    beginFrameOp s = .error (.raise .syncNotFound .sync) (frameClosed s) := by
  refine op_run rfl (op_get_run ?_)
  dsimp only
  rw [unmatched]
  exact op_bind_error (raiseOp_apply _ _ _)

/-- R113: BEGIN_FRAME on a view with a sync pattern places its cursor. -/
theorem beginFrameOp_matched (matched : fsMatch s.mem s.args.bufAddr s.args.bufLen = some p) :
    beginFrameOp s = (do brInitOp s.args.bufAddr s.args.bufLen p; openedOp) (frameClosed s) := by
  refine op_run rfl (op_get_run ?_)
  dsimp only
  rw [matched]
  rfl

/-- 20_memory.md R55. -/
theorem beginFrameOp_misaligned (matched : fsMatch s.mem s.args.bufAddr s.args.bufLen = some p)
    (misaligned : viewAdmitted s.args.bufAddr p = false) :
    beginFrameOp s = .error (.refuse .misalignedView) (frameClosed s) := by
  have refused : requireView s.args.bufAddr p (frameClosed s) = .error (.refuse .misalignedView) (frameClosed s) := by
    rw [requireView, misaligned]
    rfl
  exact (beginFrameOp_matched matched).trans (op_bind_error (op_bind_error refused))

theorem beginFrameOp_opened (matched : fsMatch s.mem s.args.bufAddr s.args.bufLen = some p)
    (admitted : viewAdmitted s.args.bufAddr p = true) : beginFrameOp s = openedOp (openedAt s p) := by
  have passes : requireView s.args.bufAddr p (frameClosed s) = .ok () (frameClosed s) := by
    rw [requireView, if_pos admitted]
    rfl
  have placed : brInitOp s.args.bufAddr s.args.bufLen p (frameClosed s) = .ok () (openedAt s p) := op_run passes rfl
  exact (beginFrameOp_matched matched).trans (op_bind_ok placed)

/-- R113, 60_exceptions.md R260: what the command makes of the end of its operation. -/
def beginFrameEnd : EStateM.Result Stop State Unit → Answer
  | .ok _ t => .next (setCode .ok t)
  | .error (.raise c _) t => .next (forgetFrame (takeError c t))
  | .error (.refuse r) _ => .refused r

/-- R113: the command behind its two `require` lines. -/
theorem beginFrameCmd_required (ready : s.life = .ready) (addr : s.args.bufAddr ≠ 0#32) (len : s.args.bufLen ≠ 0#32) :
    beginFrameCmd s = beginFrameEnd (beginFrameOp s) := by
  unfold beginFrameCmd
  rw [if_neg (not_uninit_of_ready ready), (badView_eq_false_iff s).2 ⟨addr, len⟩, if_neg Bool.false_ne_true]
  rfl

/-! ### The state in which the primary header is read -/

/-- R113: the state behind DRC.HOOK, at the primary header. -/
def outputSelected (s : State) (p : Packing) (out : Arrangement) (lvl : Num) : State :=
  withOutput (headerRead (openedAt s p)) out lvl

theorem peek_outputSelected : peek (outputSelected s p out lvl) = primaryBits s p :=
  (peek_headerRead (openedAt s p) out lvl).trans (behindHeader_openedAt s p)

theorem outputSelected_amode : (outputSelected s p out lvl).sh.amode.toNat = openBits s p 60 6 :=
  headerRead_amode (openedAt s p)

theorem outputSelected_sampleBlocks : (outputSelected s p out lvl).sh.sampleBlocks.toNat = openBits s p 39 7 + 1 := by
  have small : peek (openedAt s p) 39 7 < 2 ^ 7 := peek_lt _ 39 7
  rw [peek_openedAt] at small
  have stored : (BitVec.ofNat 8 (openBits s p 39 7 + 1)).toNat = openBits s p 39 7 + 1 := toNat_ofNat_of_lt (by omega)
  exact stored

/-- 30_encoding.md R67: the header has a CRC where its flag is set. -/
theorem outputSelected_crc : (if (outputSelected s p out lvl).sh.crcPresent = 1#1 then 16 else 0) = 16 * openBits s p 38 1 := by
  have bit : peek (openedAt s p) 38 1 < 2 ^ 1 := peek_lt _ 38 1
  have present : (outputSelected s p out lvl).sh.crcPresent = 1#1 ↔ openBits s p 38 1 = 1 :=
    ofNat_peek_eq_iff (s := openedAt s p) 1#1
  rw [peek_openedAt] at bit
  rw [if_congr present rfl rfl]
  split_ifs <;> omega

/-- 42_framedecoder.md R117: the LFE is put out where the frame has one and the host asks for it. -/
theorem headerRead_lfe : ((headerRead (openedAt s p)).sh.lfe != 0#2) = (openBits s p 85 2 != 0) := by
  have absent : (headerRead (openedAt s p)).sh.lfe = 0#2 ↔ openBits s p 85 2 = 0 := ofNat_peek_eq_iff (s := openedAt s p) 0#2
  rw [Bool.eq_iff_iff, bne_iff_ne, bne_iff_ne]
  exact not_congr absent

/-- R113: BEGIN_FRAME up to the primary header. -/
theorem beginFrameOp_primary (matched : fsMatch s.mem s.args.bufAddr s.args.bufLen = some p)
    (admitted : viewAdmitted s.args.bufAddr p = true) (inRange : HeaderInRange s.rom (openBits s p))
    (lfe : openBits s p 85 2 ≠ 3) (chosen : dmxSelect s.rom (openBits s p 60 6) s.args.flags
      (numLoad s.rom.sampleKind s.args.level) s.rom.clev s.rom.slev = some (out, lvl))
    (idle : s.hook = 0#32 ∨ openBits s p 76 1 = 0) :
    beginFrameOp s = (do fdPrimhdrOp; startFrame) (outputSelected s p out lvl) :=
  (beginFrameOp_opened matched admitted).trans (openedOp_idle (s := openedAt s p) inRange lfe chosen idle)

/-- R113, R118: an accepted primary header. -/
theorem primary_accepted (accepted : PrimaryAccepted (primaryBits s p)) :
    (do fdPrimhdrOp; startFrame) (outputSelected s p out lvl) = startFrame (primaryRead (outputSelected s p out lvl)) := by
  rw [← peek_outputSelected (out := out) (lvl := lvl)] at accepted
  exact op_bind_ok (fdPrimhdrOp_accepted accepted)

end Opened

/-! ### O33: a frame that opens -/

section Accepts

variable {s : State} {p : Packing} {a out : Arrangement} {lvl : Num}

/-- R113: the state in which BEGIN_FRAME on a frame that opens ends. -/
def frameOpened (s : State) (p : Packing) (out : Arrangement) (lvl : Num) : State :=
  started (primaryRead (outputSelected s p out lvl))

theorem beginFrameOp_frameOpened (opens : FrameOpens s p a out lvl) : beginFrameOp s = .ok () (frameOpened s p out lvl) := by
  obtain ⟨-, -, matched, admitted, inRange, lfe, chosen, idle, accepted, arrangement, channels⟩ := opens
  rw [beginFrameOp_primary matched admitted inRange lfe chosen idle, primary_accepted accepted]
  have amode : arrangementOf (outputSelected s p out lvl).sh.amode.toNat = some a := by
    rw [outputSelected_amode, arrangement]
  have count : primCount (primaryRead (outputSelected s p out lvl)) = nchOf s.rom a := by
    rw [primCount_primaryRead, peek_outputSelected, channels]
  exact startFrame_starts (s := primaryRead (outputSelected s p out lvl)) amode count

theorem frameOpened_bc : (frameOpened s p out lvl).bc = advanceCursor s.mem (cursorInit s.args.bufAddr s.args.bufLen p)
    (headerLength (openBits s p) + phLength (primaryBits s p) (16 * openBits s p 38 1)) := by
  have cursor : (frameOpened s p out lvl).bc = after (outputSelected s p out lvl) (phLength (peek (outputSelected s p out lvl))
    (if (outputSelected s p out lvl).sh.crcPresent = 1#1 then 16 else 0)) := rfl
  rw [cursor, peek_outputSelected, outputSelected_crc]
  exact after_after (s := openedAt s p) (t := outputSelected s p out lvl) (n := headerLength (openBits s p)) rfl rfl _

theorem frameOpened_sh : (frameOpened s p out lvl).sh
    = { Safety.headerAt (openBits s p) s.sh with
        subframes := BitVec.ofNat 5 (primaryBits s p 0 4 + 1), totalChannels := BitVec.ofNat 4 (phCount (primaryBits s p))
        primChannels := BitVec.ofNat 4 (phCount (primaryBits s p)) } := by
  have counted := countedHeader_peek (outputSelected s p out lvl) (Safety.headerAt (openBits s p) s.sh)
  rw [peek_outputSelected] at counted
  exact (congrArg (fun b => countedHeader b _) peek_outputSelected).trans counted

theorem frameOpened_fr : (frameOpened s p out lvl).fr
    = { output := out, outputLfe := openBits s p 85 2 != 0 && s.args.flags.getLsbD 7
        bias := numLoad s.rom.sampleKind s.args.bias, level := lvl, clev := s.rom.clev, slev := s.rom.slev
        blocksTotal := BitVec.ofNat 32 ((openBits s p 39 7 + 1) / 8), blocksDone := 0#32 } := by
  rw [← headerRead_lfe, ← outputSelected_sampleBlocks (out := out) (lvl := lvl)]
  rfl

theorem frameOpened_args : (frameOpened s p out lvl).args
    = { s.args with
        flags := flagsWord (arrangementCode out) (openBits s p 85 2 != 0 && s.args.flags.getLsbD 7)
        level := numStore s.rom.sampleKind lvl } := by
  rw [← headerRead_lfe]
  rfl

theorem frameOpened_loaded : ChannelsLoaded s.rom (primaryBits s p) s.chF (frameOpened s p out lvl).chF := by
  have loaded := channelsLoaded (outputSelected s p out lvl)
  rw [peek_outputSelected] at loaded
  exact loaded

end Accepts

/-- Settles O33: the operation ends in `frameOpened`, register by register. -/
theorem beginFrameAccepts : Obligations.BeginFrameAccepts := by
  intro s p a out lvl ready opens
  refine ⟨setCode .ok (frameOpened s p out lvl), ?_, frameOpened_loaded, ?_⟩
  · rw [exec_beginFrame, beginFrameCmd_required ready opens.1 opens.2.1, beginFrameOp_frameOpened opens]
    rfl
  · rw [← frameOpened_bc (out := out) (lvl := lvl), ← frameOpened_sh (out := out) (lvl := lvl), ← frameOpened_fr,
      ← frameOpened_args]
    rfl

/-! ### O35: a frame that does not open -/

/-- 60_exceptions.md R262 to R266: BEGIN_FRAME answers with `code` and the frame aborted, and changes nothing but the parse state,
`ARG_FLAGS` and `ARG_LEVEL`. -/
def BeginFails (s : State) (code : Code) : Prop :=
  ∃ t, exec .beginFrame s = .next t ∧ t.seq.frame = .aborted
    ∧ t = { s with
      bc := t.bc, sh := t.sh, chF := t.chF, fr := t.fr, seq := t.seq
      args := { s.args with flags := t.args.flags, level := t.args.level }, code := code, free := t.free }

/-- The first number with a property. -/
theorem exists_first {P : Nat → Prop} (h : ∃ c, P c) : ∃ c, P c ∧ ∀ d, d < c → ¬ P d := by
  classical
  exact ⟨Nat.find h, Nat.find_spec h, fun _ => Nat.find_min h⟩

section Primary

variable {s : State}

/-- R129: a VQ start past its activity count stops the primary header. -/
theorem fdPrimhdrOp_corrupt (bad : ¬ ∀ c, c < phCount (peek s) → phVqStart (peek s) c ≤ phActivity (peek s) c) :
    ∃ l u, fdPrimhdrOp s = .error (.raise .corruptStream l) u := by
  have some_channel : ∃ c, c < phCount (peek s) ∧ phActivity (peek s) c < phVqStart (peek s) c := by
    by_contra none
    exact bad fun c hc => Nat.le_of_not_lt fun past => none ⟨c, hc, past⟩
  obtain ⟨c, ⟨inside, past⟩, first⟩ := exists_first some_channel
  exact ⟨_, _, fdPrimhdrOp_vqStart inside past fun d hd =>
    Nat.le_of_not_lt fun earlier => first d hd ⟨Nat.lt_trans hd inside, earlier⟩⟩

/-- R120: behind VQ starts in range, a BHUFF of 7 stops it. -/
theorem fdPrimhdrOp_malformed (starts : ∀ c, c < phCount (peek s) → phVqStart (peek s) c ≤ phActivity (peek s) c)
    (bad : ∃ c, c < phCount (peek s) ∧ phBhuff (peek s) c = 7) :
    ∃ l u, fdPrimhdrOp s = .error (.raise .malformedHeader l) u := by
  obtain ⟨c, ⟨inside, seven⟩, first⟩ := exists_first bad
  exact ⟨_, _, fdPrimhdrOp_bhuff starts inside seven fun d hd earlier => first d hd ⟨Nat.lt_trans hd inside, earlier⟩⟩

end Primary

section Fails

variable {s t : State} {p : Packing} {c : Code} {l : Label} {r : Refusal} {u : State}

/-- 48_downmix.md R236: DMX.SELECT answers wherever the table has an arrangement. -/
theorem dmxSelect_of_selectedOf {r : Rom} {n : Nat} {flags : Word32} {level clev slev : Num}
    (chosen : selectedOf r (flagsArr flags) n ≠ none) :
    ∃ out lvl, dmxSelect r n flags level clev slev = some (out, lvl) := by
  obtain ⟨out0, found⟩ := Option.ne_none_iff_exists'.1 chosen
  rw [dmxSelect_eq, found]
  exact ⟨_, _, rfl⟩

/-- R125: the flag is one bit. -/
theorem idle_of_not_hooked (free : ¬ (s.hook ≠ 0#32 ∧ openBits s p 76 1 = 1)) : s.hook = 0#32 ∨ openBits s p 76 1 = 0 := by
  have bit : openBits s p 76 1 < 2 ^ 1 := bitsFrom_lt _ 76 1
  by_cases hook : s.hook = 0#32
  · exact .inl hook
  · have clear : ¬ openBits s p 76 1 = 1 := fun one => free ⟨hook, one⟩
    exact .inr (by omega)

variable (ready : s.life = .ready) (addr : s.args.bufAddr ≠ 0#32) (len : s.args.bufLen ≠ 0#32)

include ready addr len

/-- R260, R113: an error of the operation is the failure of the command. -/
theorem beginFails_of_raise (run : beginFrameOp s = .error (.raise c l) u) : BeginFails s c := by
  have answers : exec .beginFrame s = .next (forgetFrame (takeError c u)) := by
    rw [exec_beginFrame, beginFrameCmd_required ready addr len, run]
    rfl
  exact ⟨_, answers, rfl, eq_of_withoutFrame (beginFrameCmd_frame answers)⟩

theorem beginFrame_refused (run : beginFrameOp s = .error (.refuse r) u) : exec .beginFrame s = .refused r := by
  rw [exec_beginFrame, beginFrameCmd_required ready addr len, run]
  rfl

/-- R113: the frame is active exactly when the code is OK. -/
theorem beginFrame_active_iff (h : exec .beginFrame s = .next t) :
    (t.code = .ok ∧ t.seq.frame = .active) ∨ (t.code ≠ .ok ∧ t.seq.frame = .aborted) := by
  rw [exec_beginFrame, beginFrameCmd_required ready addr len] at h
  cases run : beginFrameOp s with
  | ok a u =>
    rw [run] at h
    cases h
    exact .inl ⟨rfl, congrArg Sequencer.frame (beginFrame_accepts s trivial a u run).2⟩
  | error e u =>
    rw [run] at h
    cases e with
    | raise c l =>
      cases h
      exact .inr ⟨fun ok => beginFrame_stopsIn_notOk s _ u run l (congrArg (Stop.raise · l) ok), rfl⟩
    | refuse r => cases h

section Matched

variable (matched : fsMatch s.mem s.args.bufAddr s.args.bufLen = some p) (admitted : viewAdmitted s.args.bufAddr p = true)

include matched admitted

/-- R115, R116: a fixed header that FD.HEADER rejects. -/
theorem beginFails_header (bad : ¬ (HeaderInRange s.rom (openBits s p) ∧ openBits s p 85 2 ≠ 3)) :
    BeginFails s .malformedHeader := by
  obtain ⟨l, u, raised⟩ := fdHeaderOp_rejects (s := openedAt s p) bad
  exact beginFails_of_raise ready addr len ((beginFrameOp_opened matched admitted).trans (op_bind_error raised))

variable (headerOk : HeaderInRange s.rom (openBits s p) ∧ openBits s p 85 2 ≠ 3)

include headerOk

/-- R265: a request that the table does not hold. -/
theorem beginFails_arrangement (unsupported : selectedOf s.rom (flagsArr s.args.flags) (openBits s p 60 6) = none) :
    BeginFails s .unsupportedChannelArrangement :=
  beginFails_of_raise ready addr len ((beginFrameOp_opened matched admitted).trans
    (openedOp_unsupported (s := openedAt s p) headerOk.1 headerOk.2 unsupported))

variable (chosen : selectedOf s.rom (flagsArr s.args.flags) (openBits s p 60 6) ≠ none)

include chosen

/-- 93_implementation_defined.md U6. -/
theorem beginFrame_hooked (hooked : s.hook ≠ 0#32 ∧ openBits s p 76 1 = 1) : exec .beginFrame s = .refused .drcHook := by
  obtain ⟨out, lvl, found⟩ := dmxSelect_of_selectedOf (level := numLoad s.rom.sampleKind s.args.level) (clev := s.rom.clev)
    (slev := s.rom.slev) chosen
  exact beginFrame_refused ready addr len ((beginFrameOp_opened matched admitted).trans
    (openedOp_hooked (s := openedAt s p) headerOk.1 headerOk.2 found hooked.1 hooked.2))

variable (free : ¬ (s.hook ≠ 0#32 ∧ openBits s p 76 1 = 1))

include free

omit ready addr len in
/-- R113: the primary header is read behind a supported arrangement. -/
theorem beginFrame_reaches_primary :
    ∃ out lvl, beginFrameOp s = (do fdPrimhdrOp; startFrame) (outputSelected s p out lvl) := by
  obtain ⟨out, lvl, found⟩ := dmxSelect_of_selectedOf (level := numLoad s.rom.sampleKind s.args.level) (clev := s.rom.clev)
    (slev := s.rom.slev) chosen
  exact ⟨out, lvl, beginFrameOp_primary matched admitted headerOk.1 headerOk.2 found (idle_of_not_hooked free)⟩

/-- R129. -/
theorem beginFails_vqStart
    (bad : ¬ ∀ c, c < phCount (primaryBits s p) → phVqStart (primaryBits s p) c ≤ phActivity (primaryBits s p) c) :
    BeginFails s .corruptStream := by
  obtain ⟨out, lvl, reached⟩ := beginFrame_reaches_primary matched admitted headerOk chosen free
  rw [← peek_outputSelected (out := out) (lvl := lvl)] at bad
  obtain ⟨l, u, raised⟩ := fdPrimhdrOp_corrupt bad
  exact beginFails_of_raise ready addr len (reached.trans (op_bind_error raised))

/-- R120. -/
theorem beginFails_bhuff
    (starts : ∀ c, c < phCount (primaryBits s p) → phVqStart (primaryBits s p) c ≤ phActivity (primaryBits s p) c)
    (bad : ∃ c, c < phCount (primaryBits s p) ∧ phBhuff (primaryBits s p) c = 7) : BeginFails s .malformedHeader := by
  obtain ⟨out, lvl, reached⟩ := beginFrame_reaches_primary matched admitted headerOk chosen free
  rw [← peek_outputSelected (out := out) (lvl := lvl)] at starts bad
  obtain ⟨l, u, raised⟩ := fdPrimhdrOp_malformed starts bad
  exact beginFails_of_raise ready addr len (reached.trans (op_bind_error raised))

/-- R128. -/
theorem beginFails_channels (accepted : PrimaryAccepted (primaryBits s p))
    (other : ∀ a, arrangementOf (openBits s p 60 6) = some a → phCount (primaryBits s p) ≠ nchOf s.rom a) :
    BeginFails s .malformedHeader := by
  obtain ⟨out, lvl, reached⟩ := beginFrame_reaches_primary matched admitted headerOk chosen free
  rw [primary_accepted accepted] at reached
  refine beginFails_of_raise ready addr len (reached.trans (startFrame_raises fun a arrangement => ?_))
  rw [primCount_primaryRead, peek_outputSelected]
  exact other a ((congrArg arrangementOf (outputSelected_amode (out := out) (lvl := lvl))).symm.trans arrangement)

end Matched

end Fails

/-- Settles O35: one lemma for each place of R266's order, and the two facts that hold of any outcome. -/
theorem beginFrameFailsInOrder : Obligations.BeginFrameFailsInOrder := by
  intro s ready addr len
  refine ⟨fun t h => ?_, fun unmatched => beginFails_of_raise ready addr len (beginFrameOp_unmatched unmatched),
    fun p matched => ⟨fun misaligned => beginFrame_refused ready addr len (beginFrameOp_misaligned matched misaligned),
      fun admitted => ⟨beginFails_header ready addr len matched admitted,
        beginFails_arrangement ready addr len matched admitted,
        beginFrame_hooked ready addr len matched admitted,
        beginFails_vqStart ready addr len matched admitted,
        beginFails_bhuff ready addr len matched admitted,
        beginFails_channels ready addr len matched admitted⟩⟩⟩
  have active := beginFrame_active_iff ready addr len h
  rw [eq_of_withoutFrame (beginFrameCmd_frame h)]
  exact ⟨rfl, rfl, rfl, rfl, active⟩

end Sys2Proof.Proofs
end
